-- ==== Sys2Proof/Word.lean ====
section
/-! DEFINITION. The word types of the machine and their plainest arithmetic (spec/00_scope.md R1). -/

namespace Sys2Proof

/-- A 64-bit register value (spec/04 R88). -/
abbrev Word := BitVec 64

/-- One byte. -/
abbrev Byte := BitVec 8

/-- A program counter or global virtual address of 56 bits (spec/01 R11). -/
abbrev Pc := BitVec 56

end Sys2Proof
end

