-- ==== Sys2Proof/Machine/Float.lean ====
section
/-! DEFINITION. Floating point (spec/00 R4, spec/03 R63-R66): exact values, and their rounding to FP32 and BF16.
Every operation is formed on exact values and rounded once. -/

namespace Sys2Proof.Machine

/-- An exact value: a NaN, an infinity, or `± m * 2^e`, where a zero keeps its sign (R65, R73). -/
inductive Exact | nan | inf (neg : Bool) | num (neg : Bool) (m : Nat) (e : Int)
deriving DecidableEq, Repr

/-- A binary format: its precision in bits, and the exponent of its smallest unit. -/
structure Format where
  prec : Nat
  emin : Int
deriving DecidableEq, Repr

/-- FP32 and BF16 (R63). -/
def fp32 : Format := ⟨24, -149⟩
def bf16 : Format := ⟨8, -133⟩

/-- The number of fraction bits, the bits of the infinity, the sign bit and the canonical NaN (R64). -/
def Format.frac (f : Format) : Nat := f.prec - 1
def Format.infBits (f : Format) : Nat := 255 * 2 ^ f.frac
def Format.signBit (f : Format) : Nat := 2 ^ (f.frac + 8)
def Format.nanBits (f : Format) : Nat := f.infBits + 2 ^ (f.frac - 1)

/-- The exact value of a bit pattern (R63). -/
def Format.decode (f : Format) (bits : Nat) : Exact :=
  let neg := bits / f.signBit % 2 = 1
  let ex := bits / 2 ^ f.frac % 256
  let fr := bits % 2 ^ f.frac
  if ex = 255 then (if fr = 0 then .inf neg else .nan)
  else if ex = 0 then .num neg fr f.emin
  else .num neg (fr + 2 ^ f.frac) (f.emin + (ex - 1 : Nat))

/-- The bits of a sign and a magnitude. -/
def Format.signed (f : Format) (neg : Bool) (mag : Nat) : Nat := (if neg then f.signBit else 0) + mag

/-- Round to nearest, ties to even, the magnitude `m * 2^e`, or a value strictly between it and `(m + 1) * 2^e` when
`more` is set (R4). A value with `more` set must have more bits than the format. -/
def Format.roundMag (f : Format) (m : Nat) (e : Int) (more : Bool) : Nat :=
  if m = 0 then 0
  else
    let q := max (e + (m.log2 + 1 : Nat) - f.prec) f.emin
    let r :=
      if q ≤ e then m * 2 ^ (e - q).toNat
      else
        let sh := (q - e).toNat
        let low := m % 2 ^ sh
        let half := 2 ^ (sh - 1)
        let up := half < low || (low == half && (more || m / 2 ^ sh % 2 == 1))
        m / 2 ^ sh + up.toNat
    min ((q - f.emin).toNat * 2 ^ f.frac + r) f.infBits

/-- RN of an exact value to a format (R4); a NaN gives the canonical NaN (R64). -/
def Format.round (f : Format) : Exact → Nat
  | .nan => f.nanBits
  | .inf neg => f.signed neg f.infBits
  | .num neg m e => f.signed neg (f.roundMag m e false)

/-! ### Exact arithmetic (R65) -/

def Exact.neg : Exact → Exact
  | .nan => .nan
  | .inf n => .inf !n
  | .num n m e => .num (!n) m e

def Exact.abs : Exact → Exact
  | .nan => .nan
  | .inf _ => .inf false
  | .num _ m e => .num false m e

/-- The signed mantissa at a lower exponent. -/
def mantAt (neg : Bool) (m : Nat) (e low : Int) : Int :=
  let v : Int := (m * 2 ^ (e - low).toNat : Nat)
  if neg then -v else v

/-- An exact sum; a zero sum is +0 unless both addends are negative zeros. -/
def Exact.add : Exact → Exact → Exact
  | .nan, _ | _, .nan => .nan
  | .inf a, .inf b => if a = b then .inf a else .nan
  | .inf a, .num .. => .inf a
  | .num .., .inf b => .inf b
  | .num na ma ea, .num nb mb eb =>
    let e := min ea eb
    let v := mantAt na ma ea e + mantAt nb mb eb e
    if v = 0 then .num (ma = 0 && mb = 0 && na && nb) 0 e else .num (v < 0) v.natAbs e

def Exact.sub (a b : Exact) : Exact := a.add b.neg

def Exact.isZero : Exact → Bool
  | .num _ 0 _ => true
  | _ => false

def Exact.isNeg : Exact → Bool
  | .nan => false
  | .inf n => n
  | .num n _ _ => n

def Exact.isNan : Exact → Bool
  | .nan => true
  | _ => false

def Exact.isInf : Exact → Bool
  | .inf _ => true
  | _ => false

def Exact.mul : Exact → Exact → Exact
  | .nan, _ | _, .nan => .nan
  | .inf a, b => if b.isZero then .nan else .inf (a != b.isNeg)
  | a, .inf b => if a.isZero then .nan else .inf (a.isNeg != b)
  | .num na ma ea, .num nb mb eb => .num (na != nb) (ma * mb) (ea + eb)

/-- a × b + c, exact (R65). -/
def Exact.fma (a b c : Exact) : Exact := (a.mul b).add c

/-- An integer as an exact value; zero is +0. -/
def Exact.ofInt (v : Int) : Exact := .num (v < 0) v.natAbs 0

/-- How two values compare; nothing for a NaN. Zeros compare equal (R66). -/
def Exact.compare : Exact → Exact → Option Ordering
  | .nan, _ | _, .nan => none
  | .inf a, .inf b => some (if a = b then .eq else if a then .lt else .gt)
  | .inf a, .num .. => some (if a then .lt else .gt)
  | .num .., .inf b => some (if b then .gt else .lt)
  | .num na ma ea, .num nb mb eb =>
    let e := min ea eb
    some (Ord.compare (mantAt na ma ea e) (mantAt nb mb eb e))

/-- Minimum and maximum: a NaN when either is one, and -0 below +0 (R66). -/
def Exact.min (a b : Exact) : Exact :=
  match a.compare b with
  | none => .nan
  | some .lt => a
  | some .gt => b
  | some .eq => if a.isNeg then a else b

def Exact.max (a b : Exact) : Exact :=
  match a.compare b with
  | none => .nan
  | some .lt => b
  | some .gt => a
  | some .eq => if a.isNeg then b else a

/-- RNE: the nearest integer to `m * 2^e`, ties to even (R4). -/
def rneMag (m : Nat) (e : Int) : Nat :=
  if 0 ≤ e then m * 2 ^ e.toNat
  else
    let sh := (-e).toNat
    let low := m % 2 ^ sh
    let half := 2 ^ (sh - 1)
    let up := half < low || (low == half && m / 2 ^ sh % 2 == 1)
    m / 2 ^ sh + up.toNat

/-- RNE of a finite value. -/
def Exact.rne : Exact → Int
  | .num n m e => if n then -(rneMag m e : Int) else rneMag m e
  | _ => 0

/-- RNE, then saturated to a range; NaN gives 0 (R68). -/
def Exact.toIntSat (lo hi : Int) : Exact → Int
  | .nan => 0
  | .inf n => if n then lo else hi
  | r => Max.max lo (Min.min hi r.rne)

/-! ### Division, roots, and the functions whose value is irrational (R65) -/

/-- RN of a ÷ b. -/
def Format.div (f : Format) (a b : Exact) : Nat :=
  match a, b with
  | .nan, _ | _, .nan => f.nanBits
  | .inf _, .inf _ => f.nanBits
  | .inf n, .num nb .. => f.signed (n != nb) f.infBits
  | .num n .., .inf nb => f.signed (n != nb) 0
  | .num na ma ea, .num nb mb eb =>
    if mb = 0 then (if ma = 0 then f.nanBits else f.signed (na != nb) f.infBits)
    else if ma = 0 then f.signed (na != nb) 0
    else
      let k := f.prec + 3 + mb.log2 - ma.log2
      let num := ma * 2 ^ k
      f.signed (na != nb) (f.roundMag (num / mb) (ea - eb - k) (num % mb != 0))

/-- The integer square root, bit by bit from bit `k` down. -/
def isqrtFrom (n : Nat) : Nat → Nat → Nat
  | 0, r => if (r + 1) * (r + 1) ≤ n then r + 1 else r
  | k + 1, r => isqrtFrom n k (if (r + 2 ^ (k + 1)) * (r + 2 ^ (k + 1)) ≤ n then r + 2 ^ (k + 1) else r)

def isqrt (n : Nat) : Nat := isqrtFrom n (n.log2 / 2 + 1) 0

/-- RN of √a. -/
def Format.sqrt (f : Format) : Exact → Nat
  | .nan => f.nanBits
  | .inf n => if n then f.nanBits else f.infBits
  | .num n m e =>
    if m = 0 then f.signed n 0
    else if n then f.nanBits
    else
      let s := 2 * f.prec + 6
      let s := if (e - s) % 2 = 0 then s else s + 1
      let v := m * 2 ^ s
      let r := isqrt v
      f.roundMag r ((e - s) / 2) (r * r != v)

/-- RN of 1 ÷ √a. -/
def Format.rsqrt (f : Format) : Exact → Nat
  | .nan => f.nanBits
  | .inf n => if n then f.nanBits else 0
  | .num n m e =>
    if m = 0 then f.signed n f.infBits
    else if n then f.nanBits
    else
      let m := if e % 2 = 0 then m else 2 * m
      let e := if e % 2 = 0 then e else e - 1
      let k := f.prec + 4 + m.log2
      let q := 2 ^ (2 * k) / m
      let r := isqrt q
      f.roundMag r (-k - e / 2) (r * r != q || 2 ^ (2 * k) % m != 0)

/-- RN of 1 ÷ a. -/
def Format.rcp (f : Format) (a : Exact) : Nat := f.div (.num false 1 0) a

/-- Bounds of 2^(0.b1 b2 …) scaled by 2^n: for each bit of the fraction from the highest on, with the bounds of the
root 2^(2^-i) at that bit. -/
def exp2Bits (n : Nat) (frac : Nat) : Nat → Nat × Nat → Nat × Nat → Nat × Nat
  | 0, _, acc => (acc.1, acc.2 + acc.2 / 2 ^ (n - 1) + 1)
  | k + 1, root, acc =>
    let root' := (isqrt (root.1 * 2 ^ n), isqrt (root.2 * 2 ^ n) + 1)
    let acc' := if frac / 2 ^ k % 2 = 1 then (acc.1 * root'.1 / 2 ^ n, acc.2 * root'.2 / 2 ^ n + 1) else acc
    exp2Bits n frac k root' acc'

/-- Round a value that lies strictly between two bounds, when both bounds round alike. -/
def Format.between (f : Format) (lo hi : Nat) (e : Int) : Option Nat :=
  let a := f.roundMag lo e true
  if f.prec + 2 ≤ lo.log2 ∧ a = f.roundMag (hi - 1) e true then some a else none

/-- 2^(q + frac / 2^n) rounded, for growing precisions `n` (notes/assumptions/13.md). `num` is the numerator of the
fraction over 2^d. -/
def Format.exp2Search (f : Format) (q : Int) (num d : Nat) : Nat → Nat → Nat
  | 0, _ => f.roundMag (2 ^ 64) (q - 64) true
  | fuel + 1, n =>
    let frac := if d ≤ n then num * 2 ^ (n - d) else num / 2 ^ (d - n)
    let b := exp2Bits n frac n (2 * 2 ^ n, 2 * 2 ^ n) (2 ^ n, 2 ^ n)
    match f.between b.1 b.2 (q - n) with
    | some r => r
    | none => f.exp2Search q num d fuel (2 * n)

/-- RN of 2^a. -/
def Format.exp2 (f : Format) : Exact → Nat
  | .nan => f.nanBits
  | .inf n => if n then 0 else f.infBits
  | .num n m e =>
    let v := mantAt n m e (Min.min e 0)
    let d := (-e).toNat
    let q := v / 2 ^ d
    if 128 ≤ q then f.infBits
    else if q < -160 then 0
    else
      let fr := (v % 2 ^ d).toNat
      if fr = 0 then f.roundMag 1 q false else f.exp2Search q fr d 5 64

/-- The next `k` bits of log2 of a value in [1, 2) given by bounds scaled by 2^w; nothing when the bounds do not
decide a bit. -/
def log2Bits (w : Nat) : Nat → Nat × Nat → Nat → Option Nat
  | 0, _, acc => some acc
  | k + 1, (lo, hi), acc =>
    let lo := lo * lo / 2 ^ w
    let hi := hi * hi / 2 ^ w + 1
    if hi < 2 * 2 ^ w then log2Bits w k (lo, hi) (2 * acc)
    else if 2 * 2 ^ w ≤ lo then log2Bits w k (lo / 2, hi / 2 + 1) (2 * acc + 1)
    else none

/-- log2 of `m * 2^e`, not a power of two, rounded, for growing precisions (notes/assumptions/13.md). -/
def Format.log2Search (f : Format) (m : Nat) (e : Int) : Nat → Nat → Nat
  | 0, _ => f.round (.num (decide (e + m.log2 < 0)) (e + m.log2).natAbs 0)
  | fuel + 1, n =>
    let w := 2 * n + 16
    let y := m * 2 ^ w / 2 ^ m.log2
    let hi := if m * 2 ^ w % 2 ^ m.log2 = 0 then y else y + 1
    let got := (log2Bits w n (y, hi) 0).bind fun bits =>
      let t : Int := (e + m.log2) * 2 ^ n + bits
      if 0 ≤ t then (f.between t.toNat (t.toNat + 1) (-n)).map (f.signed false)
      else (f.between (t.natAbs - 1) t.natAbs (-n)).map (f.signed true)
    match got with
    | some r => r
    | none => f.log2Search m e fuel (2 * n)

/-- RN of log2 a. -/
def Format.log2 (f : Format) : Exact → Nat
  | .nan => f.nanBits
  | .inf n => if n then f.nanBits else f.infBits
  | .num n m e =>
    if m = 0 then f.signed true f.infBits
    else if n then f.nanBits
    else if 2 ^ m.log2 = m then f.round (.ofInt (e + m.log2))
    else f.log2Search m e 5 96

end Sys2Proof.Machine
end

