-- ==== Sys2Proof/Config.lean ====
section
/-! DEFINITION. The free values: constants without a body, so that no proof can rest on what they are. Each is
applied to the number of the step in which it is drawn and to what it is drawn for (notes/assumptions/4.md). -/

namespace Sys2Proof

/-- Contents the spec leaves undefined (spec/00 R6): the bits of element `i` of a register file's register `reg`
that became undefined in step `tick` (R14, R15, R19, R41, R116, R294). -/
opaque Config.freeElem (tick reg i : Nat) : BitVec 64

/-- The bits of mask register `m` that became undefined in step `tick` (R16, R41). -/
opaque Config.freeMask (tick m : Nat) : Nat

/-- A memory byte the spec leaves undefined, at location `loc`, in step `tick` (R6, R191, R196, R199). -/
opaque Config.freeByte (tick loc : Nat) : BitVec 8

/-- Core cycles that pass in step `tick` beyond the one every step takes (spec/01 R35 gives no figures). -/
opaque Config.freeElapsed (tick : Nat) : Nat

/-- Which of the entry in memory and the cached entries that differ from it a walk in step `tick` uses, at the level that
indexes the bits of `va` from `shift` on (R313). -/
opaque Config.freeTlbUse (tick va shift : Nat) : Nat

/-- Which of the words that stood at `loc` since the last ISYNC a fetch in step `tick` takes (R265). -/
opaque Config.freeFetch (tick loc : Nat) : Nat

/-- How many nanoseconds the flits in flight on the lanes of a strait that turn take to drain, in a turn that begins in
step `tick` (R245, R329): strait 0-15 of an isle, 16-19 of the ring. -/
opaque Config.freeDrain (tick strait : Nat) : Nat

/-- How many nanoseconds the requests to a channel or a row of it are held by a recovery that begins in step `tick`: about
2 µs while the remap table of a channel is read again, and as long as the copy of a retired row takes (R278). -/
opaque Config.freeHold (tick channel : Nat) : Nat

/-- The energy in microjoules that the activity model gives in step `tick` (R342): of core `core` and its SRAM while it
hosted launch `task` of `job`; of abacus `a` for the MXMs of a launch, and for the null operations that the launch is charged
with; of HBM, straits, shoals and CXL for all bytes that launches moved; and of an isle at idle. -/
opaque Config.coreEnergy (tick core job task : Nat) : Nat
opaque Config.mxmEnergy (tick a job task : Nat) : Nat
opaque Config.nullEnergy (tick a job task : Nat) : Nat
opaque Config.moveEnergy (tick : Nat) : Nat
opaque Config.idleEnergy (tick isle : Nat) : Nat

/-- The guardband consumed of an isle in percent, and the predicted months to end of life, of an hourly update in step
`tick` (R343), and a package temperature that the sideband reads (R352). -/
opaque Config.freeGuardband (tick isle : Nat) : Nat
opaque Config.freeEolmonths (tick : Nat) : BitVec 64
opaque Config.freeTemperature (tick sensor : Nat) : Nat

/-- How many package temperature sensors there are (R352). -/
opaque Config.sensors : Nat

/-- The silicon revision (R331). -/
opaque Config.revision : BitVec 8

/-- The boot ROM of shoal 0 (R344, R346). -/
opaque Config.bootRom : List (BitVec 8)

/-- The ECDSA signature of the device over an SPDM response (R330). -/
opaque Config.spdmSignature (response : List (BitVec 384)) : BitVec 768

/-- A decision of the power arbiter in step `tick` under a package limit in watts (R338). -/
opaque Config.freePlan (tick limit i : Nat) : Nat

end Sys2Proof
end

