-- ==== Sys2Proof/Syntax.lean ====
section
/-! DEFINITION. The instructions (spec/02 R43-R53, spec/opcode_table.json): one constructor per row of the opcode
table, the operations and events without an encoding among them, and the types of their operands. -/

namespace Sys2Proof

/-- A scalar register field, S0-S31 (R48). -/
abbrev Reg := BitVec 5

/-- A vector register field, V0-V63 (R48). -/
abbrev VecNo := BitVec 6

/-- A mask register field, M0-M7 (R48). -/
abbrev MaskNo := BitVec 3

/-- A stream 0-7 (R24). -/
abbrev Stream := BitVec 3

/-- The number of a context: bits 11:0 of its CTXID (R36). -/
abbrev CtxNo := BitVec 12

/-- The operand types of a scratchpad operand of MXM: the codes 00, 01 and 10 of tA and tB (R212). -/
inductive MxType | d8 | d4 | bf16
deriving DecidableEq, Repr

/-- An operand of MXM: a vector register, or a pair of scalar registers that names scratchpad rows (R212, R215). -/
inductive MxOperand
  | vec (v : VecNo)
  | spad (s0 s1 : Reg) (t : MxType)
deriving DecidableEq, Repr

/-- One held VAMOFADD update on its way to an MSU: the launch it belongs to, the physical and virtual address of
its target word, its issuer key and its FP32 bits (R184). -/
structure HeldUpdate where
  job : Nat
  task : Nat
  loc : Nat
  va : Word
  key : BitVec 64
  bits : BitVec 32
  pc : Word
  who : CtxNo
deriving DecidableEq, Repr

/-- One access of an MSU to memory (R271): where, what is written (nothing for a read), and whether the page
allows zero-elision writes. -/
structure LineAccess where
  loc : Nat
  data : List Byte
  write : Bool
  zel : Bool
deriving DecidableEq, Repr

/-- What the power arbiter decides for the next interval (R338): a throttle step per isle, a byte budget per
channel, and a split per ring strait. -/
structure ArbiterPlan where
  steps : List (BitVec 3)
  budgets : List Nat
  ringSplits : List (BitVec 3)
deriving DecidableEq, Repr

/-- A queue of request headers at the port of an isle (R323): that of a shoal 0-3, or of the crossbar of the isle (4). -/
structure HeaderQueue where
  isle : BitVec 4
  dest : Nat
deriving DecidableEq, Repr

/-- What a request from outside names: the exposed interleaved region, over CXL.mem (R333); the host's own memory, which
the host alone writes (R332, R334); or the register space of BAR 0, over CXL.io (R331). -/
inductive OutsideSpace | hbm | host | registers
deriving DecidableEq, Repr

/-- An access of the host or of a peer (R333, R336). A read names its length by the length of `data`. -/
structure OutsideAccess where
  space : OutsideSpace
  addr : Nat
  write : Bool
  data : List Byte
  sysCoherent : Bool
deriving DecidableEq, Repr

/-- The two kinds of message that reach the DOE mailbox (R330): SPDM, and a piece of firmware. -/
inductive DoeRequest | spdm (index : Nat) | firmware
deriving DecidableEq, Repr

/-- The firmware image of a start (R345, R350, R351): the header values of the resident control program; the bytes of the
program's image with the locations of device memory they are placed at; what else the body holds; the public keys and the
signatures. -/
structure FirmwareImage where
  entry : BitVec 64
  ptbase : BitVec 64
  part : BitVec 64
  param : BitVec 64
  program : List (Nat × Byte)
  rest : List Byte
  lmsKey : List Byte
  lmsSignature : List Byte
  ecdsaKey : List Byte
  ecdsaSignature : List Byte
deriving DecidableEq, Repr

/-- What the fuses hold (R345, R346): the SHA-384 hash of each public key, the other fuse values, and the LMS leaf
indices that were used. -/
structure Fuses where
  lmsHash : BitVec 384
  ecdsaHash : BitVec 384
  values : BitVec 384
  usedLeaves : List Nat
deriving DecidableEq, Repr

/-- What training finds at a tier or peer port (R335). -/
inductive PortPartner | none | tier (units : BitVec 40) | peer | other (up : Bool)
deriving DecidableEq, Repr

/-- Why a step of a start fails (R344, R345): a key that does not match its hash, a used leaf, a signature that does not
verify, the time-out of step 3, or a cause of the hardware by its code. -/
inductive StartCause | lmsKey | lmsLeaf | lmsSignature | ecdsaKey | ecdsaSignature | timeout | hardware (code : Nat)
deriving DecidableEq, Repr

/-- What the steps of a start find (R344, R347): the step that fails for a cause outside the image, the fuse values, the
CLSIZE code that firmware sets, the port partners, which retained training data pass their checks (the coefficients of
each stack, the test pattern of each channel, and the lane map of each strait), and whether a warm start is an attempt of
the device's own (R348) and not one that the host brings about. -/
structure StartFindings where
  failedStep : Option (Nat × StartCause)
  fuses : Fuses
  clsCode : BitVec 3
  ports : List PortPartner
  coefficients : List Bool
  patterns : List Bool
  laneMaps : List Bool
  own : Bool
deriving DecidableEq, Repr

/-- The instructions of the opcode table, in its order. From `storeRelease` on stand the operations and events
that have no encoding: each is what one agent of the machine, or one outside party, does in one step. -/
inductive Instr
  | add (rd ra rb : Reg) -- R92
  | sub (rd ra rb : Reg) -- R92
  | and (rd ra rb : Reg) -- R92
  | or (rd ra rb : Reg) -- R92
  | xor (rd ra rb : Reg) -- R92
  | sll (rd ra rb : Reg) -- R92
  | srl (rd ra rb : Reg) -- R92
  | sra (rd ra rb : Reg) -- R92
  | slt (rd ra rb : Reg) -- R92
  | sltn (rd ra rb : Reg) -- R92
  | min (rd ra rb : Reg) -- R92
  | max (rd ra rb : Reg) -- R92
  | minn (rd ra rb : Reg) -- R92
  | maxn (rd ra rb : Reg) -- R92
  | mul (rd ra rb : Reg) -- R92
  | mulh (rd ra rb : Reg) -- R92
  | mulhn (rd ra rb : Reg) -- R92
  | div (rd ra rb : Reg) -- R92
  | divn (rd ra rb : Reg) -- R92
  | rem (rd ra rb : Reg) -- R92
  | remn (rd ra rb : Reg) -- R92
  | clz (rd ra : Reg) -- R92
  | popc (rd ra : Reg) -- R92
  | andn (rd ra rb : Reg) -- R92
  | addi (rd ra : Reg) (imm : BitVec 16) -- R93
  | andi (rd ra : Reg) (imm : BitVec 16) -- R93
  | ori (rd ra : Reg) (imm : BitVec 16) -- R93
  | xori (rd ra : Reg) (imm : BitVec 16) -- R93
  | slti (rd ra : Reg) (imm : BitVec 16) -- R93
  | slli (rd ra : Reg) (amount : BitVec 6) -- R94
  | srli (rd ra : Reg) (amount : BitVec 6) -- R94
  | srai (rd ra : Reg) (amount : BitVec 6) -- R94
  | li (rd : Reg) (imm : BitVec 32) -- R95
  | liHi (rd ra : Reg) (imm : BitVec 32) -- R95
  | lds (rd ra : Reg) (sz : BitVec 3) (st : Stream) (off : BitVec 10) -- R101
  | sts (rs ra : Reg) (sz : BitVec 2) (st : Stream) (off : BitVec 10) -- R101
  | ldsa (rd ra : Reg) (sz scope : BitVec 3) (off : BitVec 10) -- R105
  | stsl (rs ra : Reg) (sz : BitVec 2) (scope : BitVec 3) (off : BitVec 10) -- R106
  | amoAdd (rd ra rb : Reg) (scope : BitVec 3) (size64 : Bool) (order : BitVec 2) -- R109
  | amoAnd (rd ra rb : Reg) (scope : BitVec 3) (size64 : Bool) (order : BitVec 2) -- R109
  | amoOr (rd ra rb : Reg) (scope : BitVec 3) (size64 : Bool) (order : BitVec 2) -- R109
  | amoXor (rd ra rb : Reg) (scope : BitVec 3) (size64 : Bool) (order : BitVec 2) -- R109
  | amoMin (rd ra rb : Reg) (scope : BitVec 3) (size64 : Bool) (order : BitVec 2) -- R109
  | amoMax (rd ra rb : Reg) (scope : BitVec 3) (size64 : Bool) (order : BitVec 2) -- R109
  | amoMinn (rd ra rb : Reg) (scope : BitVec 3) (size64 : Bool) (order : BitVec 2) -- R109
  | amoMaxn (rd ra rb : Reg) (scope : BitVec 3) (size64 : Bool) (order : BitVec 2) -- R109
  | amoSwap (rd ra rb : Reg) (scope : BitVec 3) (size64 : Bool) (order : BitVec 2) -- R109
  | amoCas (rd ra rb : Reg) (scope : BitVec 3) (size64 : Bool) (order : BitVec 2) -- R109
  | amoFadd (rd ra rb : Reg) (scope : BitVec 3) (order : BitVec 2) -- R109
  | beq (ra rb : Reg) (off : BitVec 16) -- R96
  | bne (ra rb : Reg) (off : BitVec 16) -- R96
  | blt (ra rb : Reg) (off : BitVec 16) -- R96
  | bge (ra rb : Reg) (off : BitVec 16) -- R96
  | bltn (ra rb : Reg) (off : BitVec 16) -- R96
  | bgen (ra rb : Reg) (off : BitVec 16) -- R96
  | jal (off : BitVec 26) -- R97
  | jalr (rd ra : Reg) (imm : BitVec 16) -- R98
  | fadds (rd ra rb : Reg) -- R100
  | fsubs (rd ra rb : Reg) -- R100
  | fmuls (rd ra rb : Reg) -- R100
  | fdivs (rd ra rb : Reg) -- R100
  | fmins (rd ra rb : Reg) -- R100
  | fmaxs (rd ra rb : Reg) -- R100
  | ffmas (rd ra rb : Reg) -- R100
  | fsqrts (rd ra : Reg) -- R100
  | fcvtsi (rd ra : Reg) -- R100
  | fcvtis (rd ra : Reg) -- R100
  | fclts (rd ra rb : Reg) -- R100
  | fcles (rd ra rb : Reg) -- R100
  | fceqs (rd ra rb : Reg) -- R100
  | rdc (rd : Reg) (cr : BitVec 12) -- R220
  | wrc (ra : Reg) (cr : BitVec 12) -- R220
  | wrcDevstat (ra : Reg) -- R22
  | wrcPoolcfg (ra : Reg) (pool : BitVec 3) -- R273
  | wrcAsid (ra : Reg) -- R313
  | wrcFaultRing (ra : Reg) (size : Bool) -- R314
  | wrcPwrcap (ra : Reg) -- R337
  | wrcRampcfg (ra : Reg) -- R341
  | fence (kind : BitVec 2) (scope : BitVec 3) -- R221
  | sbar (mask : BitVec 8) -- R222
  | isync -- R223
  | trap (code : BitVec 12) -- R224
  | rett -- R225
  | exit -- R226
  | waitl (rd ra : Reg) (limit : BitVec 12) -- R227
  | cnvy -- R228
  | yield -- R229
  | vsave (ra : Reg) -- R307
  | vrstr (ra : Reg) -- R308
  | setvl (rd ra rb : Reg) (whole : Bool) -- R114
  | setms (space : BitVec 2) -- R115
  | vcfg (rd : Reg) (code : BitVec 2) -- R116
  | vtag (vd : VecNo) (anchor typ : BitVec 4) -- R118
  | forkl (rd : Reg) (off : BitVec 21) -- R41
  | joinl -- R42
  | vadd (vd va vb : VecNo) (mk : MaskNo) -- R126
  | vsub (vd va vb : VecNo) (mk : MaskNo) -- R126
  | vmul (vd va vb : VecNo) (mk : MaskNo) -- R126
  | vdiv (vd va vb : VecNo) (mk : MaskNo) -- R126
  | vmin (vd va vb : VecNo) (mk : MaskNo) -- R126
  | vmax (vd va vb : VecNo) (mk : MaskNo) -- R126
  | vand (vd va vb : VecNo) (mk : MaskNo) -- R126
  | vor (vd va vb : VecNo) (mk : MaskNo) -- R126
  | vxor (vd va vb : VecNo) (mk : MaskNo) -- R126
  | vsll (vd va vb : VecNo) (mk : MaskNo) -- R126
  | vsrl (vd va vb : VecNo) (mk : MaskNo) -- R126
  | vsra (vd va vb : VecNo) (mk : MaskNo) -- R126
  | vfma (vd va vb : VecNo) (mk : MaskNo) -- R126
  | vfnma (vd va vb : VecNo) (mk : MaskNo) -- R126
  | vmov (vd va : VecNo) (mk : MaskNo) -- R128
  | vcvt (vd va : VecNo) (mk : MaskNo) -- R129
  | vabs (vd va : VecNo) (mk : MaskNo) -- R126
  | vneg (vd va : VecNo) (mk : MaskNo) -- R126
  | vsqrt (vd va : VecNo) (mk : MaskNo) -- R126
  | vrsq (vd va : VecNo) (mk : MaskNo) -- R126
  | vrcp (vd va : VecNo) (mk : MaskNo) -- R126
  | vexp2 (vd va : VecNo) (mk : MaskNo) -- R126
  | vlog2 (vd va : VecNo) (mk : MaskNo) -- R126
  | vsel (vd va vb : VecNo) (mk : MaskNo) -- R143
  | vgathr (vd va vb : VecNo) (mk : MaskNo) -- R144
  | vcomp (vd va : VecNo) (mk : MaskNo) -- R145
  | vexpd (vd va : VecNo) (mk : MaskNo) -- R145
  | vscan (vd va : VecNo) (mk : MaskNo) -- R148
  | vadds (vd va : VecNo) (sb : Reg) (mk : MaskNo) -- R127
  | vsubs (vd va : VecNo) (sb : Reg) (mk : MaskNo) -- R127
  | vrsubs (vd va : VecNo) (sb : Reg) (mk : MaskNo) -- R127
  | vmuls (vd va : VecNo) (sb : Reg) (mk : MaskNo) -- R127
  | vfmas (vd va : VecNo) (sb : Reg) (mk : MaskNo) -- R127
  | vmins (vd va : VecNo) (sb : Reg) (mk : MaskNo) -- R127
  | vmaxs (vd va : VecNo) (sb : Reg) (mk : MaskNo) -- R127
  | vands (vd va : VecNo) (sb : Reg) (mk : MaskNo) -- R127
  | vors (vd va : VecNo) (sb : Reg) (mk : MaskNo) -- R127
  | vxors (vd va : VecNo) (sb : Reg) (mk : MaskNo) -- R127
  | vslls (vd va : VecNo) (sb : Reg) (mk : MaskNo) -- R127
  | vsrls (vd va : VecNo) (sb : Reg) (mk : MaskNo) -- R127
  | vsras (vd va : VecNo) (sb : Reg) (mk : MaskNo) -- R127
  | vsplat (vd : VecNo) (sb : Reg) (mk : MaskNo) -- R147
  | vslup (vd va : VecNo) (sb : Reg) (mk : MaskNo) -- R146
  | vsldn (vd va : VecNo) (sb : Reg) (mk : MaskNo) -- R146
  | vaddc (vd va : VecNo) (sb : Reg) (mk : MaskNo) -- R163
  | vcmpEq (md : MaskNo) (va vb : VecNo) (mk : MaskNo) -- R133
  | vcmpNe (md : MaskNo) (va vb : VecNo) (mk : MaskNo) -- R133
  | vcmpLt (md : MaskNo) (va vb : VecNo) (mk : MaskNo) -- R133
  | vcmpLe (md : MaskNo) (va vb : VecNo) (mk : MaskNo) -- R133
  | vcmpGt (md : MaskNo) (va vb : VecNo) (mk : MaskNo) -- R133
  | vcmpGe (md : MaskNo) (va vb : VecNo) (mk : MaskNo) -- R133
  | vcmpUn (md : MaskNo) (va vb : VecNo) (mk : MaskNo) -- R133
  | vcmpsEq (md : MaskNo) (va : VecNo) (sb : Reg) (mk : MaskNo) -- R133
  | vcmpsNe (md : MaskNo) (va : VecNo) (sb : Reg) (mk : MaskNo) -- R133
  | vcmpsLt (md : MaskNo) (va : VecNo) (sb : Reg) (mk : MaskNo) -- R133
  | vcmpsLe (md : MaskNo) (va : VecNo) (sb : Reg) (mk : MaskNo) -- R133
  | vcmpsGt (md : MaskNo) (va : VecNo) (sb : Reg) (mk : MaskNo) -- R133
  | vcmpsGe (md : MaskNo) (va : VecNo) (sb : Reg) (mk : MaskNo) -- R133
  | vcmpsUn (md : MaskNo) (va : VecNo) (sb : Reg) (mk : MaskNo) -- R133
  | mand (md ma mb : MaskNo) -- R135
  | mor (md ma mb : MaskNo) -- R135
  | mxor (md ma mb : MaskNo) -- R135
  | mandn (md ma mb : MaskNo) -- R135
  | mnot (md ma : MaskNo) -- R135
  | mset (md : MaskNo) -- R135
  | mclr (md : MaskNo) -- R135
  | mpopc (rd : Reg) (ma : MaskNo) -- R135
  | mffs (rd : Reg) (ma : MaskNo) -- R135
  | msbf (md ma : MaskNo) -- R135
  | msif (md ma : MaskNo) -- R135
  | mmov (md ma : MaskNo) -- R135
  | vredSum (rd : Reg) (va : VecNo) (mk : MaskNo) -- R149
  | vredMax (rd : Reg) (va : VecNo) (mk : MaskNo) -- R149
  | vredMin (rd : Reg) (va : VecNo) (mk : MaskNo) -- R149
  | vredAnd (rd : Reg) (va : VecNo) (mk : MaskNo) -- R149
  | vredOr (rd : Reg) (va : VecNo) (mk : MaskNo) -- R149
  | vext (rd : Reg) (va : VecNo) (sb : Reg) -- R138
  | vins (ss : Reg) (vd : VecNo) (sb : Reg) -- R139
  | vtom (va : VecNo) (md : MaskNo) -- R140
  | vmtov (vd : VecNo) (ma : MaskNo) -- R140
  | viota (vd : VecNo) -- R140
  | vconfl (va : VecNo) (md : MaskNo) -- R141
  | vanch (vd va : VecNo) (mk : MaskNo) -- R156
  | vanchz (vd va : VecNo) (mk : MaskNo) -- R156
  | vranc (vd : VecNo) (mk : MaskNo) -- R158
  | agetc (rd : Reg) (ak : BitVec 6) (sb : Reg) -- R159
  | agete (rd : Reg) (ak : BitVec 6) (sb : Reg) -- R159
  | aput (ss : Reg) (ak : BitVec 6) (sb : Reg) -- R160
  | vdevs (vd va : VecNo) (mk : MaskNo) -- R161
  | vbead (vd va : VecNo) (mk : MaskNo) -- R162
  | vld (vt : VecNo) (base : Reg) (mk : MaskNo) (st : Stream) -- R170
  | vldStrided (vt : VecNo) (base stride : Reg) (mk : MaskNo) (st : Stream) -- R167
  | vldIndexed (vt : VecNo) (base : Reg) (vx : VecNo) (mk : MaskNo) (st : Stream) -- R167
  | vldFirstFault (vt : VecNo) (base : Reg) (mk : MaskNo) (st : Stream) -- R174
  | vldSc (vt : VecNo) (base : Reg) (mk : MaskNo) (st : Stream) -- R175
  | vldScIndexed (vt : VecNo) (base : Reg) (vx : VecNo) (mk : MaskNo) (st : Stream) -- R175
  | vst (vt : VecNo) (base : Reg) (mk : MaskNo) (st : Stream) -- R170
  | vstStrided (vt : VecNo) (base stride : Reg) (mk : MaskNo) (st : Stream) -- R167
  | vstIndexed (vt : VecNo) (base : Reg) (vx : VecNo) (mk : MaskNo) (st : Stream) -- R171
  | vstSc (vt : VecNo) (base : Reg) (mk : MaskNo) (st : Stream) -- R175
  | vstScIndexed (vt : VecNo) (base : Reg) (vx : VecNo) (mk : MaskNo) (st : Stream) -- R175
  | vamoAdd (vv : VecNo) (base : Reg) (vx : VecNo) (mk : MaskNo) (scope : BitVec 2) -- R181
  | vamoAnd (vv : VecNo) (base : Reg) (vx : VecNo) (mk : MaskNo) (scope : BitVec 2) -- R181
  | vamoOr (vv : VecNo) (base : Reg) (vx : VecNo) (mk : MaskNo) (scope : BitVec 2) -- R181
  | vamoXor (vv : VecNo) (base : Reg) (vx : VecNo) (mk : MaskNo) (scope : BitVec 2) -- R181
  | vamoMin (vv : VecNo) (base : Reg) (vx : VecNo) (mk : MaskNo) (scope : BitVec 2) -- R181
  | vamoMax (vv : VecNo) (base : Reg) (vx : VecNo) (mk : MaskNo) (scope : BitVec 2) -- R181
  | vamoMinn (vv : VecNo) (base : Reg) (vx : VecNo) (mk : MaskNo) (scope : BitVec 2) -- R181
  | vamoMaxn (vv : VecNo) (base : Reg) (vx : VecNo) (mk : MaskNo) (scope : BitVec 2) -- R181
  | vamoFadd (vv : VecNo) (base : Reg) (vx : VecNo) (mk : MaskNo) (scope : BitVec 2) -- R184
  | stnl (rd : Reg) (vs : VecNo) (pool : BitVec 3) (st : Stream) -- R188
  | rlq (ra : Reg) (pool : BitVec 3) (st : Stream) -- R191
  | nlfree (rd : Reg) (pool : BitVec 3) -- R192
  | acopyG2s (strides src dst : Reg) (tag : BitVec 6) (outer : BitVec 16) (esz : BitVec 2) -- R199
  | acopyS2g (strides src dst : Reg) (tag : BitVec 6) (outer : BitVec 16) (esz : BitVec 2) -- R199
  | acopyMcast (strides src dst : Reg) (tag : BitVec 6) (outer : BitVec 16) (cores : BitVec 8) (esz : BitVec 2) -- R199
  | acopyS2s (strides src dst : Reg) (tag : BitVec 6) (outer : BitVec 16) (esz : BitVec 2) -- R199
  | agath (vx : VecNo) (base dst row : Reg) (mk : MaskNo) (tag : BitVec 6) -- R202
  | mxm (vacc : VecNo) (a b : MxOperand) (kvalid : BitVec 7) (zacc : Bool) -- R216
  | waitany (rd ra : Reg) -- R206
  | waitall (rd ra : Reg) -- R206
  | ffrt (rd ra : Reg) -- R206
  | tagclr (ra : Reg) -- R206
  | tagerr (rd ra : Reg) -- R206
  | mxatt (rd ra : Reg) -- R209
  | mxattw (rd ra : Reg) -- R209
  | mxdet -- R211
  | task (rd ra : Reg) (deps : BitVec 16) -- R232
  | xferBcast (task src off : Reg) (bytes : BitVec 32) -- R233
  | xferSplit (task src off : Reg) (bytes : BitVec 32) -- R233
  | tdep (succ pred : Reg) -- R235
  | graphOpen (rd : Reg) -- R236
  | graphClose -- R236
  | phase (rd : Reg) -- R237
  | cnt (rd ra : Reg) (level : BitVec 2) -- R239
  | waitc (rd ra : Reg) (level : BitVec 2) -- R239
  | cancel (ra : Reg) (level : BitVec 2) -- R242
  | jobKill (ra : Reg) -- R296
  | job (rd ra : Reg) -- R243
  | tide (rd : Reg) (split : BitVec 3) -- R245
  | rddig (rd ra : Reg) -- R247
  | storeRelease -- R29
  | preempt (who : CtxNo) -- R33
  | cancelDelivery (who : CtxNo) -- R33
  | faultRingRoom (who : CtxNo) -- R315
  | parkResume (who : CtxNo) -- R317
  | consumerWordPoll -- R317
  | rangeCheckerEntry (cmd : Nat) -- R194
  | mxmAccept (abacus : Nat) -- R218
  | mxmAccumulate (abacus : Nat) -- R217
  | copyFinish (cmd : Nat) -- R193
  | engineFault (cmd : Nat) -- R196
  | engineRetry (cmd : Nat) -- R196
  | heldStoreRelease (who : CtxNo) -- R204
  | waitlChange (who : CtxNo) -- R227
  | waitlLimit (who : CtxNo) -- R227
  | placementCycle -- R286
  | streamTransferEnd (job task : Nat) -- R233
  | unitStart (job task : Nat) -- R287
  | unitResume (job task unit : Nat) -- R293
  | launchComplete (job task : Nat) -- R240
  | heldUpdateAccept (upd : HeldUpdate) -- R185
  | registerPoisonKill (who : CtxNo) -- R277
  | msuAccess (acc : LineAccess) -- R271
  | rowClose (channel row : Nat) -- R276
  | scrub (loc : Nat) (uncorrectable : Bool) -- R277
  | rowRetire (channel row spare : Nat) -- R278
  | remapReload (channel : Nat) (backingBad : Bool) -- R278
  | freeMapRepair (channel : Nat) (backingBad : Bool) -- R275
  | arbiterInterval (plan : ArbiterPlan) -- R338
  | rampBoundary -- R339
  | energyUpdate -- R342
  | healthUpdate -- R343
  | tideHonour (isle : BitVec 4) -- R245
  | tideSplitEffect (isle : BitVec 4) -- R245
  | headerForward (queue : HeaderQueue) -- R323
  | responseLanding (who : CtxNo) -- R324
  | hostMemRequest (req : OutsideAccess) -- R333
  | peerMemRequest (port : BitVec 2) (req : OutsideAccess) -- R336
  | jevstatWrite (value : BitVec 64) -- R331
  | peerbaseWrite (port : BitVec 2) (value : BitVec 64) -- R331
  | doeRequest (req : DoeRequest) -- R330
  | firmwarePush (img : FirmwareImage) (found : StartFindings) -- R348
  | coldStart (img : FirmwareImage) (found : StartFindings) -- R344
  | warmStart (img : FirmwareImage) (found : StartFindings) -- R347
  | firmwareFetchTimeout -- R344
  | bistRequest -- R347
  | sidebandRead -- R352
  | unassignedEncoding (word : BitVec 32) -- R45
  | poolBlockFetch (va : BitVec 56) -- R46
  | msixTableWrite (vector : BitVec 2) (masked : Bool) -- R332
  | straitLaneRetry (strait : Nat) -- R343
deriving DecidableEq, Repr

end Sys2Proof
end

