-- ==== Sys2Proof/Machine/State.lean ====
section
/-! DEFINITION. The state of the machine: every piece of architectural state that spec/ names (INVENTORY.md lists
them with their rules), as plain data; how a step can stop; and the state after reset. -/

namespace Sys2Proof.Machine

/-- Why an instruction traps: the causes of R39. -/
inductive Cause
  | poolExec | illegalInstr | priv | vown | illegalTag | illegalVl | mxNogrant | tagBusy | forkLimit | joinNone
  | misalign | access | page | dataPoison | rlqFree | devOvf | schedFull | detSpill | soft | cancel | preempt
deriving DecidableEq, Repr

/-- What a register file holds where no element is listed (R6, R40): zero bits, or the free contents that became
undefined in step `tick` for register `reg` (notes/assumptions/4.md). -/
inductive Fill | zero | free (tick reg : Nat)
deriving DecidableEq, Repr

/-- The contents of one vector or anchor register: the listed elements in ascending index order, and for every
other element the fill of the last segment that starts at or below it. -/
structure VReg where
  cells : List (Nat × BitVec 64)
  fills : List (Nat × Fill)
deriving DecidableEq, Repr

/-- A stretch of locations `[lo, hi)` whose contents became undefined in step `tick` (R6, R268, R347). -/
structure Blank where
  lo : Nat
  hi : Nat
  tick : Nat
deriving DecidableEq, Repr

/-- One change of memory, as fetch may still undo it (R265): the listed bytes that it replaced, the stretch `[lo, hi)`
that it replaced as a whole, and the stretches of undefined contents, the poisoned units and their undefined bytes before
it. -/
structure Change where
  bytes : List Host.Cell
  lo : Nat
  hi : Nat
  blanks : List Blank
  poison : List Nat
  spared : List Nat
deriving DecidableEq, Repr

/-- Memory: the listed bytes in strictly ascending order of location, none equal to what its location reads as when it
is not listed (`Memory.blank` of Ops.lean: a free byte in a stretch that became undefined, and else zero,
notes/assumptions/2.md); those stretches; the first locations of the poisoned protected units (R277), and the bytes in
them whose contents became undefined, which no read traps on (R6, R196); the elided 256-byte lines (R271); and the changes so far, the last one first, which instruction fetch may not have taken in yet
(R265). A location is `kind * 2^52 + physical address` (R269), or
`4 * 2^52 + core * 2^24 + offset` for a scratchpad byte (R266). -/
structure Memory where
  cells : List Host.Cell
  blanks : List Blank
  poison : List Nat
  spared : List Nat
  elided : List Nat
  past : List Change
deriving DecidableEq, Repr

/-- A fault-ring record without its sequence number (R316). -/
structure FaultRec where
  outer : Nat
  tag : Nat
  flags : Nat
  detail : Nat
  cause : Nat
  loc : Nat
  kind : Nat
  elem : Nat
  unit : Nat
  launch : Nat
  job : Nat
  pc : Word
  va : Word
deriving DecidableEq, Repr

/-- How a context stands: it can issue; it waits at the instruction its pc names (R33); its engine command waits to
be accepted (R194); it is parked until the consumer word passes `seq` (R317); it stalls with records still to be
written to a full ring (R315); it has ended (R42). -/
inductive Status
  | running
  | waiting
  | atEngine (cmd : Nat)
  | parked (seq : Nat)
  | stalled (left : List FaultRec)
  | ended
deriving DecidableEq, Repr

/-- Where a context stands (R10, R36): its isle, core and slot, the first lane and the number of lanes of its lane
group, and the position of the group relative to its unit's root group, in units of 64 lanes (R41). -/
structure Place where
  isle : BitVec 4
  core : BitVec 3
  slot : BitVec 4
  base : Nat
  lanes : Nat
  pos : Nat
deriving DecidableEq, Repr

/-- What a context has from its job and launch (R35, R40): job id (0 for the resident control program), task id
(LAUNCHID), unit index and count, parameter pointer, deterministic flag, and the partition word (R17). -/
structure Origin where
  job : Nat
  task : Nat
  unit : Nat
  units : Nat
  param : Word
  det : Bool
  part : Word
deriving DecidableEq, Repr

/-- The trap and translation registers of a context (R37, R302). VOWNER is held here for the lane group that the
context occupies (R305). -/
structure TrapRegs where
  tstat : Word
  tcause : Word
  tepc : Word
  tval : Word
  tinstr : Word
  hvl : Word
  hvcount : Word
  hmspace : Word
  tscratch : Word
  vowner : Word
  vsaveptr : Word
  ptbase : Word
  asid : Word
deriving DecidableEq, Repr

/-- What the scalar thread holds of VCOUNT and the tags as they stand in program order (R112). -/
structure Front where
  vcount : Nat
  tags : Vector (BitVec 8) 64
deriving DecidableEq, Repr

/-- The vector state of a context (R11, R20-R22, R305): VCOUNT, the tags and the contents are what its lane group holds; VL
and MSPACE, of which there is no other copy, stand as in program order (R112). VLMAX is derived (R18). -/
structure VecState where
  vl : Nat
  vcount : Nat
  mspace : BitVec 2
  devpol : BitVec 2
  devstat : Word
  tags : Vector (BitVec 8) 64
  vecs : Vector VReg 64
  anchors : Vector VReg 16
  masks : Vector Nat 8
deriving DecidableEq, Repr

/-- Copy tags (R23), abacus grant in rows (R25), and the count of VAMOFADD instructions (R184). -/
structure EngineState where
  tagBusy : BitVec 64
  tagReady : BitVec 64
  tagErr : BitVec 64
  grant : Nat
  vamoSeq : BitVec 22
deriving DecidableEq, Repr

/-- One byte of a store: its location, the virtual address it was named by, the byte, whether its page allows
zero-elision writes (R271), and whether it counts in the store digest (R246). -/
structure Put where
  loc : Nat
  va : Word
  byte : Byte
  zel : Bool
  dig : Bool
deriving DecidableEq, Repr

/-- A store-buffer entry (R29): its stream and its bytes; whether a later load of its stream has been performed from the
buffer, so that every access that follows that load follows the store (R255); and how many instructions of the vector queue
stand before it in program order, which it is not released before (R29). -/
structure Buffered where
  stream : Stream
  puts : List Put
  seen : Bool
  after : Nat
deriving DecidableEq, Repr

/-- A counted object of the scheduler: its job, its level (0 launch, 1 graph, 2 phase, 3 job) and its id (R234). -/
structure ObjKey where
  job : Nat
  level : BitVec 2
  id : Nat
deriving DecidableEq, Repr

/-- A request header (R320): the queue of the port that it is bound for (R323), the location it names, and how many bytes
of a released scalar store it carries, 0 for every other access (R250, R322). -/
structure Packet where
  dest : Nat
  loc : Nat
  stored : Nat
deriving DecidableEq, Repr

/-- A queued instruction that waits in the vector queue (R26, R324): what it is, and the scalar registers, VL, MSPACE,
VCOUNT and the tags as they stand in program order at its push, with its pc and its words. They are what it runs with (R26),
and what a trap at it restores (R32, R112); a register that an instruction before it has still to write is taken in as it is
written (R30). `undo` counts the entries of the undo log that it and the scalar instructions behind it have made (R29,
R112). `early` holds the step in which its pipe started it while instructions before it waited (R27, R324): its scalar result is
out, and its vector result is written in its turn. -/
structure Queued where
  instr : Instr
  pc : Pc
  ir : Word
  regs : Vector Word 32
  vl : Nat
  mspace : BitVec 2
  front : Front
  undo : Nat
  early : Option Nat
deriving DecidableEq, Repr

/-- What the control flow of a context depends on: its status; the TIME in core cycles at which a WAITL began to
wait (R227); the counter a WAITC waits for, and its final word once it retired (R239); CANCEL pending and taken
(R295), PREEMPT pending and an eviction under way (R289, R290); whether the first instruction of a handler is still
to be fetched (R303); whether this issue is ahead of the vector commit pointer (R29); the words fetched last
(R301); the page table base and address space of instruction fetch (R220), and how many changes of memory fetch had
taken in when it last took in all that had been written (R264, R265); the parent and the live child of the fork tree, and
whether that child has ended (R42); the store buffer; the vector queue, the oldest first (R26), and the engine command that
its head has issued and that is still to be accepted (R194); the request slots in use, the headers of released stores that still wait for one (R322), and how many headers of the access that waits
in the memory pipe have been issued (R324); after a YIELD the cycle until which it holds, and the contexts that are to
issue first (R229); and, while it is eligible to issue, the cycle from which it has waited (R297). -/
structure Flow where
  status : Status
  waitStart : Option Nat
  waitOn : Option ObjKey
  waitWord : Option Word
  cancelPending : Bool
  cancelTaken : Bool
  preemptPending : Bool
  evicting : Bool
  handlerFirst : Bool
  ahead : Bool
  ir : Word
  fetchPtbase : Word
  fetchAsid : Word
  since : Nat
  parent : Option CtxNo
  child : Option CtxNo
  childEnded : Bool
  storeBuf : List Buffered
  queue : List Queued
  engine : Option Nat
  slots : Nat
  owed : List Packet
  sent : Nat
  yield : Option (Nat × List CtxNo)
  eligible : Option Nat
deriving DecidableEq, Repr

/-- A reckoner context (R9, R11), with the program-order copy of VCOUNT and the tags (R112). -/
structure Ctx where
  place : Place
  origin : Origin
  pc : Pc
  regs : Vector Word 32
  trap : TrapRegs
  vec : VecState
  front : Front
  eng : EngineState
  flow : Flow
deriving DecidableEq, Repr

/-- One row or column of an MXM operand: the anchor word of a rod, and the codes of its elements (R214, R215). -/
structure MxRow where
  anchor : Word
  codes : List (BitVec 16)
deriving DecidableEq, Repr

/-- The operand of an issued MXM: rows read from a register, or the scratchpad offsets of its rows. -/
inductive MxSource | rows (rs : List MxRow) | offsets (os : List Nat)
deriving DecidableEq, Repr

/-- What an engine command does (R197, R202, R216), with every value captured at issue. An AGATH row is its element
index and its global address; `writes` are the scalar registers that an MXM advances, with their new values. -/
inductive CmdKind
  | copy (kind : BitVec 2) (src dst : Word) (srcStride dstStride : Word) (outer : Nat) (cores : BitVec 8)
      (width vl : Nat)
  | gath (rows : List (Nat × Word)) (dst rowBytes : Nat)
  | mxm (vacc : VecNo) (grant : Nat) (typ : MxType) (a b : MxSource) (kv : Nat) (zacc : Bool)
      (writes : List (Reg × Word))
deriving DecidableEq, Repr

/-- Where an engine command stands: it waits for a range-checker entry; it holds one and waits for the abacus
(MXM); it is accepted; it is paused until the consumer word passes `seq` (R196); it stalls with records to write
to a full ring (R315). -/
inductive CmdState
  | waiting
  | entered
  | accepted
  | paused (seq : Nat)
  | stalled (left : List FaultRec)
deriving DecidableEq, Repr

/-- An engine command (R194) with its issuer as it was at issue. `order` numbers the acceptances. -/
structure Cmd where
  id : Nat
  isle : BitVec 4
  core : BitVec 3
  slot : BitVec 4
  pos : Nat
  job : Nat
  task : Nat
  unit : Nat
  user : Bool
  ptbase : Word
  asid : Word
  pc : Word
  tag : Option (BitVec 6)
  kind : CmdKind
  state : CmdState
  order : Nat
  err : Bool
  cancelled : Bool
deriving DecidableEq, Repr

/-- The engines of the device: the commands in the order they began to wait, and the next command and acceptance
numbers. -/
structure Engines where
  cmds : List Cmd
  nextId : Nat
  nextOrder : Nat
deriving DecidableEq, Repr

/-- What a launch record gives (R231), and the address and the location it was read from. -/
structure LaunchRec where
  va : Word
  loc : Nat
  entry : Word
  param : Word
  part : Word
  units : Nat
  lanes : Nat
  ldrop : Nat
  det : Bool
  spbase : Word
  spsize : Nat
deriving DecidableEq, Repr

/-- The states of a task (R283); a retired task has left the table. -/
inductive TaskState | created | ready | filling | running | completing
deriving DecidableEq, Repr

/-- A stream transfer attached to a task (R233), with its issuer (R318). `paused` holds the sequence number of its
fault-ring record. -/
structure Transfer where
  split : Bool
  src : Word
  off : Nat
  bytes : Nat
  who : CtxNo
  unit : Nat
  pc : Word
  paused : Option Nat
deriving DecidableEq, Repr

/-- A started unit and the core (isle * 8 + core) and lane base it was given (R287); and since which step it is
pre-empted, until it resumes (R288, R293). -/
structure LiveUnit where
  unit : Nat
  core : Nat
  base : Nat
  preempted : Option Nat
deriving DecidableEq, Repr

/-- A launch in the task tables (R282, R283): its job and task id (0 for a job program's launch), the isle whose
table holds it, its graph, its record, state, dependence count and outgoing edges (R235), transfers (R233), launch
count with the error and cancel bits (R239), the cores reserved in rank order (R285), the next unit to start, the
started units, the step in which it was created and became ready (R286), its store digest (R246), the spill
records in use (R248), its energy (R342), and the record that its write-back is paused for (R240). -/
structure Task where
  job : Nat
  id : Nat
  isle : Nat
  graph : Option Nat
  record : LaunchRec
  state : TaskState
  deps : Nat
  succs : List Nat
  transfers : List Transfer
  count : Nat
  err : Bool
  cancelled : Bool
  cores : List Nat
  nextUnit : Nat
  live : List LiveUnit
  createdAt : Nat
  readyAt : Nat
  digest : Word
  spilled : Nat
  energy : Word
  paused : Option Nat
deriving DecidableEq, Repr

/-- A graph (R236): its phase, its count, the error bit, and whether it was cancelled. -/
structure Graph where
  id : Nat
  phase : Nat
  count : Nat
  err : Bool
  cancelled : Bool
deriving DecidableEq, Repr

/-- A phase (R237): its count of graphs plus its hold, whether the hold is still there. -/
structure Phase where
  num : Nat
  count : Nat
  hold : Bool
  err : Bool
  cancelled : Bool
deriving DecidableEq, Repr

/-- A live job (R243): its table slot and serial make its id; the open graph with its opens not yet closed; its live
graphs and phases; whether its program's launch has completed (R238); its energy in microjoules, and in millijoules as
ENERGYJ shows it (R342). -/
structure Job where
  id : Nat
  slot : Nat
  prio : Nat
  reach : Nat
  asid : Word
  ptb : Word
  taskSerial : Nat
  graphSerial : Nat
  openGraph : Option (Nat × Nat)
  graphs : List Graph
  phases : List Phase
  curPhase : Nat
  progDone : Bool
  err : Bool
  cancelled : Bool
  used : Nat
  energy : Word
deriving DecidableEq, Repr

/-- The schedulers (R243, R282-R291): jobs, the serial the next JOB takes, tasks, the rotating pointer of each
priority, and the parked-context stores of the isles. -/
structure Sched where
  jobs : List Job
  jobSerial : Nat
  tasks : List Task
  pointers : List Nat
  parked : List Ctx
deriving DecidableEq, Repr

/-- One core: TVEC (R302), the launch it is reserved for (job id and task id, R285), the partition word of that
launch (R266), the job it served last (R268), whether its contexts are being evicted (R288), whether it was cleared
as it came to serve the launch that it hosts (R268), and the launches that it has hosted since the last energy update
(R342). -/
structure Core where
  tvec : Word
  host : Option (Nat × Nat)
  part : Word
  lastJob : Nat
  evict : Bool
  cleared : Bool
  served : List (Nat × Nat)
deriving DecidableEq, Repr

/-- A nameless pool (R272): its POOLCFG, its rotating pointer, and the allocated skerries (slot, index). -/
structure Pool where
  cfg : Word
  pointer : Nat
  taken : List (Nat × Nat)
deriving DecidableEq, Repr

/-- A held target word of a deterministic launch (R185): the address, the pc and the context of its first update, whether
it holds a target slot, whether it fell back, and its updates with their issuer keys, the first one first. -/
structure HeldWord where
  job : Nat
  task : Nat
  loc : Nat
  va : Word
  pc : Word
  who : CtxNo
  slot : Bool
  fallback : Bool
  updates : List (BitVec 64 × BitVec 32)
deriving DecidableEq, Repr

/-- A stretch `[lo, hi)` of device memory that an STNL of a job was given as its skerry (R189, R191). -/
structure Skerry where
  lo : Nat
  hi : Nat
  job : Nat
deriving DecidableEq, Repr

/-- Requests are held (R278): those to a channel while its remap table is read again, or to one row of it while the row is
retired, until an instant of TIME in nanoseconds. -/
structure Hold where
  channel : Nat
  row : Option Nat
  ends : Nat
deriving DecidableEq, Repr

/-- The bytes that a launch has moved since the last energy update (R342). -/
structure Moved where
  job : Nat
  task : Nat
  bytes : Nat
deriving DecidableEq, Repr

/-- The memory-side units: pools; the skerries that were given to jobs, the last one first (R191); fenced channels,
retired rows with their spares, and the requests that are held meanwhile (R278); channels whose free map is lost (R275); open
rows (channel, row) with the time in nanoseconds of the last request to each (R276), and the requests that wait at their
channel for a hold to end (R278) or for the next interval (R280), in arrival order; byte budgets (R280); the bytes that each
launch has moved (R342); the SC ticket counter (R175); the held target words (R185); the records of asynchronous failures
that wait for room in the ring after their context went on (R315). -/
structure Msu where
  pools : List Pool
  given : List Skerry
  fenced : List Nat
  remaps : List (Nat × Nat × Nat)
  holds : List Hold
  lostMaps : List Nat
  openRows : List (Nat × Nat × Nat)
  queue : List LineAccess
  budgets : List Nat
  moved : List Moved
  ticket : Nat
  held : List HeldWord
  records : List FaultRec
deriving DecidableEq, Repr

/-- The fault ring (R314), and the TIME in nanoseconds at which the device last read the consumer word by itself
(R317). -/
structure Ring where
  base : Word
  size : Word
  prod : Word
  cons : Word
  polled : Nat
deriving DecidableEq, Repr

/-- Who holds a cached table entry (R313): the TLB of a core, or the walkers of an isle. -/
inductive Holder | tlb (core : Nat) | walkers (isle : Nat)
deriving DecidableEq, Repr

/-- An entry of a page table that a TLB or the walkers of an isle hold (R313): its address space, the level it was read
at (the lowest VA bit that the level indexes), how many bytes of addresses it stands for and which aligned stretch of
that many, and the entry with its location. -/
structure TlbEntry where
  holder : Holder
  asid : Word
  shift : Nat
  span : Nat
  key : Nat
  loc : Nat
  pte : Word
deriving DecidableEq, Repr

/-- An abacus (R339-R341, R218): its ramp step, the step in effect before cycle `since` (a change takes effect with the
next aligned window of 8 cycles), the TIME in nanoseconds of the boundary at which it began to wait for a change, the
cycle of its last acceptance, the launch whose context last released a grant on it, and since the last energy update the
launches that null operations are charged to (R340) and those whose MXMs it has served (R342). -/
structure Abacus where
  ramp : Nat
  before : Nat
  since : Nat
  waitSince : Option Nat
  lastAccept : Option Nat
  lastRelease : Option (Nat × Nat)
  spun : List (Nat × Nat)
  ran : List (Nat × Nat)
deriving DecidableEq, Repr

/-- An MXATTW that waits (R210): its abacus, its context, the rows that it requests, and its destination register. -/
structure Waiter where
  abacus : Nat
  who : CtxNo
  rows : Nat
  rd : Reg
deriving DecidableEq, Repr

/-- Power and health (R337-R343): the abaci, the throttle step of each isle, the registers, the limit that the arbiter
last applied, the waiting MXATTWs in the order they began to wait, the numbers of the
last arbiter interval, energy and health update that came about, the TIME in nanoseconds up to which ramp boundaries have
come about, the guardband consumed of each isle in percent, and for each strait its lane retries and for each HBM stack
its corrected errors, hour by hour, the current hour first and before it the past 24. -/
structure Power where
  abaci : List Abacus
  steps : List (BitVec 3)
  rampcfg : Word
  pwrcap : Word
  applied : Word
  ageind : Word
  eolmonths : Word
  waiters : List Waiter
  lastInterval : Nat
  lastRamp : Nat
  lastEnergy : Nat
  lastHealth : Nat
  guardbands : List Nat
  straitRetries : List (List Nat)
  stackErrors : List (List Nat)
deriving DecidableEq, Repr

/-- An isle strait (R245) or a ring strait (R329): the split in effect, the split being turned to with the time it takes
effect, the time of the last honour, and the waiting request. Times are in nanoseconds. -/
structure Strait where
  split : BitVec 3
  turning : Option (BitVec 3 × Nat)
  lastHonour : Option Nat
  request : Option (BitVec 3)
deriving DecidableEq, Repr

/-- Who sent a request header (R322): a context, or the copy streamer of a core. -/
inductive HeaderSource | context (who : CtxNo) | streamer (core : Nat)
deriving DecidableEq, Repr

/-- A request header that waits at the port of an isle (R323), in the queue of its destination: a shoal 0-3, or the
crossbar of the isle (4). -/
structure Header where
  isle : BitVec 4
  packet : Packet
  src : HeaderSource
deriving DecidableEq, Repr

/-- The request slots of a copy streamer (R322): those in use, and the headers that wait for one. -/
structure Streamer where
  slots : Nat
  owed : List Packet
deriving DecidableEq, Repr

/-- The fabric (R320-R329): isle straits, ring straits, the headers that wait at the isle ports in order of arrival, the
responses under way (context), and the slots of the copy streamer of each core. -/
structure Fabric where
  straits : List Strait
  rings : List Strait
  headers : List Header
  responses : List CtxNo
  streamers : List Streamer
deriving DecidableEq, Repr

/-- The state of a tier or peer port (R331, R335): mode 0 unused, 1 tier, 2 peer; whether its link trained; its
capacity in 4 KiB units. -/
structure Port where
  mode : BitVec 2
  up : Bool
  cap : BitVec 40
deriving DecidableEq, Repr

/-- How a CXL.mem request ended (R333, R349): the bytes of a read, with whether some of them are poisoned; a write that
was performed; or an unsupported request. -/
inductive Completion | data (bytes : List Byte) (poisoned : Bool) | done | unsupported
deriving DecidableEq, Repr

/-- The host side (R330-R332): CLSIZE code, JEVSTAT, the peer apertures and ports, the three MSI-X vectors (masked,
pending, and how often each was raised), the response that stands in the DOE mailbox with its ECDSA signature, and the
completion of the last CXL.mem request. -/
structure HostSide where
  clsCode : BitVec 3
  jevstat : Word
  peerbase : List Word
  ports : List Port
  masked : List Bool
  pending : List Bool
  raised : List Nat
  doeResponse : Option (List (BitVec 384))
  doeSignature : Option (BitVec 768)
  completion : Option Completion
deriving DecidableEq, Repr

/-- The report of a failed start (R348): the step and the cause. -/
structure FailureReport where
  step : Nat
  cause : StartCause
deriving DecidableEq, Repr

/-- The health telemetry as the sideband gives it (R343, R348, R352): the guardband consumed of each isle, the lane-retry
rate of each strait and the error rate of each stack in events per hour, the failed-start count, the report of the last
failed start, and the package temperatures. -/
structure Telemetry where
  guardbands : List Nat
  straitRates : List Nat
  stackRates : List Nat
  failed : Nat
  report : Option FailureReport
  temperatures : List Nat
deriving DecidableEq, Repr

/-- The start logic (R344-R352): the count of consecutive failed starts, the last failure, whether the device waits for
a pushed image, Memory_Active, the attestation log, the fuse values, a BIST request, how often the sideband was read, and
what its last read gave. -/
structure Startup where
  failed : Nat
  report : Option FailureReport
  awaitingPush : Bool
  memoryActive : Bool
  log : List (BitVec 384)
  fuses : Fuses
  bist : Bool
  sidebandReads : Nat
  telemetry : Option Telemetry
deriving DecidableEq, Repr

/-- The clock: core cycles since cold start, and the cycle at which the cores left reset (R35). -/
structure Clock where
  cycles : Nat
  coreStart : Nat
deriving DecidableEq, Repr

/-- Everything that is not held per context. `localTables` holds the addresses of level 0 tables that lie in
channel-local memory: PTBASE gives no kind (R309, notes/assumptions/18.md). -/
structure Dev where
  clock : Clock
  cores : List Core
  msu : Msu
  ring : Ring
  tlb : List TlbEntry
  localTables : List Nat
  sched : Sched
  engines : Engines
  power : Power
  fabric : Fabric
  host : HostSide
  start : Startup
deriving DecidableEq, Repr

/-- What the next step does (notes/assumptions/6.md): a core issues the next instruction of a context, ahead of the vector
commit pointer or at it (R29, R297); the lane group of a context takes the head of its vector queue (R27); or an operation
or event of the opcode table comes about. -/
inductive Turn
  | issue (core : Nat) (ahead : Bool)
  | lanes (who : CtxNo)
  | event (i : Instr)
deriving DecidableEq, Repr

/-- The machine. `ctx` is the context that moves; `others` holds every other resident context. `agenda` and `tick` are the model's own (notes/assumptions/4.md, 6.md). -/
structure State where
  ctx : Ctx
  others : List Ctx
  mem : Memory
  dev : Dev
  agenda : List Turn
  tick : Nat
deriving DecidableEq, Repr

/-- How a step stops without a next state. -/
inductive Fault
  /-- Raised by the step alone, when the agenda names a core without a resident context, or gives an instruction that only
  a context can issue as an event. Safe: the agenda is the model's own, and the spec has no such step
  (notes/assumptions/6.md). -/
  | noSuchTurn
deriving DecidableEq, Repr

/-- An instruction without a meaning. -/
inductive Refusal
  /-- Raised by the dispatch of an instruction that has no meaning yet, and by nothing else. Safe. -/
  | notModelled (mnemonic : String)
deriving DecidableEq, Repr

/-- A register whose contents read zero throughout. -/
def VReg.zero : VReg := ⟨[], [(0, .zero)]⟩

/-- The trap registers of a context at unit start, with its VOWNER, PTBASE and ASID (R37, R40, R309). R35 and R37 give
TCAUSE, TEPC, TVAL, TINSTR, HVL, HVCOUNT, HMSPACE, TSCRATCH and VSAVEPTR a value after a start of the device only, and R40
none at the start of a unit: that they are 0 there too is the model's choice (notes/assumptions/28.md). -/
def TrapRegs.initial (user : Bool) (vowner ptbase asid : Word) : TrapRegs where
  tstat := if user then 0 else 1
  tcause := 0
  tepc := 0
  tval := 0
  tinstr := 0
  hvl := 0
  hvcount := 0
  hmspace := 0
  tscratch := 0
  vowner := vowner
  vsaveptr := 0
  ptbase := ptbase
  asid := asid

/-- The control flow of a context that starts (R40); its fetch has taken in `since` changes of memory. -/
def Flow.initial (ptbase asid : Word) (since : Nat) : Flow where
  status := .running
  waitStart := none
  waitOn := none
  waitWord := none
  cancelPending := false
  cancelTaken := false
  preemptPending := false
  evicting := false
  handlerFirst := false
  ahead := false
  ir := 0
  fetchPtbase := ptbase
  fetchAsid := asid
  since := since
  parent := none
  child := none
  childEnded := false
  storeBuf := []
  queue := []
  engine := none
  slots := 0
  owed := []
  sent := 0
  yield := none
  eligible := none

/-- The resident control program as step 10 of a start leaves it (R350, R351), for the values of an image header.
The values of State.reset are those of notes/assumptions/1.md. -/
def Ctx.control (entry : Pc) (ptbase part param : Word) (since : Nat) : Ctx where
  place := ⟨0, 0, 0, 0, 1024, 0⟩
  origin := ⟨0, 0, 0, 1, param, false, part⟩
  pc := entry
  regs := ((Vector.replicate 32 0).set 1 param).set 3 1
  trap := .initial false 0 ptbase 0
  vec :=
    { vl := 0, vcount := 8 * 2 ^ (part.toNat / 2 ^ 16 % 4), mspace := 2, devpol := 0, devstat := 0
      tags := .replicate 64 0, vecs := .replicate 64 .zero, anchors := .replicate 16 .zero
      masks := .replicate 8 0 }
  front := ⟨8 * 2 ^ (part.toNat / 2 ^ 16 % 4), .replicate 64 0⟩
  eng := ⟨0, 0, 0, 0, 0⟩
  flow := .initial ptbase 0 since

/-- A core that hosts nothing (R266). -/
def Core.idle : Core := ⟨0, none, 0, 0, false, false, []⟩

/-- The device as a start leaves it (R268-R280, R314, R327, R337-R343, R347-R351), for the CLSIZE code and the ports
that the start found and the partition word of the control program. -/
def Dev.started (cls : BitVec 3) (ports : List Port) (part : Word) : Dev where
  clock := ⟨0, 0⟩
  cores := ⟨0, some (0, 0), part, 0, false, false, []⟩ :: List.replicate 127 .idle
  msu :=
    { pools := List.replicate 8 ⟨0, 0, []⟩, given := [], fenced := [], remaps := [], holds := [], lostMaps := []
      openRows := [], queue := [], budgets := List.replicate 512 102500000, moved := [], ticket := 0, held := [], records := [] }
  ring := ⟨0, 0, 0, 0, 0⟩
  tlb := []
  localTables := []
  sched := ⟨[], 1, [], List.replicate 4 0, []⟩
  engines := ⟨[], 0, 0⟩
  power :=
    { abaci := List.replicate 32 ⟨7, 7, 0, none, none, none, [], []⟩, steps := List.replicate 16 7
      rampcfg := 0x200A, pwrcap := 1800, applied := 1800, ageind := 0, eolmonths := 0xFFFF, waiters := []
      lastInterval := 0, lastRamp := 0, lastEnergy := 0, lastHealth := 0
      guardbands := List.replicate 16 0
      straitRetries := List.replicate 20 [0], stackErrors := List.replicate 16 [0] }
  fabric :=
    { straits := List.replicate 16 ⟨4, none, none, none⟩, rings := List.replicate 4 ⟨4, none, none, none⟩
      headers := [], responses := [], streamers := List.replicate 128 ⟨0, []⟩ }
  host :=
    { clsCode := cls, jevstat := 0, peerbase := List.replicate 4 0, ports := ports, masked := [true, true, true]
      pending := [false, false, false], raised := [0, 0, 0], doeResponse := none, doeSignature := none
      completion := none }
  start :=
    { failed := 0, report := none, awaitingPush := false, memoryActive := true, log := [0, 0, 0], fuses := ⟨0, 0, 0, []⟩
      bist := false, sidebandReads := 0, telemetry := none }

/-- The machine right after reset: step 10 of a cold start has begun (R350, R351). The values that the spec leaves
to the firmware image and to the board are those of notes/assumptions/1.md, 2.md and 3.md. -/
def State.reset : State where
  ctx := .control 0x1000 0x100000 0x24080 0 0
  others := []
  mem := ⟨[], [], [], [], [], []⟩
  dev := .started 3 (List.replicate 4 ⟨0, false, 0⟩) 0x24080
  agenda := []
  tick := 0

end Sys2Proof.Machine
end

