-- ==== Sys2Proof/Machine/Ops.lean ====
section
/-! DEFINITION. The shared operations: registers, memory, stores and the store digest, address translation, request
slots, the fault ring, interrupts, taking a trap and returning from one. -/

namespace Sys2Proof.Machine

/-- What an instruction answers. -/
abbrev Out := Host.Outcome State Fault Refusal

/-! ### Names of places -/

/-- The number of a context: bits 11:0 of its CTXID (R36). -/
def Place.num (p : Place) : CtxNo := p.isle ++ (0#1 ++ p.core ++ p.slot)

/-- The number of a core within the device, 8 * isle + core. -/
def coreOf (isle : BitVec 4) (core : BitVec 3) : Nat := 8 * isle.toNat + core.toNat

def Place.coreNo (p : Place) : Nat := coreOf p.isle p.core

/-- The abacus that serves a core (R208): 2 * isle + 0 for cores 0-3, + 1 for cores 4-7. -/
def Place.abacusNo (p : Place) : Nat := 2 * p.isle.toNat + p.core.toNat / 4

def Ctx.num (c : Ctx) : CtxNo := c.place.num

/-- Every context that is resident: the one that moves, and the others. -/
def State.contexts (s : State) : List Ctx := s.ctx :: s.others

/-- Apply `f` to the context numbered `who`. -/
def State.onCtx (s : State) (who : CtxNo) (f : Ctx → Ctx) : State :=
  let g := fun c : Ctx => if c.num = who ∧ c.flow.status ≠ .ended then f c else c
  { s with ctx := g s.ctx, others := s.others.map g }

def State.findCtx (s : State) (who : CtxNo) : Option Ctx :=
  s.contexts.find? fun c => c.num = who ∧ c.flow.status ≠ .ended

/-- The core's record (R266, R285, R302). -/
def State.core (s : State) (g : Nat) : Core := s.dev.cores.getD g .idle

/-! ### Scalar registers and the program counter (R12, R88-R90) -/

def State.reg (s : State) (r : Reg) : Word := if r = 0 then 0 else s.ctx.regs[r.toNat]'r.isLt

def State.setReg (s : State) (r : Reg) (v : Word) : State :=
  if r = 0 then s else { s with ctx := { s.ctx with regs := s.ctx.regs.set r.toNat v r.isLt } }

/-- A register of a context by number, for what writes it from outside (R216). -/
def Ctx.setReg (c : Ctx) (r : Reg) (v : Word) : Ctx :=
  if r = 0 then c else { c with regs := c.regs.set r.toNat v r.isLt }

def Ctx.reg (c : Ctx) (r : Reg) : Word := if r = 0 then 0 else c.regs[r.toNat]'r.isLt

/-- Go on at `pc`; the context waits for nothing. -/
def State.goto (s : State) (pc : Pc) : State :=
  { s with ctx := { s.ctx with
      pc := pc
      flow := { s.ctx.flow with status := .running, waitStart := none, waitOn := none, waitWord := none } } }

/-- The instruction at the pc, of `n` bytes, is complete. -/
def State.retire (s : State) (n : Nat) : State := s.goto (s.ctx.pc + BitVec.ofNat 56 n)

def State.setFlow (s : State) (f : Flow → Flow) : State := { s with ctx := { s.ctx with flow := f s.ctx.flow } }

/-- The context waits at the instruction its pc names (R33). -/
def State.wait (s : State) : State :=
  { s with ctx := { s.ctx with flow := { s.ctx.flow with status := .waiting } } }

/-- Write a scalar result and go on behind a one-word instruction. -/
def State.result (s : State) (rd : Reg) (v : Word) : Out := .next ((s.setReg rd v).retire 4)

/-- Whether the context runs in user mode (R38). -/
def Ctx.user (c : Ctx) : Bool := !c.trap.tstat.getLsbD 0

/-! ### VLMAX (R17-R19) -/

/-- Twice the element width in bytes of a tag's type code (R13). -/
def halfWidth (tag : BitVec 8) : Nat :=
  match tag.toNat % 16 with
  | 0 | 2 | 3 => 8
  | 1 | 6 => 4
  | 4 | 5 => 16
  | 10 => 1
  | _ => 2

/-- The widest type, in half bytes, among the tags of V0 .. V(n-1). -/
def widest (tags : List (BitVec 8)) (n : Nat) : Nat := ((tags.take n).map halfWidth).foldl max 0

/-- VLMAX by R18 for a partition word, a lane count, a register count and tags. -/
def vlmaxOf (part : Word) (lanes vcount : Nat) (tags : List (BitVec 8)) : Nat :=
  let bytes := part.toNat % 256 * 65536 * lanes / 1024
  let raw := min 262144 (2 * bytes / (vcount * widest tags vcount))
  raw - raw % 112

/-- VLMAX of the vector state that the lane group holds. -/
def Ctx.vlmax (c : Ctx) : Nat := vlmaxOf c.origin.part c.place.lanes c.vec.vcount c.vec.tags.toList

/-- VLMAX as it stands in program order for these VCOUNT and tags (R112). -/
def Ctx.vlmaxFor (c : Ctx) (f : Front) : Nat := vlmaxOf c.origin.part c.place.lanes f.vcount f.tags.toList

def Ctx.frontVlmax (c : Ctx) : Nat := c.vlmaxFor c.front

/-! ### Register files -/

/-- What an element that is not listed holds. -/
def VReg.fill (r : VReg) (i : Nat) : BitVec 64 :=
  match (r.fills.filter (fun f => f.1 ≤ i)).getLast? with
  | some (_, .free t n) => Config.freeElem t n i
  | _ => 0

/-- The bits of element `i`. -/
def VReg.get (r : VReg) (i : Nat) : BitVec 64 :=
  match r.cells.find? (fun c => c.1 == i) with
  | some c => c.2
  | none => r.fill i

/-- The `n` elements from `i` on, with the listed elements from `i` on. -/
def elemsFrom (fill : Nat → BitVec 64) : Nat → Nat → List (Nat × BitVec 64) → List (BitVec 64)
  | 0, _, _ => []
  | n + 1, i, [] => fill i :: elemsFrom fill n (i + 1) []
  | n + 1, i, (k, v) :: rest =>
    if k = i then v :: elemsFrom fill n (i + 1) rest else fill i :: elemsFrom fill n (i + 1) ((k, v) :: rest)

/-- The first `n` elements. -/
def VReg.first (r : VReg) (n : Nat) : List (BitVec 64) := elemsFrom r.fill n 0 r.cells

/-- The list less a first element that is listed at `i`. -/
def dropAt (i : Nat) : List (Nat × BitVec 64) → List (Nat × BitVec 64)
  | [] => []
  | c :: rest => if c.1 = i then rest else c :: rest

/-- Write listed elements (ascending) over the listed elements (ascending). -/
def mergeCells : List (Nat × BitVec 64) → List (Nat × BitVec 64) → List (Nat × BitVec 64)
  | [], old => old
  | (i, v) :: new, old =>
    old.takeWhile (fun c => c.1 < i) ++ (i, v) :: mergeCells new (dropAt i (old.dropWhile fun c => c.1 < i))

/-- Whether elements are listed in strictly ascending order. -/
def ascending : List (Nat × BitVec 64) → Bool
  | [] => true
  | [_] => true
  | (i, _) :: (j, w) :: rest => decide (i < j) && ascending ((j, w) :: rest)

/-- Write one element among listed elements (ascending). -/
def putCell (i : Nat) (v : BitVec 64) : List (Nat × BitVec 64) → List (Nat × BitVec 64)
  | [] => [(i, v)]
  | c :: rest => if c.1 < i then c :: putCell i v rest else if c.1 = i then (i, v) :: rest else (i, v) :: c :: rest

/-- Write listed elements, in their order; those that ascend are merged in one pass. -/
def VReg.write (r : VReg) (new : List (Nat × BitVec 64)) : VReg :=
  { r with cells :=
      if ascending new then mergeCells new r.cells else new.foldl (fun cs p => putCell p.1 p.2 cs) r.cells }

/-- The canonical form of a register's contents. -/
abbrev VReg.wf (r : VReg) : Prop := r.cells.Pairwise fun a b => a.1 < b.1

/-- Contents that became undefined in step `tick` (R6). -/
def VReg.undefined (tick reg : Nat) : VReg := ⟨[], [(0, .free tick reg)]⟩

/-- The elements from `k` on became undefined in step `tick` (R19). -/
def VReg.cut (r : VReg) (k tick reg : Nat) : VReg :=
  ⟨r.cells.filter (fun c => c.1 < k), r.fills.filter (fun f => f.1 < k) ++ [(k, .free tick reg)]⟩

/-- The bits of a mask below `k` are kept, and those from `k` to the new VLMAX become undefined (R16). -/
def cutMask (m k new tick reg : Nat) : Nat :=
  m % 2 ^ k + (Config.freeMask tick reg % 2 ^ (new - k)) * 2 ^ k

/-- Change the vector configuration by `f`, in step `tick`: when VLMAX changes, contents from the smaller of the two
values on become undefined, and VL is reduced to the new VLMAX (R16, R19). -/
def Ctx.reshape (c : Ctx) (tick : Nat) (f : Ctx → Ctx) : Ctx :=
  let c' := f c
  let old := c.vlmax
  let new := c'.vlmax
  if old = new then { c' with vec := { c'.vec with vl := min c'.vec.vl new } }
  else
    { c' with vec := { c'.vec with
        vl := min c'.vec.vl new
        vecs := c'.vec.vecs.mapFinIdx fun i r _ => r.cut (min old new) tick i
        masks := c'.vec.masks.mapFinIdx fun i m _ => cutMask m (min old new) new tick i } }

/-- VOWNER names this context, and NONE is 0 (R305). -/
def Ctx.ownsVector (c : Ctx) : Bool := !c.trap.vowner.getLsbD 12 && c.trap.vowner.setWidth 12 == c.num

/-- The lane group of a context that owns its vector state takes the VCOUNT of program order (R112, R305), and the contents
are cut to the new VLMAX (R16, R19). VL, which is that of program order, stays. -/
def Ctx.adopt (c : Ctx) (tick : Nat) : Ctx :=
  if c.ownsVector = false ∨ c.vec.vcount = c.front.vcount then c
  else
    let c' := c.reshape tick fun c => { c with vec := { c.vec with vcount := c.front.vcount } }
    { c' with vec := { c'.vec with vl := c.vec.vl } }

/-- Vector, anchor and mask contents all become undefined in step `tick` (R41, R42, R294); `base` tells two
contexts apart whose contents become undefined in one step. -/
def VecState.forget (v : VecState) (tick base vlmax : Nat) : VecState :=
  { v with
    vecs := Vector.ofFn fun i => .undefined tick (base + i.val)
    anchors := Vector.ofFn fun i => .undefined tick (base + 64 + i.val)
    masks := Vector.ofFn fun i => Config.freeMask tick (base + i.val) % 2 ^ vlmax }

/-! ### Bytes of memory -/

/-- What a location reads as while it is not listed: the free byte of a stretch that became undefined, and else zero
(notes/assumptions/2.md). -/
def Memory.blank (m : Memory) (a : Nat) : Byte :=
  match m.blanks.find? fun b => b.lo ≤ a && a < b.hi with
  | some b => Config.freeByte b.tick a
  | none => 0

/-- The canonical form of memory. -/
abbrev Memory.wf (m : Memory) : Prop :=
  m.cells.Pairwise (fun a b => a.1 < b.1) ∧ ∀ c ∈ m.cells, c.2 ≠ m.blank c.1

/-- The byte listed for a location, or `z`. -/
def readCell (z : Byte) : List Host.Cell → Nat → Byte
  | [], _ => z
  | (k, v) :: rest, a => if k = a then v else readCell z rest a

/-- List a byte for a location, unless it is `z`, which the location reads as unlisted. -/
def writeCell (z : Byte) : List Host.Cell → Nat → Byte → List Host.Cell
  | [], a, b => if b = z then [] else [(a, b)]
  | (k, v) :: rest, a, b =>
    if a < k then (if b = z then (k, v) :: rest else (a, b) :: (k, v) :: rest)
    else if a = k then (if b = z then rest else (a, b) :: rest)
    else (k, v) :: writeCell z rest a b

def Memory.read (m : Memory) (a : Nat) : Byte := readCell (m.blank a) m.cells a

def Memory.write (m : Memory) (a : Nat) (b : Byte) : Memory :=
  { m with cells := writeCell (m.blank a) m.cells a b }

/-- The first location of the scratchpads, and the location of a scratchpad byte. -/
def spadBase : Nat := 4 * 2 ^ 52
def spadLoc (g off : Nat) : Nat := spadBase + g * 2 ^ 24 + off

/-- The changes of memory with one more, in which the stretch `[lo, hi)` takes other contents as a whole (R265). -/
def Memory.stretchPast (m : Memory) (lo hi : Nat) : List Change :=
  if spadBase ≤ lo then m.past
  else ⟨m.cells.filter fun c => lo ≤ c.1 && c.1 < hi, lo, hi, m.blanks, m.poison, m.spared⟩ :: m.past

/-- The changes of memory with one more, in which these bytes are written (R265). Nothing is fetched from a scratchpad. -/
def Memory.storePast (m : Memory) (puts : List Put) : List Change :=
  match (puts.filter fun p => p.loc < spadBase).map fun p => (p.loc, m.read p.loc) with
  | [] => m.past
  | bs => ⟨bs, 0, 0, m.blanks, m.poison, m.spared⟩ :: m.past

/-- What is left of a stretch outside `[lo, hi)`. -/
def Blank.outside (b : Blank) (lo hi : Nat) : List Blank :=
  if b.hi ≤ lo ∨ hi ≤ b.lo then [b]
  else (if b.lo < lo then [{ b with hi := lo }] else []) ++ if hi < b.hi then [{ b with lo := hi }] else []

/-- The contents of `[lo, hi)` are zero. -/
def Memory.zero (m : Memory) (lo hi : Nat) : Memory :=
  { m with
    cells := m.cells.filter fun c => !(lo ≤ c.1 && c.1 < hi)
    blanks := m.blanks.flatMap fun b => b.outside lo hi
    poison := m.poison.filter fun u => !(lo ≤ u && u < hi)
    spared := m.spared.filter fun a => !(lo ≤ a && a < hi)
    past := m.stretchPast lo hi }

/-- The contents of `[lo, hi)` become undefined in step `tick`: reading them never traps (R6). -/
def Memory.forget (m : Memory) (lo hi tick : Nat) : Memory :=
  { m with
    cells := m.cells.filter fun c => !(lo ≤ c.1 && c.1 < hi)
    blanks := ⟨lo, hi, tick⟩ :: m.blanks.filter fun b => !(lo ≤ b.lo && b.hi ≤ hi)
    poison := m.poison.filter fun u => !(lo ≤ u && u < hi)
    spared := m.spared.filter fun a => !(lo ≤ a && a < hi)
    elided := m.elided.filter fun l => !(lo < 256 * (l + 1) && 256 * l < hi)
    past := m.stretchPast lo hi }

/-- Little-endian (R1): the number that a list of bytes, lowest first, holds. -/
def leNat : List Byte → Nat
  | [] => 0
  | b :: rest => b.toNat + 256 * leNat rest

/-- The `n` low bytes of a number, lowest first. -/
def leBytes (n v : Nat) : List Byte := (List.range n).map fun i => BitVec.ofNat 8 (v / 256 ^ i)

def Memory.bytes (m : Memory) (a n : Nat) : List Byte := (List.range n).map fun i => m.read (a + i)

/-- The little-endian number in the `n` bytes from `a`. -/
def Memory.number (m : Memory) (a n : Nat) : Nat := leNat (m.bytes a n)

/-- The size of the protected unit at a location (R277). -/
def unitSize (loc : Nat) : Nat := if loc < spadBase then 64 else 8

def unitOf (loc : Nat) : Nat := loc - loc % unitSize loc

/-- Whether some of the `n` bytes at `a` lie in a poisoned unit (R277) and are not undefined, so that a read of them
consumes poison (R6). -/
def Memory.poisoned (m : Memory) (a n : Nat) : Bool :=
  m.poison.any fun u => u < a + n && a < u + unitSize u &&
    (m.spared = [] || (List.range n).any fun i => u ≤ a + i && a + i < u + unitSize u && !m.spared.contains (a + i))

/-- The locations of a store, in writing order. -/
def coversUnit (puts : List Put) (u n : Nat) : Bool :=
  (List.range n).all fun k => puts.any fun p => p.loc == u + k

/-- The lines of kinds 00 and 01 that a store touches (R271). -/
def linesOf (puts : List Put) : List Nat :=
  ((puts.filter fun p => p.loc < 2 * 2 ^ 52).map fun p => p.loc / 256).eraseDups

/-- Whether a store sets the elision bit of a line: it covers the line with zeros through pages that allow it. No access
is larger than 64 bytes (R251), and R271 does not say which of them make one write of a whole line: here all bytes that
one instruction or one engine command stores (notes/assumptions/16.md). -/
def elides (puts : List Put) (line : Nat) : Bool :=
  let ps := puts.filter fun p => p.loc / 256 == line
  ps.all (fun p => p.zel && p.byte == 0) && coversUnit ps (256 * line) 256

/-- Write the bytes of a store in order: later bytes win (R171); a wholly written unit loses its poison (R173,
R277); elision bits follow R271. -/
def Memory.store (m : Memory) (puts : List Put) : Memory where
  cells := puts.foldl (fun cs p => writeCell (m.blank p.loc) cs p.loc p.byte) m.cells
  blanks := m.blanks
  poison := if m.poison = [] then [] else m.poison.filter fun u => !coversUnit puts u (unitSize u)
  spared := if m.spared = [] then [] else m.spared.filter fun a => !puts.any fun p => p.loc == a
  elided :=
    let ls := linesOf puts
    let kept := m.elided.filter fun l => !ls.contains l
    if puts.any (·.zel) then kept ++ ls.filter (elides puts) else kept
  past := m.storePast puts

/-- Mark the protected unit of a location poisoned (R277), the whole of it. -/
def Memory.mark (m : Memory) (loc : Nat) : Memory :=
  if m.poison.contains (unitOf loc) && m.spared.all fun a => unitOf a != unitOf loc then m
  else
    { m with
      poison := if m.poison.contains (unitOf loc) then m.poison else unitOf loc :: m.poison
      spared := m.spared.filter fun a => unitOf a != unitOf loc
      past := m.stretchPast loc loc }

/-- The contents of these locations have become undefined: where they lie in a poisoned unit, reading them does not trap
(R6). -/
def Memory.spare (m : Memory) (locs : List Nat) : Memory :=
  { m with spared := m.spared ++ locs.filter fun a => m.poison.contains (unitOf a) && !m.spared.contains a }

/-- The channel of a location of kind 00 or 01 (R269, R270). -/
def channelOf (loc : Nat) : Option Nat :=
  if loc < 2 ^ 52 then some (loc / 256 % 509)
  else if loc < 2 * 2 ^ 52 then some ((loc - 2 ^ 52) / 2 ^ 31)
  else none

/-- Whether a location lies on a fenced channel (R278). -/
def Dev.fencedAt (d : Dev) (loc : Nat) : Bool :=
  match channelOf loc with
  | some ch => d.msu.fenced.contains ch
  | none => false

/-- Whether some of the `n` bytes at `a` lie on a fenced channel: a channel holds whole 256-byte lines (R270, R278). -/
def Dev.fencedIn (d : Dev) (a n : Nat) : Bool :=
  (List.range ((a % 256 + n + 255) / 256)).any fun k => d.fencedAt (256 * (a / 256 + k))

/-- Whether a read of `n` bytes at `a` consumes poison (R277, R278). -/
def State.poisoned (s : State) (a n : Nat) : Bool := s.mem.poisoned a n || s.dev.fencedIn a n

/-! ### What a job reads in a skerry that it gave up (R6, R191) -/

/-- Whether a byte lies in a skerry that was given more than once, the last time to another job: the name by which the job
reads it may be an old one, and is then stale (R191). The old and the new name are one number, so a name that the last
owner passed on counts as stale too (notes/assumptions/4.md). -/
def State.stale (s : State) (job a : Nat) : Bool :=
  match s.dev.msu.given.filter fun g => g.lo ≤ a && a < g.hi with
  | g :: _ :: _ => g.job != job
  | _ => false

/-- A byte of memory as a job reads it: undefined through a stale name (R6, R191), and else what stands there. -/
def State.byteFor (s : State) (job a : Nat) : Byte := if s.stale job a then Config.freeByte s.tick a else s.mem.read a

def State.bytesFor (s : State) (job a n : Nat) : List Byte := (List.range n).map fun i => s.byteFor job (a + i)

/-- The little-endian number in the `n` bytes from `a` as a job reads them. -/
def State.numberFor (s : State) (job a n : Nat) : Nat := leNat (s.bytesFor job a n)

/-- Whether a read of a job consumes poison: undefined contents never trap (R6). -/
def State.poisonedFor (s : State) (job a n : Nat) : Bool :=
  s.poisoned a n && (s.dev.msu.given.isEmpty || (List.range n).any fun i => !s.stale job (a + i) && s.poisoned (a + i) 1)

/-! ### The store digest (R246) -/

/-- One step of CRC-64/ECMA-182, most significant bit first. -/
def crcBit (c : BitVec 64) : BitVec 64 := if c.msb then (c <<< 1) ^^^ 0x42F0E1EBA9EA3693 else c <<< 1

def crcByte (c : BitVec 64) (b : Byte) : BitVec 64 :=
  crcBit (crcBit (crcBit (crcBit (crcBit (crcBit (crcBit (crcBit (c ^^^ (b.zeroExtend 64 <<< 56)))))))))

def crc64 (bs : List Byte) : BitVec 64 := bs.foldl crcByte 0

/-- A store record under way: the number of its aligned 8-byte word, its mask and its data. -/
abbrev WordRec := Nat × BitVec 8 × BitVec 64

def WordRec.put (r : WordRec) (b : Nat) (v : Byte) : WordRec :=
  (r.1, r.2.1 ||| (1#8 <<< b), (r.2.2 &&& ~~~(0xFF#64 <<< (8 * b))) ||| (v.zeroExtend 64 <<< (8 * b)))

def addToRec : List WordRec → Nat → Nat → Byte → List WordRec
  | [], w, b, v => [WordRec.put (w, 0, 0) b v]
  | r :: rs, w, b, v => if r.1 = w then WordRec.put r b v :: rs else r :: addToRec rs w b v

/-- The term of one store record. -/
def recTerm (r : WordRec) : BitVec 64 := crc64 (leBytes 8 (8 * r.1) ++ r.2.1 :: leBytes 8 r.2.2.toNat)

/-- What one store adds to the digest of its launch. -/
def digestOf (puts : List Put) : Word :=
  let recs := (puts.filter (·.dig)).foldl (fun rs p => addToRec rs (p.va.toNat / 8) (p.va.toNat % 8) p.byte) []
  recs.foldl (fun d r => d + recTerm r) 0

/-- Apply `f` to the live launch `task` of `job`. -/
def State.onTask (s : State) (job task : Nat) (f : Task → Task) : State :=
  { s with dev := { s.dev with sched := { s.dev.sched with
      tasks := s.dev.sched.tasks.map fun t => if t.job = job ∧ t.id = task then f t else t } } }

def State.findTask (s : State) (job task : Nat) : Option Task :=
  s.dev.sched.tasks.find? fun t => t.job == job && t.id == task

def State.onJob (s : State) (job : Nat) (f : Job → Job) : State :=
  { s with dev := { s.dev with sched := { s.dev.sched with
      jobs := s.dev.sched.jobs.map fun j => if j.id = job then f j else j } } }

def State.findJob (s : State) (job : Nat) : Option Job := s.dev.sched.jobs.find? fun j => j.id == job

/-- Perform one store of launch `task` of `job`: to memory, less what goes to a fenced channel, which leaves poison
(R278), and into the digest of the launch (R246). -/
def State.store (s : State) (job task : Nat) (puts : List Put) : State :=
  let fenced := puts.filter fun p => s.dev.fencedAt p.loc
  let kept := if fenced = [] then puts else puts.filter fun p => !s.dev.fencedAt p.loc
  let s' := { s with mem := fenced.foldl (fun m p => m.mark p.loc) (s.mem.store kept) }
  if job = 0 then s'
  else s'.onTask job task fun t => { t with digest := t.digest + digestOf puts }

/-! ### Requests at the MSUs (R276, R280) -/

/-- TIME in nanoseconds (R35): one device-wide timebase, at 1.9 GHz. -/
def State.nowNs (s : State) : Nat := s.dev.clock.cycles * 10 / 19

/-- CLSIZE in bytes (R331). -/
def Dev.clsize (d : Dev) : Nat :=
  if d.host.clsCode = 0 then 0 else 2 ^ 25 * 2 ^ d.host.clsCode.toNat

/-- The DRAM row of a location within its channel (R269, R270, R276): 2 KiB each. -/
def Dev.rowOf (d : Dev) (loc : Nat) : Nat :=
  if loc < 2 ^ 52 then loc / 256 / 509 * 256 / 2048 else (2 ^ 31 - d.clsize + loc % 2 ^ 31) / 2048

/-- The outstanding requests of a channel (R276). -/
def State.outstanding (s : State) (ch : Nat) : Nat :=
  (s.dev.msu.queue.filter fun a => channelOf a.loc == some ch).length

/-- A DRAM transfer of `n` bytes on a channel is served: its row is open, and its budget is charged. -/
def Msu.serve (m : Msu) (ch row now n : Nat) : Msu :=
  { m with
    budgets := m.budgets.modify ch (· - n)
    openRows := (ch, row, now) :: m.openRows.filter fun r => !(r.1 == ch && r.2.1 == row) }

/-- Whether requests to a row of a channel are held: the channel's remap table is read again, or the row is retired
(R278). -/
def Msu.holding (m : Msu) (ch row : Nat) : Bool := m.holds.any fun h => h.channel == ch && h.row.all (· == row)

/-- Whether a request of a channel waits there for its budget (R280): it is not held. -/
def Dev.spentOn (d : Dev) (ch : Nat) : Bool :=
  d.msu.queue.any fun a => channelOf a.loc == some ch && !d.msu.holding ch (d.rowOf a.loc)

/-- A DRAM transfer of `n` bytes at a location. What it reads or writes is so already; the request waits, as a read of as
many bytes, while it is held (R278), and while its channel has spent its budget for the next interval (R280). R280 does not
say what becomes of a request that what is left of the budget covers in part: here it waits too, which is the model's choice
(notes/assumptions/16.md). On a fenced channel nothing is transferred: a request completes at once (R278). -/
def State.request (s : State) (loc n : Nat) : State :=
  match channelOf loc with
  | none => s
  | some ch =>
    let m := s.dev.msu
    let row := s.dev.rowOf loc
    let m' :=
      if m.holding ch row || s.dev.spentOn ch || decide (m.budgets.getD ch 0 < n) then
        { m with queue := m.queue ++ [⟨loc, List.replicate n 0, false, false⟩] }
      else m.serve ch row s.nowNs n
    if n = 0 ∨ m.fenced.contains ch then s else { s with dev := { s.dev with msu := m' } }

/-- The parts of `n` bytes at a location that lie in one 256-byte line each. -/
def lineParts (p : Nat × Nat) : List (Nat × Nat) :=
  (List.range ((p.1 % 256 + p.2 + 255) / 256)).map fun k =>
    let lo := max p.1 (256 * (p.1 / 256 + k))
    (lo, min (p.1 + p.2) (256 * (p.1 / 256 + k + 1)) - lo)

/-- Neighbours in one line become one transfer. -/
def joinParts : List (Nat × Nat) → List (Nat × Nat)
  | [] => []
  | p :: ps =>
    match joinParts ps with
    | [] => [p]
    | q :: qs => if p.1 / 256 = q.1 / 256 then (min p.1 q.1, min 256 (p.2 + q.2)) :: qs else p :: q :: qs

/-- The reads of these stretches at their MSUs: none of an elided line (R271). -/
def State.readTraffic (s : State) (spans : List (Nat × Nat)) : State :=
  (joinParts (spans.flatMap lineParts)).foldl
    (fun s p => if s.mem.elided.contains (p.1 / 256) then s else s.request p.1 p.2) s

/-- The parts of a write, each elided line among them taken whole and once (R271); `seen` holds such lines so far. -/
def wholeLines (elided : List Nat) : List Nat → List (Nat × Nat) → List (Nat × Nat)
  | _, [] => []
  | seen, p :: ps =>
    let line := p.1 / 256
    if !elided.contains line then p :: wholeLines elided seen ps
    else if seen.contains line then wholeLines elided seen ps
    else (p.1, 256) :: wholeLines elided (line :: seen) ps

/-- The writes of a store at their MSUs: none where the store only sets an elision bit, and the whole line, once, where it
clears one (R271). -/
def State.writeTraffic (s : State) (puts : List Put) : State :=
  (wholeLines s.mem.elided [] (joinParts (puts.map fun p => (p.loc, 1)))).foldl (fun s p =>
    if puts.any (·.zel) && elides puts (p.1 / 256) then s else s.request p.1 p.2) s

/-! ### What launches do between two energy updates (R342) -/

/-- A launch joins those that a core or an abacus has served. -/
def addLaunch (job task : Nat) (ls : List (Nat × Nat)) : List (Nat × Nat) :=
  if ls.contains (job, task) then ls else (job, task) :: ls

/-- A launch has moved `n` more bytes. -/
def addMoved (ms : List Moved) (job task n : Nat) : List Moved :=
  if ms.any fun m => m.job == job && m.task == task then
    ms.map fun m => if m.job = job ∧ m.task = task then { m with bytes := m.bytes + n } else m
  else ms ++ [⟨job, task, n⟩]

/-- `n` bytes are moved for launch `task` of `job`; what no job asks for is charged to none (R342). -/
def State.credit (s : State) (job task n : Nat) : State :=
  if job = 0 ∨ n = 0 then s
  else { s with dev := { s.dev with msu := { s.dev.msu with moved := addMoved s.dev.msu.moved job task n } } }

/-- Read these stretches for launch `task` of `job`, with the requests. -/
def State.readFor (s : State) (job task : Nat) (spans : List (Nat × Nat)) : State :=
  (s.readTraffic spans).credit job task ((spans.filter fun p => p.1 < spadBase).map (·.2)).sum

/-- Perform one store of launch `task` of `job`, with its requests. -/
def State.perform (s : State) (job task : Nat) (puts : List Put) : State :=
  ((s.writeTraffic puts).store job task puts).credit job task (puts.filter fun p => p.loc < spadBase).length

/-- Perform a store of a launch that its digest does not count (R246). -/
def State.performPlain (s : State) (job task : Nat) (puts : List Put) : State :=
  (s.perform 0 0 puts).credit job task (puts.filter fun p => p.loc < spadBase).length

/-! ### Request slots (R320-R324) -/

/-- The peer port whose enabled aperture holds a host physical address (R336). -/
def Dev.peerPort (d : Dev) (pa : Nat) : Option Nat :=
  (List.range 4).find? fun p =>
    let b := d.host.peerbase.getD p 0
    let port := d.host.ports.getD p ⟨0, false, 0⟩
    b.getLsbD 0 && port.mode == 2 && port.up && pa / 2 ^ 40 == b.toNat / 2 ^ 40

/-- Whether a host physical address lies in an enabled peer aperture (R336). -/
def Dev.inAperture (d : Dev) (pa : Nat) : Bool := (d.peerPort pa).isSome

/-- The destination queue of a header for a location (R323): the shoal of its MSU (R270); that of its tier port (R335); of
the peer port whose aperture holds a host address (R336), or else of the host port, on shoal 0 (R334); or the crossbar of
the isle for a scratchpad. -/
def Dev.destOf (d : Dev) (loc : Nat) : Nat :=
  if spadBase ≤ loc then 4
  else
    match channelOf loc with
    | some ch => ch / 128
    | none => if loc < 3 * 2 ^ 52 then loc % 2 ^ 52 / 2 ^ 41 % 4 else (d.peerPort (loc % 2 ^ 52)).getD 0

/-- The header of an access at a location, and that of a released scalar store of `n` bytes (R320, R322). -/
def Dev.packet (d : Dev) (loc : Nat) : Packet := ⟨d.destOf loc, loc, 0⟩
def Dev.storePacket (d : Dev) (loc n : Nat) : Packet := ⟨d.destOf loc, loc, n⟩

/-- A context issues headers: each takes one of its eight slots, and those that find none wait for one. -/
def Ctx.issueHeaders (c : Ctx) (packets : List Packet) : Ctx :=
  let k := 8 - c.flow.slots
  { c with flow := { c.flow with
      slots := c.flow.slots + (packets.take k).length, owed := c.flow.owed ++ packets.drop k } }

/-- The headers that a context issues stand at the port of its isle, and their responses are under way. -/
def Dev.takeHeaders (d : Dev) (c : Ctx) (packets : List Packet) : Dev :=
  let out := packets.take (8 - c.flow.slots)
  { d with fabric := { d.fabric with
    headers := d.fabric.headers ++ out.map fun x => ⟨c.place.isle, x, .context c.num⟩
    responses := d.fabric.responses ++ out.map fun _ => c.num } }

/-- The context that moves issues these headers. -/
def State.send (s : State) (packets : List Packet) : State :=
  { s with ctx := s.ctx.issueHeaders packets, dev := s.dev.takeHeaders s.ctx packets }

/-- The headers of an access that have still to be issued: those sent while it waited are out (R324). -/
def State.unsent (s : State) (packets : List Packet) : List Packet := packets.drop s.ctx.flow.sent

/-- Whether an access with these headers waits in the memory pipe (R324): a released store still waits for a slot, or fewer
slots are free than headers are left. -/
def State.pipeWaits (s : State) (packets : List Packet) : Bool :=
  s.ctx.flow.owed != [] || decide (8 < s.ctx.flow.slots + (s.unsent packets).length)

/-- An access that waits in the memory pipe issues as many of its headers as find a slot (R324). -/
def State.sendSome (s : State) (packets : List Packet) : State :=
  let out := (s.unsent packets).take (if s.ctx.flow.owed = [] then 8 - s.ctx.flow.slots else 0)
  let s := s.send out
  { s with ctx := { s.ctx with flow := { s.ctx.flow with sent := s.ctx.flow.sent + out.length } } }

/-- The last headers of an access are issued. -/
def State.sendRest (s : State) (packets : List Packet) : State :=
  let s := s.send (s.unsent packets)
  { s with ctx := { s.ctx with flow := { s.ctx.flow with sent := 0 } } }

/-- The headers of a context number that stand at its port: each holds a slot of that number until it is forwarded, also
when another context has taken the number (R323). -/
def State.slotsHeld (s : State) (who : CtxNo) : Nat :=
  (s.dev.fabric.headers.filter fun h => h.src == .context who).length

/-- The core of a context number. -/
def coreOfCtx (who : CtxNo) : Nat := coreOf (who.extractLsb' 8 4) (who.extractLsb' 4 3)

/-- What the write buffer of a core holds (R250, R322): the released scalar stores of its contexts to other places than
scratchpads, whose headers have not left the port of the isle. -/
def State.writeBuffer (s : State) (core : Nat) : List Packet :=
  let sent := s.dev.fabric.headers.filter fun h => match h.src with
    | .context w => coreOfCtx w == core
    | .streamer _ => false
  let owed := (s.contexts.filter fun c => c.place.coreNo == core).flatMap (·.flow.owed)
  (sent.map (·.packet) ++ owed).filter fun p => p.stored != 0 && p.loc < spadBase

/-- Whether the write buffer of a core answers a load of `n` bytes (R322): it holds every byte of it. -/
def State.bufferAnswers (s : State) (core loc n : Nat) : Bool :=
  (List.range n).all fun i => (s.writeBuffer core).any fun p => p.loc ≤ loc + i && loc + i < p.loc + p.stored

/-- Whether a location lies in the scratchpad of a core. -/
def inSpad (core loc : Nat) : Bool := spadLoc core 0 ≤ loc && loc < spadLoc (core + 1) 0

/-- The header of a buffered store (R322): none when it goes to the scratchpad of its core. -/
def Buffered.packets (b : Buffered) (d : Dev) (core : Nat) : List Packet :=
  ((b.puts.take 1).filter fun p => !inSpad core p.loc).map fun p => d.storePacket p.loc b.puts.length

/-- A store-buffer entry of the context that moves is released to memory (R29). -/
def State.release (s : State) (b : Buffered) : State :=
  (s.perform s.ctx.origin.job s.ctx.origin.task b.puts).send (b.packets s.dev s.ctx.place.coreNo)

/-- The context as program order has it at an instruction of its vector queue: with the scalar registers, VL, MSPACE, VCOUNT
and tags of its push and the stores before it; everything behind it is discarded (R26, R32, R112). -/
def Ctx.atHead (c : Ctx) (q : Queued) : Ctx :=
  { c with
    pc := q.pc
    regs := q.regs
    front := q.front
    vec := { c.vec with vl := q.vl, mspace := q.mspace }
    flow := { c.flow with
      status := .running, ahead := false, handlerFirst := false, ir := q.ir, queue := [], engine := none
      storeBuf := c.flow.storeBuf.filter fun b => b.after == 0 } }

/-- The context at its oldest instruction that is not complete (R28, R32, R33). -/
def Ctx.squash (c : Ctx) : Ctx :=
  match c.flow.queue with
  | [] => c
  | q :: _ => c.atHead q

/-- Release the store buffer to memory in program order (R29). -/
def State.drain (s : State) : State :=
  let s' := s.ctx.flow.storeBuf.foldl State.release s
  { s' with ctx := { s'.ctx with flow := { s'.ctx.flow with storeBuf := [] } } }

/-- The context is at the vector commit pointer: every store before it is released (R29). -/
def State.toPointer (s : State) : State := s.drain.setFlow fun f => { f with ahead := false, handlerFirst := false }

/-! ### Translation (R309-R313, R269) -/

/-- Whose access it is: the core whose TLB and window it uses, its mode, its table and address space. -/
structure Space where
  core : Nat
  user : Bool
  ptbase : Word
  asid : Word
deriving DecidableEq, Repr

/-- What an access needs (R312). An atomic needs write permission and is refused through a peer aperture (R336). -/
inductive Need | read | write | atomic | fetch
deriving DecidableEq, Repr

def Need.writes : Need → Bool
  | .write | .atomic => true
  | .read | .fetch => false

/-- A level of the walk: the lowest VA bit it indexes, its entries, and the page size of a leaf and of a grouped leaf
where they are allowed (R311). -/
structure Level where
  shift : Nat
  entries : Nat
  page : Option Nat
  grouped : Option Nat
deriving DecidableEq, Repr

def walkLevels : List Level :=
  [⟨48, 256, none, none⟩, ⟨39, 512, none, none⟩, ⟨30, 512, some (2 ^ 30), none⟩,
   ⟨21, 512, some (2 ^ 21), some (2 ^ 25)⟩, ⟨12, 512, some (2 ^ 12), some (2 ^ 16)⟩]

/-- A leaf that maps an address: where its entry stands, the entry, its page size, and the entries that the walk used. -/
structure Leaf where
  pteLoc : Nat
  pte : Word
  size : Nat
  path : List TlbEntry
deriving DecidableEq, Repr

/-- Why an access is not translated: refused (ACCESS), a translation fault with its detail (1 not valid, 2
malformed), or a poisoned table entry. -/
inductive Miss | access | fault (detail : Nat) | poison
deriving DecidableEq, Repr

/-- The location a table entry names: its physical address read by its kind (R269, R310). -/
def pteTarget (pte : Word) : Nat := pte.toNat / 2 ^ 10 % 4 * 2 ^ 52 + pte.toNat % 2 ^ 52 / 2 ^ 12 * 2 ^ 12

/-- The PTE without the A and D bits, which hardware sets. -/
def plainPte (pte : Word) : Word := pte &&& ~~~0x300

/-- Whether a core translates with what a holder has cached: its own TLB, and the walkers of its isle (R313). -/
def Holder.serves (h : Holder) (core : Nat) : Bool :=
  match h with
  | .tlb g => g == core
  | .walkers i => i == core / 8

/-- The entries cached for a core at a level of the walk of an address (R313). -/
def State.cachedEntries (s : State) (sp : Space) (va : Nat) (l : Level) : List TlbEntry :=
  s.dev.tlb.filter fun e => e.holder.serves sp.core && e.asid == sp.asid && e.shift == l.shift && e.key == va / e.span

/-- The table entry that stands at a location; nothing for a poisoned one. -/
def State.tableEntry (s : State) (loc : Nat) : Option (Nat × Word) :=
  if s.poisoned loc 8 then none else some (loc, BitVec.ofNat 64 (s.mem.number loc 8))

/-- Whether a cached entry is the one that stands in memory, its A and D bits aside. -/
def TlbEntry.isAt (e : TlbEntry) (fresh : Option (Nat × Word)) : Bool :=
  fresh.any fun x => x.1 == e.loc && plainPte x.2 == plainPte e.pte

/-- The cached entry that a walk uses at a level in place of the one that stands in memory, by a free choice among all of
them that differ (R313, notes/assumptions/10.md). -/
def State.staleEntry (s : State) (sp : Space) (va : Nat) (l : Level) (loc : Nat) : Option TlbEntry :=
  match (s.cachedEntries sp va l).filter fun e => !e.isAt (s.tableEntry loc) with
  | [] => none
  | es => es[Config.freeTlbUse s.tick va l.shift % (es.length + 1)]?

/-- The entry that a walk uses at a level whose table entry stands at `loc`: that in memory, or a cached one (R313). -/
def State.walkEntry (s : State) (sp : Space) (va : Nat) (l : Level) (loc : Nat) : Option (Nat × Word) :=
  match s.staleEntry sp va l loc with
  | some e => some (e.loc, e.pte)
  | none => s.tableEntry loc

/-- Whether a walk reads memory at a level (R311): no cached entry is used there. -/
def State.readsEntry (s : State) (sp : Space) (va : Nat) (l : Level) (loc : Nat) : Bool :=
  (s.staleEntry sp va l loc).isNone && !(s.cachedEntries sp va l).any fun e => e.isAt (s.tableEntry loc)

/-- The walk from a table on (R311). Where an entry names a table or a page outside the valid range of its kind, the
location is read as any other (notes/assumptions/10.md). -/
def State.walk (s : State) (sp : Space) (va : Nat) : List TlbEntry → List Level → Nat → Except Miss Leaf
  | _, [], _ => .error (.fault 2)
  | path, l :: rest, table =>
    match s.walkEntry sp va l (table + 8 * (va / 2 ^ l.shift % l.entries)) with
    | none => .error .poison
    | some (loc, pte) =>
      let entry := fun (h : Holder) (span : Nat) => (⟨h, sp.asid, l.shift, span, va / span, loc, pte⟩ : TlbEntry)
      let walkers := Holder.walkers (sp.core / 8)
      if !pte.getLsbD 0 then .error (.fault 1)
      else if pte.toNat / 2 ^ 52 ≠ 0 then .error (.fault 2)
      else if pte.getLsbD 1 then
        match (if pte.getLsbD 2 then l.grouped else l.page) with
        | none => .error (.fault 2)
        | some size =>
          if pteTarget pte % size = 0 then
            .ok ⟨loc, pte, size, path ++ [entry walkers size, entry (.tlb sp.core) size]⟩
          else .error (.fault 2)
      else if pte.getLsbD 2 || pte.getLsbD 11 then .error (.fault 2)
      else s.walk sp va (path ++ [entry walkers (2 ^ l.shift)]) rest (pteTarget pte)

/-- The locations of the table entries that the walk of an address from a table on reads in memory (R311). -/
def State.walkReads (s : State) (sp : Space) (va : Nat) : List Level → Nat → List Nat
  | [], _ => []
  | l :: rest, table =>
    let loc := table + 8 * (va / 2 ^ l.shift % l.entries)
    (if s.readsEntry sp va l loc then [loc] else []) ++
      match s.walkEntry sp va l loc with
      | none => []
      | some (_, pte) =>
        if pte.getLsbD 0 && !pte.getLsbD 1 && pte.toNat / 2 ^ 52 == 0 && !pte.getLsbD 2 && !pte.getLsbD 11 then
          s.walkReads sp va rest (pteTarget pte)
        else []

/-- The location of the level 0 table that a PTBASE names (R309): of kind 00, or of kind 01 where the device counts it
among those (notes/assumptions/18.md). -/
def Dev.rootTable (d : Dev) (ptbase : Word) : Nat :=
  let table := ptbase.toNat % 2 ^ 52 / 2 ^ 12 * 2 ^ 12
  if d.localTables.contains table then 2 ^ 52 + table else table

/-- The leaf used for an address. -/
def State.leaf (s : State) (sp : Space) (va : Nat) : Except Miss Leaf :=
  s.walk sp va [] walkLevels (s.dev.rootTable sp.ptbase)

/-- Whether a leaf permits an access (R312). -/
def permits (need : Need) (user : Bool) (pte : Word) : Bool :=
  (!need.writes || pte.getLsbD 3) && (need != .fetch || pte.getLsbD 4) &&
    (if user then pte.getLsbD 5 else !(need == .fetch && pte.getLsbD 5))

/-- Whether a location lies in the valid range of its kind (R269). Of host physical addresses R269 says only that the
host link decides; every one is accepted here (notes/assumptions/10.md). -/
def Dev.inRange (d : Dev) (loc : Nat) : Bool :=
  let pa := loc % 2 ^ 52
  match loc / 2 ^ 52 with
  | 0 => pa < 509 * (2 ^ 31 - d.clsize)
  | 1 => pa / 2 ^ 31 < 509 && pa % 2 ^ 31 < d.clsize
  | 2 =>
    let p := d.host.ports.getD (pa / 2 ^ 41) ⟨0, false, 0⟩
    pa / 2 ^ 41 < 4 && p.mode == 1 && pa % 2 ^ 41 < p.cap.toNat * 4096
  | _ => true

/-- The scratchpad region of a core in bytes (R198, R266). A core that is reserved for a launch has the region of the
launch also before its first unit and between two units, where R198 may mean by "hosts no unit" that it has none: the
model's choice (notes/assumptions/21.md). -/
def Core.spadBytes (c : Core) : Nat :=
  if c.host.isSome then c.part.toNat / 2 ^ 8 % 256 * 65536 else 0

/-- Where an access goes: its location, the address it was named by, the leaf that maps it (none for a scratchpad),
and the address space and core it was translated for. -/
structure Hit where
  loc : Nat
  va : Word
  leaf : Option Leaf
  space : Space
deriving DecidableEq, Repr

/-- Where an access goes through a leaf that maps its address: the permissions of the leaf, the range of the kind, and for
an atomic no peer aperture (R269, R312, R336). -/
def State.through (s : State) (sp : Space) (need : Need) (va : Word) (l : Leaf) : Except Miss Hit :=
  let loc := pteTarget l.pte + va.toNat % l.size
  if !permits need sp.user l.pte then .error .access
  else if !s.dev.inRange loc then .error .access
  else if need = .atomic ∧ loc / 2 ^ 52 = 3 ∧ s.dev.inAperture (loc % 2 ^ 52) then .error .access
  else .ok ⟨loc, va, some l, sp⟩

/-- Resolve one global address (R102 steps 2 to 4, R269, R309, R312, R336). -/
def State.resolve (s : State) (sp : Space) (need : Need) (va : Word) : Except Miss Hit :=
  let a := va.toNat
  if a / 2 ^ 56 ≠ 0 then .error .access
  else if a / 2 ^ 48 = 0xFF then
    let g := sp.core / 8 * 8 + a / 2 ^ 24 % 8
    if need = .fetch ∨ a % 2 ^ 48 / 2 ^ 27 ≠ 0 ∨ (s.core g).spadBytes ≤ a % 2 ^ 24 then .error .access
    else .ok ⟨spadLoc g (a % 2 ^ 24), va, none, sp⟩
  else
    match s.leaf sp a with
    | .error m => .error m
    | .ok l => s.through sp need va l

/-- Whether a cached entry takes the place of another that stands for the same addresses (R313): in the TLB of a core it
does; among the sixteen walkers of an isle another walker may hold the other still, unless the two are one entry but for
its A and D bits. -/
def TlbEntry.replaces (e x : TlbEntry) : Bool :=
  x.holder == e.holder && x.asid == e.asid && x.shift == e.shift && x.span == e.span && x.key == e.key &&
    match e.holder with
    | .tlb _ => true
    | .walkers _ => x.isAt (some (e.loc, e.pte))

/-- The entries of a walk are cached (R313). -/
def cacheEntries (tlb path : List TlbEntry) : List TlbEntry :=
  if path.all tlb.contains then tlb else path ++ tlb.filter fun x => !path.any fun e => e.replaces x

/-- The table entries that the walk of an address reads in memory (R311): none of an address that no table maps. -/
def State.walkSpans (s : State) (sp : Space) (va : Word) : List (Nat × Nat) :=
  if 0xFF ≤ va.toNat / 2 ^ 48 then []
  else (s.walkReads sp va.toNat walkLevels (s.dev.rootTable sp.ptbase)).map fun a => (a, 8)

/-- The table entries that the walks of these addresses read, up to the first address that is not translated. -/
def State.spansUntil (s : State) (sp : Space) (need : Need) : List Word → List (Nat × Nat)
  | [] => []
  | a :: as => s.walkSpans sp a ++ match s.resolve sp need a with
    | .error _ => []
    | .ok _ => s.spansUntil sp need as

/-- The reads of the walk of an address at their MSUs (R276, R280, R311). -/
def State.walkTraffic (s : State) (sp : Space) (va : Word) : State := s.readTraffic (s.walkSpans sp va)

/-- The walker's update before an allowed access: A, and D for a write (R312), as a write of the entry that no page
governs (R271), with the requests of the walk (R276, R280), and the cached entries (R313). -/
def State.touch (s : State) (need : Need) (h : Hit) : State :=
  match h.leaf with
  | none => s
  | some l =>
    let old := s.mem.read (l.pteLoc + 1)
    let new := old ||| (if need.writes then 3 else 1)
    let set := if new = old then [] else [(⟨l.pteLoc + 1, 0, new, false, false⟩ : Put)]
    let asked := (if l.path.all s.dev.tlb.contains then s else s.walkTraffic h.space h.va).writeTraffic set
    { asked with
      mem := if new = old then s.mem else s.mem.store set
      dev := { asked.dev with tlb := cacheEntries s.dev.tlb l.path } }

/-- The address space of a context's data accesses, and that of its fetch (R220). -/
def Ctx.space (c : Ctx) : Space := ⟨c.place.coreNo, c.user, c.trap.ptbase, c.trap.asid⟩
def Ctx.fetchSpace (c : Ctx) : Space := ⟨c.place.coreNo, c.user, c.flow.fetchPtbase, c.flow.fetchAsid⟩

/-- Whether stores through this hit may set elision bits, and count in the digest (R246, R271). -/
def Hit.zel (h : Hit) : Bool :=
  match h.leaf with
  | some l => l.pte.getLsbD 7 && h.loc < 2 * 2 ^ 52
  | none => false

def Hit.global (h : Hit) : Bool := h.leaf.isSome

/-- The bytes of one element stored at a hit. -/
def Hit.puts (h : Hit) (n v : Nat) : List Put :=
  (List.range n).map fun i =>
    ⟨h.loc + i, h.va + BitVec.ofNat 64 i, BitVec.ofNat 8 (v / 256 ^ i), h.zel, h.global⟩

/-! ### Stops -/

/-- How an instruction stops short of its effect: a trap; translation faults, lowest element first, each with its
record (R315); a stall, as for want of a request slot (R324); or an access of these headers waits in the memory pipe for
request slots. Memory that was read before the stop was found is asked of its MSUs all the same (R276, R280). -/
inductive Stop
  | trap (cause : Cause) (tval : Word)
  | faults (first : FaultRec) (rest : List FaultRec)
  | stall
  | headers (packets : List Packet)
  | asked (reads : List (Nat × Nat)) (e : Stop)
deriving DecidableEq, Repr

/-- A stop without the reads before it, and those reads. -/
def Stop.bare : Stop → Stop
  | .asked _ e => e.bare
  | e => e

def Stop.reads : Stop → List (Nat × Nat)
  | .asked rs e => rs ++ e.reads
  | _ => []

/-- A stop that comes after these reads. An instruction that stalls is executed again, and reads then. -/
def Stop.behind (reads : List (Nat × Nat)) : Stop → Stop
  | .stall => .stall
  | e => .asked reads e

/-- The code that TCAUSE takes (R39). -/
def Cause.code : Cause → Nat
  | .illegalInstr => 0x01 | .poolExec => 0x02 | .illegalTag => 0x03 | .illegalVl => 0x04 | .misalign => 0x05
  | .access => 0x06 | .page => 0x07 | .dataPoison => 0x08 | .devOvf => 0x09 | .vown => 0x0A | .preempt => 0x0B
  | .cancel => 0x0C | .tagBusy => 0x0D | .mxNogrant => 0x0E | .soft => 0x0F | .priv => 0x10 | .schedFull => 0x11
  | .rlqFree => 0x12 | .forkLimit => 0x13 | .joinNone => 0x14 | .detSpill => 0x15

/-- The record of a translation fault of the context (R315, R316). -/
def Ctx.faultRec (c : Ctx) (kind detail : Nat) (write : Bool) (elem : Nat) (va : Word) : FaultRec where
  outer := 0
  tag := 0
  flags := if write then 1 else 0
  detail := detail
  cause := 7
  loc := c.num.toNat
  kind := kind
  elem := elem
  unit := c.origin.unit
  launch := c.origin.task
  job := c.origin.job
  pc := c.pc.zeroExtend 64
  va := va

/-- The kind of a record for a context's scalar access (R316). -/
def Need.recKind : Need → Nat
  | .read => 0
  | .write => 1
  | .fetch => 4
  | .atomic => 6

/-- Whether an access leaves the core (R322). -/
def Hit.leaves (h : Hit) (core : Nat) : Bool := !inSpad core h.loc

/-- How an access that is not translated stops (R102, R311, R315); `kind` is that of its record. -/
def Ctx.missed (c : Ctx) (kind : Nat) (write : Bool) (va : Word) : Miss → Stop
  | .access => .trap .access va
  | .fault d => .faults (c.faultRec kind d write 0 va) []
  | .poison => .trap .dataPoison 0

/-- The stretches that an access of `n` bytes through a hit reads: the entries of its walk, and its bytes. -/
def State.accessSpans (s : State) (h : Hit) (n : Nat) : List (Nat × Nat) :=
  (if h.leaf.isSome then s.walkSpans h.space h.va else []) ++ [(h.loc, n)]

/-- Check a scalar access of `w` bytes (R102 steps 1 to 4): where it goes, or how it stops. -/
def State.locate (s : State) (need : Need) (w : Nat) (va : Word) : Except Stop Hit :=
  if va.toNat % w ≠ 0 then .error (.trap .misalign va)
  else
    match s.resolve s.ctx.space need va with
    | .error m => .error (.asked (s.walkSpans s.ctx.space va) (s.ctx.missed need.recKind need.writes va m))
    | .ok h => .ok h

/-- Whether an access waits for a request slot (R324): it needs one, and the context has none free. -/
def State.slotless (s : State) (h : Hit) : Bool := h.leaves s.ctx.place.coreNo && 8 ≤ s.ctx.flow.slots

/-- As `State.locate`; a context without a free request slot stalls an access that needs one (R324). -/
def State.probe (s : State) (need : Need) (w : Nat) (va : Word) : Except Stop Hit :=
  match s.locate need w va with
  | .error e => .error e
  | .ok h => if s.slotless h then .error .stall else .ok h

/-- The header of one access (R320). -/
def State.sendFor (s : State) (h : Hit) : State :=
  if h.leaves s.ctx.place.coreNo then s.send [s.dev.packet h.loc] else s

/-- The header of a scalar store of `n` bytes that is released at once (R322). -/
def State.sendStore (s : State) (h : Hit) (n : Nat) : State :=
  if h.leaves s.ctx.place.coreNo then s.send [s.dev.storePacket h.loc n] else s

/-! ### Interrupts (R331, R332) -/

/-- Raise an MSI-X vector: an interrupt, or pending while its entry is masked. Vectors 0 and 1 are not raised before
step 10 of a start (R349). -/
def Dev.msix (d : Dev) (v : Nat) : Dev :=
  if v < 2 ∧ d.start.memoryActive = false then d
  else if d.host.masked.getD v true then
    { d with host := { d.host with pending := d.host.pending.set v true } }
  else { d with host := { d.host with raised := d.host.raised.modify v (· + 1) } }

/-- Set a bit of JEVSTAT (2 RING, 1 FATAL, 0 JOBDONE); when it becomes set its vector is raised. -/
def Dev.jobEvent (d : Dev) (bit : Nat) : Dev :=
  if d.host.jevstat.getLsbD bit then d
  else
    let d' := { d with host := { d.host with jevstat := d.host.jevstat ||| BitVec.ofNat 64 (2 ^ bit) } }
    d'.msix (if bit = 2 then 0 else 1)

/-! ### The fault ring (R314-R317) -/

/-- The number of record slots, 0 while the ring is disabled. -/
def Ring.slots (r : Ring) : Nat := if r.size = 0 then 0 else 2 ^ (r.size.toNat % 32)

def State.ringOn (s : State) : Bool := s.dev.ring.size != 0

/-- The location of the consumer word. -/
def Ring.consumerLoc (r : Ring) : Nat := r.base.toNat + 64 * r.slots

/-- Read the consumer word while the ring is enabled, at its MSU (R276, R280): FRCONS takes what was observed. A ring that is
disabled has no consumer word: R314 does not say what a party that still waits on it compares against then, and here it is
the last value observed, which is the model's choice (notes/assumptions/24.md). -/
def State.observe (s : State) : State :=
  if s.dev.ring.size = 0 then s
  else
    let s := s.readTraffic [(s.dev.ring.consumerLoc, 8)]
    { s with dev := { s.dev with ring := { s.dev.ring with
        cons := BitVec.ofNat 64 (s.mem.number s.dev.ring.consumerLoc 8) } } }

/-- Whether there is room for a record, by the consumer word last observed. R315 names the case that PROD is FRSIZE past the
consumer word. Of a word that is further behind, or ahead of PROD, it does not speak: there is no room then either, the
difference taken modulo 2^64, which is the model's choice (notes/assumptions/24.md). -/
def Ring.room (r : Ring) : Bool := (r.prod - r.cons).toNat < r.slots

/-- The 64 bytes of a record (R316). -/
def FaultRec.bytes (r : FaultRec) (seq : Word) : List Byte :=
  leBytes 8 seq.toNat ++ leBytes 8 r.va.toNat ++ leBytes 8 r.pc.toNat ++ leBytes 4 r.job ++ leBytes 4 0 ++
    leBytes 4 r.launch ++ leBytes 4 r.unit ++ leBytes 3 r.elem ++ leBytes 1 r.kind ++ leBytes 2 r.loc ++
    leBytes 1 r.cause ++ leBytes 1 r.detail ++ leBytes 1 r.flags ++ leBytes 1 r.tag ++ leBytes 2 r.outer ++
    leBytes 12 0

/-- Write bytes at a location, as a write that no page governs. -/
def rawPuts (loc : Nat) (bs : List Byte) : List Put :=
  bs.mapIdx fun i b => ⟨loc + i, 0, b, false, false⟩

/-- Write one record at the next sequence number (R315): the consumer word is read (R317) and the record written at their
MSUs (R276, R280). -/
def State.writeRecord (s : State) (r : FaultRec) : State :=
  let s := s.observe
  let n := s.dev.ring.prod
  let puts := rawPuts (s.dev.ring.base.toNat + 64 * (n.toNat % s.dev.ring.slots)) (r.bytes n)
  let s := s.writeTraffic puts
  let d := if n = s.dev.ring.cons then s.dev.jobEvent 2 else s.dev
  { s with mem := s.mem.store puts, dev := { d with ring := { d.ring with prod := n + 1 } } }

/-- Write records while there is room; the rest is left (R315). -/
def State.writeRecords (s : State) : List FaultRec → State × List FaultRec
  | [] => (s, [])
  | r :: rs => if (s.observe).dev.ring.room then (s.writeRecord r).writeRecords rs else (s.observe, r :: rs)

/-- Whether `n` records can be written now: the ring is disabled, or has room for them (R315). -/
def State.canReport (s : State) (n : Nat) : Bool :=
  !s.ringOn || decide (((s.observe).dev.ring.prod - (s.observe).dev.ring.cons).toNat + n ≤ s.dev.ring.slots)

/-- Write the record of something that no context waits for, when the ring is enabled and has room. Who has no room
waits first (`State.canReport`). -/
def State.report (s : State) (r : FaultRec) : State :=
  if s.ringOn ∧ (s.observe).dev.ring.room then s.writeRecord r else s

/-- How a context stands after writing its records: parked until the consumer word passes the last of them, or
stalled with the rest (R315, R317). -/
def parkStatus (prod : Word) (left : List FaultRec) : Status :=
  if left = [] then .parked (prod - 1).toNat else .stalled left

/-- Park the context at its instruction (R317). -/
def State.park (s : State) (recs : List FaultRec) : State :=
  let (s', left) := s.writeRecords recs
  { s' with ctx := { s'.ctx with flow := { s'.ctx.flow with status := parkStatus s'.dev.ring.prod left, sent := 0 } } }

/-! ### Errors of a launch (R239, R318) -/

/-- Set the error bit of a launch, and with it that of its graph, its phase and its job. -/
def State.setErr (s : State) (job task : Nat) : State :=
  match s.findTask job task with
  | none => s
  | some t =>
    (s.onTask job task fun t => { t with err := true }).onJob job fun j =>
      let ph := (j.graphs.find? fun g => some g.id == t.graph).map (·.phase)
      { j with
        err := true
        graphs := j.graphs.map fun g => if some g.id = t.graph then { g with err := true } else g
        phases := j.phases.map fun p => if some p.num = ph then { p with err := true } else p }

/-! ### Taking a trap and returning from one (R301, R225) -/

/-- TSTAT with bit 0 MODE, bit 1 PMODE, bit 2 HBVALID, bit 3 HBLOST (R38). -/
def tstatWord (mode pmode hbvalid hblost : Bool) : Word :=
  BitVec.ofNat 64 (mode.toNat + 2 * pmode.toNat + 4 * hbvalid.toNat + 8 * hblost.toNat)

/-- Trap entry of a context at its pc (R301), for the handler address of its core. TINSTR takes the words fetched
at that pc. The pc has 56 bits: that bits 63:56 of TVEC are dropped as it takes its value, as those of TEPC are at RETT, is
the model's choice, since R37 and R301 give no rule for such a value (notes/assumptions/28.md). -/
def Ctx.enterTrap (c : Ctx) (cause : Cause) (tval tvec : Word) : Ctx :=
  let st := c.trap.tstat
  { c with
    pc := tvec.setWidth 56
    trap := { c.trap with
      tepc := c.pc.zeroExtend 64
      tcause := BitVec.ofNat 64 cause.code
      tval := tval
      tinstr := c.flow.ir
      tstat := tstatWord true (st.getLsbD 0) true (st.getLsbD 3 || (st.getLsbD 0 && st.getLsbD 2))
      hvl := BitVec.ofNat 64 c.vec.vl
      hvcount := BitVec.ofNat 64 c.front.vcount
      hmspace := c.vec.mspace.zeroExtend 64 }
    flow := { c.flow with
      status := .running, waitStart := none, waitOn := none, waitWord := none, handlerFirst := true, sent := 0 } }

/-- Take a trap at the instruction of the context that moves: every earlier store is released first (R32). -/
def State.takeTrap (s : State) (cause : Cause) (tval : Word) : State :=
  let s' := s.drain
  { s' with ctx := s'.ctx.enterTrap cause tval (s'.core s'.ctx.place.coreNo).tvec }

/-- Stop the instruction: trap, park or raise PAGE (R315), or wait. -/
def State.stop (s : State) (e : Stop) : State :=
  match e with
  | .trap cause tval => s.takeTrap cause tval
  | .faults r rs => if s.ringOn then s.drain.park (r :: rs) else s.takeTrap .page r.va
  | .stall => s.wait
  | .headers packets => (s.sendSome packets).wait
  | .asked reads e => (s.readTraffic reads).stop e

/-- The outcome of an instruction that ran from `s`. -/
def State.settle (s : State) : Except Stop State → Out
  | .ok s' => .next s'
  | .error e => .next (s.stop e)

/-- RETT of R225 in a context, in step `tick`: VL, VCOUNT and MSPACE come back while the bank is valid, the mode
returns to PMODE, and the pc to TEPC, less its bits 63:56 (notes/assumptions/28.md). VCOUNT is that of program order (R112);
the lane group takes it too where the context owns the vector state that it holds, and else keeps that of its owner (R305,
R307). It acts as ISYNC, so fetch takes the translation and the memory that stand now (R220, R264). -/
def Ctx.leaveTrap (c : Ctx) (tick since : Nat) : Ctx :=
  let st := c.trap.tstat
  let hv := st.getLsbD 2
  let n := c.trap.hvcount.toNat
  let front := { c.front with vcount := if n = 8 ∨ n = 16 ∨ n = 32 ∨ n = 64 then n else c.front.vcount }
  let c' := if hv then
      let c := { c with
        front := front
        vec := { c.vec with
          mspace := if c.trap.hmspace.toNat ≤ 2 then c.trap.hmspace.setWidth 2 else c.vec.mspace
          vl := min c.trap.hvl.toNat (c.vlmaxFor front) } }
      c.adopt tick
    else c
  { c' with
    pc := c.trap.tepc.setWidth 56 &&& ~~~3#56
    trap := { c'.trap with
      tstat := tstatWord (st.getLsbD 1) (st.getLsbD 1) false (st.getLsbD 3) }
    flow := { c'.flow with status := .running, fetchPtbase := c.trap.ptbase, fetchAsid := c.trap.asid, since := since } }

end Sys2Proof.Machine
end

