-- ==== Sys2Proof/Machine/Operands.lean ====
section
/-! DEFINITION. Operands: the element types and their values (R13, R67, R68, R73), tag dispatch (R82), the elements,
masks and anchors of a context's registers, and the checks that every queued instruction makes (R26, R48, R305). -/

namespace Sys2Proof.Machine

/-- The element types (R13). -/
inductive ElemType | fp32 | bf16 | i32 | n32 | i64 | n64 | i16 | i8 | n8 | d8 | d4
deriving DecidableEq, Repr

/-- The type of a type code; codes 11 to 15 are reserved. -/
def ElemType.ofCode : Nat → Option ElemType
  | 0 => some .fp32 | 1 => some .bf16 | 2 => some .i32 | 3 => some .n32 | 4 => some .i64 | 5 => some .n64
  | 6 => some .i16 | 7 => some .i8 | 8 => some .n8 | 9 => some .d8 | 10 => some .d4
  | _ => none

/-- Whether a tag may be set (R13): its type is not reserved, and it names no anchor unless it is a bead type. -/
def tagValid (tag : BitVec 8) : Bool :=
  match ElemType.ofCode (tag.toNat % 16) with
  | none => false
  | some .d8 | some .d4 => true
  | some _ => tag.toNat / 16 == 0

/-- The type of a tag that a register holds. -/
def tagType (tag : BitVec 8) : ElemType := (ElemType.ofCode (tag.toNat % 16)).getD .fp32

/-- The anchor register a tag names. -/
def tagAnchor (tag : BitVec 8) : Nat := tag.toNat / 16 % 16

def ElemType.isBead : ElemType → Bool
  | .d8 | .d4 => true
  | _ => false

def ElemType.isFloat : ElemType → Bool
  | .fp32 | .bf16 => true
  | _ => false

def ElemType.isInt (t : ElemType) : Bool := !t.isBead && !t.isFloat

def ElemType.isSigned : ElemType → Bool
  | .i8 | .i16 | .i32 | .i64 => true
  | _ => false

/-- The width of an element in bits (R13, R70). -/
def ElemType.bits : ElemType → Nat
  | .fp32 | .i32 | .n32 => 32
  | .bf16 | .i16 => 16
  | .i64 | .n64 => 64
  | .i8 | .n8 | .d8 => 8
  | .d4 => 4

/-- The bytes of a non-bead element. -/
def ElemType.bytes (t : ElemType) : Nat := t.bits / 8

/-- The rod length, and the largest deviation (R13, R70). -/
def ElemType.rod : ElemType → Nat
  | .d4 => 112
  | _ => 56

def ElemType.dmax : ElemType → Nat
  | .d4 => 7
  | _ => 127

/-- The format of a floating type. -/
def ElemType.format : ElemType → Format
  | .bf16 => Machine.bf16
  | _ => Machine.fp32

/-- The signed value of the low `w` bits. -/
def signedOf (w v : Nat) : Int :=
  let v := v % 2 ^ w
  if v < 2 ^ (w - 1) then v else (v : Int) - 2 ^ w

/-- The low `w` bits of an integer. -/
def wrapTo (w : Nat) (v : Int) : Nat := (v % 2 ^ w).toNat

/-- The integer an element of an integer type holds; the deviation code of a bead element (R67, R70). -/
def ElemType.int (t : ElemType) (bits : Nat) : Int :=
  if t.isSigned || t.isBead then signedOf t.bits bits else (bits % 2 ^ t.bits : Nat)

/-- The range of an integer type. -/
def ElemType.lo (t : ElemType) : Int := if t.isSigned then -(2 ^ (t.bits - 1) : Nat) else 0
def ElemType.hi (t : ElemType) : Int := (2 ^ (if t.isSigned then t.bits - 1 else t.bits) : Nat) - 1

/-- The exact value of a non-bead element. -/
def ElemType.value (t : ElemType) (bits : Nat) : Exact :=
  if t.isFloat then t.format.decode (bits % 2 ^ t.bits) else .ofInt (t.int bits)

/-- Deliver an exact value to a non-bead type (R68). -/
def ElemType.ofValue (t : ElemType) (v : Exact) : Nat :=
  if t.isFloat then t.format.round v else wrapTo t.bits (v.toIntSat t.lo t.hi)

/-- Deliver the bits of one non-bead type to another; into the same type they are unchanged (R68). -/
def ElemType.deliver (src dst : ElemType) (bits : Nat) : Nat :=
  if src = dst then bits % 2 ^ dst.bits else dst.ofValue (src.value bits)

/-- Extend an element to a scalar register (R138, R149). -/
def ElemType.extend (t : ElemType) (bits : Nat) : Word :=
  if t.isSigned then BitVec.ofInt 64 (t.int bits) else BitVec.ofNat 64 (bits % 2 ^ t.bits)

/-- Tag dispatch of two sources (R82). -/
def joinTypes (a b : ElemType) : Option ElemType :=
  if a = b then some a
  else if a.isFloat && b.isFloat then some .fp32
  else if a.isInt && b.isInt && a.isSigned == b.isSigned then some (if a.bits < b.bits then b else a)
  else if (a.isBead && b == .fp32) || (b.isBead && a == .fp32) then some .fp32
  else none

/-- Dispatch of three sources. -/
def joinTypes3 (a b d : ElemType) : Option ElemType := (joinTypes a b).bind fun t => joinTypes t d

/-! ### Anchor words (R71-R73) -/

def anchorCentre (w : Word) : Nat := w.toNat % 2 ^ 32
def anchorExp (w : Word) : Int := signedOf 8 (w.toNat / 2 ^ 32)
def anchorSat (w : Word) : Bool := w.getLsbD 40
def anchorGen (w : Word) : Nat := w.toNat / 2 ^ 48

/-- An anchor word with bits 47:41 zero (R71). -/
def anchorWord (gen : Nat) (sat : Bool) (exp : Int) (centre : Nat) : Word :=
  BitVec.ofNat 64 (gen % 2 ^ 16 * 2 ^ 48 + sat.toNat * 2 ^ 40 + wrapTo 8 exp * 2 ^ 32 + centre % 2 ^ 32)

/-- A NaN rod (R72). -/
def nanRod (w : Word) : Bool := anchorExp w ≤ -127

/-- The code of NaE (R70). -/
def ElemType.nae (t : ElemType) : Int := -(t.dmax + 1 : Nat)

/-- The exact value of the element with code `d` in a rod (R73). -/
def rodValue (t : ElemType) (w : Word) (d : Int) : Exact :=
  if nanRod w || d == t.nae then .nan
  else
    let c := fp32.decode (anchorCentre w)
    match c with
    | .num .. => if d = 0 then c else c.add (.num (d < 0) d.natAbs (anchorExp w))
    | _ => c

/-! ### Registers of a context -/

def Ctx.tag (c : Ctx) (v : VecNo) : BitVec 8 := c.vec.tags[v.toNat]'v.isLt

def Ctx.typ (c : Ctx) (v : VecNo) : ElemType := tagType (c.tag v)

def Ctx.vreg (c : Ctx) (v : VecNo) : VReg := c.vec.vecs[v.toNat]'v.isLt

/-- The raw bits of the first `n` elements, each below `2 ^ width`. -/
def Ctx.raw (c : Ctx) (v : VecNo) (n : Nat) : List Nat :=
  ((c.vreg v).first n).map fun b => b.toNat % 2 ^ (c.typ v).bits

/-- The anchor register bound to a bead register (R13). -/
def Ctx.anchorReg (c : Ctx) (v : VecNo) : VReg := c.vec.anchors[tagAnchor (c.tag v)]'(Nat.mod_lt _ (by decide))

/-- The first `n` lists of `k` elements each. -/
def chunks {α : Type} (k : Nat) : Nat → List α → List (List α)
  | 0, _ => []
  | n + 1, l => l.take k :: chunks k n (l.drop k)

/-- The rods below element `n` of a bead register: the anchor word and the codes of each (R74). -/
def Ctx.rods (c : Ctx) (v : VecNo) (n : Nat) : List (Word × List Int) :=
  let t := c.typ v
  let k := (n + t.rod - 1) / t.rod
  ((c.anchorReg v).first k).zip (chunks t.rod k ((c.raw v n).map t.int))

/-- The exact values of the first `n` elements of a register. -/
def Ctx.values (c : Ctx) (v : VecNo) (n : Nat) : List Exact :=
  let t := c.typ v
  if t.isBead then (c.rods v n).flatMap fun r => r.2.map (rodValue t r.1)
  else (c.raw v n).map t.value

/-- The first `n` elements read in a floating operation type: a bead element enters as RN_FP32 of its value (R82). -/
def Ctx.floats (c : Ctx) (v : VecNo) (n : Nat) : List Exact :=
  if (c.typ v).isBead then (c.values v n).map fun x => fp32.decode (fp32.round x) else c.values v n

/-- The first `n` elements of an integer register, extended to `w` bits by its signedness. -/
def Ctx.ints (c : Ctx) (v : VecNo) (n w : Nat) : List Nat := (c.raw v n).map fun b => wrapTo w ((c.typ v).int b)

def Ctx.mask (c : Ctx) (m : MaskNo) : Nat := c.vec.masks[m.toNat]'m.isLt

/-- active(i) for i < VL (R5). -/
def Ctx.active (c : Ctx) (mk : MaskNo) (i : Nat) : Bool := mk == 0 || (c.mask mk).testBit i

/-! ### Writing registers -/

def State.setVec (s : State) (f : VecState → VecState) : State :=
  { s with ctx := { s.ctx with vec := f s.ctx.vec } }

/-- Write listed elements (ascending) of a vector register. -/
def VecState.writeElems (vs : VecState) (v : VecNo) (new : List (Nat × Nat)) : VecState :=
  if new = [] then vs
  else
    let r := (vs.vecs[v.toNat]'v.isLt).write (new.map fun p => (p.1, BitVec.ofNat 64 p.2))
    { vs with vecs := vs.vecs.set v.toNat r v.isLt }

/-- Write listed entries (ascending) of anchor register `k`. -/
def VecState.writeAnchors (vs : VecState) (k : Nat) (new : List (Nat × Word)) : VecState :=
  if new = [] then vs
  else { vs with anchors := vs.anchors.mapFinIdx fun i r _ => if i = k then r.write new else r }

def VecState.setMask (vs : VecState) (m : MaskNo) (bits : Nat) : VecState :=
  { vs with masks := vs.masks.set m.toNat bits m.isLt }

/-- Add to a count field of `w` bits that stops at all ones (R22). -/
def countUp (w old n : Nat) : Nat := min (2 ^ w - 1) (old + n)

/-- Count resolved overflow events in DEVSTAT (R22, R81). -/
def VecState.countEvents (vs : VecState) (satn inl : Nat) : VecState :=
  if satn = 0 ∧ inl = 0 then vs
  else
    let d := vs.devstat.toNat
    let n := 2 ^ 63 + countUp 31 (d / 2 ^ 32 % 2 ^ 31) inl * 2 ^ 32 + countUp 32 (d % 2 ^ 32) satn
    { vs with devstat := BitVec.ofNat 64 n }

/-! ### Queued instructions -/

/-- Whether an accepted MXM has still to write an accumulator among `regs` (R217). -/
def State.mxmPending (s : State) (regs : List VecNo) : Bool :=
  s.dev.engines.cmds.any fun c =>
    match c.kind with
    | .mxm vacc .. =>
      c.state == .accepted && c.isle == s.ctx.place.isle && c.core == s.ctx.place.core &&
        c.slot == s.ctx.place.slot && regs.contains vacc
    | _ => false

/-- Run a queued instruction that names the vector registers `regs`: a register at or above the VCOUNT of its push raises
ILLEGAL_INSTR (R48), a foreign VOWNER raises VOWN (R305), an accumulator still to be written makes it wait (R217),
and otherwise it runs whole (R27). -/
def State.queuedAs (s : State) (regs : List VecNo) (body : State → Except Stop State) : Out :=
  if regs.any fun v => s.ctx.front.vcount ≤ v.toNat then .next (s.takeTrap .illegalInstr 0)
  else if !s.ctx.ownsVector then .next (s.takeTrap .vown 0)
  else if s.mxmPending regs then .next s.wait
  else s.settle (body s)

/-- Run a queued instruction of `len` bytes, and complete it. -/
def State.queued (s : State) (regs : List VecNo) (len : Nat) (body : State → Except Stop State) : Out :=
  s.queuedAs regs fun s => (body s).map fun s' => s'.retire len

/-- The vector registers of a context, as MXMs may still write them. -/
def allVecs : List VecNo := (List.range 64).map fun i => BitVec.ofNat 6 i

/-- Raise a trap. -/
def trap {α : Type} (cause : Cause) (tval : Word := 0) : Except Stop α := .error (.trap cause tval)

/-- VL as a TVAL. -/
def Ctx.vlWord (c : Ctx) : Word := BitVec.ofNat 64 c.vec.vl

/-- ILLEGAL_VL unless VL is a multiple of the rod length of the bead types that take part (R125, R154). -/
def Ctx.vlFits (c : Ctx) (types : List ElemType) : Bool :=
  if types.contains .d4 then c.vec.vl % 112 == 0
  else if types.contains .d8 then c.vec.vl % 56 == 0
  else true

/-- Run `k` unless VL does not fit the bead types that take part. -/
def State.withRods (s : State) (types : List ElemType) (k : Except Stop State) : Except Stop State :=
  if s.ctx.vlFits types then k else trap .illegalVl s.ctx.vlWord

end Sys2Proof.Machine
end

