-- ==== Sys2Proof/Machine/Crypto.lean ====
section
/-! DEFINITION. The algorithms that R345 names for the firmware image and R346 for its measurement: SHA-384, LMS with
parameter set LMS_SHA256_M32_H10 and LMOTS_SHA256_N32_W4, and ECDSA over P-384. The spec names them and does not repeat
them: they are those of FIPS 180-4, RFC 8554 and FIPS 186-5 (notes/assumptions/18.md). -/

namespace Sys2Proof.Machine

/-! ### The SHA-2 functions (FIPS 180-4) -/

/-- The `n` low bytes of a number, highest first. -/
def beBytes (n v : Nat) : List Byte := (leBytes n v).reverse

/-- The number that a list of bytes, highest first, holds. -/
def beNat (bs : List Byte) : Nat := leNat bs.reverse

/-- The integer part of the `k`-th root of `n`, of at most `bits` bits more than `r`. -/
def rootBits (k n : Nat) : Nat → Nat → Nat
  | 0, r => r
  | b + 1, r => rootBits k n b (if (r + 2 ^ b) ^ k ≤ n then r + 2 ^ b else r)

/-- The first `w` bits of the fraction of the `k`-th root of `p`, a number below 1,000. -/
def rootFraction (k w p : Nat) : Nat := rootBits k (p * 2 ^ (k * w)) (w + 6) 0 % 2 ^ w

/-- The first 80 primes. -/
def shaPrimes : List Nat :=
  (List.range 410).filter fun n => 2 ≤ n && (List.range n).all fun d => d < 2 || n % d != 0

/-- What tells SHA-256 and SHA-384 apart: the rounds, the rotations of the big sigmas, and the two rotations and the shift
of the small sigmas. -/
structure Sha2 (w : Nat) where
  rounds : Nat
  big0 : Nat × Nat × Nat
  big1 : Nat × Nat × Nat
  small0 : Nat × Nat × Nat
  small1 : Nat × Nat × Nat

def sha256Of : Sha2 32 := ⟨64, (2, 13, 22), (6, 11, 25), (7, 18, 3), (17, 19, 10)⟩
def sha384Of : Sha2 64 := ⟨80, (28, 34, 39), (14, 18, 41), (1, 8, 7), (19, 61, 6)⟩

def bigSigma {w : Nat} (r : Nat × Nat × Nat) (x : BitVec w) : BitVec w :=
  x.rotateRight r.1 ^^^ x.rotateRight r.2.1 ^^^ x.rotateRight r.2.2

def smallSigma {w : Nat} (r : Nat × Nat × Nat) (x : BitVec w) : BitVec w :=
  x.rotateRight r.1 ^^^ x.rotateRight r.2.1 ^^^ x >>> r.2.2

/-- The round constants. -/
def Sha2.constants {w : Nat} (h : Sha2 w) : List (BitVec w) :=
  (shaPrimes.take h.rounds).map fun p => BitVec.ofNat w (rootFraction 3 w p)

/-- The message schedule, the last word first: `n` words more, for the words so far. -/
def Sha2.schedule {w : Nat} (h : Sha2 w) : Nat → List (BitVec w) → List (BitVec w)
  | 0, ws => ws
  | n + 1, ws =>
    h.schedule n ((smallSigma h.small1 (ws.getD 1 0) + ws.getD 6 0 + smallSigma h.small0 (ws.getD 14 0) + ws.getD 15 0) :: ws)

/-- One round on the eight working variables. -/
def Sha2.round {w : Nat} (h : Sha2 w) (v : List (BitVec w)) (k : BitVec w × BitVec w) : List (BitVec w) :=
  match v with
  | [a, b, c, d, e, f, g, hh] =>
    let t1 := hh + bigSigma h.big1 e + ((e &&& f) ^^^ (~~~e &&& g)) + k.1 + k.2
    let t2 := bigSigma h.big0 a + ((a &&& b) ^^^ (a &&& c) ^^^ (b &&& c))
    [t1 + t2, a, b, c, d + t1, e, f, g]
  | _ => v

/-- One block of sixteen words. -/
def Sha2.block {w : Nat} (h : Sha2 w) (ks : List (BitVec w)) (v : List (BitVec w)) (bs : List Byte) : List (BitVec w) :=
  let ws := (chunks (w / 8) 16 bs).map fun b => BitVec.ofNat w (beNat b)
  let sched := (h.schedule (h.rounds - 16) ws.reverse).reverse
  List.zipWith (· + ·) v ((ks.zip sched).foldl h.round v)

/-- A message with its padding: a 1 bit, zeros, and its length in bits, to a multiple of the block. -/
def shaPad (w : Nat) (msg : List Byte) : List Byte :=
  let block := 2 * w
  let tail := w / 4
  let zeros := (2 * block - 1 - tail - msg.length % block) % block
  msg ++ 0x80 :: List.replicate zeros 0 ++ beBytes tail (8 * msg.length)

/-- The eight words of a hash from its first eight words. -/
def Sha2.hash {w : Nat} (h : Sha2 w) (start : List (BitVec w)) (msg : List Byte) : List (BitVec w) :=
  let bs := shaPad w msg
  (chunks (2 * w) (bs.length / (2 * w)) bs).foldl (h.block h.constants) start

/-- SHA-384, as a number. -/
def sha384 (msg : List Byte) : BitVec 384 :=
  let start := ((shaPrimes.drop 8).take 8).map fun p => BitVec.ofNat 64 (rootFraction 2 64 p)
  BitVec.ofNat 384 (beNat (((sha384Of.hash start msg).take 6).flatMap fun x => beBytes 8 x.toNat))

/-- SHA-256, as bytes. -/
def sha256 (msg : List Byte) : List Byte :=
  let start := (shaPrimes.take 8).map fun p => BitVec.ofNat 32 (rootFraction 2 32 p)
  (sha256Of.hash start msg).flatMap fun x => beBytes 4 x.toNat

/-! ### LMS (RFC 8554) -/

/-- The type codes of LMS_SHA256_M32_H10 and LMOTS_SHA256_N32_W4. -/
def lmsType : Nat := 6
def otsType : Nat := 3

/-- A part of an LMS signature or key. -/
def sigPart (bs : List Byte) (o n : Nat) : List Byte := (bs.drop o).take n

/-- The leaf index of an LMS signature. -/
def lmsLeaf (sig : List Byte) : Nat := beNat (sigPart sig 0 4)

/-- The half bytes of a list of bytes, the high one first. -/
def nibbles (bs : List Byte) : List Nat := bs.flatMap fun b => [b.toNat / 16, b.toNat % 16]

/-- The chain of hashes of one part `i` of a one-time signature from step `a` on: `n` steps. -/
def otsChain (pre : List Byte) (i : Nat) : Nat → Nat → List Byte → List Byte
  | 0, _, y => y
  | n + 1, a, y => otsChain pre i n (a + 1) (sha256 (pre ++ beBytes 2 i ++ beBytes 1 a ++ y))

/-- The public key of the one-time signature that a signature over a message gives (RFC 8554, algorithm 4b). -/
def otsKey (pre sig msg : List Byte) : List Byte :=
  let q := sha256 (pre ++ beBytes 2 0x8181 ++ sigPart sig 4 32 ++ msg)
  let sum := ((nibbles q).map fun a => 15 - a).sum
  let coefs := (nibbles (q ++ beBytes 2 (sum * 16))).take 67
  sha256 (pre ++ beBytes 2 0x8080 ++ coefs.zipIdx.flatMap fun a =>
    otsChain pre a.2 (15 - a.1) a.1 (sigPart sig (36 + 32 * a.2) 32))

/-- Up the tree from a node (RFC 8554, algorithm 6a): the root. -/
def lmsRoot (ident : List Byte) : Nat → List (List Byte) → List Byte → List Byte
  | _, [], x => x
  | node, p :: ps, x =>
    lmsRoot ident (node / 2) ps <| sha256 (ident ++ beBytes 4 (node / 2) ++ beBytes 2 0x8383 ++
      if node % 2 = 1 then p ++ x else x ++ p)

/-- Whether an LMS signature of a message verifies under a public key. -/
def lmsVerifies (key msg sig : List Byte) : Bool :=
  let q := lmsLeaf sig
  let ident := sigPart key 8 16
  let pre := ident ++ beBytes 4 q
  let ots := sigPart sig 4 2180
  let leaf := sha256 (ident ++ beBytes 4 (2 ^ 10 + q) ++ beBytes 2 0x8282 ++ otsKey pre ots msg)
  key.length == 56 && sig.length == 2508 && beNat (sigPart key 0 4) == lmsType && beNat (sigPart key 4 4) == otsType &&
    beNat (sigPart ots 0 4) == otsType && beNat (sigPart sig 2184 4) == lmsType && decide (q < 2 ^ 10) &&
    lmsRoot ident (2 ^ 10 + q) (chunks 32 10 (sigPart sig 2188 320)) leaf == sigPart key 24 32

/-! ### ECDSA over P-384 (FIPS 186-5) -/

/-- The prime of the field, the coefficient b of the curve (a is −3), the order of the group, and its generator. -/
def p384 : Nat := 2 ^ 384 - 2 ^ 128 - 2 ^ 96 + 2 ^ 32 - 1
def p384b : Nat :=
  0xb3312fa7e23ee7e4988e056be3f82d19181d9c6efe8141120314088f5013875ac656398d8a2ed19d2a85c8edd3ec2aef
def p384n : Nat :=
  0xffffffffffffffffffffffffffffffffffffffffffffffffc7634d81f4372ddf581a0db248b0a77aecec196accc52973
def p384g : Nat × Nat :=
  (0xaa87ca22be8b05378eb1c71ef320ad746e1d3b628ba79b9859f741e082542a385502f25dbf55296c3a545e3872760ab7,
    0x3617de4a96262c6f5d9e98bf9292dc29f8f41dbd289a147ce9da3113b5f0b8c00a60b1ce1d7e819d7a431d7c90ea0e5f)

/-- A power modulo `m`, of an exponent of at most 384 bits. -/
def powMod (m b e : Nat) : Nat :=
  (List.range 384).reverse.foldl (fun r i => if e.testBit i then r * r % m * b % m else r * r % m) 1

/-- The inverse modulo a prime. -/
def invMod (m x : Nat) : Nat := powMod m (x % m) (m - 2)

/-- A point of the curve; none is the point at infinity. -/
abbrev Point := Option (Nat × Nat)

/-- The third point of the line through two points, or of a tangent, of slope `l`, mirrored. -/
def chord (l : Nat) (a b : Nat × Nat) : Point :=
  let x := (l * l + 2 * p384 - a.1 - b.1) % p384
  some (x, (l * (a.1 + p384 - x) + p384 - a.2) % p384)

def pointAdd : Point → Point → Point
  | none, b => b
  | a, none => a
  | some a, some b =>
    if a.1 ≠ b.1 then chord ((b.2 + p384 - a.2) * invMod p384 (b.1 + p384 - a.1) % p384) a b
    else if a.2 = b.2 ∧ a.2 ≠ 0 then chord ((3 * a.1 * a.1 + p384 - 3) * invMod p384 (2 * a.2) % p384) a b
    else none

/-- A multiple of a point. -/
def pointMul (k : Nat) (a : Point) : Point :=
  (List.range 384).reverse.foldl (fun r i =>
    let r := pointAdd r r
    if k.testBit i then pointAdd r a else r) none

/-- Whether a pair of numbers is a point of the curve. -/
def onCurve (a : Nat × Nat) : Bool :=
  decide (a.1 < p384) && decide (a.2 < p384) && a.2 * a.2 % p384 == (a.1 ^ 3 + (p384 - 3) * a.1 + p384b) % p384

/-- Whether an ECDSA signature (r, s) over a digest verifies under a public key (x, y), both numbers of 48 bytes, the
highest first. -/
def ecdsaVerifies (key : List Byte) (digest : BitVec 384) (sig : List Byte) : Bool :=
  let q := (beNat (sigPart key 0 48), beNat (sigPart key 48 48))
  let r := beNat (sigPart sig 0 48)
  let t := beNat (sigPart sig 48 48)
  let w := invMod p384n t
  key.length == 96 && sig.length == 96 && onCurve q && decide (0 < r ∧ r < p384n ∧ 0 < t ∧ t < p384n) &&
    match pointAdd (pointMul (digest.toNat * w % p384n) (some p384g)) (pointMul (r * w % p384n) (some q)) with
    | none => false
    | some x => x.1 % p384n == r

end Sys2Proof.Machine
end

