-- ==== Sys2Proof/Machine/Classes.lean ====
section
/-! DEFINITION. Where an instruction executes, and which registers it names (spec/01 R26-R31, spec/02 R50): the scalar
thread, the vector queue and the pipes of the lane group. -/

namespace Sys2Proof.Machine

/-- The instructions that execute in the scalar thread, ahead of the vector commit pointer if need be (R29, R50). -/
def scalarClass : Instr → Bool
  | .add .. | .sub .. | .and .. | .or .. | .xor .. | .sll .. | .srl .. | .sra .. | .slt .. | .sltn .. | .min ..
  | .max .. | .minn .. | .maxn .. | .mul .. | .mulh .. | .mulhn .. | .div .. | .divn .. | .rem .. | .remn ..
  | .clz .. | .popc .. | .andn .. | .addi .. | .andi .. | .ori .. | .xori .. | .slti .. | .slli .. | .srli ..
  | .srai .. | .li .. | .liHi .. | .lds .. | .sts .. | .beq .. | .bne .. | .blt .. | .bge .. | .bltn ..
  | .bgen .. | .jal .. | .jalr .. | .fadds .. | .fsubs .. | .fmuls .. | .fdivs .. | .fmins .. | .fmaxs ..
  | .ffmas .. | .fsqrts .. | .fcvtsi .. | .fcvtis .. | .fclts .. | .fcles .. | .fceqs .. | .setvl .. | .setms ..
    => true
  | _ => false

/-- The memory instructions of the vector queue: their pipe executes them in queue order (R27, R324). NLFREE, which reads
what a STNL changes, stands among them. -/
def memoryPipe : Instr → Bool
  | .vld .. | .vldStrided .. | .vldIndexed .. | .vldFirstFault .. | .vldSc .. | .vldScIndexed .. | .vst ..
  | .vstStrided .. | .vstIndexed .. | .vstSc .. | .vstScIndexed .. | .vamoAdd .. | .vamoAnd .. | .vamoOr ..
  | .vamoXor .. | .vamoMin .. | .vamoMax .. | .vamoMinn .. | .vamoMaxn .. | .vamoFadd .. | .stnl .. | .rlq ..
  | .nlfree .. => true
  | _ => false

/-- The sequentially consistent accesses (R175). -/
def scAccess : Instr → Bool
  | .vldSc .. | .vldScIndexed .. | .vstSc .. | .vstScIndexed .. => true
  | _ => false

/-- The engine commands (R194). -/
def engineCommand : Instr → Bool
  | .acopyG2s .. | .acopyS2g .. | .acopyMcast .. | .acopyS2s .. | .agath .. | .mxm .. => true
  | _ => false

/-- The instructions of the arithmetic, permute and bead pipes (R27). -/
def lanePipe : Instr → Bool
  | .vadd .. | .vsub .. | .vmul .. | .vdiv .. | .vmin .. | .vmax .. | .vand .. | .vor .. | .vxor .. | .vsll ..
  | .vsrl .. | .vsra .. | .vfma .. | .vfnma .. | .vmov .. | .vcvt .. | .vabs .. | .vneg .. | .vsqrt ..
  | .vrsq .. | .vrcp .. | .vexp2 .. | .vlog2 .. | .vsel .. | .vgathr .. | .vcomp .. | .vexpd .. | .vscan ..
  | .vadds .. | .vsubs .. | .vrsubs .. | .vmuls .. | .vfmas .. | .vmins .. | .vmaxs .. | .vands .. | .vors ..
  | .vxors .. | .vslls .. | .vsrls .. | .vsras .. | .vsplat .. | .vslup .. | .vsldn .. | .vaddc .. | .vcmpEq ..
  | .vcmpNe .. | .vcmpLt .. | .vcmpLe .. | .vcmpGt .. | .vcmpGe .. | .vcmpUn .. | .vcmpsEq .. | .vcmpsNe ..
  | .vcmpsLt .. | .vcmpsLe .. | .vcmpsGt .. | .vcmpsGe .. | .vcmpsUn .. | .mand .. | .mor .. | .mxor ..
  | .mandn .. | .mnot .. | .mset .. | .mclr .. | .mpopc .. | .mffs .. | .msbf .. | .msif .. | .mmov ..
  | .vredSum .. | .vredMax .. | .vredMin .. | .vredAnd .. | .vredOr .. | .vext .. | .vins .. | .vtom ..
  | .vmtov .. | .viota .. | .vconfl .. | .vanch .. | .vanchz .. | .vranc .. | .agetc .. | .agete .. | .aput ..
  | .vdevs .. | .vbead .. => true
  | _ => false

/-- The instructions that the scalar thread pushes into the vector queue and leaves behind (R26, R50). -/
def pushed (i : Instr) : Bool :=
  memoryPipe i || engineCommand i || lanePipe i ||
    match i with
    | .vcfg .. | .vtag .. => true
    | _ => false

/-- The instructions of the scalar thread that write neither a scalar register nor VL nor MSPACE, and so make no entry of
the undo log (R29, R112). -/
def undoFree : Instr → Bool
  | .sts .. | .beq .. | .bne .. | .blt .. | .bge .. | .bltn .. | .bgen .. => true
  | _ => false

/-- The scalar registers of an operand of MXM, and the one that it advances (R215, R216). -/
def mxNamed : MxOperand → List Reg
  | .vec _ => []
  | .spad s0 s1 _ => [s0, s1]

def mxAdvanced : MxOperand → List Reg
  | .vec _ => []
  | .spad s0 _ _ => [s0]

/-- The scalar registers that an instruction of the scalar thread or of the vector queue reads or writes; JAL writes S31
(R97). -/
def scalarsOf : Instr → List Reg
  | .li a _ | .vcfg a _ | .vadds _ _ a _ | .vsubs _ _ a _ | .vrsubs _ _ a _ | .vmuls _ _ a _ | .vfmas _ _ a _
  | .vmins _ _ a _ | .vmaxs _ _ a _ | .vands _ _ a _ | .vors _ _ a _ | .vxors _ _ a _ | .vslls _ _ a _
  | .vsrls _ _ a _ | .vsras _ _ a _ | .vsplat _ a _ | .vslup _ _ a _ | .vsldn _ _ a _ | .vaddc _ _ a _
  | .vcmpsEq _ _ a _ | .vcmpsNe _ _ a _ | .vcmpsLt _ _ a _ | .vcmpsLe _ _ a _ | .vcmpsGt _ _ a _
  | .vcmpsGe _ _ a _ | .vcmpsUn _ _ a _ | .mpopc a _ | .mffs a _ | .vredSum a _ _ | .vredMax a _ _
  | .vredMin a _ _ | .vredAnd a _ _ | .vredOr a _ _ | .vld _ a _ _ | .vldIndexed _ a _ _ _
  | .vldFirstFault _ a _ _ | .vldSc _ a _ _ | .vldScIndexed _ a _ _ _ | .vst _ a _ _ | .vstIndexed _ a _ _ _
  | .vstSc _ a _ _ | .vstScIndexed _ a _ _ _ | .vamoAdd _ a _ _ _ | .vamoAnd _ a _ _ _ | .vamoOr _ a _ _ _
  | .vamoXor _ a _ _ _ | .vamoMin _ a _ _ _ | .vamoMax _ a _ _ _ | .vamoMinn _ a _ _ _ | .vamoMaxn _ a _ _ _
  | .vamoFadd _ a _ _ _ | .stnl a _ _ _ | .rlq a _ _ | .nlfree a _ => [a]
  | .clz a b | .popc a b | .addi a b _ | .andi a b _ | .ori a b _ | .xori a b _ | .slti a b _ | .slli a b _
  | .srli a b _ | .srai a b _ | .liHi a b _ | .lds a b _ _ _ | .sts a b _ _ _ | .beq a b _ | .bne a b _
  | .blt a b _ | .bge a b _ | .bltn a b _ | .bgen a b _ | .jalr a b _ | .fsqrts a b | .fcvtsi a b | .fcvtis a b
  | .vext a _ b | .vins a _ b | .agetc a _ b | .agete a _ b | .aput a _ b | .vldStrided _ a b _ _
  | .vstStrided _ a b _ _ => [a, b]
  | .add a b c | .sub a b c | .and a b c | .or a b c | .xor a b c | .sll a b c | .srl a b c | .sra a b c
  | .slt a b c | .sltn a b c | .min a b c | .max a b c | .minn a b c | .maxn a b c | .mul a b c | .mulh a b c
  | .mulhn a b c | .div a b c | .divn a b c | .rem a b c | .remn a b c | .andn a b c | .fadds a b c
  | .fsubs a b c | .fmuls a b c | .fdivs a b c | .fmins a b c | .fmaxs a b c | .ffmas a b c | .fclts a b c
  | .fcles a b c | .fceqs a b c | .setvl a b c _ | .acopyG2s a b c _ _ _ | .acopyS2g a b c _ _ _
  | .acopyMcast a b c _ _ _ _ | .acopyS2s a b c _ _ _ | .agath _ a b c _ _ => [a, b, c]
  | .jal _ => [31]
  | .mxm _ a b _ _ => mxNamed a ++ mxNamed b
  | _ => []

/-- The scalar registers that a queued instruction writes when it completes (R30, R216). -/
def resultRegs : Instr → List Reg
  | .vcfg rd _ | .mpopc rd _ | .mffs rd _ | .vredSum rd _ _ | .vredMax rd _ _ | .vredMin rd _ _
  | .vredAnd rd _ _ | .vredOr rd _ _ | .vext rd _ _ | .agetc rd _ _ | .agete rd _ _ | .stnl rd _ _ _
  | .nlfree rd _ => [rd]
  | .mxm _ a b _ _ => mxAdvanced a ++ mxAdvanced b
  | _ => []

/-- The vector registers that an instruction of the arithmetic, permute or bead pipe names. -/
def vecsOf : Instr → List VecNo
  | .vsplat a _ _ | .vcmpsEq _ a _ _ | .vcmpsNe _ a _ _ | .vcmpsLt _ a _ _ | .vcmpsLe _ a _ _
  | .vcmpsGt _ a _ _ | .vcmpsGe _ a _ _ | .vcmpsUn _ a _ _ | .vredSum _ a _ | .vredMax _ a _ | .vredMin _ a _
  | .vredAnd _ a _ | .vredOr _ a _ | .vext _ a _ | .vins _ a _ | .vtom a _ | .vmtov a _ | .viota a
  | .vconfl a _ | .vranc a _ => [a]
  | .vmov a b _ | .vcvt a b _ | .vabs a b _ | .vneg a b _ | .vsqrt a b _ | .vrsq a b _ | .vrcp a b _
  | .vexp2 a b _ | .vlog2 a b _ | .vcomp a b _ | .vexpd a b _ | .vscan a b _ | .vadds a b _ _ | .vsubs a b _ _
  | .vrsubs a b _ _ | .vmuls a b _ _ | .vfmas a b _ _ | .vmins a b _ _ | .vmaxs a b _ _ | .vands a b _ _
  | .vors a b _ _ | .vxors a b _ _ | .vslls a b _ _ | .vsrls a b _ _ | .vsras a b _ _ | .vslup a b _ _
  | .vsldn a b _ _ | .vaddc a b _ _ | .vcmpEq _ a b _ | .vcmpNe _ a b _ | .vcmpLt _ a b _ | .vcmpLe _ a b _
  | .vcmpGt _ a b _ | .vcmpGe _ a b _ | .vcmpUn _ a b _ | .vanch a b _ | .vanchz a b _ | .vdevs a b _
  | .vbead a b _ => [a, b]
  | .vadd a b c _ | .vsub a b c _ | .vmul a b c _ | .vdiv a b c _ | .vmin a b c _ | .vmax a b c _
  | .vand a b c _ | .vor a b c _ | .vxor a b c _ | .vsll a b c _ | .vsrl a b c _ | .vsra a b c _
  | .vfma a b c _ | .vfnma a b c _ | .vsel a b c _ | .vgathr a b c _ => [a, b, c]
  | _ => []

/-- Whether an instruction names an anchor register by its number (R159, R160). -/
def namesAnchor : Instr → Bool
  | .agetc .. | .agete .. | .aput .. => true
  | _ => false

/-- The vector register that a load writes. -/
def loadOf : Instr → Option VecNo
  | .vld vt _ _ _ | .vldStrided vt _ _ _ _ | .vldIndexed vt _ _ _ _ | .vldFirstFault vt _ _ _ | .vldSc vt _ _ _
  | .vldScIndexed vt _ _ _ _ => some vt
  | _ => none

/-- Whether an instruction is a first-fault load, which sets VL when it completes (R174). -/
def firstFaultLoad : Instr → Bool
  | .vldFirstFault .. => true
  | _ => false

end Sys2Proof.Machine
end

