-- ==== Sys2Proof/WellFormed.lean ====
section
/-! DEFINITION. Which instruction terms the encoding tables allow (spec/02 R45, R51-R53; spec/06 R143; spec/07 R153). -/

namespace Sys2Proof

/-- A 3-bit scope code of R53: 0 to 4. -/
def scopeOk (c : BitVec 3) : Bool := c.toNat ≤ 4

/-- The control registers whose WRC has a row of its own in the opcode table: DEVSTAT, ASID, FRBASE, FRSIZE,
RAMPCFG, PWRCAP and POOLCFG 0-7. -/
def wrcHasOwnRow (cr : BitVec 12) : Bool :=
  cr == 0x005#12 || cr == 0x80D#12 || cr == 0x810#12 || cr == 0x811#12 || cr == 0x820#12 || cr == 0x821#12
    || (0x830 ≤ cr.toNat && cr.toNat ≤ 0x837)

/-- The rows of the opcode table without an encoding: what an agent or an outside party does. -/
def Instr.isEvent : Instr → Bool
  | .storeRelease | .preempt _ | .cancelDelivery _ | .faultRingRoom _ | .parkResume _ | .consumerWordPoll
  | .rangeCheckerEntry _ | .mxmAccept _ | .mxmAccumulate _ | .copyFinish _ | .engineFault _ | .engineRetry _
  | .heldStoreRelease _ | .waitlChange _ | .waitlLimit _ | .placementCycle | .streamTransferEnd _ _ | .unitStart _ _
  | .unitResume _ _ _ | .launchComplete _ _ | .heldUpdateAccept _ | .registerPoisonKill _ | .msuAccess _
  | .rowClose _ _ | .scrub _ _ | .rowRetire _ _ _ | .remapReload _ _ | .freeMapRepair _ _ | .arbiterInterval _
  | .rampBoundary | .energyUpdate | .healthUpdate | .tideHonour _ | .tideSplitEffect _ | .headerForward _
  | .responseLanding _ | .hostMemRequest _ | .peerMemRequest _ _ | .jevstatWrite _ | .peerbaseWrite _ _
  | .doeRequest _ | .firmwarePush _ _ | .coldStart _ _ | .warmStart _ _ | .firmwareFetchTimeout | .bistRequest
  | .sidebandRead | .unassignedEncoding _ | .poolBlockFetch _ | .msixTableWrite _ _ | .straitLaneRetry _ => true
  | _ => false

/-- The field values that the encoding tables allow. A term that fails here has no encoding. -/
def Instr.wellFormed : Instr → Bool
  | .lds _ _ sz _ _ => sz != 7#3
  | .ldsa _ _ sz c _ => sz != 7#3 && scopeOk c
  | .stsl _ _ _ c _ => scopeOk c
  | .amoAdd _ _ _ c _ _ | .amoAnd _ _ _ c _ _ | .amoOr _ _ _ c _ _ | .amoXor _ _ _ c _ _ | .amoMin _ _ _ c _ _
  | .amoMax _ _ _ c _ _ | .amoMinn _ _ _ c _ _ | .amoMaxn _ _ _ c _ _ | .amoSwap _ _ _ c _ _
  | .amoCas _ _ _ c _ _ => scopeOk c
  | .amoFadd _ _ _ c _ => scopeOk c
  | .wrc _ cr => !wrcHasOwnRow cr
  | .fence k c => k != 3#2 && scopeOk c
  | .setms n => n != 3#2
  | .vsel _ _ _ mk => mk != 0#3
  | .agetc _ k _ | .agete _ k _ | .aput _ k _ => k.toNat < 16
  | .tide _ n => n != 0#3
  | i => !i.isEvent

end Sys2Proof
end

