-- ==== Sys2Proof/Decode.lean ====
section
/-! DEFINITION. Decoding and encoding (spec/02 R43-R53): a total decoder on bytes that rejects by name, the encoder
written from the same tables, and the decoder on the opcode table's own numbering of a word. -/

namespace Sys2Proof

/-- Bits `lo + n - 1` down to `lo` of an instruction word (R1). -/
def field (w : BitVec 32) (lo n : Nat) : BitVec n := w.extractLsb' lo n

/-- The major opcode, bits 31:26 (R43). -/
def majorOf (w : BitVec 32) : Nat := (field w 26 6).toNat

/-- The six long majors (R43). -/
def isLongMajor (m : Nat) : Bool := m == 0x08 || m == 0x28 || m == 0x29 || m == 0x2C || m == 0x2D || m == 0x2E

/-- Keep an instruction only if its field values are allowed (R45, R51, R52). -/
def Instr.checked (i : Instr) : Option Instr := if i.wellFormed then some i else none

/-- Keep an instruction only if the bits named zero are zero (R45). -/
def zeroed {n : Nat} (z : BitVec n) (i : Instr) : Option Instr := if z = 0 then some i else none

/-- Format F-S of major Alu by fn (R51). -/
def decodeAlu (w : BitVec 32) : Option Instr :=
  let rd := field w 21 5
  let ra := field w 16 5
  let rb := field w 11 5
  if field w 6 5 ≠ 0 then none else
  match (field w 0 6).toNat with
  | 0 => some (.add rd ra rb)
  | 1 => some (.sub rd ra rb)
  | 2 => some (.and rd ra rb)
  | 3 => some (.or rd ra rb)
  | 4 => some (.xor rd ra rb)
  | 5 => some (.sll rd ra rb)
  | 6 => some (.srl rd ra rb)
  | 7 => some (.sra rd ra rb)
  | 8 => some (.slt rd ra rb)
  | 9 => some (.sltn rd ra rb)
  | 10 => some (.min rd ra rb)
  | 11 => some (.max rd ra rb)
  | 12 => some (.minn rd ra rb)
  | 13 => some (.maxn rd ra rb)
  | 14 => some (.mul rd ra rb)
  | 15 => some (.mulh rd ra rb)
  | 16 => some (.mulhn rd ra rb)
  | 17 => some (.div rd ra rb)
  | 18 => some (.divn rd ra rb)
  | 19 => some (.rem rd ra rb)
  | 20 => some (.remn rd ra rb)
  | 21 => zeroed rb (.clz rd ra)
  | 22 => zeroed rb (.popc rd ra)
  | 23 => some (.andn rd ra rb)
  | _ => none

/-- Format F-S of major Fps by fn (R51). -/
def decodeFps (w : BitVec 32) : Option Instr :=
  let rd := field w 21 5
  let ra := field w 16 5
  let rb := field w 11 5
  if field w 6 5 ≠ 0 then none else
  match (field w 0 6).toNat with
  | 0 => some (.fadds rd ra rb)
  | 1 => some (.fsubs rd ra rb)
  | 2 => some (.fmuls rd ra rb)
  | 3 => some (.fdivs rd ra rb)
  | 4 => some (.fmins rd ra rb)
  | 5 => some (.fmaxs rd ra rb)
  | 6 => some (.ffmas rd ra rb)
  | 7 => zeroed rb (.fsqrts rd ra)
  | 8 => zeroed rb (.fcvtsi rd ra)
  | 9 => zeroed rb (.fcvtis rd ra)
  | 10 => some (.fclts rd ra rb)
  | 11 => some (.fcles rd ra rb)
  | 12 => some (.fceqs rd ra rb)
  | _ => none

/-- Major 0x06: imm16 15:8 zero, 7:6 the kind, 5:0 the amount (R51, R52, R94). -/
def decodeShi (w : BitVec 32) : Option Instr :=
  let rd := field w 21 5
  let ra := field w 16 5
  let n := field w 0 6
  if field w 8 8 ≠ 0 then none else
  match (field w 6 2).toNat with
  | 0 => some (.slli rd ra n)
  | 1 => some (.srli rd ra n)
  | 2 => some (.srai rd ra n)
  | _ => none

/-- Major 0x0D by aop (R51, R108). -/
def decodeAmo (w : BitVec 32) : Option Instr :=
  let rd := field w 21 5
  let ra := field w 16 5
  let rb := field w 11 5
  let c := field w 8 3
  let z := field w 3 1 == 1#1
  let o := field w 1 2
  if field w 0 1 ≠ 0 then none else
  match (field w 4 4).toNat with
  | 0 => (Instr.amoAdd rd ra rb c z o).checked
  | 1 => (Instr.amoAnd rd ra rb c z o).checked
  | 2 => (Instr.amoOr rd ra rb c z o).checked
  | 3 => (Instr.amoXor rd ra rb c z o).checked
  | 4 => (Instr.amoMin rd ra rb c z o).checked
  | 5 => (Instr.amoMax rd ra rb c z o).checked
  | 6 => (Instr.amoMinn rd ra rb c z o).checked
  | 7 => (Instr.amoMaxn rd ra rb c z o).checked
  | 8 => (Instr.amoSwap rd ra rb c z o).checked
  | 9 => (Instr.amoCas rd ra rb c z o).checked
  | 10 => if z then none else (Instr.amoFadd rd ra rb c o).checked
  | _ => none

/-- WRC by control register number: the registers with a row of their own, then every other (R51). -/
def decodeWrc (ra : Reg) (cr : BitVec 12) : Instr :=
  match cr.toNat with
  | 0x005 => .wrcDevstat ra
  | 0x80D => .wrcAsid ra
  | 0x810 => .wrcFaultRing ra false
  | 0x811 => .wrcFaultRing ra true
  | 0x820 => .wrcRampcfg ra
  | 0x821 => .wrcPwrcap ra
  | 0x830 => .wrcPoolcfg ra 0
  | 0x831 => .wrcPoolcfg ra 1
  | 0x832 => .wrcPoolcfg ra 2
  | 0x833 => .wrcPoolcfg ra 3
  | 0x834 => .wrcPoolcfg ra 4
  | 0x835 => .wrcPoolcfg ra 5
  | 0x836 => .wrcPoolcfg ra 6
  | 0x837 => .wrcPoolcfg ra 7
  | _ => .wrc ra cr

/-- Major 0x17 by sub (R51, R219). -/
def decodeSys (w : BitVec 32) : Option Instr :=
  let rd := field w 21 5
  let ra := field w 16 5
  let imm := field w 0 12
  match (field w 12 4).toNat with
  | 0 => zeroed ra (.rdc rd imm)
  | 1 => zeroed rd (decodeWrc ra imm)
  | 2 => if rd = 0 ∧ ra = 0 ∧ field w 5 7 = 0 then (Instr.fence (field w 3 2) (field w 0 3)).checked else none
  | 3 => if rd = 0 ∧ ra = 0 ∧ field w 8 4 = 0 then some (.sbar (field w 0 8)) else none
  | 4 => if rd = 0 ∧ ra = 0 ∧ imm = 0 then some .isync else none
  | 5 => if rd = 0 ∧ ra = 0 then some (.trap imm) else none
  | 6 => if rd = 0 ∧ ra = 0 ∧ imm = 0 then some .rett else none
  | 7 => if rd = 0 ∧ ra = 0 ∧ imm = 0 then some .exit else none
  | 8 => some (.waitl rd ra imm)
  | 9 => if rd = 0 ∧ ra = 0 ∧ imm = 0 then some .cnvy else none
  | 10 => if rd = 0 ∧ ra = 0 ∧ imm = 0 then some .yield else none
  | 11 => if rd = 0 ∧ imm = 0 then some (.vsave ra) else none
  | 12 => if rd = 0 ∧ imm = 0 then some (.vrstr ra) else none
  | _ => none

/-- Major 0x18 by sub (R51, R113). -/
def decodeVcf (w : BitVec 32) : Option Instr :=
  let rd := field w 21 5
  let ra := field w 16 5
  let rb := field w 11 5
  match (field w 8 3).toNat with
  | 0 => zeroed (field w 1 7) (.setvl rd ra rb (field w 0 1 == 1#1))
  | 1 => if rd = 0 ∧ ra = 0 ∧ rb = 0 ∧ field w 2 6 = 0 then (Instr.setms (field w 0 2)).checked else none
  | 2 => if ra = 0 ∧ rb = 0 ∧ field w 2 6 = 0 then some (.vcfg rd (field w 0 2)) else none
  | _ => none

/-- Major 0x1C by fn (R51, R123): format F-V. -/
def decodeVop (w : BitVec 32) : Option Instr :=
  let vd := field w 20 6
  let va := field w 14 6
  let vb := field w 8 6
  let mk := field w 5 3
  match (field w 0 5).toNat with
  | 0 => some (.vadd vd va vb mk)
  | 1 => some (.vsub vd va vb mk)
  | 2 => some (.vmul vd va vb mk)
  | 3 => some (.vdiv vd va vb mk)
  | 4 => some (.vmin vd va vb mk)
  | 5 => some (.vmax vd va vb mk)
  | 6 => some (.vand vd va vb mk)
  | 7 => some (.vor vd va vb mk)
  | 8 => some (.vxor vd va vb mk)
  | 9 => some (.vsll vd va vb mk)
  | 10 => some (.vsrl vd va vb mk)
  | 11 => some (.vsra vd va vb mk)
  | 12 => some (.vfma vd va vb mk)
  | 13 => some (.vfnma vd va vb mk)
  | 14 => zeroed vb (.vmov vd va mk)
  | 15 => zeroed vb (.vcvt vd va mk)
  | 16 => zeroed vb (.vabs vd va mk)
  | 17 => zeroed vb (.vneg vd va mk)
  | 18 => zeroed vb (.vsqrt vd va mk)
  | 19 => zeroed vb (.vrsq vd va mk)
  | 20 => zeroed vb (.vrcp vd va mk)
  | 21 => zeroed vb (.vexp2 vd va mk)
  | 22 => zeroed vb (.vlog2 vd va mk)
  | 23 => (Instr.vsel vd va vb mk).checked
  | 24 => some (.vgathr vd va vb mk)
  | 25 => zeroed vb (.vcomp vd va mk)
  | 26 => zeroed vb (.vexpd vd va mk)
  | 27 => zeroed vb (.vscan vd va mk)
  | _ => none

/-- Major 0x1D by fn (R51, R124): format F-VS. -/
def decodeVops (w : BitVec 32) : Option Instr :=
  let vd := field w 20 6
  let va := field w 14 6
  let sb := field w 9 5
  let mk := field w 6 3
  match (field w 0 6).toNat with
  | 0 => some (.vadds vd va sb mk)
  | 1 => some (.vsubs vd va sb mk)
  | 2 => some (.vrsubs vd va sb mk)
  | 3 => some (.vmuls vd va sb mk)
  | 4 => some (.vfmas vd va sb mk)
  | 5 => some (.vmins vd va sb mk)
  | 6 => some (.vmaxs vd va sb mk)
  | 7 => some (.vands vd va sb mk)
  | 8 => some (.vors vd va sb mk)
  | 9 => some (.vxors vd va sb mk)
  | 10 => some (.vslls vd va sb mk)
  | 11 => some (.vsrls vd va sb mk)
  | 12 => some (.vsras vd va sb mk)
  | 13 => zeroed va (.vsplat vd sb mk)
  | 14 => some (.vslup vd va sb mk)
  | 15 => some (.vsldn vd va sb mk)
  | 16 => some (.vaddc vd va sb mk)
  | _ => none

/-- Major 0x1E by cc (R51, R132): format F-VC. -/
def decodeVcmp (w : BitVec 32) : Option Instr :=
  let md := field w 23 3
  let va := field w 14 6
  let vb := field w 8 6
  let mk := field w 5 3
  if field w 0 5 ≠ 0 then none else
  match (field w 20 3).toNat with
  | 0 => some (.vcmpEq md va vb mk)
  | 1 => some (.vcmpNe md va vb mk)
  | 2 => some (.vcmpLt md va vb mk)
  | 3 => some (.vcmpLe md va vb mk)
  | 4 => some (.vcmpGt md va vb mk)
  | 5 => some (.vcmpGe md va vb mk)
  | 6 => some (.vcmpUn md va vb mk)
  | _ => none

/-- Major 0x1F by cc (R51, R132): format F-VC with a scalar. -/
def decodeVcmps (w : BitVec 32) : Option Instr :=
  let md := field w 23 3
  let va := field w 14 6
  let sb := field w 9 5
  let mk := field w 5 3
  if field w 8 1 ≠ 0 ∨ field w 0 5 ≠ 0 then none else
  match (field w 20 3).toNat with
  | 0 => some (.vcmpsEq md va sb mk)
  | 1 => some (.vcmpsNe md va sb mk)
  | 2 => some (.vcmpsLt md va sb mk)
  | 3 => some (.vcmpsLe md va sb mk)
  | 4 => some (.vcmpsGt md va sb mk)
  | 5 => some (.vcmpsGe md va sb mk)
  | 6 => some (.vcmpsUn md va sb mk)
  | _ => none

/-- Major 0x20 by fn (R51, R135): format F-K; a field an operation does not use is zero. -/
def decodeMop (w : BitVec 32) : Option Instr :=
  let rd := field w 21 5
  let ma := field w 18 3
  let mb := field w 15 3
  let md := field w 12 3
  if field w 0 8 ≠ 0 then none else
  match (field w 8 4).toNat with
  | 0 => zeroed rd (.mand md ma mb)
  | 1 => zeroed rd (.mor md ma mb)
  | 2 => zeroed rd (.mxor md ma mb)
  | 3 => zeroed rd (.mandn md ma mb)
  | 4 => if rd = 0 ∧ mb = 0 then some (.mnot md ma) else none
  | 5 => if rd = 0 ∧ ma = 0 ∧ mb = 0 then some (.mset md) else none
  | 6 => if rd = 0 ∧ ma = 0 ∧ mb = 0 then some (.mclr md) else none
  | 7 => if mb = 0 ∧ md = 0 then some (.mpopc rd ma) else none
  | 8 => if mb = 0 ∧ md = 0 then some (.mffs rd ma) else none
  | 9 => if rd = 0 ∧ mb = 0 then some (.msbf md ma) else none
  | 10 => if rd = 0 ∧ mb = 0 then some (.msif md ma) else none
  | 11 => if rd = 0 ∧ mb = 0 then some (.mmov md ma) else none
  | _ => none

/-- Major 0x21 by fn (R51, R149). -/
def decodeVred (w : BitVec 32) : Option Instr :=
  let rd := field w 21 5
  let va := field w 15 6
  let mk := field w 12 3
  if field w 0 8 ≠ 0 then none else
  match (field w 8 4).toNat with
  | 0 => some (.vredSum rd va mk)
  | 1 => some (.vredMax rd va mk)
  | 2 => some (.vredMin rd va mk)
  | 3 => some (.vredAnd rd va mk)
  | 4 => some (.vredOr rd va mk)
  | _ => none

/-- Major 0x22 by sub (R51, R137). -/
def decodeVxfr (w : BitVec 32) : Option Instr :=
  let rd := field w 21 5
  let v := field w 15 6
  let rb := field w 10 5
  let m := field w 7 3
  if field w 0 4 ≠ 0 then none else
  match (field w 4 3).toNat with
  | 0 => zeroed m (.vext rd v rb)
  | 1 => zeroed m (.vins rd v rb)
  | 2 => if rd = 0 ∧ rb = 0 then some (.vtom v m) else none
  | 3 => if rd = 0 ∧ rb = 0 then some (.vmtov v m) else none
  | 4 => if rd = 0 ∧ rb = 0 ∧ m = 0 then some (.viota v) else none
  | 5 => if rd = 0 ∧ rb = 0 then some (.vconfl v m) else none
  | _ => none

/-- Major 0x23 by fn (R51, R153). -/
def decodeBead (w : BitVec 32) : Option Instr :=
  let vd := field w 20 6
  let va := field w 14 6
  let vb := field w 8 6
  let mk := field w 5 3
  let rd := field w 21 5
  let sb := field w 9 5
  match (field w 0 5).toNat with
  | 0 => zeroed vb (.vanch vd va mk)
  | 1 => zeroed vb (.vanchz vd va mk)
  | 2 => if va = 0 ∧ vb = 0 then some (.vranc vd mk) else none
  | 3 => if field w 20 1 = 0 ∧ field w 8 1 = 0 ∧ mk = 0 then (Instr.agetc rd va sb).checked else none
  | 4 => if field w 20 1 = 0 ∧ field w 8 1 = 0 ∧ mk = 0 then (Instr.agete rd va sb).checked else none
  | 5 => if field w 20 1 = 0 ∧ field w 8 1 = 0 ∧ mk = 0 then (Instr.aput rd va sb).checked else none
  | 6 => zeroed vb (.vdevs vd va mk)
  | 7 => zeroed vb (.vbead vd va mk)
  | _ => none

/-- Major 0x24 by am (R51, R166): format F-VM. -/
def decodeVld (w : BitVec 32) : Option Instr :=
  let vt := field w 20 6
  let base := field w 15 5
  let ix := field w 9 6
  let mk := field w 6 3
  let st := field w 3 3
  match (field w 0 3).toNat with
  | 0 => zeroed ix (.vld vt base mk st)
  | 1 => zeroed (field w 9 1) (.vldStrided vt base (field w 10 5) mk st)
  | 2 => some (.vldIndexed vt base ix mk st)
  | 3 => zeroed ix (.vldFirstFault vt base mk st)
  | 4 => zeroed ix (.vldSc vt base mk st)
  | 5 => some (.vldScIndexed vt base ix mk st)
  | _ => none

/-- Major 0x25 by am (R51, R166): format F-VM. -/
def decodeVst (w : BitVec 32) : Option Instr :=
  let vt := field w 20 6
  let base := field w 15 5
  let ix := field w 9 6
  let mk := field w 6 3
  let st := field w 3 3
  match (field w 0 3).toNat with
  | 0 => zeroed ix (.vst vt base mk st)
  | 1 => zeroed (field w 9 1) (.vstStrided vt base (field w 10 5) mk st)
  | 2 => some (.vstIndexed vt base ix mk st)
  | 4 => zeroed ix (.vstSc vt base mk st)
  | 5 => some (.vstScIndexed vt base ix mk st)
  | _ => none

/-- Major 0x26 by aop (R51, R180). -/
def decodeVamo (w : BitVec 32) : Option Instr :=
  let vv := field w 20 6
  let base := field w 15 5
  let vx := field w 9 6
  let mk := field w 6 3
  let c := field w 0 2
  match (field w 2 4).toNat with
  | 0 => some (.vamoAdd vv base vx mk c)
  | 1 => some (.vamoAnd vv base vx mk c)
  | 2 => some (.vamoOr vv base vx mk c)
  | 3 => some (.vamoXor vv base vx mk c)
  | 4 => some (.vamoMin vv base vx mk c)
  | 5 => some (.vamoMax vv base vx mk c)
  | 6 => some (.vamoMinn vv base vx mk c)
  | 7 => some (.vamoMaxn vv base vx mk c)
  | 10 => some (.vamoFadd vv base vx mk c)
  | _ => none

/-- Major 0x27 by sub (R51, R187). -/
def decodeNls (w : BitVec 32) : Option Instr :=
  let rd := field w 21 5
  let ra := field w 16 5
  let vs := field w 10 6
  let pool := field w 7 3
  let st := field w 4 3
  match (field w 0 4).toNat with
  | 0 => zeroed ra (.stnl rd vs pool st)
  | 1 => if rd = 0 ∧ vs = 0 then some (.rlq ra pool st) else none
  | 2 => if ra = 0 ∧ vs = 0 ∧ st = 0 then some (.nlfree rd pool) else none
  | _ => none

/-- Major 0x2A by sub (R51, R205). -/
def decodeTagop (w : BitVec 32) : Option Instr :=
  let rd := field w 21 5
  let ra := field w 16 5
  if field w 0 12 ≠ 0 then none else
  match (field w 12 4).toNat with
  | 0 => some (.waitany rd ra)
  | 1 => some (.waitall rd ra)
  | 2 => some (.ffrt rd ra)
  | 3 => zeroed rd (.tagclr ra)
  | 4 => some (.tagerr rd ra)
  | _ => none

/-- Major 0x2B by sub (R51, R208). -/
def decodeMxa (w : BitVec 32) : Option Instr :=
  let rd := field w 21 5
  let ra := field w 16 5
  if field w 0 12 ≠ 0 then none else
  match (field w 12 4).toNat with
  | 0 => some (.mxatt rd ra)
  | 1 => some (.mxattw rd ra)
  | 2 => if rd = 0 ∧ ra = 0 then some .mxdet else none
  | _ => none

/-- Major 0x2F by sub (R51, R52, R234). -/
def decodeSchd (w : BitVec 32) : Option Instr :=
  let rd := field w 21 5
  let ra := field w 16 5
  let imm := field w 0 12
  let level := field w 0 2
  match (field w 12 4).toNat with
  | 0 => zeroed imm (.tdep rd ra)
  | 1 =>
    if ra ≠ 0 ∨ field w 1 11 ≠ 0 then none
    else if field w 0 1 = 0 then some (.graphOpen rd)
    else zeroed rd .graphClose
  | 2 => if ra = 0 ∧ imm = 0 then some (.phase rd) else none
  | 3 => zeroed (field w 2 10) (.cnt rd ra level)
  | 4 => zeroed (field w 2 10) (.waitc rd ra level)
  | 5 =>
    if rd ≠ 0 ∨ field w 3 9 ≠ 0 then none
    else if field w 2 1 = 0 then some (.cancel ra level)
    else if level = 3 then some (.jobKill ra) else none
  | 6 => zeroed imm (.job rd ra)
  | 7 => if ra = 0 ∧ field w 3 9 = 0 then (Instr.tide rd (field w 0 3)).checked else none
  | 8 => zeroed imm (.rddig rd ra)
  | _ => none

/-- The one-word instructions by major (R50). -/
def decodeShort (w : BitVec 32) : Option Instr :=
  let rd := field w 21 5
  let ra := field w 16 5
  let imm := field w 0 16
  match majorOf w with
  | 0x01 => decodeAlu w
  | 0x02 => some (.addi rd ra imm)
  | 0x03 => some (.andi rd ra imm)
  | 0x04 => some (.ori rd ra imm)
  | 0x05 => some (.xori rd ra imm)
  | 0x06 => decodeShi w
  | 0x07 => some (.slti rd ra imm)
  | 0x09 => (Instr.lds rd ra (field w 13 3) (field w 10 3) (field w 0 10)).checked
  | 0x0A => zeroed (field w 13 1) (.sts rd ra (field w 14 2) (field w 10 3) (field w 0 10))
  | 0x0B => (Instr.ldsa rd ra (field w 13 3) (field w 10 3) (field w 0 10)).checked
  | 0x0C => if field w 13 1 = 0 then (Instr.stsl rd ra (field w 14 2) (field w 10 3) (field w 0 10)).checked else none
  | 0x0D => decodeAmo w
  | 0x0E => some (.beq rd ra imm)
  | 0x0F => some (.bne rd ra imm)
  | 0x10 => some (.blt rd ra imm)
  | 0x11 => some (.bge rd ra imm)
  | 0x12 => some (.bltn rd ra imm)
  | 0x13 => some (.bgen rd ra imm)
  | 0x14 => some (.jal (field w 0 26))
  | 0x15 => some (.jalr rd ra imm)
  | 0x16 => decodeFps w
  | 0x17 => decodeSys w
  | 0x18 => decodeVcf w
  | 0x19 => zeroed (field w 0 12) (.vtag (field w 20 6) (field w 16 4) (field w 12 4))
  | 0x1A => some (.forkl rd (field w 0 21))
  | 0x1B => zeroed (field w 0 26) .joinl
  | 0x1C => decodeVop w
  | 0x1D => decodeVops w
  | 0x1E => decodeVcmp w
  | 0x1F => decodeVcmps w
  | 0x20 => decodeMop w
  | 0x21 => decodeVred w
  | 0x22 => decodeVxfr w
  | 0x23 => decodeBead w
  | 0x24 => decodeVld w
  | 0x25 => decodeVst w
  | 0x26 => decodeVamo w
  | 0x27 => decodeNls w
  | 0x2A => decodeTagop w
  | 0x2B => decodeMxa w
  | 0x2F => decodeSchd w
  | _ => none

/-- Word 1 of LI. -/
def decodeLi (w : BitVec 32) : Option (BitVec 32 → Option Instr) :=
  let rd := field w 21 5
  let ra := field w 16 5
  if field w 11 5 ≠ 0 ∨ field w 0 9 ≠ 0 then none else
  match (field w 9 2).toNat with
  | 0 => if ra = 0 then some fun w1 => some (.li rd w1) else none
  | 1 => some fun w1 => some (.liHi rd ra w1)
  | _ => none

/-- Word 1 of ACOPY: outer count, core mask and element size (R197); a core mask is used by kind 10 only. -/
def decodeAcopy (w : BitVec 32) : Option (BitVec 32 → Option Instr) :=
  let st := field w 21 5
  let src := field w 16 5
  let dst := field w 11 5
  let tag := field w 5 6
  if field w 3 2 ≠ 0 ∨ field w 0 1 ≠ 0 then none else
  some fun w1 =>
    let outer := field w1 16 16
    let cores := field w1 8 8
    let esz := field w1 0 2
    if field w1 2 6 ≠ 0 then none else
    match (field w 1 2).toNat with
    | 0 => zeroed cores (.acopyG2s st src dst tag outer esz)
    | 1 => zeroed cores (.acopyS2g st src dst tag outer esz)
    | 2 => some (.acopyMcast st src dst tag outer cores esz)
    | _ => zeroed cores (.acopyS2s st src dst tag outer esz)

/-- Word 1 of AGATH: the tag (R201). -/
def decodeAgath (w : BitVec 32) : Option (BitVec 32 → Option Instr) :=
  if field w 0 2 ≠ 0 then none else
  some fun w1 => zeroed (field w1 6 26)
    (.agath (field w 20 6) (field w 15 5) (field w 10 5) (field w 5 5) (field w 2 3) (field w1 0 6))

/-- A scratchpad operand's type code (R212); 11 is forbidden (R52). -/
def decodeMxType (t : BitVec 2) : Option MxType :=
  match t.toNat with
  | 0 => some .d8
  | 1 => some .d4
  | 2 => some .bf16
  | _ => none

/-- One operand of MXM: with its word 0 bit clear a vector register, whose descriptor fields are zero, and with it
set a descriptor pair, whose vector field is zero (R52, R212). -/
def decodeMxOperand (spad : BitVec 1) (v : VecNo) (s0 s1 : Reg) (t : BitVec 2) : Option MxOperand :=
  if spad = 1#1 then
    if v = 0 then (decodeMxType t).map (.spad s0 s1) else none
  else if s0 = 0 ∧ s1 = 0 ∧ t = 0 then some (.vec v) else none

/-- Word 1 of MXM (R212). -/
def decodeMxm (w : BitVec 32) : Option (BitVec 32 → Option Instr) :=
  let va := field w 14 6
  let vb := field w 8 6
  let sa := field w 7 1
  let sb := field w 6 1
  if field w 0 6 ≠ 0 ∨ (sa = 1#1 ∧ va ≠ 0) ∨ (sb = 1#1 ∧ vb ≠ 0) then none else
  some fun w1 =>
    match decodeMxOperand sa va (field w1 0 5) (field w1 5 5) (field w1 20 2),
          decodeMxOperand sb vb (field w1 10 5) (field w1 15 5) (field w1 22 2) with
    | some a, some b => some (.mxm (field w 20 6) a b (field w1 25 7) (field w1 24 1 == 1#1))
    | _, _ => none

/-- Word 1 of TASK: the initial dependence count (R232). -/
def decodeTask (w : BitVec 32) : Option (BitVec 32 → Option Instr) :=
  if field w 0 16 ≠ 0 then none else
  some fun w1 => zeroed (field w1 16 16) (.task (field w 21 5) (field w 16 5) (field w1 0 16))

/-- Word 1 of XFER: the byte count (R233). -/
def decodeXfer (w : BitVec 32) : Option (BitVec 32 → Option Instr) :=
  if field w 0 9 ≠ 0 then none else
  match (field w 9 2).toNat with
  | 0 => some fun w1 => some (.xferBcast (field w 21 5) (field w 16 5) (field w 11 5) w1)
  | 1 => some fun w1 => some (.xferSplit (field w 21 5) (field w 16 5) (field w 11 5) w1)
  | _ => none

/-- Word 0 of a long instruction: none where word 0 is illegal whatever word 1 holds, else how word 1 is read. -/
def decodeLong (w : BitVec 32) : Option (BitVec 32 → Option Instr) :=
  match majorOf w with
  | 0x08 => decodeLi w
  | 0x28 => decodeAcopy w
  | 0x29 => decodeAgath w
  | 0x2C => decodeMxm w
  | 0x2D => decodeTask w
  | 0x2E => decodeXfer w
  | _ => none

/-- The instruction that word 0 and, for a long major, word 1 encode. -/
def decodeWords (w0 w1 : BitVec 32) : Option Instr :=
  if isLongMajor (majorOf w0) then (decodeLong w0).bind (· w1) else decodeShort w0

/-- Why bytes hold no instruction: there are too few of them, or the word is one that raises ILLEGAL_INSTR (R45). -/
inductive DecodeError
  | tooShort
  | illegal (w0 : BitVec 32)
deriving DecidableEq, Repr

/-- One little-endian word and the bytes after it (R1). -/
def takeWord : List Byte → Option (BitVec 32 × List Byte)
  | b0 :: b1 :: b2 :: b3 :: rest => some (b3 ++ b2 ++ b1 ++ b0, rest)
  | _ => none

/-- The decoder on bytes: the instruction and the bytes after it, or a rejection by name (R43, R45). -/
def decode (bs : List Byte) : Except DecodeError (Instr × List Byte) :=
  match takeWord bs with
  | none => .error .tooShort
  | some (w0, rest) =>
    if isLongMajor (majorOf w0) then
      match takeWord rest with
      | none => .error .tooShort
      | some (w1, rest') =>
        match decodeWords w0 w1 with
        | some i => .ok (i, rest')
        | none => .error (.illegal w0)
    else
      match decodeShort w0 with
      | some i => .ok (i, rest)
      | none => .error (.illegal w0)

/-! ## The encoder -/

/-- Format F-S (R47). -/
def packS (major : BitVec 6) (rd ra rb : Reg) (fn : BitVec 6) : BitVec 32 := major ++ rd ++ ra ++ rb ++ 0#5 ++ fn

/-- Formats F-I and F-B (R47). -/
def packI (major : BitVec 6) (rd ra : Reg) (imm : BitVec 16) : BitVec 32 := major ++ rd ++ ra ++ imm

/-- Format F-M (R47). -/
def packM (major : BitVec 6) (rd ra : Reg) (sz st : BitVec 3) (off : BitVec 10) : BitVec 32 :=
  major ++ rd ++ ra ++ sz ++ st ++ off

/-- Format F-A (R47). -/
def packA (rd ra rb : Reg) (c : BitVec 3) (aop : BitVec 4) (z : Bool) (o : BitVec 2) : BitVec 32 :=
  0x0D#6 ++ rd ++ ra ++ rb ++ c ++ aop ++ BitVec.ofBool z ++ o ++ 0#1

/-- Format F-Y (R47). -/
def packY (major : BitVec 6) (rd ra : Reg) (sub : BitVec 4) (imm : BitVec 12) : BitVec 32 := major ++ rd ++ ra ++ sub ++ imm

/-- Format F-X (R47). -/
def packX (rd ra rb : Reg) (sub : BitVec 3) (flags : BitVec 8) : BitVec 32 := 0x18#6 ++ rd ++ ra ++ rb ++ sub ++ flags

/-- Format F-V (R47). -/
def packV (major : BitVec 6) (vd va vb : VecNo) (mk : MaskNo) (fn : BitVec 5) : BitVec 32 := major ++ vd ++ va ++ vb ++ mk ++ fn

/-- Format F-VS (R47). -/
def packVS (vd va : VecNo) (sb : Reg) (mk : MaskNo) (fn : BitVec 6) : BitVec 32 := 0x1D#6 ++ vd ++ va ++ sb ++ mk ++ fn

/-- Format F-VC of VCMP and of VCMPS (R47). -/
def packVC (md : MaskNo) (cc : BitVec 3) (va vb : VecNo) (mk : MaskNo) : BitVec 32 := 0x1E#6 ++ md ++ cc ++ va ++ vb ++ mk ++ 0#5
def packVCS (md : MaskNo) (cc : BitVec 3) (va : VecNo) (sb : Reg) (mk : MaskNo) : BitVec 32 :=
  0x1F#6 ++ md ++ cc ++ va ++ sb ++ 0#1 ++ mk ++ 0#5

/-- Format F-VM (R47). -/
def packVM (major : BitVec 6) (vt : VecNo) (base : Reg) (ix : BitVec 6) (mk : MaskNo) (st am : BitVec 3) : BitVec 32 :=
  major ++ vt ++ base ++ ix ++ mk ++ st ++ am

/-- Format F-K (R47). -/
def packK (rd : Reg) (ma mb md : MaskNo) (fn : BitVec 4) : BitVec 32 := 0x20#6 ++ rd ++ ma ++ mb ++ md ++ fn ++ 0#8

/-- VRED (R47). -/
def packRed (rd : Reg) (va : VecNo) (mk : MaskNo) (fn : BitVec 4) : BitVec 32 := 0x21#6 ++ rd ++ va ++ mk ++ fn ++ 0#8

/-- VXFR (R47). -/
def packXfr (rd : Reg) (v : VecNo) (rb : Reg) (m : MaskNo) (sub : BitVec 3) : BitVec 32 := 0x22#6 ++ rd ++ v ++ rb ++ m ++ sub ++ 0#4

/-- AGETC, AGETE and APUT (R153). -/
def packAnchor (rd : Reg) (ak : BitVec 6) (sb : Reg) (fn : BitVec 5) : BitVec 32 :=
  0x23#6 ++ rd ++ 0#1 ++ ak ++ sb ++ 0#1 ++ 0#3 ++ fn

/-- VAMO (R47). -/
def packVamo (vv : VecNo) (base : Reg) (vx : VecNo) (mk : MaskNo) (aop : BitVec 4) (c : BitVec 2) : BitVec 32 :=
  0x26#6 ++ vv ++ base ++ vx ++ mk ++ aop ++ c

/-- NLS (R47). -/
def packNls (rd ra : Reg) (vs : VecNo) (pool : BitVec 3) (st : Stream) (sub : BitVec 4) : BitVec 32 :=
  0x27#6 ++ rd ++ ra ++ vs ++ pool ++ st ++ sub

/-- The two words of ACOPY (R197). -/
def packAcopy (st src dst : Reg) (tag : BitVec 6) (kind : BitVec 2) (outer : BitVec 16) (cores : BitVec 8) (esz : BitVec 2) :
    List (BitVec 32) :=
  [0x28#6 ++ st ++ src ++ dst ++ tag ++ 0#2 ++ kind ++ 0#1, outer ++ cores ++ 0#6 ++ esz]

/-- The type code of a scratchpad operand (R212). -/
def MxType.code : MxType → BitVec 2
  | .d8 => 0
  | .d4 => 1
  | .bf16 => 2

/-- The fields of an MXM operand: register, scratchpad bit, SX0, SX1 and type code (R212). -/
def MxOperand.vecField : MxOperand → VecNo
  | .vec v => v
  | .spad _ _ _ => 0
def MxOperand.spadBit : MxOperand → BitVec 1
  | .vec _ => 0
  | .spad _ _ _ => 1
def MxOperand.s0 : MxOperand → Reg
  | .vec _ => 0
  | .spad s _ _ => s
def MxOperand.s1 : MxOperand → Reg
  | .vec _ => 0
  | .spad _ s _ => s
def MxOperand.typeCode : MxOperand → BitVec 2
  | .vec _ => 0
  | .spad _ _ t => t.code

/-- The words of a well-formed instruction, word 0 first; none for an event (R47, R51). -/
def encode : Instr → List (BitVec 32)
  | .add rd ra rb => [packS 0x01 rd ra rb 0]
  | .sub rd ra rb => [packS 0x01 rd ra rb 1]
  | .and rd ra rb => [packS 0x01 rd ra rb 2]
  | .or rd ra rb => [packS 0x01 rd ra rb 3]
  | .xor rd ra rb => [packS 0x01 rd ra rb 4]
  | .sll rd ra rb => [packS 0x01 rd ra rb 5]
  | .srl rd ra rb => [packS 0x01 rd ra rb 6]
  | .sra rd ra rb => [packS 0x01 rd ra rb 7]
  | .slt rd ra rb => [packS 0x01 rd ra rb 8]
  | .sltn rd ra rb => [packS 0x01 rd ra rb 9]
  | .min rd ra rb => [packS 0x01 rd ra rb 10]
  | .max rd ra rb => [packS 0x01 rd ra rb 11]
  | .minn rd ra rb => [packS 0x01 rd ra rb 12]
  | .maxn rd ra rb => [packS 0x01 rd ra rb 13]
  | .mul rd ra rb => [packS 0x01 rd ra rb 14]
  | .mulh rd ra rb => [packS 0x01 rd ra rb 15]
  | .mulhn rd ra rb => [packS 0x01 rd ra rb 16]
  | .div rd ra rb => [packS 0x01 rd ra rb 17]
  | .divn rd ra rb => [packS 0x01 rd ra rb 18]
  | .rem rd ra rb => [packS 0x01 rd ra rb 19]
  | .remn rd ra rb => [packS 0x01 rd ra rb 20]
  | .clz rd ra => [packS 0x01 rd ra 0 21]
  | .popc rd ra => [packS 0x01 rd ra 0 22]
  | .andn rd ra rb => [packS 0x01 rd ra rb 23]
  | .addi rd ra imm => [packI 0x02 rd ra imm]
  | .andi rd ra imm => [packI 0x03 rd ra imm]
  | .ori rd ra imm => [packI 0x04 rd ra imm]
  | .xori rd ra imm => [packI 0x05 rd ra imm]
  | .slti rd ra imm => [packI 0x07 rd ra imm]
  | .slli rd ra n => [packI 0x06 rd ra (0#8 ++ 0#2 ++ n)]
  | .srli rd ra n => [packI 0x06 rd ra (0#8 ++ 1#2 ++ n)]
  | .srai rd ra n => [packI 0x06 rd ra (0#8 ++ 2#2 ++ n)]
  | .li rd imm => [0x08#6 ++ rd ++ 0#5 ++ 0#5 ++ 0#2 ++ 0#9, imm]
  | .liHi rd ra imm => [0x08#6 ++ rd ++ ra ++ 0#5 ++ 1#2 ++ 0#9, imm]
  | .lds rd ra sz st off => [packM 0x09 rd ra sz st off]
  | .sts rs ra sz st off => [packM 0x0A rs ra (sz ++ 0#1) st off]
  | .ldsa rd ra sz c off => [packM 0x0B rd ra sz c off]
  | .stsl rs ra sz c off => [packM 0x0C rs ra (sz ++ 0#1) c off]
  | .amoAdd rd ra rb c z o => [packA rd ra rb c 0 z o]
  | .amoAnd rd ra rb c z o => [packA rd ra rb c 1 z o]
  | .amoOr rd ra rb c z o => [packA rd ra rb c 2 z o]
  | .amoXor rd ra rb c z o => [packA rd ra rb c 3 z o]
  | .amoMin rd ra rb c z o => [packA rd ra rb c 4 z o]
  | .amoMax rd ra rb c z o => [packA rd ra rb c 5 z o]
  | .amoMinn rd ra rb c z o => [packA rd ra rb c 6 z o]
  | .amoMaxn rd ra rb c z o => [packA rd ra rb c 7 z o]
  | .amoSwap rd ra rb c z o => [packA rd ra rb c 8 z o]
  | .amoCas rd ra rb c z o => [packA rd ra rb c 9 z o]
  | .amoFadd rd ra rb c o => [packA rd ra rb c 10 false o]
  | .beq ra rb off => [packI 0x0E ra rb off]
  | .bne ra rb off => [packI 0x0F ra rb off]
  | .blt ra rb off => [packI 0x10 ra rb off]
  | .bge ra rb off => [packI 0x11 ra rb off]
  | .bltn ra rb off => [packI 0x12 ra rb off]
  | .bgen ra rb off => [packI 0x13 ra rb off]
  | .jal off => [0x14#6 ++ off]
  | .jalr rd ra imm => [packI 0x15 rd ra imm]
  | .fadds rd ra rb => [packS 0x16 rd ra rb 0]
  | .fsubs rd ra rb => [packS 0x16 rd ra rb 1]
  | .fmuls rd ra rb => [packS 0x16 rd ra rb 2]
  | .fdivs rd ra rb => [packS 0x16 rd ra rb 3]
  | .fmins rd ra rb => [packS 0x16 rd ra rb 4]
  | .fmaxs rd ra rb => [packS 0x16 rd ra rb 5]
  | .ffmas rd ra rb => [packS 0x16 rd ra rb 6]
  | .fsqrts rd ra => [packS 0x16 rd ra 0 7]
  | .fcvtsi rd ra => [packS 0x16 rd ra 0 8]
  | .fcvtis rd ra => [packS 0x16 rd ra 0 9]
  | .fclts rd ra rb => [packS 0x16 rd ra rb 10]
  | .fcles rd ra rb => [packS 0x16 rd ra rb 11]
  | .fceqs rd ra rb => [packS 0x16 rd ra rb 12]
  | .rdc rd cr => [packY 0x17 rd 0 0 cr]
  | .wrc ra cr => [packY 0x17 0 ra 1 cr]
  | .wrcDevstat ra => [packY 0x17 0 ra 1 0x005]
  | .wrcPoolcfg ra p => [packY 0x17 0 ra 1 (0x106#9 ++ p)]
  | .wrcAsid ra => [packY 0x17 0 ra 1 0x80D]
  | .wrcFaultRing ra f => [packY 0x17 0 ra 1 (0x408#11 ++ BitVec.ofBool f)]
  | .wrcPwrcap ra => [packY 0x17 0 ra 1 0x821]
  | .wrcRampcfg ra => [packY 0x17 0 ra 1 0x820]
  | .fence k c => [packY 0x17 0 0 2 (0#7 ++ k ++ c)]
  | .sbar m => [packY 0x17 0 0 3 (0#4 ++ m)]
  | .isync => [packY 0x17 0 0 4 0]
  | .trap c => [packY 0x17 0 0 5 c]
  | .rett => [packY 0x17 0 0 6 0]
  | .exit => [packY 0x17 0 0 7 0]
  | .waitl rd ra n => [packY 0x17 rd ra 8 n]
  | .cnvy => [packY 0x17 0 0 9 0]
  | .yield => [packY 0x17 0 0 10 0]
  | .vsave ra => [packY 0x17 0 ra 11 0]
  | .vrstr ra => [packY 0x17 0 ra 12 0]
  | .setvl rd ra rb b => [packX rd ra rb 0 (0#7 ++ BitVec.ofBool b)]
  | .setms n => [packX 0 0 0 1 (0#6 ++ n)]
  | .vcfg rd n => [packX rd 0 0 2 (0#6 ++ n)]
  | .vtag vd k t => [0x19#6 ++ vd ++ k ++ t ++ 0#12]
  | .forkl rd off => [0x1A#6 ++ rd ++ off]
  | .joinl => [0x1B#6 ++ 0#26]
  | .vadd vd va vb mk => [packV 0x1C vd va vb mk 0]
  | .vsub vd va vb mk => [packV 0x1C vd va vb mk 1]
  | .vmul vd va vb mk => [packV 0x1C vd va vb mk 2]
  | .vdiv vd va vb mk => [packV 0x1C vd va vb mk 3]
  | .vmin vd va vb mk => [packV 0x1C vd va vb mk 4]
  | .vmax vd va vb mk => [packV 0x1C vd va vb mk 5]
  | .vand vd va vb mk => [packV 0x1C vd va vb mk 6]
  | .vor vd va vb mk => [packV 0x1C vd va vb mk 7]
  | .vxor vd va vb mk => [packV 0x1C vd va vb mk 8]
  | .vsll vd va vb mk => [packV 0x1C vd va vb mk 9]
  | .vsrl vd va vb mk => [packV 0x1C vd va vb mk 10]
  | .vsra vd va vb mk => [packV 0x1C vd va vb mk 11]
  | .vfma vd va vb mk => [packV 0x1C vd va vb mk 12]
  | .vfnma vd va vb mk => [packV 0x1C vd va vb mk 13]
  | .vmov vd va mk => [packV 0x1C vd va 0 mk 14]
  | .vcvt vd va mk => [packV 0x1C vd va 0 mk 15]
  | .vabs vd va mk => [packV 0x1C vd va 0 mk 16]
  | .vneg vd va mk => [packV 0x1C vd va 0 mk 17]
  | .vsqrt vd va mk => [packV 0x1C vd va 0 mk 18]
  | .vrsq vd va mk => [packV 0x1C vd va 0 mk 19]
  | .vrcp vd va mk => [packV 0x1C vd va 0 mk 20]
  | .vexp2 vd va mk => [packV 0x1C vd va 0 mk 21]
  | .vlog2 vd va mk => [packV 0x1C vd va 0 mk 22]
  | .vsel vd va vb mk => [packV 0x1C vd va vb mk 23]
  | .vgathr vd va vb mk => [packV 0x1C vd va vb mk 24]
  | .vcomp vd va mk => [packV 0x1C vd va 0 mk 25]
  | .vexpd vd va mk => [packV 0x1C vd va 0 mk 26]
  | .vscan vd va mk => [packV 0x1C vd va 0 mk 27]
  | .vadds vd va sb mk => [packVS vd va sb mk 0]
  | .vsubs vd va sb mk => [packVS vd va sb mk 1]
  | .vrsubs vd va sb mk => [packVS vd va sb mk 2]
  | .vmuls vd va sb mk => [packVS vd va sb mk 3]
  | .vfmas vd va sb mk => [packVS vd va sb mk 4]
  | .vmins vd va sb mk => [packVS vd va sb mk 5]
  | .vmaxs vd va sb mk => [packVS vd va sb mk 6]
  | .vands vd va sb mk => [packVS vd va sb mk 7]
  | .vors vd va sb mk => [packVS vd va sb mk 8]
  | .vxors vd va sb mk => [packVS vd va sb mk 9]
  | .vslls vd va sb mk => [packVS vd va sb mk 10]
  | .vsrls vd va sb mk => [packVS vd va sb mk 11]
  | .vsras vd va sb mk => [packVS vd va sb mk 12]
  | .vsplat vd sb mk => [packVS vd 0 sb mk 13]
  | .vslup vd va sb mk => [packVS vd va sb mk 14]
  | .vsldn vd va sb mk => [packVS vd va sb mk 15]
  | .vaddc vd va sb mk => [packVS vd va sb mk 16]
  | .vcmpEq md va vb mk => [packVC md 0 va vb mk]
  | .vcmpNe md va vb mk => [packVC md 1 va vb mk]
  | .vcmpLt md va vb mk => [packVC md 2 va vb mk]
  | .vcmpLe md va vb mk => [packVC md 3 va vb mk]
  | .vcmpGt md va vb mk => [packVC md 4 va vb mk]
  | .vcmpGe md va vb mk => [packVC md 5 va vb mk]
  | .vcmpUn md va vb mk => [packVC md 6 va vb mk]
  | .vcmpsEq md va sb mk => [packVCS md 0 va sb mk]
  | .vcmpsNe md va sb mk => [packVCS md 1 va sb mk]
  | .vcmpsLt md va sb mk => [packVCS md 2 va sb mk]
  | .vcmpsLe md va sb mk => [packVCS md 3 va sb mk]
  | .vcmpsGt md va sb mk => [packVCS md 4 va sb mk]
  | .vcmpsGe md va sb mk => [packVCS md 5 va sb mk]
  | .vcmpsUn md va sb mk => [packVCS md 6 va sb mk]
  | .mand md ma mb => [packK 0 ma mb md 0]
  | .mor md ma mb => [packK 0 ma mb md 1]
  | .mxor md ma mb => [packK 0 ma mb md 2]
  | .mandn md ma mb => [packK 0 ma mb md 3]
  | .mnot md ma => [packK 0 ma 0 md 4]
  | .mset md => [packK 0 0 0 md 5]
  | .mclr md => [packK 0 0 0 md 6]
  | .mpopc rd ma => [packK rd ma 0 0 7]
  | .mffs rd ma => [packK rd ma 0 0 8]
  | .msbf md ma => [packK 0 ma 0 md 9]
  | .msif md ma => [packK 0 ma 0 md 10]
  | .mmov md ma => [packK 0 ma 0 md 11]
  | .vredSum rd va mk => [packRed rd va mk 0]
  | .vredMax rd va mk => [packRed rd va mk 1]
  | .vredMin rd va mk => [packRed rd va mk 2]
  | .vredAnd rd va mk => [packRed rd va mk 3]
  | .vredOr rd va mk => [packRed rd va mk 4]
  | .vext rd va sb => [packXfr rd va sb 0 0]
  | .vins ss vd sb => [packXfr ss vd sb 0 1]
  | .vtom va md => [packXfr 0 va 0 md 2]
  | .vmtov vd ma => [packXfr 0 vd 0 ma 3]
  | .viota vd => [packXfr 0 vd 0 0 4]
  | .vconfl va md => [packXfr 0 va 0 md 5]
  | .vanch vd va mk => [packV 0x23 vd va 0 mk 0]
  | .vanchz vd va mk => [packV 0x23 vd va 0 mk 1]
  | .vranc vd mk => [packV 0x23 vd 0 0 mk 2]
  | .agetc rd k sb => [packAnchor rd k sb 3]
  | .agete rd k sb => [packAnchor rd k sb 4]
  | .aput ss k sb => [packAnchor ss k sb 5]
  | .vdevs vd va mk => [packV 0x23 vd va 0 mk 6]
  | .vbead vd va mk => [packV 0x23 vd va 0 mk 7]
  | .vld vt b mk st => [packVM 0x24 vt b 0 mk st 0]
  | .vldStrided vt b r mk st => [packVM 0x24 vt b (r ++ 0#1) mk st 1]
  | .vldIndexed vt b x mk st => [packVM 0x24 vt b x mk st 2]
  | .vldFirstFault vt b mk st => [packVM 0x24 vt b 0 mk st 3]
  | .vldSc vt b mk st => [packVM 0x24 vt b 0 mk st 4]
  | .vldScIndexed vt b x mk st => [packVM 0x24 vt b x mk st 5]
  | .vst vt b mk st => [packVM 0x25 vt b 0 mk st 0]
  | .vstStrided vt b r mk st => [packVM 0x25 vt b (r ++ 0#1) mk st 1]
  | .vstIndexed vt b x mk st => [packVM 0x25 vt b x mk st 2]
  | .vstSc vt b mk st => [packVM 0x25 vt b 0 mk st 4]
  | .vstScIndexed vt b x mk st => [packVM 0x25 vt b x mk st 5]
  | .vamoAdd vv b x mk c => [packVamo vv b x mk 0 c]
  | .vamoAnd vv b x mk c => [packVamo vv b x mk 1 c]
  | .vamoOr vv b x mk c => [packVamo vv b x mk 2 c]
  | .vamoXor vv b x mk c => [packVamo vv b x mk 3 c]
  | .vamoMin vv b x mk c => [packVamo vv b x mk 4 c]
  | .vamoMax vv b x mk c => [packVamo vv b x mk 5 c]
  | .vamoMinn vv b x mk c => [packVamo vv b x mk 6 c]
  | .vamoMaxn vv b x mk c => [packVamo vv b x mk 7 c]
  | .vamoFadd vv b x mk c => [packVamo vv b x mk 10 c]
  | .stnl rd vs p st => [packNls rd 0 vs p st 0]
  | .rlq ra p st => [packNls 0 ra 0 p st 1]
  | .nlfree rd p => [packNls rd 0 0 p 0 2]
  | .acopyG2s st src dst tag o e => packAcopy st src dst tag 0 o 0 e
  | .acopyS2g st src dst tag o e => packAcopy st src dst tag 1 o 0 e
  | .acopyMcast st src dst tag o c e => packAcopy st src dst tag 2 o c e
  | .acopyS2s st src dst tag o e => packAcopy st src dst tag 3 o 0 e
  | .agath vx b d r mk tag => [0x29#6 ++ vx ++ b ++ d ++ r ++ mk ++ 0#2, 0#26 ++ tag]
  | .mxm vacc a b kv z =>
    [0x2C#6 ++ vacc ++ a.vecField ++ b.vecField ++ a.spadBit ++ b.spadBit ++ 0#6,
     kv ++ BitVec.ofBool z ++ b.typeCode ++ a.typeCode ++ b.s1 ++ b.s0 ++ a.s1 ++ a.s0]
  | .waitany rd ra => [packY 0x2A rd ra 0 0]
  | .waitall rd ra => [packY 0x2A rd ra 1 0]
  | .ffrt rd ra => [packY 0x2A rd ra 2 0]
  | .tagclr ra => [packY 0x2A 0 ra 3 0]
  | .tagerr rd ra => [packY 0x2A rd ra 4 0]
  | .mxatt rd ra => [packY 0x2B rd ra 0 0]
  | .mxattw rd ra => [packY 0x2B rd ra 1 0]
  | .mxdet => [packY 0x2B 0 0 2 0]
  | .task rd ra n => [packI 0x2D rd ra 0, 0#16 ++ n]
  | .xferBcast t s o n => [0x2E#6 ++ t ++ s ++ o ++ 0#2 ++ 0#9, n]
  | .xferSplit t s o n => [0x2E#6 ++ t ++ s ++ o ++ 1#2 ++ 0#9, n]
  | .tdep s p => [packY 0x2F s p 0 0]
  | .graphOpen rd => [packY 0x2F rd 0 1 0]
  | .graphClose => [packY 0x2F 0 0 1 1]
  | .phase rd => [packY 0x2F rd 0 2 0]
  | .cnt rd ra l => [packY 0x2F rd ra 3 (0#10 ++ l)]
  | .waitc rd ra l => [packY 0x2F rd ra 4 (0#10 ++ l)]
  | .cancel ra l => [packY 0x2F 0 ra 5 (0#10 ++ l)]
  | .jobKill ra => [packY 0x2F 0 ra 5 7]
  | .job rd ra => [packY 0x2F rd ra 6 0]
  | .tide rd n => [packY 0x2F rd 0 7 (0#9 ++ n)]
  | .rddig rd ra => [packY 0x2F rd ra 8 0]
  | _ => []

/-- The bytes of a word, little-endian (R1). -/
def wordBytes (w : BitVec 32) : List Byte :=
  [w.extractLsb' 0 8, w.extractLsb' 8 8, w.extractLsb' 16 8, w.extractLsb' 24 8]

/-- The instruction the decoder reads from an instruction numbered as spec/opcode_table.json numbers it: bit 0 the
least significant bit of the first word, every bit at and above `nbits` zero. -/
def decodeTableWord (nbits w : Nat) : Option Instr :=
  let v := w % 2 ^ nbits
  match decode (wordBytes (BitVec.ofNat 32 v) ++ wordBytes (BitVec.ofNat 32 (v >>> 32))) with
  | .ok (i, _) => some i
  | .error _ => none

end Sys2Proof
end

