-- ==== Sys2Proof/Machine/Fetch.lean ====
section
/-! DEFINITION. Fetching and decoding an instruction (spec/02 R43-R46, spec/14 R303, R309, R312, R372). -/

namespace Sys2Proof.Machine

/-- What a fetch gives: an instruction of `len` bytes; words that are no instruction; a word of a pool block at
`va`; or a stop at the word at `va`. Each with the words fetched and the translations used. -/
inductive Fetched
  | ok (i : Instr) (len : Nat)
  | illegal (w : BitVec 32)
  | pool (va : Pc)
  | stop (e : Stop) (va : Pc)
deriving DecidableEq, Repr

/-- The 4-byte word at a location. -/
def Memory.word (m : Memory) (loc : Nat) : BitVec 32 := BitVec.ofNat 32 (m.number loc 4)

/-- What a byte held before a change of memory, for what it held after it. -/
def Change.byte (c : Change) (a : Nat) (after : Byte) : Byte :=
  match c.bytes.find? fun x => x.1 == a with
  | some x => x.2
  | none => if c.lo ≤ a && a < c.hi then (⟨[], c.blanks, [], [], [], []⟩ : Memory).blank a else after

/-- The words that stood at a location before each of these changes, the last change first, for the bytes that stand after
them; each with whether it was poisoned. -/
def olderWords (loc : Nat) : List Byte → List Change → List (BitVec 32 × Bool)
  | _, [] => []
  | bs, c :: cs =>
    let bs := bs.mapIdx fun i b => c.byte (loc + i) b
    (BitVec.ofNat 32 (leNat bs), (⟨[], [], c.poison, c.spared, [], []⟩ : Memory).poisoned loc 4) :: olderWords loc bs cs

/-- The words that a fetch of a context may take at a location, each with whether it is poisoned: the one that stands there
first, and every one that stood there since the last ISYNC of the context (R264, R265). -/
def State.codeWords (s : State) (c : Ctx) (loc : Nat) : List (BitVec 32 × Bool) :=
  ((s.mem.word loc, s.mem.poisoned loc 4) ::
    olderWords loc (s.mem.bytes loc 4) (s.mem.past.take (s.mem.past.length - c.flow.since))).eraseDups

/-- The word that a fetch of a context takes at a location, with whether the fetch consumes poison: by a free choice for
each word where several may be taken (R265, notes/assumptions/11.md). Through a stale skerry name the word is undefined and
never traps (R6, R191). -/
def State.codeWord (s : State) (c : Ctx) (loc : Nat) : BitVec 32 × Bool :=
  let now := (s.mem.word loc, s.mem.poisoned loc 4)
  if s.stale c.origin.job loc then (BitVec.ofNat 32 (s.numberFor c.origin.job loc 4), false)
  else
    match s.codeWords c loc with
    | [] | [_] => (now.1, now.2 || s.dev.fencedIn loc 4)
    | ws =>
      let w := ws.getD (Config.freeFetch s.tick loc % ws.length) now
      (w.1, w.2 || s.dev.fencedIn loc 4)

/-- Fetch one word: what it is or how the fetch stops, and the translation used, that of a word of a pool block too. A poisoned word raises DATA_POISON
before its block is taken for a pool block, also where the poison is that of the marker; R39, R46 and R319 leave this
open (notes/assumptions/11.md). -/
def State.fetchWord (s : State) (c : Ctx) (va : Pc) : Except (Fetched × List Hit) (BitVec 32 × Hit) :=
  let a : Word := va.zeroExtend 64
  match s.resolve c.fetchSpace .fetch a with
  | .error m => .error (.stop (.asked (s.walkSpans c.fetchSpace a) (c.missed 4 false a m)) va, [])
  | .ok h =>
    let w := s.codeWord c h.loc
    if w.2 then .error (.stop (.asked (s.accessSpans h 4) (.trap .dataPoison 0)) va, [])
    else if majorOf (s.codeWord c (h.loc - h.loc % 64)).1 = 0x3F then .error (.pool va, [h])
    else .ok (w.1, h)

/-- Fetch and decode the instruction at the pc of a context: what it is, the words fetched (TINSTR, R301, R372), and
the translations used. A word 0 that no instruction begins with is illegal whatever the fetch of word 1 would meet,
but a pool block at word 1 ranks above it (R34, R39). -/
def State.fetch (s : State) (c : Ctx) : Fetched × Word × List Hit :=
  match s.fetchWord c c.pc with
  | .error e => (e.1, 0, e.2)
  | .ok (w0, h0) =>
    let ir0 : Word := w0.zeroExtend 64
    if !isLongMajor (majorOf w0) then
      match decodeShort w0 with
      | some i => (.ok i 4, ir0, [h0])
      | none => (.illegal w0, ir0, [h0])
    else
      match s.fetchWord c (c.pc + 4), decodeLong w0 with
      | .error (.pool va, hs), _ => (.pool va, ir0, h0 :: hs)
      | .error _, none => (.illegal w0, ir0, [h0])
      | .error e, some _ => (e.1, ir0, [h0])
      | .ok (w1, h1), k =>
        let ir : Word := w1 ++ w0
        match k.bind fun f => f w1 with
        | some i => (.ok i 8, ir, [h0, h1])
        | none => (.illegal w0, ir, [h0, h1])

end Sys2Proof.Machine
end

