-- ==== Sys2Proof/Machine/Sched.lean ====
section
/-! DEFINITION. The scheduler's counted objects and how they complete (spec/10 R235-R240, R245, spec/15 R327). -/

namespace Sys2Proof.Machine

/-- The address space of accesses made on behalf of a job for a launch (R312). A scratchpad window names the isle of the
first core that is reserved for the launch: R233 does not say whose isle it names (notes/assumptions/26.md). -/
def Task.space (t : Task) (j : Job) : Space := ⟨t.cores.headD 0, true, j.ptb, j.asid⟩

/-- A counter word (R239). -/
def counterWord (count : Nat) (err canc : Bool) : Word :=
  BitVec.ofNat 64 (canc.toNat * 2 ^ 63 + err.toNat * 2 ^ 62 + count % 2 ^ 32)

/-- An object is no longer live; a WAITC that waits for it gets its final word (R239). -/
def State.retireObj (s : State) (key : ObjKey) (w : Word) : State :=
  let f := fun c : Ctx =>
    if c.flow.waitOn = some key then { c with flow := { c.flow with waitWord := some w } } else c
  { s with ctx := f s.ctx, others := s.others.map f }

/-- A job's count (R238). -/
def Job.count (j : Job) : Nat := j.phases.length + if j.progDone then 0 else 1

/-- When a turn of a strait that begins at an instant takes effect: the flits in flight on the lanes that turn drain, which
takes a free time, and then the lanes are dead for 40 ns (R245). -/
def turnEnds (tick strait now : Nat) : Nat := now + Config.freeDrain tick strait + 40

/-- The strait of an isle returns to split 4: a turn that takes effect at the instant `ends`, and no window and no request
is left (R327). That it replaces a turn that is under way still is the model's choice, since R245 and R327 do not say
(notes/assumptions/5.md). -/
def Strait.release (st : Strait) (ends : Nat) : Strait where
  split := st.split
  turning := if st.split = 4 ∧ st.turning = none then none else some (4, ends)
  lastHonour := none
  request := none

/-- Apply `f` to the straits of the isles of a reach. -/
def State.onReach (s : State) (reach : Nat) (f : Nat → Strait → Strait) : State :=
  { s with dev := { s.dev with fabric := { s.dev.fabric with
      straits := s.dev.fabric.straits.mapIdx fun i st => if reach.testBit i then f i st else st } } }

/-- A job whose count is zero completes: its table slot is free, its straits return to split 4, and
JEVSTAT.JOBDONE is set (R238, R243, R327, R331). -/
def State.closeJob (s : State) (job : Nat) : State :=
  match s.findJob job with
  | none => s
  | some j =>
    if j.count ≠ 0 then s
    else
      let s := s.retireObj ⟨job, 3, job⟩ (counterWord 0 j.err j.cancelled)
      let s := s.onReach j.reach fun i st => st.release (turnEnds s.tick i s.nowNs)
      let d := s.dev.jobEvent 0
      { s with dev := { d with sched := { d.sched with jobs := d.sched.jobs.filter fun x => x.id != job } } }

/-- Phases complete in order, each at count zero (R237); then the job may complete. -/
def State.closePhases (s : State) (job : Nat) : Nat → State
  | 0 => s
  | fuel + 1 =>
    match s.findJob job with
    | none => s
    | some j =>
      match j.phases with
      | p :: rest =>
        if p.count = 0 then
          ((s.retireObj ⟨job, 2, p.num⟩ (counterWord 0 p.err p.cancelled)).onJob job
            fun j => { j with phases := rest }).closePhases job fuel
        else s
      | [] => s.closeJob job

/-- Close what has reached zero in a job. -/
def State.closeCounts (s : State) (job : Nat) : State :=
  match s.findJob job with
  | none => s
  | some j => s.closePhases job (j.phases.length + 1)

/-- Change the count of a phase. -/
def Job.onPhase (j : Job) (num : Nat) (f : Phase → Phase) : Job :=
  { j with phases := j.phases.map fun p => if p.num = num then f p else p }

/-- Take 1 from the count of a graph; a graph at zero completes and leaves its phase (R236, R237). -/
def State.graphMinus (s : State) (job gid : Nat) : State :=
  match (s.findJob job).bind fun j => j.graphs.find? fun g => g.id == gid with
  | none => s
  | some g =>
    if g.count ≤ 1 then
      let s := s.retireObj ⟨job, 1, gid⟩ (counterWord 0 g.err g.cancelled)
      (s.onJob job fun j =>
        { (j.onPhase g.phase fun p => { p with count := p.count - 1 }) with
          graphs := j.graphs.filter fun x => x.id != gid }).closeCounts job
    else s.onJob job fun j =>
      { j with graphs := j.graphs.map fun x => if x.id = gid then { x with count := x.count - 1 } else x }

/-- The hold of the current phase is released (R237). -/
def Job.dropHold (j : Job) : Job :=
  j.onPhase j.curPhase fun p => if p.hold then { p with hold := false, count := p.count - 1 } else p

/-- The unit of a job's program has ended, or will never start: the hold of the current phase is released, once (R237). -/
def State.programEnds (s : State) (job : Nat) : State := (s.onJob job Job.dropHold).closeCounts job

/-- Take 1 from the dependence count of a task; at zero it becomes ready (R235, R283). -/
def Task.satisfy (t : Task) (tick : Nat) : Task :=
  if t.state = .created ∧ 0 < t.deps then
    if t.deps = 1 then { t with deps := 0, state := .ready, readyAt := tick } else { t with deps := t.deps - 1 }
  else t

/-- The launch of a task leaves the tables: its graph's count and the dependence counts of its successors are
decremented (R235, R240 step 4); the launch of a job program decrements its job's count (R238). -/
def State.leaveTables (s : State) (t : Task) : State :=
  let s := s.retireObj ⟨t.job, 0, t.id⟩ (counterWord 0 t.err t.cancelled)
  let s := { s with dev := { s.dev with sched := { s.dev.sched with
    tasks := (s.dev.sched.tasks.filter fun x : Task => !(x.job == t.job && x.id == t.id)).map fun x : Task =>
      if x.job = t.job then (List.replicate (t.succs.count x.id) ()).foldl (fun (x : Task) _ => x.satisfy s.tick) x else x } } }
  match t.graph with
  | some g => s.graphMinus t.job g
  | none => (s.onJob t.job fun j => { j with progDone := true }).closeCounts t.job

/-- A cancelled job of which no launch is left has count 0 (R242): its graphs and phases, one left open among them, go
with it, and it completes (R238). -/
def State.endCancelled (s : State) (job : Nat) : State :=
  match s.findJob job with
  | none => s
  | some j =>
    if !j.cancelled || s.dev.sched.tasks.any (fun t => t.job == job) then s
    else
      let s := j.graphs.foldl (fun s g => s.retireObj ⟨job, 1, g.id⟩ (counterWord 0 g.err g.cancelled)) s
      let s := j.phases.foldl (fun s p => s.retireObj ⟨job, 2, p.num⟩ (counterWord 0 p.err p.cancelled)) s
      (s.onJob job fun j => { j with graphs := [], phases := [], openGraph := none, progDone := true }).closeJob job

/-- A launch retires (R240 step 4, R242). -/
def State.retireTask (s : State) (t : Task) : State := (s.leaveTables t).endCancelled t.job

end Sys2Proof.Machine
end

