-- ==== Sys2Proof/Machine/Bead.lean ====
section
/-! DEFINITION. Bead arithmetic (spec/03 R70-R81): fresh anchors, quantising against existing anchors, bead
addition, overflow events, and the delivery of a vector result to its destination (R68, R81). -/

namespace Sys2Proof.Machine

/-- One rod that an instruction writes: codes by their place in the rod, the anchor word, how many elements were
saturated, how many rods were re-anchored inline, and the places of the overflow events. -/
structure RodOut where
  codes : List (Nat × Int)
  anchor : Word
  sat : Nat
  inl : Nat
  events : List Nat
deriving DecidableEq, Repr

def Exact.isFinite : Exact → Bool
  | .num .. => true
  | _ => false

/-- a ≤ b for values that compare. -/
def Exact.le (a b : Exact) : Bool :=
  match a.compare b with
  | some .gt | none => false
  | _ => true

/-- The largest of a list of finite values; the smallest. -/
def largest : List Exact → Option Exact
  | [] => none
  | v :: vs => some (vs.foldl (fun m x => if x.le m then m else x) v)

def smallest : List Exact → Option Exact
  | [] => none
  | v :: vs => some (vs.foldl (fun m x => if m.le x then m else x) v)

/-- Multiply by a power of two. -/
def Exact.scale (v : Exact) (k : Int) : Exact :=
  match v with
  | .num n m e => .num n m (e + k)
  | v => v

/-- Steps 1 to 5 of the fresh-anchor rule (R76), or its zero-centre variant (R77): centre bits and exponent. -/
def freshFit (t : ElemType) (zeroCentre : Bool) (vals : List Exact) : Nat × Int :=
  let fin := vals.filter Exact.isFinite
  match largest fin, smallest fin with
  | some mx, some mn =>
    let mid := (mx.add mn).scale (-1)
    let bits := if zeroCentre || mid.isZero then 0 else fp32.round mid
    let bits := if bits % 2 ^ 31 = fp32.infBits then bits - 1 else bits
    let c := fp32.decode bits
    let span := (mx.sub c).max (c.sub mn)
    let e := ((List.range 254).map fun i => (i : Int) - 126).find? fun e => span.le (.num false t.dmax e)
    (bits, e.getD 127)
  | _, _ => (0, -126)

/-- RNE((v − c)/2^e). -/
def codeAt (c v : Exact) (e : Int) : Int := ((v.sub c).scale (-e)).rne

/-- A deviation clamped to ±dmax by its sign. -/
def ElemType.clamp (t : ElemType) (d : Int) : Int := max (-(t.dmax : Int)) (min t.dmax d)

/-- A rod formed anew from presented values (R76), with its events resolved by saturation (R81). `w` is the entry
before, and `feed` the OR of the SAT bits that R75 names. -/
def freshRod (t : ElemType) (w : Word) (feed : Bool) (inl : Nat) (vals : List Exact) : RodOut :=
  let (bits, e) := freshFit t false vals
  let c := fp32.decode bits
  let one := fun v : Exact =>
    match v with
    | .nan => (t.nae, false)
    | .inf _ => (t.nae, true)
    | v => let d := codeAt c v e; (t.clamp d, decide (t.dmax < d.natAbs))
  let rs := vals.map one
  let ev := (rs.zipIdx.filter fun r => r.1.2).map (·.2)
  { codes := rs.mapIdx fun j r => (j, r.1)
    anchor := anchorWord (anchorGen w + 1) (anchorSat w || feed || ev != []) e bits
    sat := ev.length, inl := inl, events := ev }

/-- Quantise presented values, each at its place, against the existing anchor `w` (R78). Under policy 2 an event of
magnitude forms the rod anew by R76 from the values `whole` presents (R81). -/
def quantRod (t : ElemType) (pol : BitVec 2) (w : Word) (feed : Bool) (vals : List (Nat × Exact))
    (whole : List Exact) : RodOut :=
  let c := fp32.decode (anchorCentre w)
  let keep := fun sat : Bool => anchorWord (anchorGen w) (anchorSat w || feed || sat) (anchorExp w) (anchorCentre w)
  if nanRod w || !c.isFinite then
    { codes := vals.map fun p => (p.1, t.nae), anchor := keep false, sat := 0, inl := 0, events := [] }
  else
    let one := fun v : Exact =>
      match v with
      | .nan => (t.nae, false, false)
      | .inf _ => (t.nae, true, false)
      | v =>
        let d := codeAt c v (anchorExp w)
        let big := decide (t.dmax < d.natAbs)
        (t.clamp d, big, big)
    let rs := vals.map fun p => (p.1, one p.2)
    let ev := (rs.filter fun r => r.2.2.1).map (·.1)
    if pol = 2 ∧ rs.any (·.2.2.2) then { freshRod t w feed 1 whole with events := ev }
    else
      { codes := rs.map fun r => (r.1, r.2.1), anchor := keep (ev != []), sat := ev.length, inl := 0, events := ev }

/-- d · 2^(e_x − e) rounded (R79). -/
def aligned (d : Int) (ex e : Int) : Int := (Exact.num (d < 0) d.natAbs (ex - e)).rne

/-- Bead addition and subtraction of one rod (R79), into a rod whose entry before is `w`. -/
def addRod (t : ElemType) (pol : BitVec 2) (sub : Bool) (w : Word) (feed : Bool) (x y : Word × List Int) :
    RodOut :=
  if nanRod x.1 || nanRod y.1 then
    { codes := x.2.mapIdx fun j _ => (j, 0)
      anchor := anchorWord (anchorGen w) (anchorSat w || feed) (-128) fp32.nanBits
      sat := 0, inl := 0, events := [] }
  else
    let e := max (anchorExp x.1) (anchorExp y.1)
    let cx := fp32.decode (anchorCentre x.1)
    let cy := fp32.decode (anchorCentre y.1)
    let bits := fp32.round (if sub then cx.sub cy else cx.add cy)
    let fin := (fp32.decode bits).isFinite
    let sums := (x.2.zip y.2).map fun p =>
      if p.1 = t.nae ∨ p.2 = t.nae then none
      else
        let ax := aligned p.1 (anchorExp x.1) e
        let ay := aligned p.2 (anchorExp y.1) e
        some (if sub then ax - ay else ax + ay)
    let big := fun d : Option Int => match d with
      | some d => fin && decide (t.dmax < d.natAbs)
      | none => false
    let ev := (sums.zipIdx.filter fun d => big d.1).map (·.2)
    if pol = 2 ∧ ev ≠ [] then
      let exact := (x.2.zip y.2).map fun p =>
        let a := rodValue t x.1 p.1
        let b := rodValue t y.1 p.2
        if sub then a.sub b else a.add b
      { freshRod t w feed 1 exact with events := ev }
    else
      { codes := sums.mapIdx fun j d => (j, match d with
          | none => t.nae
          | some d => if fin then t.clamp d else 0)
        anchor := anchorWord (anchorGen w) (anchorSat w || feed || ev != []) e bits
        sat := ev.length, inl := 0, events := ev }

/-- What a vector instruction delivers: elements and anchor entries in ascending order, the saturated elements and
re-anchored rods, and the lowest element that is an overflow event. -/
structure VecOut where
  elems : List (Nat × Nat)
  anchors : List (Nat × Word)
  sat : Nat
  inl : Nat
  event : Option Nat
deriving DecidableEq, Repr

/-- The rods `(k, rod)` of one instruction, in ascending order. -/
def VecOut.ofRods (t : ElemType) (rods : List (Nat × RodOut)) : VecOut where
  elems := rods.flatMap fun r => r.2.codes.map fun c => (r.1 * t.rod + c.1, wrapTo t.bits c.2)
  anchors := rods.map fun r => (r.1, r.2.anchor)
  sat := (rods.map (·.2.sat)).sum
  inl := (rods.map (·.2.inl)).sum
  event := (rods.flatMap fun r => r.2.events.map fun j => r.1 * t.rod + j).head?

def VecOut.ofElems (es : List (Nat × Nat)) : VecOut := ⟨es, [], 0, 0, none⟩

/-- Write a result to vector register `vd`; an overflow event traps under DEVPOL 0, and is counted otherwise
(R81). -/
def State.deliver (s : State) (vd : VecNo) (o : VecOut) : Except Stop State :=
  match o.event, s.ctx.vec.devpol == 0 with
  | some i, true => trap .devOvf (BitVec.ofNat 64 i)
  | _, _ => .ok <| s.setVec fun v =>
      ((v.writeElems vd o.elems).writeAnchors (tagAnchor (s.ctx.tag vd)) o.anchors).countEvents o.sat o.inl

/-- The SAT bits of the rods of a source that hold elements of rod `k` of a destination of rod length `r` (R75). -/
def feedOf (srcRod : Nat) (sats : List Bool) (r k : Nat) : Bool :=
  ((sats.drop (k * r / srcRod)).take ((k * r + r - 1) / srcRod + 1 - k * r / srcRod)).any id

/-- The SAT bits of the rods below VL of a source register; none when it is no bead register. -/
def Ctx.sats (c : Ctx) (v : VecNo) : List Bool :=
  let t := c.typ v
  if t.isBead then ((c.anchorReg v).first ((c.vec.vl + t.rod - 1) / t.rod)).map anchorSat else []

/-- Whether any bead source among `srcs` feeds SAT to rod `k` of `vd`. -/
def Ctx.feeds (c : Ctx) (srcs : List VecNo) (vd : VecNo) (k : Nat) : Bool :=
  srcs.any fun v => feedOf (c.typ v).rod (c.sats v) (c.typ vd).rod k

/-- The rods of `vd` below VL that are active (R5), each with its anchor entry and what `vals` holds for it. -/
def Ctx.activeRods {α : Type} (c : Ctx) (vd : VecNo) (mk : MaskNo) (vals : List α) :
    List (Nat × Word × List α) :=
  let r := (c.typ vd).rod
  let n := c.vec.vl / r
  let all := (List.range n).zip (((c.anchorReg vd).first n).zip (chunks r n vals))
  all.filter fun p => c.active mk (p.1 * r)

/-- The active elements below VL, each with what `vals` holds for it. -/
def Ctx.activeElems {α : Type} (c : Ctx) (mk : MaskNo) (vals : List α) : List (Nat × α) :=
  ((List.range c.vec.vl).zip vals).filter fun p => c.active mk p.1

/-- Quantise exact values into the active rods of bead register `vd` against its existing anchors (R78, R81). -/
def Ctx.quantise (c : Ctx) (vd : VecNo) (mk : MaskNo) (srcs : List VecNo) (vals : List Exact) : VecOut :=
  let t := c.typ vd
  .ofRods t <| (c.activeRods vd mk vals).map fun p =>
    (p.1, quantRod t c.vec.devpol p.2.1 (c.feeds srcs vd p.1) (p.2.2.mapIdx fun j v => (j, v)) p.2.2)

/-- Form the active rods of bead register `vd` anew from exact values (R76, R83). -/
def Ctx.freshen (c : Ctx) (vd : VecNo) (mk : MaskNo) (srcs : List VecNo) (vals : List Exact) : VecOut :=
  let t := c.typ vd
  .ofRods t <| (c.activeRods vd mk vals).map fun p =>
    (p.1, freshRod t p.2.1 (c.feeds srcs vd p.1) 0 p.2.2)

/-- Deliver exact values to a register of any type (R68): quantised into a bead register, else per element. -/
def Ctx.deliverValues (c : Ctx) (vd : VecNo) (mk : MaskNo) (srcs : List VecNo) (vals : List Exact) : VecOut :=
  let t := c.typ vd
  if t.isBead then c.quantise vd mk srcs vals
  else .ofElems ((c.activeElems mk vals).map fun p => (p.1, t.ofValue p.2))

/-- Deliver bits of a non-bead operation type to a register of any type (R68, R69). -/
def Ctx.deliverBits (c : Ctx) (vd : VecNo) (mk : MaskNo) (srcs : List VecNo) (op : ElemType) (bits : List Nat) :
    VecOut :=
  let t := c.typ vd
  if t.isBead then c.quantise vd mk srcs (bits.map op.value)
  else .ofElems ((c.activeElems mk bits).map fun p => (p.1, op.deliver t p.2))

end Sys2Proof.Machine
end

