-- ==== Sys2Proof/Machine/Vector.lean ====
section
/-! DEFINITION. Vector arithmetic (spec/05 R123-R130): the VOP and VOPS operations. -/

namespace Sys2Proof.Machine

/-- The operations of R126 and R127; `rsub` is s − a. -/
inductive VOp
  | add | sub | rsub | mul | div | min | max | and | or | xor | sll | srl | sra | fma | fnma
  | abs | neg | sqrt | rsq | rcp | exp2 | log2
deriving DecidableEq, Repr

/-- Bitwise operations and shifts: integer types only (R126). -/
def VOp.isBits : VOp → Bool
  | .and | .or | .xor | .sll | .srl | .sra => true
  | _ => false

/-- Functions: floating and bead types only (R126). -/
def VOp.isFun : VOp → Bool
  | .sqrt | .rsq | .rcp | .exp2 | .log2 => true
  | _ => false

/-- Operations that read their destination (R125). -/
def VOp.readsDest : VOp → Bool
  | .fma | .fnma => true
  | _ => false

/-- Whether an operation is defined under a type (R126). -/
def VOp.allows (op : VOp) (t : ElemType) : Bool := if t.isInt then !op.isFun else !op.isBits

/-- The exact result, of an operation that has one (R65, R66, R83). -/
def VOp.exact (op : VOp) (a b d : Exact) : Exact :=
  match op with
  | .add => a.add b
  | .sub => a.sub b
  | .rsub => b.sub a
  | .mul => a.mul b
  | .min => a.min b
  | .max => a.max b
  | .fma => a.fma b d
  | .fnma => a.neg.fma b d
  | .abs => a.abs
  | .neg => a.neg
  | _ => a

/-- The result in a floating format, rounded once (R65). -/
def VOp.float (op : VOp) (f : Format) (a b d : Exact) : Nat :=
  match op with
  | .div => f.div a b
  | .sqrt => f.sqrt a
  | .rsq => f.rsqrt a
  | .rcp => f.rcp a
  | .exp2 => f.exp2 a
  | .log2 => f.log2 a
  | op => f.round (op.exact a b d)

/-- Integer division of R67 on `w`-bit values. -/
def divInt (w : Nat) (sg : Bool) (a b : Nat) : Nat :=
  if b % 2 ^ w = 0 then 2 ^ w - 1
  else if sg then wrapTo w ((signedOf w a).tdiv (signedOf w b))
  else a % 2 ^ w / (b % 2 ^ w)

/-- The result under an integer type of `w` bits (R67). -/
def VOp.int (op : VOp) (w : Nat) (sg : Bool) (a b d : Nat) : Nat :=
  let val := fun v : Nat => if sg then signedOf w v else ((v % 2 ^ w : Nat) : Int)
  match op with
  | .add => (a + b) % 2 ^ w
  | .sub => wrapTo w ((a : Int) - b)
  | .rsub => wrapTo w ((b : Int) - a)
  | .mul => a * b % 2 ^ w
  | .div => divInt w sg a b
  | .min => if val a ≤ val b then a else b
  | .max => if val a ≤ val b then b else a
  | .and => a &&& b
  | .or => a ||| b
  | .xor => a ^^^ b
  | .sll => a * 2 ^ (b % w) % 2 ^ w
  | .srl => a / 2 ^ (b % w)
  | .sra => wrapTo w (signedOf w a / 2 ^ (b % w))
  | .fma => (a * b + d) % 2 ^ w
  | .fnma => wrapTo w ((d : Int) - a * b)
  | .abs => wrapTo w (val a).natAbs
  | .neg => wrapTo w (-(a : Int))
  | _ => a

/-- The second operand of an operation: a vector register, a scalar value, or none. -/
inductive Operand | vec (v : VecNo) | scalar (w : Word) | none
deriving DecidableEq, Repr

def Operand.regs : Operand → List VecNo
  | .vec v => [v]
  | _ => []

/-- The operation type (R82). -/
def Ctx.opType (c : Ctx) (op : VOp) (vd va : VecNo) : Operand → Option ElemType
  | .vec vb => if op.readsDest then joinTypes3 (c.typ va) (c.typ vb) (c.typ vd) else joinTypes (c.typ va) (c.typ vb)
  | .scalar _ => if op.readsDest then joinTypes (c.typ va) (c.typ vd) else some (c.typ va)
  | .none => some (c.typ va)

/-- Combine the elements of up to three sources. -/
def zip3 {α β : Type} (f : α → α → α → β) (a b d : List α) : List β :=
  (a.zip (b.zip d)).map fun p => f p.1 p.2.1 p.2.2

/-- The values of an operand: floats (R82), integers of `w` bits, or exact bead values. -/
def Ctx.floatsOf (c : Ctx) : Operand → List Exact
  | .vec v => c.floats v c.vec.vl
  | .scalar w => List.replicate c.vec.vl (fp32.decode (w.toNat % 2 ^ 32))
  | .none => List.replicate c.vec.vl (.num false 0 0)

def Ctx.intsOf (c : Ctx) (w : Nat) : Operand → List Nat
  | .vec v => c.ints v c.vec.vl w
  | .scalar x => List.replicate c.vec.vl (x.toNat % 2 ^ w)
  | .none => List.replicate c.vec.vl 0

def Ctx.exactsOf (c : Ctx) : Operand → List Exact
  | .vec v => c.values v c.vec.vl
  | o => c.floatsOf o

/-- The rods of an operand of bead addition: a scalar is a rod of that centre, exponent −126 and zero deviations
(R83). -/
def Ctx.rodsOf (c : Ctx) (t : ElemType) : Operand → List (Word × List Int)
  | .vec v => c.rods v c.vec.vl
  | .scalar w => List.replicate (c.vec.vl / t.rod)
      (anchorWord 0 false (-126) (w.toNat % 2 ^ 32), List.replicate t.rod 0)
  | .none => []

/-- Bead addition and subtraction into a bead register of the same width (R79). -/
def Ctx.beadSum (c : Ctx) (op : VOp) (vd va : VecNo) (b : Operand) (mk : MaskNo) : VecOut :=
  let t := c.typ vd
  let x := c.rods va c.vec.vl
  let y := c.rodsOf t b
  let pairs := if op = .rsub then y.zip x else x.zip y
  let entries := (c.anchorReg vd).first (c.vec.vl / t.rod)
  .ofRods t <| (((List.range (c.vec.vl / t.rod)).zip (entries.zip pairs)).filter fun p =>
      c.active mk (p.1 * t.rod)).map fun p =>
    (p.1, addRod t c.vec.devpol (op != .add) p.2.1 (c.feeds (va :: b.regs) vd p.1) p.2.2.1 p.2.2.2)

/-- The registers that an operation reads. -/
def VOp.sources (op : VOp) (vd va : VecNo) (b : Operand) : List VecNo :=
  (va :: b.regs) ++ if op.readsDest then [vd] else []

/-- What an operation of type `t` delivers (R82, R83, R125). -/
def Ctx.arithOut (c : Ctx) (op : VOp) (vd va : VecNo) (b : Operand) (mk : MaskNo) (t : ElemType) : VecOut :=
  let srcs := op.sources vd va b
  let d := if op.readsDest then Operand.vec vd else .none
  if t.isFloat then
    c.deliverBits vd mk srcs t (zip3 (op.float t.format) (c.floatsOf (.vec va)) (c.floatsOf b) (c.floatsOf d))
  else if t.isInt then
    c.deliverBits vd mk srcs t
      (zip3 (op.int t.bits t.isSigned) (c.intsOf t.bits (.vec va)) (c.intsOf t.bits b) (c.intsOf t.bits d))
  else if c.typ vd = t ∧ (op = .add ∨ op = .sub ∨ op = .rsub) then c.beadSum op vd va b mk
  else
    let one := fun x y z : Exact =>
      if op.isFun || op == .div then fp32.decode (op.float fp32 x y z) else op.exact x y z
    let vals := zip3 one (c.exactsOf (.vec va)) (c.exactsOf b) (c.exactsOf d)
    if c.typ vd = t then c.freshen vd mk srcs vals else c.deliverValues vd mk srcs vals

/-- A VOP or VOPS arithmetic instruction (R125). -/
def State.arith (s : State) (op : VOp) (vd va : VecNo) (b : Operand) (mk : MaskNo) : Except Stop State :=
  let c := s.ctx
  match c.opType op vd va b with
  | none => trap .illegalTag
  | some t =>
    if !op.allows t then trap .illegalTag
    else s.withRods ((vd :: op.sources vd va b).map c.typ) <| s.deliver vd (c.arithOut op vd va b mk t)

/-- Copy the active rods of `va` with their anchor words (R84). -/
def Ctx.copyRods (c : Ctx) (vd va : VecNo) (mk : MaskNo) : VecOut :=
  let t := c.typ vd
  let rods := (c.rods va c.vec.vl).zipIdx.filter fun p => c.active mk (p.2 * t.rod)
  { elems := rods.flatMap fun p => p.1.2.mapIdx fun j d => (p.2 * t.rod + j, wrapTo t.bits d)
    anchors := rods.map fun p => (p.2, p.1.1)
    sat := 0, inl := 0, event := none }

/-- Copy the raw bits of the active elements of `va` (R64). -/
def Ctx.copyElems (c : Ctx) (va : VecNo) (mk : MaskNo) : VecOut :=
  .ofElems (c.activeElems mk (c.raw va c.vec.vl))

/-- What VMOV delivers. -/
def Ctx.moveOut (c : Ctx) (vd va : VecNo) (mk : MaskNo) : VecOut :=
  if (c.typ vd).isBead then c.copyRods vd va mk else c.copyElems va mk

/-- VMOV (R128). -/
def State.vmov (s : State) (vd va : VecNo) (mk : MaskNo) : Except Stop State :=
  if s.ctx.typ vd ≠ s.ctx.typ va then trap .illegalTag
  else s.withRods [s.ctx.typ vd] <| s.deliver vd (s.ctx.moveOut vd va mk)

/-- What VCVT delivers. -/
def Ctx.convertOut (c : Ctx) (vd va : VecNo) (mk : MaskNo) : VecOut :=
  let t := c.typ va
  if t.isBead then
    if c.typ vd = t then c.copyRods vd va mk else c.deliverValues vd mk [va] (c.values va c.vec.vl)
  else c.deliverBits vd mk [va] t (c.raw va c.vec.vl)

/-- VCVT (R129). -/
def State.vcvt (s : State) (vd va : VecNo) (mk : MaskNo) : Except Stop State :=
  s.withRods [s.ctx.typ vd, s.ctx.typ va] <| s.deliver vd (s.ctx.convertOut vd va mk)

/-- VMOV (R128). -/
def execVmov (vd va : VecNo) (mk : MaskNo) (s : State) : Out :=
  s.queued [vd, va] 4 fun s => s.vmov vd va mk

/-- VCVT (R129). -/
def execVcvt (vd va : VecNo) (mk : MaskNo) (s : State) : Out :=
  s.queued [vd, va] 4 fun s => s.vcvt vd va mk

/-- VADD (R126: a + b). -/
def execVadd (vd va vb : VecNo) (mk : MaskNo) (s : State) : Out :=
  s.queued [vd, va, vb] 4 fun s => s.arith .add vd va (.vec vb) mk

/-- VSUB (R126: a − b). -/
def execVsub (vd va vb : VecNo) (mk : MaskNo) (s : State) : Out :=
  s.queued [vd, va, vb] 4 fun s => s.arith .sub vd va (.vec vb) mk

/-- VMUL (R126: a × b). -/
def execVmul (vd va vb : VecNo) (mk : MaskNo) (s : State) : Out :=
  s.queued [vd, va, vb] 4 fun s => s.arith .mul vd va (.vec vb) mk

/-- VDIV (R126: a ÷ b). -/
def execVdiv (vd va vb : VecNo) (mk : MaskNo) (s : State) : Out :=
  s.queued [vd, va, vb] 4 fun s => s.arith .div vd va (.vec vb) mk

/-- VMIN (R126: the smaller). -/
def execVmin (vd va vb : VecNo) (mk : MaskNo) (s : State) : Out :=
  s.queued [vd, va, vb] 4 fun s => s.arith .min vd va (.vec vb) mk

/-- VMAX (R126: the larger). -/
def execVmax (vd va vb : VecNo) (mk : MaskNo) (s : State) : Out :=
  s.queued [vd, va, vb] 4 fun s => s.arith .max vd va (.vec vb) mk

/-- VAND (R126: a AND b, integers only). -/
def execVand (vd va vb : VecNo) (mk : MaskNo) (s : State) : Out :=
  s.queued [vd, va, vb] 4 fun s => s.arith .and vd va (.vec vb) mk

/-- VOR (R126: a OR b, integers only). -/
def execVor (vd va vb : VecNo) (mk : MaskNo) (s : State) : Out :=
  s.queued [vd, va, vb] 4 fun s => s.arith .or vd va (.vec vb) mk

/-- VXOR (R126: a XOR b, integers only). -/
def execVxor (vd va vb : VecNo) (mk : MaskNo) (s : State) : Out :=
  s.queued [vd, va, vb] 4 fun s => s.arith .xor vd va (.vec vb) mk

/-- VSLL (R126: a shifted left by the low bits of b). -/
def execVsll (vd va vb : VecNo) (mk : MaskNo) (s : State) : Out :=
  s.queued [vd, va, vb] 4 fun s => s.arith .sll vd va (.vec vb) mk

/-- VSRL (R126: a shifted right, zeros in). -/
def execVsrl (vd va vb : VecNo) (mk : MaskNo) (s : State) : Out :=
  s.queued [vd, va, vb] 4 fun s => s.arith .srl vd va (.vec vb) mk

/-- VSRA (R126: a shifted right, sign copies in). -/
def execVsra (vd va vb : VecNo) (mk : MaskNo) (s : State) : Out :=
  s.queued [vd, va, vb] 4 fun s => s.arith .sra vd va (.vec vb) mk

/-- VFMA (R126: a × b + d, fused). -/
def execVfma (vd va vb : VecNo) (mk : MaskNo) (s : State) : Out :=
  s.queued [vd, va, vb] 4 fun s => s.arith .fma vd va (.vec vb) mk

/-- VFNMA (R126: d − a × b, fused). -/
def execVfnma (vd va vb : VecNo) (mk : MaskNo) (s : State) : Out :=
  s.queued [vd, va, vb] 4 fun s => s.arith .fnma vd va (.vec vb) mk

/-- VABS (R126: |a|). -/
def execVabs (vd va : VecNo) (mk : MaskNo) (s : State) : Out :=
  s.queued [vd, va] 4 fun s => s.arith .abs vd va .none mk

/-- VNEG (R126: −a). -/
def execVneg (vd va : VecNo) (mk : MaskNo) (s : State) : Out :=
  s.queued [vd, va] 4 fun s => s.arith .neg vd va .none mk

/-- VSQRT (R126: √a). -/
def execVsqrt (vd va : VecNo) (mk : MaskNo) (s : State) : Out :=
  s.queued [vd, va] 4 fun s => s.arith .sqrt vd va .none mk

/-- VRSQ (R126: 1 ÷ √a). -/
def execVrsq (vd va : VecNo) (mk : MaskNo) (s : State) : Out :=
  s.queued [vd, va] 4 fun s => s.arith .rsq vd va .none mk

/-- VRCP (R126: 1 ÷ a). -/
def execVrcp (vd va : VecNo) (mk : MaskNo) (s : State) : Out :=
  s.queued [vd, va] 4 fun s => s.arith .rcp vd va .none mk

/-- VEXP2 (R126: 2^a). -/
def execVexp2 (vd va : VecNo) (mk : MaskNo) (s : State) : Out :=
  s.queued [vd, va] 4 fun s => s.arith .exp2 vd va .none mk

/-- VLOG2 (R126: log2 a). -/
def execVlog2 (vd va : VecNo) (mk : MaskNo) (s : State) : Out :=
  s.queued [vd, va] 4 fun s => s.arith .log2 vd va .none mk

/-- VADDS (R127: a + s, the scalar read in the operation type). -/
def execVadds (vd va : VecNo) (sb : Reg) (mk : MaskNo) (s : State) : Out :=
  s.queued [vd, va] 4 fun s => s.arith .add vd va (.scalar (s.reg sb)) mk

/-- VSUBS (R127: a − s, the scalar read in the operation type). -/
def execVsubs (vd va : VecNo) (sb : Reg) (mk : MaskNo) (s : State) : Out :=
  s.queued [vd, va] 4 fun s => s.arith .sub vd va (.scalar (s.reg sb)) mk

/-- VRSUBS (R127: s − a, the scalar read in the operation type). -/
def execVrsubs (vd va : VecNo) (sb : Reg) (mk : MaskNo) (s : State) : Out :=
  s.queued [vd, va] 4 fun s => s.arith .rsub vd va (.scalar (s.reg sb)) mk

/-- VMULS (R127: a × s, the scalar read in the operation type). -/
def execVmuls (vd va : VecNo) (sb : Reg) (mk : MaskNo) (s : State) : Out :=
  s.queued [vd, va] 4 fun s => s.arith .mul vd va (.scalar (s.reg sb)) mk

/-- VFMAS (R127: a × s + d, the scalar read in the operation type). -/
def execVfmas (vd va : VecNo) (sb : Reg) (mk : MaskNo) (s : State) : Out :=
  s.queued [vd, va] 4 fun s => s.arith .fma vd va (.scalar (s.reg sb)) mk

/-- VMINS (R127: the smaller of a and s, the scalar read in the operation type). -/
def execVmins (vd va : VecNo) (sb : Reg) (mk : MaskNo) (s : State) : Out :=
  s.queued [vd, va] 4 fun s => s.arith .min vd va (.scalar (s.reg sb)) mk

/-- VMAXS (R127: the larger of a and s, the scalar read in the operation type). -/
def execVmaxs (vd va : VecNo) (sb : Reg) (mk : MaskNo) (s : State) : Out :=
  s.queued [vd, va] 4 fun s => s.arith .max vd va (.scalar (s.reg sb)) mk

/-- VANDS (R127: a AND s, the scalar read in the operation type). -/
def execVands (vd va : VecNo) (sb : Reg) (mk : MaskNo) (s : State) : Out :=
  s.queued [vd, va] 4 fun s => s.arith .and vd va (.scalar (s.reg sb)) mk

/-- VORS (R127: a OR s, the scalar read in the operation type). -/
def execVors (vd va : VecNo) (sb : Reg) (mk : MaskNo) (s : State) : Out :=
  s.queued [vd, va] 4 fun s => s.arith .or vd va (.scalar (s.reg sb)) mk

/-- VXORS (R127: a XOR s, the scalar read in the operation type). -/
def execVxors (vd va : VecNo) (sb : Reg) (mk : MaskNo) (s : State) : Out :=
  s.queued [vd, va] 4 fun s => s.arith .xor vd va (.scalar (s.reg sb)) mk

/-- VSLLS (R127: a shifted left by s, the scalar read in the operation type). -/
def execVslls (vd va : VecNo) (sb : Reg) (mk : MaskNo) (s : State) : Out :=
  s.queued [vd, va] 4 fun s => s.arith .sll vd va (.scalar (s.reg sb)) mk

/-- VSRLS (R127: a shifted right by s, zeros in, the scalar read in the operation type). -/
def execVsrls (vd va : VecNo) (sb : Reg) (mk : MaskNo) (s : State) : Out :=
  s.queued [vd, va] 4 fun s => s.arith .srl vd va (.scalar (s.reg sb)) mk

/-- VSRAS (R127: a shifted right by s, sign copies in, the scalar read in the operation type). -/
def execVsras (vd va : VecNo) (sb : Reg) (mk : MaskNo) (s : State) : Out :=
  s.queued [vd, va] 4 fun s => s.arith .sra vd va (.scalar (s.reg sb)) mk


end Sys2Proof.Machine
end

