-- ==== Sys2Proof/Machine/Flags.lean ====
section
/-! DEFINITION. Conditions. The hardware has no condition flags: its conditions are those of branches (R96), of
compares (R66, R132-R134), and the status bits of TSTAT and DEVSTAT, which Ops and Operands compute. -/

namespace Sys2Proof.Machine

/-- The conditions of a compare (R132). -/
inductive Cond | eq | ne | lt | le | gt | ge | un
deriving DecidableEq, Repr

/-- Whether a condition holds, for how the operands compare (nothing when one is a NaN, R66). -/
def Cond.holds : Cond → Option Ordering → Bool
  | .eq, o => o == some .eq
  | .ne, o => o != some .eq
  | .lt, o => o == some .lt
  | .le, o => o == some .lt || o == some .eq
  | .gt, o => o == some .gt
  | .ge, o => o == some .gt || o == some .eq
  | .un, o => o == none

/-- The conditions of the branches (R96). -/
inductive BranchCond | eq | ne | lt | ge | ltn | gen
deriving DecidableEq, Repr

def BranchCond.taken : BranchCond → Word → Word → Bool
  | .eq, a, b => a == b
  | .ne, a, b => a != b
  | .lt, a, b => a.slt b
  | .ge, a, b => !a.slt b
  | .ltn, a, b => a.ult b
  | .gen, a, b => !a.ult b

/-- A truth value as a register value. -/
def boolWord (b : Bool) : Word := if b then 1 else 0

end Sys2Proof.Machine
end

