-- ==== Sys2Proof/Machine/Mask.lean ====
section
/-! DEFINITION. Compares and mask operations (spec/06 R131-R136). -/

namespace Sys2Proof.Machine

/-- The number whose bit i is the i-th of a list. -/
def ofBits : List Bool → Nat
  | [] => 0
  | b :: rest => b.toNat + 2 * ofBits rest

/-- Replace the bits below `n` of a mask. -/
def lowBits (old n : Nat) (f : Nat → Bool) : Nat := old / 2 ^ n * 2 ^ n + ofBits ((List.range n).map f)

/-- The lowest set bit below `n`. -/
def firstSet (m n : Nat) : Option Nat := (List.range n).find? m.testBit

/-- How the elements of a compare compare (R134): exactly, without rounding. -/
def Ctx.compareElems (c : Ctx) (va : VecNo) (b : Operand) (t : ElemType) : List (Option Ordering) :=
  let scalar := fun w : Word => if t.isInt then t.value (w.toNat % 2 ^ t.bits) else fp32.decode (w.toNat % 2 ^ 32)
  let bs := match b with
    | .vec vb => c.values vb c.vec.vl
    | .scalar w => List.replicate c.vec.vl (scalar w)
    | .none => []
  ((c.values va c.vec.vl).zip bs).map fun p => p.1.compare p.2

/-- A compare (R133, R134). -/
def State.compare (s : State) (cc : Cond) (md : MaskNo) (va : VecNo) (b : Operand) (mk : MaskNo) :
    Except Stop State :=
  let c := s.ctx
  match c.opType .add va va b with
  | none => trap .illegalTag
  | some t =>
    s.withRods ((va :: b.regs).map c.typ) <|
      let rs := c.compareElems va b t
      let old := c.mask md
      .ok <| s.setVec fun v => v.setMask md <| old / 2 ^ c.vec.vl * 2 ^ c.vec.vl +
        ofBits (rs.mapIdx fun i o => if c.active mk i then cc.holds o else old.testBit i)

/-- A mask operation on every bit below VLMAX (R136); the function gets the mask of all ones too. -/
def State.maskOp (s : State) (md ma mb : MaskNo) (f : Nat → Nat → Nat → Nat) : State :=
  let n := s.ctx.vlmax
  s.setVec fun v => v.setMask md (f (2 ^ n - 1) (s.ctx.mask ma % 2 ^ n) (s.ctx.mask mb % 2 ^ n))

/-- A mask operation on the bits below VL (R136). -/
def State.maskLow (s : State) (md : MaskNo) (f : Nat → Bool) : State :=
  s.setVec fun v => v.setMask md (lowBits (s.ctx.mask md) s.ctx.vec.vl f)

/-- MSET (R135). -/
def execMset (md : MaskNo) (s : State) : Out :=
  s.queued [] 4 fun s => .ok (s.maskLow md fun _ => true)

/-- MCLR (R135). -/
def execMclr (md : MaskNo) (s : State) : Out :=
  s.queued [] 4 fun s => .ok (s.maskLow md fun _ => false)

/-- MPOPC (R135): the set bits below VL. -/
def execMpopc (rd : Reg) (ma : MaskNo) (s : State) : Out :=
  s.queued [] 4 fun s =>
    .ok (s.setReg rd (BitVec.ofNat 64 ((List.range s.ctx.vec.vl).countP (s.ctx.mask ma).testBit)))

/-- MFFS (R135): the lowest set bit below VL, or all ones. -/
def execMffs (rd : Reg) (ma : MaskNo) (s : State) : Out :=
  s.queued [] 4 fun s =>
    .ok <| s.setReg rd <| match firstSet (s.ctx.mask ma) s.ctx.vec.vl with
      | some i => BitVec.ofNat 64 i
      | none => BitVec.allOnes 64

/-- MSBF (R135): the bits before the first set bit. -/
def execMsbf (md ma : MaskNo) (s : State) : Out :=
  s.queued [] 4 fun s =>
    let f := firstSet (s.ctx.mask ma) s.ctx.vec.vl
    .ok (s.maskLow md fun i => match f with
      | some k => decide (i < k)
      | none => true)

/-- MSIF (R135): the bits up to the first set bit. -/
def execMsif (md ma : MaskNo) (s : State) : Out :=
  s.queued [] 4 fun s =>
    let f := firstSet (s.ctx.mask ma) s.ctx.vec.vl
    .ok (s.maskLow md fun i => match f with
      | some k => decide (i ≤ k)
      | none => true)

/-- VCMPEQ (R133). -/
def execVcmpEq (md : MaskNo) (va vb : VecNo) (mk : MaskNo) (s : State) : Out :=
  s.queued [va, vb] 4 fun s => s.compare .eq md va (.vec vb) mk

/-- VCMPNE (R133). -/
def execVcmpNe (md : MaskNo) (va vb : VecNo) (mk : MaskNo) (s : State) : Out :=
  s.queued [va, vb] 4 fun s => s.compare .ne md va (.vec vb) mk

/-- VCMPLT (R133). -/
def execVcmpLt (md : MaskNo) (va vb : VecNo) (mk : MaskNo) (s : State) : Out :=
  s.queued [va, vb] 4 fun s => s.compare .lt md va (.vec vb) mk

/-- VCMPLE (R133). -/
def execVcmpLe (md : MaskNo) (va vb : VecNo) (mk : MaskNo) (s : State) : Out :=
  s.queued [va, vb] 4 fun s => s.compare .le md va (.vec vb) mk

/-- VCMPGT (R133). -/
def execVcmpGt (md : MaskNo) (va vb : VecNo) (mk : MaskNo) (s : State) : Out :=
  s.queued [va, vb] 4 fun s => s.compare .gt md va (.vec vb) mk

/-- VCMPGE (R133). -/
def execVcmpGe (md : MaskNo) (va vb : VecNo) (mk : MaskNo) (s : State) : Out :=
  s.queued [va, vb] 4 fun s => s.compare .ge md va (.vec vb) mk

/-- VCMPUN (R133). -/
def execVcmpUn (md : MaskNo) (va vb : VecNo) (mk : MaskNo) (s : State) : Out :=
  s.queued [va, vb] 4 fun s => s.compare .un md va (.vec vb) mk

/-- VCMPSEQ (R133). -/
def execVcmpsEq (md : MaskNo) (va : VecNo) (sb : Reg) (mk : MaskNo) (s : State) : Out :=
  s.queued [va] 4 fun s => s.compare .eq md va (.scalar (s.reg sb)) mk

/-- VCMPSNE (R133). -/
def execVcmpsNe (md : MaskNo) (va : VecNo) (sb : Reg) (mk : MaskNo) (s : State) : Out :=
  s.queued [va] 4 fun s => s.compare .ne md va (.scalar (s.reg sb)) mk

/-- VCMPSLT (R133). -/
def execVcmpsLt (md : MaskNo) (va : VecNo) (sb : Reg) (mk : MaskNo) (s : State) : Out :=
  s.queued [va] 4 fun s => s.compare .lt md va (.scalar (s.reg sb)) mk

/-- VCMPSLE (R133). -/
def execVcmpsLe (md : MaskNo) (va : VecNo) (sb : Reg) (mk : MaskNo) (s : State) : Out :=
  s.queued [va] 4 fun s => s.compare .le md va (.scalar (s.reg sb)) mk

/-- VCMPSGT (R133). -/
def execVcmpsGt (md : MaskNo) (va : VecNo) (sb : Reg) (mk : MaskNo) (s : State) : Out :=
  s.queued [va] 4 fun s => s.compare .gt md va (.scalar (s.reg sb)) mk

/-- VCMPSGE (R133). -/
def execVcmpsGe (md : MaskNo) (va : VecNo) (sb : Reg) (mk : MaskNo) (s : State) : Out :=
  s.queued [va] 4 fun s => s.compare .ge md va (.scalar (s.reg sb)) mk

/-- VCMPSUN (R133). -/
def execVcmpsUn (md : MaskNo) (va : VecNo) (sb : Reg) (mk : MaskNo) (s : State) : Out :=
  s.queued [va] 4 fun s => s.compare .un md va (.scalar (s.reg sb)) mk

/-- MAND (R135: ma[i] AND mb[i]). -/
def execMand (md ma mb : MaskNo) (s : State) : Out :=
  s.queued [] 4 fun s => .ok (s.maskOp md ma mb fun _ a b => a &&& b)

/-- MOR (R135: ma[i] OR mb[i]). -/
def execMor (md ma mb : MaskNo) (s : State) : Out :=
  s.queued [] 4 fun s => .ok (s.maskOp md ma mb fun _ a b => a ||| b)

/-- MXOR (R135: ma[i] XOR mb[i]). -/
def execMxor (md ma mb : MaskNo) (s : State) : Out :=
  s.queued [] 4 fun s => .ok (s.maskOp md ma mb fun _ a b => a ^^^ b)

/-- MANDN (R135: ma[i] AND NOT mb[i]). -/
def execMandn (md ma mb : MaskNo) (s : State) : Out :=
  s.queued [] 4 fun s => .ok (s.maskOp md ma mb fun all a b => a &&& (all ^^^ b))

/-- MNOT (R135: NOT ma[i]). -/
def execMnot (md ma : MaskNo) (s : State) : Out :=
  s.queued [] 4 fun s => .ok (s.maskOp md ma ma fun all a _ => all ^^^ a)

/-- MMOV (R135: ma[i]). -/
def execMmov (md ma : MaskNo) (s : State) : Out :=
  s.queued [] 4 fun s => .ok (s.maskOp md ma ma fun _ a _ => a)


end Sys2Proof.Machine
end

