-- ==== Sys2Proof/Machine/Permute.lean ====
section
/-! DEFINITION. Transfers between vectors, masks and scalars, selection, permutation, scans and reductions
(spec/06 R137-R149, spec/03 R85). -/

namespace Sys2Proof.Machine

/-- A scalar read for a destination of type `t` (R82) and delivered to it (R68); not for bead types. -/
def ElemType.ofScalar (t : ElemType) (w : Word) : Nat :=
  if t.isFloat then ElemType.fp32.deliver t (w.toNat % 2 ^ 32) else w.toNat % 2 ^ t.bits

/-- The FP32 value of a scalar (R82). -/
def scalarFloat (w : Word) : Exact := fp32.decode (w.toNat % 2 ^ 32)

/-! ### VXFR -/

/-- VEXT (R138). -/
def execVext (rd : Reg) (va : VecNo) (sb : Reg) (s : State) : Out :=
  s.queued [va] 4 fun s =>
    let c := s.ctx
    let t := c.typ va
    s.withRods [t] <|
      let k := (s.reg sb).toNat
      .ok <| s.setReg rd <|
        if c.vec.vl ≤ k then 0
        else if t.isBead then BitVec.ofNat 64 (fp32.round ((c.values va c.vec.vl).getD k .nan))
        else if t.isFloat then BitVec.ofNat 64 (t.deliver .fp32 ((c.raw va c.vec.vl).getD k 0))
        else t.extend ((c.raw va c.vec.vl).getD k 0)

/-- VINS of a value into element `k` of a bead register (R139). -/
def Ctx.insertBead (c : Ctx) (vd : VecNo) (k : Nat) (v : Exact) : VecOut :=
  let t := c.typ vd
  let i := k / t.rod
  let j := k % t.rod
  let (w, codes) := (c.rods vd c.vec.vl).getD i (0, [])
  .ofRods t [(i, quantRod t c.vec.devpol w false [(j, v)] ((codes.map (rodValue t w)).set j v))]

/-- VINS (R139). -/
def execVins (ss : Reg) (vd : VecNo) (sb : Reg) (s : State) : Out :=
  s.queued [vd] 4 fun s =>
    let c := s.ctx
    let t := c.typ vd
    s.withRods [t] <|
      let k := (s.reg sb).toNat
      if c.vec.vl ≤ k then .ok s
      else if t.isBead then s.deliver vd (c.insertBead vd k (scalarFloat (s.reg ss)))
      else s.deliver vd (.ofElems [(k, t.ofScalar (s.reg ss))])

/-- VTOM (R140). -/
def execVtom (va : VecNo) (md : MaskNo) (s : State) : Out :=
  s.queued [va] 4 fun s =>
    let c := s.ctx
    s.withRods [c.typ va] <|
      let vs := c.values va c.vec.vl
      .ok <| s.setVec fun v => v.setMask md <|
        c.mask md / 2 ^ c.vec.vl * 2 ^ c.vec.vl + ofBits (vs.map fun x => !x.isZero)

/-- Write element i of a non-bead register as `f i`, for every i < VL. -/
def State.generate (s : State) (vd : VecNo) (f : Nat → Nat) : Except Stop State :=
  if (s.ctx.typ vd).isBead then trap .illegalTag
  else s.deliver vd (.ofElems ((List.range s.ctx.vec.vl).map fun i => (i, f i)))

/-- VMTOV (R140). -/
def execVmtov (vd : VecNo) (ma : MaskNo) (s : State) : Out :=
  s.queued [vd] 4 fun s =>
    let t := s.ctx.typ vd
    s.generate vd fun i => t.ofValue (.ofInt (if (s.ctx.mask ma).testBit i then 1 else 0))

/-- VIOTA (R140). -/
def execViota (vd : VecNo) (s : State) : Out :=
  s.queued [vd] 4 fun s => s.generate vd fun i => (s.ctx.typ vd).ofValue (.ofInt i)

/-- The output bits of VCONFL: an element passes when its bit is set and its value is new (R141). -/
def conflicts (p : Nat) : Nat → List Int → List Nat → List Bool
  | _, _, [] => []
  | i, seen, v :: vs =>
    if p.testBit i && !seen.contains v then true :: conflicts p (i + 1) ((v : Int) :: seen) vs
    else false :: conflicts p (i + 1) seen vs

/-- VCONFL (R141). -/
def execVconfl (va : VecNo) (md : MaskNo) (s : State) : Out :=
  s.queued [va] 4 fun s =>
    let c := s.ctx
    if !(c.typ va).isInt then trap .illegalTag
    else .ok <| s.setVec fun v => v.setMask md <|
      c.mask md / 2 ^ c.vec.vl * 2 ^ c.vec.vl + ofBits (conflicts (c.mask md) 0 [] (c.raw va c.vec.vl))

/-! ### Selection and permutation (R142) -/

/-- What VSEL delivers: elements, or whole rods with their anchor words, of one source or the other. -/
def Ctx.selectOut (c : Ctx) (vd va vb : VecNo) (mk : MaskNo) : VecOut :=
  let t := c.typ vd
  let n := c.vec.vl
  if t.isBead then
    let rods := (((c.rods va n).zip (c.rods vb n)).mapIdx fun k p =>
      (k, if (c.mask mk).testBit (k * t.rod) then p.1 else p.2))
    { elems := rods.flatMap fun p => p.2.2.mapIdx fun j d => (p.1 * t.rod + j, wrapTo t.bits d)
      anchors := rods.map fun p => (p.1, p.2.1), sat := 0, inl := 0, event := none }
  else .ofElems <| ((c.raw va n).zip (c.raw vb n)).mapIdx fun i p =>
    (i, if (c.mask mk).testBit i then p.1 else p.2)

/-- VSEL (R143). -/
def execVsel (vd va vb : VecNo) (mk : MaskNo) (s : State) : Out :=
  s.queued [vd, va, vb] 4 fun s =>
    let t := s.ctx.typ vd
    if s.ctx.typ va ≠ t ∨ s.ctx.typ vb ≠ t then trap .illegalTag
    else s.withRods [t] <| s.deliver vd (s.ctx.selectOut vd va vb mk)

/-- The checks that the permutes share: equal type codes, and no bead register (R142). -/
def State.permute (s : State) (vd va : VecNo) (out : List Nat → List (Nat × Nat)) : Except Stop State :=
  let c := s.ctx
  if c.typ vd ≠ c.typ va ∨ (c.typ vd).isBead then trap .illegalTag
  else s.deliver vd (.ofElems (out (c.raw va c.vec.vl)))

/-- The indices below VL that are active. -/
def Ctx.activeIdx (c : Ctx) (mk : MaskNo) : List Nat := (List.range c.vec.vl).filter (c.active mk)

/-- VGATHR (R144). -/
def execVgathr (vd va vb : VecNo) (mk : MaskNo) (s : State) : Out :=
  s.queued [vd, va, vb] 4 fun s =>
    let c := s.ctx
    if !(c.typ vb).isInt then trap .illegalTag
    else s.permute vd va fun src =>
      (c.activeElems mk (c.raw vb c.vec.vl)).map fun p =>
        let k := (c.typ vb).int p.2
        (p.1, if 0 ≤ k then src.getD k.toNat 0 else 0)

/-- VCOMP (R145). -/
def execVcomp (vd va : VecNo) (mk : MaskNo) (s : State) : Out :=
  s.queued [vd, va] 4 fun s => s.permute vd va fun src =>
    (s.ctx.activeElems mk src).mapIdx fun k p => (k, p.2)

/-- VEXPD (R145). -/
def execVexpd (vd va : VecNo) (mk : MaskNo) (s : State) : Out :=
  s.queued [vd, va] 4 fun s => s.permute vd va fun src => (s.ctx.activeIdx mk).zip src

/-- VSLUP (R146). -/
def execVslup (vd va : VecNo) (sb : Reg) (mk : MaskNo) (s : State) : Out :=
  s.queued [vd, va] 4 fun s => s.permute vd va fun src =>
    let n := (s.reg sb).toNat
    ((s.ctx.activeIdx mk).filter fun i => n ≤ i).map fun i => (i, src.getD (i - n) 0)

/-- VSLDN (R146). -/
def execVsldn (vd va : VecNo) (sb : Reg) (mk : MaskNo) (s : State) : Out :=
  s.queued [vd, va] 4 fun s => s.permute vd va fun src =>
    let n := (s.reg sb).toNat
    (s.ctx.activeIdx mk).map fun i => (i, src.getD (i + n) 0)

/-- What VSPLAT delivers: a scalar, in every active element or rod. -/
def Ctx.splatOut (c : Ctx) (vd : VecNo) (w : Word) (mk : MaskNo) : VecOut :=
  let t := c.typ vd
  if t.isBead then c.quantise vd mk [] (List.replicate c.vec.vl (scalarFloat w))
  else .ofElems ((c.activeIdx mk).map fun i => (i, t.ofScalar w))

/-- VSPLAT (R147). -/
def execVsplat (vd : VecNo) (sb : Reg) (mk : MaskNo) (s : State) : Out :=
  s.queued [vd] 4 fun s => s.withRods [s.ctx.typ vd] <| s.deliver vd (s.ctx.splatOut vd (s.reg sb) mk)

/-! ### Scans and reductions -/

/-- The type in which VSCAN and VRED combine: FP32 for beads (R85, R148). -/
def ElemType.scanType (t : ElemType) : ElemType := if t.isBead then .fp32 else t

/-- The elements of a register in a floating or integer combining type. -/
def Ctx.combineBits (c : Ctx) (va : VecNo) (t : ElemType) : List Nat :=
  if t.isFloat then (c.values va c.vec.vl).map t.format.round else c.raw va c.vec.vl

/-- One combining step, rounded or wrapped in its type. -/
def ElemType.combine (t : ElemType) (op : VOp) (a b : Nat) : Nat :=
  if t.isFloat then op.float t.format (t.value a) (t.value b) (t.value b)
  else op.int t.bits t.isSigned a b b

/-- The running sums of VSCAN over the active elements. -/
def runningSums (t : ElemType) : Option Nat → List (Nat × Nat) → List (Nat × Nat)
  | _, [] => []
  | none, (i, v) :: rest => (i, v) :: runningSums t (some v) rest
  | some a, (i, v) :: rest =>
    let a' := t.combine .add a v
    (i, a') :: runningSums t (some a') rest

/-- What VSCAN delivers. -/
def Ctx.scanOut (c : Ctx) (vd va : VecNo) (mk : MaskNo) : VecOut :=
  let t := (c.typ va).scanType
  .ofElems <| (runningSums t none (c.activeElems mk (c.combineBits va t))).map fun p => (p.1, t.deliver (c.typ vd) p.2)

/-- VSCAN (R148). -/
def execVscan (vd va : VecNo) (mk : MaskNo) (s : State) : Out :=
  s.queued [vd, va] 4 fun s =>
    if (s.ctx.typ vd).isBead then trap .illegalTag
    else s.withRods [s.ctx.typ va] <| s.deliver vd (s.ctx.scanOut vd va mk)

/-- The fixed shape of a reduction over `2 ^ k` elements (R85). -/
def redTree (f : Nat → Nat → Nat) : Nat → List Nat → Nat
  | 0, t => t.headD 0
  | k + 1, t => redTree f k (((t.take (2 ^ k)).zip (t.drop (2 ^ k))).map fun p => f p.1 p.2)

/-- The logarithm of the smallest power of two at or above `max n 1`. -/
def redLog (n : Nat) : Nat := if n ≤ 1 then 0 else (n - 1).log2 + 1

/-- VRED in type `t` with an identity (R85, R149). -/
def State.reduce (s : State) (op : VOp) (ident : ElemType → Nat) (rd : Reg) (va : VecNo) (mk : MaskNo) :
    Except Stop State :=
  let c := s.ctx
  let t := if (c.typ va).isInt then c.typ va else .fp32
  if op.isBits ∧ !t.isInt then trap .illegalTag
  else s.withRods [c.typ va] <|
    let k := redLog c.vec.vl
    let elems := (c.combineBits va t).mapIdx fun i v => if c.active mk i then v else ident t
    let padded := elems ++ List.replicate (2 ^ k - elems.length) (ident t)
    .ok (s.setReg rd (t.extend (redTree (t.combine op) k padded)))

/-- VREDSUM (R149). -/
def execVredSum (rd : Reg) (va : VecNo) (mk : MaskNo) (s : State) : Out :=
  s.queued [va] 4 fun s => s.reduce .add (fun _ => 0) rd va mk

/-- VREDMAX (R149). -/
def execVredMax (rd : Reg) (va : VecNo) (mk : MaskNo) (s : State) : Out :=
  s.queued [va] 4 fun s => s.reduce .max
    (fun t => if t.isFloat then t.format.signed true t.format.infBits else wrapTo t.bits t.lo) rd va mk

/-- VREDMIN (R149). -/
def execVredMin (rd : Reg) (va : VecNo) (mk : MaskNo) (s : State) : Out :=
  s.queued [va] 4 fun s => s.reduce .min
    (fun t => if t.isFloat then t.format.infBits else wrapTo t.bits t.hi) rd va mk

/-- VREDAND (R149). -/
def execVredAnd (rd : Reg) (va : VecNo) (mk : MaskNo) (s : State) : Out :=
  s.queued [va] 4 fun s => s.reduce .and (fun t => 2 ^ t.bits - 1) rd va mk

/-- VREDOR (R149). -/
def execVredOr (rd : Reg) (va : VecNo) (mk : MaskNo) (s : State) : Out :=
  s.queued [va] 4 fun s => s.reduce .or (fun _ => 0) rd va mk

end Sys2Proof.Machine
end

