-- ==== Sys2Proof/Machine/Anchor.lean ====
section
/-! DEFINITION. Bead and anchor instructions (spec/07 R153-R163). -/

namespace Sys2Proof.Machine

/-- What VANCH and VANCHZ deliver (R156): fresh anchors of the rods of `vd` over the elements of `va` that the mask
selects. The SAT bits of the bead rods of `va` that hold a selected element feed the entry. -/
def Ctx.anchorOut (c : Ctx) (zeroCentre : Bool) (vd va : VecNo) (mk : MaskNo) : VecOut :=
  let t := c.typ vd
  let n := c.vec.vl
  let srcRod := (c.typ va).rod
  let sats := c.sats va
  let entries := (c.anchorReg vd).first (n / t.rod)
  let rods := (chunks t.rod (n / t.rod) ((List.range n).zip (c.values va n))).map fun ch =>
    ch.filter fun p => c.active mk p.1
  let new := ((List.range (n / t.rod)).zip (entries.zip rods)).filterMap fun p =>
    if p.2.2 = [] then none
    else
      let f := freshFit t zeroCentre (p.2.2.map (·.2))
      let feed := p.2.2.any fun q => sats.getD (q.1 / srcRod) false
      some (p.1, anchorWord (anchorGen p.2.1 + 1) (anchorSat p.2.1 || feed) f.2 f.1)
  ⟨[], new, 0, 0, none⟩

/-- VANCH and VANCHZ (R156). -/
def State.setAnchors (s : State) (zeroCentre : Bool) (vd va : VecNo) (mk : MaskNo) : Except Stop State :=
  let t := s.ctx.typ vd
  if !t.isBead then trap .illegalTag
  else s.withRods [t, s.ctx.typ va] <| s.deliver vd (s.ctx.anchorOut zeroCentre vd va mk)

/-- VANCH (R156). -/
def execVanch (vd va : VecNo) (mk : MaskNo) (s : State) : Out :=
  s.queued [vd, va] 4 fun s => s.setAnchors false vd va mk

/-- VANCHZ (R156). -/
def execVanchz (vd va : VecNo) (mk : MaskNo) (s : State) : Out :=
  s.queued [vd, va] 4 fun s => s.setAnchors true vd va mk

/-- What VRANC delivers: the active rods formed anew from their own values; a NaN rod stays. -/
def Ctx.reanchorOut (c : Ctx) (vd : VecNo) (mk : MaskNo) : VecOut :=
  let t := c.typ vd
  let rods := (c.activeRods vd mk ((c.raw vd c.vec.vl).map t.int)).filter fun p => !nanRod p.2.1
  .ofRods t <| rods.map fun p => (p.1, freshRod t p.2.1 false 0 (p.2.2.map (rodValue t p.2.1)))

/-- VRANC (R158). -/
def execVranc (vd : VecNo) (mk : MaskNo) (s : State) : Out :=
  s.queued [vd] 4 fun s =>
    let t := s.ctx.typ vd
    if !t.isBead then trap .illegalTag
    else s.withRods [t] <| s.deliver vd (s.ctx.reanchorOut vd mk)

/-- Entry `j` of anchor register `ak`. -/
def Ctx.anchorEntry (c : Ctx) (ak : BitVec 6) (j : Nat) : Word :=
  (c.vec.anchors[ak.toNat % 16]'(Nat.mod_lt _ (by decide))).get j

/-- The number of entries of an anchor register (R74). -/
def anchorEntries : Nat := 4682

/-- AGETC (R159). -/
def execAgetc (rd : Reg) (ak : BitVec 6) (sb : Reg) (s : State) : Out :=
  s.queued [] 4 fun s =>
    let j := (s.reg sb).toNat
    .ok (s.setReg rd (if anchorEntries ≤ j then 0 else (s.ctx.anchorEntry ak j) &&& 0xFFFFFFFF))

/-- AGETE (R159): GEN in 31:16, SAT in 8, EXP in 7:0, and zero in 15:9. Bits 47:41 of an anchor word may have been left
non-zero (R71), and then the value that R159 writes, bits 63:32 of the word, and its words "zero in 15:9" differ: that these
bits read as zero is the model's choice (notes/assumptions/28.md). -/
def execAgete (rd : Reg) (ak : BitVec 6) (sb : Reg) (s : State) : Out :=
  s.queued [] 4 fun s =>
    let j := (s.reg sb).toNat
    .ok (s.setReg rd (if anchorEntries ≤ j then 0 else (s.ctx.anchorEntry ak j >>> 32) &&& 0xFFFF01FF))

/-- APUT (R160). -/
def execAput (ss : Reg) (ak : BitVec 6) (sb : Reg) (s : State) : Out :=
  s.queued [] 4 fun s =>
    let j := (s.reg sb).toNat
    let w := s.reg ss
    if anchorEntries ≤ j then .ok s
    else
      let new := anchorWord (anchorGen (s.ctx.anchorEntry ak j) + 1) (anchorSat w) (anchorExp w) (anchorCentre w)
      .ok (s.setVec fun v => v.writeAnchors (ak.toNat % 16) [(j, new)])

/-- What VDEVS delivers: the codes as integers. -/
def Ctx.devsOut (c : Ctx) (vd va : VecNo) (mk : MaskNo) : VecOut :=
  .ofElems ((c.activeElems mk (c.raw va c.vec.vl)).map fun p => (p.1, (c.typ vd).ofValue (.ofInt ((c.typ va).int p.2))))

/-- VDEVS (R161). -/
def execVdevs (vd va : VecNo) (mk : MaskNo) (s : State) : Out :=
  s.queued [vd, va] 4 fun s =>
    let t := s.ctx.typ va
    if !t.isBead ∨ !(s.ctx.typ vd).isInt then trap .illegalTag
    else s.withRods [t] <| s.deliver vd (s.ctx.devsOut vd va mk)

/-- What VBEAD delivers: values clamped to the codes, NaE at the bottom; anchors are kept. -/
def Ctx.beadOut (c : Ctx) (vd va : VecNo) (mk : MaskNo) : VecOut :=
  let t := c.typ vd
  let rods := c.activeRods vd mk ((c.raw va c.vec.vl).map (c.typ va).int)
  .ofElems <| rods.flatMap fun p => p.2.2.mapIdx fun j v =>
    (p.1 * t.rod + j, wrapTo t.bits (min (max v t.nae) t.dmax))

/-- VBEAD (R162). -/
def execVbead (vd va : VecNo) (mk : MaskNo) (s : State) : Out :=
  s.queued [vd, va] 4 fun s =>
    let t := s.ctx.typ vd
    if !t.isBead ∨ !(s.ctx.typ va).isInt then trap .illegalTag
    else s.withRods [t] <| s.deliver vd (s.ctx.beadOut vd va mk)

/-- What VADDC delivers: the codes of `va`, and its anchors with a scalar added to the centres. -/
def Ctx.addCentreOut (c : Ctx) (vd va : VecNo) (w : Word) (mk : MaskNo) : VecOut :=
  let t := c.typ vd
  let add := scalarFloat w
  let rods := c.activeRods vd mk ((c.raw va c.vec.vl).map t.int)
  let src := (c.anchorReg va).first (c.vec.vl / t.rod)
  .ofRods t <| rods.map fun p =>
    let w := src.getD p.1 0
    let sat := anchorSat p.2.1 || anchorSat w
    (p.1, if nanRod w then
      ⟨p.2.2.mapIdx fun j _ => (j, 0), anchorWord (anchorGen p.2.1) sat (-128) fp32.nanBits, 0, 0, []⟩
    else
      let centre := fp32.round ((fp32.decode (anchorCentre w)).add add)
      ⟨p.2.2.mapIdx fun j d => (j, d), anchorWord (anchorGen p.2.1) sat (anchorExp w) centre, 0, 0, []⟩)

/-- VADDC (R163). -/
def execVaddc (vd va : VecNo) (sb : Reg) (mk : MaskNo) (s : State) : Out :=
  s.queued [vd, va] 4 fun s =>
    let t := s.ctx.typ vd
    if !t.isBead ∨ s.ctx.typ va ≠ t then trap .illegalTag
    else s.withRods [t] <| s.deliver vd (s.ctx.addCentreOut vd va (s.reg sb) mk)

end Sys2Proof.Machine
end

