-- ==== Sys2Proof/Machine/VConfig.lean ====
section
/-! DEFINITION. Vector length, space, register count and tags (spec/05 R112-R118). -/

namespace Sys2Proof.Machine

/-- The grant of SETVL (R114), by the VLMAX, VCOUNT and tags of program order (R112). -/
def Ctx.grantVl (c : Ctx) (req : Nat) (cap : Option Nat) (whole : Bool) : Nat :=
  let g := min req c.frontVlmax
  let g := match cap with
    | some n => min g n
    | none => g
  let types := (c.front.tags.toList.take c.front.vcount).map tagType
  if !whole then g
  else if types.contains .d4 then g - g % 112
  else if types.contains .d8 then g - g % 56
  else g

/-- SETVL (R114): a cap field of S0 means no cap. -/
def execSetvl (rd ra rb : Reg) (whole : Bool) (s : State) : Out :=
  let g := s.ctx.grantVl (s.reg ra).toNat (if rb = 0 then none else some (s.reg rb).toNat) whole
  (s.setVec fun v => { v with vl := g }).result rd (BitVec.ofNat 64 g)

/-- SETMS (R115). -/
def execSetms (space : BitVec 2) (s : State) : Out :=
  .next ((s.setVec fun v => { v with mspace := space }).retire 4)

/-- VCOUNT and the tags after a VCFG (R116). Tags at and above the new VCOUNT become FP32 too, since every anchor register
is unbound (notes/assumptions/20.md). -/
def Front.configured (n : Nat) : Front := ⟨n, .replicate 64 0⟩

/-- Every vector register becomes an FP32 register of undefined contents, and VL 0 (R116), in the lane group and in program
order (R112). -/
def Ctx.configure (c : Ctx) (tick n : Nat) : Ctx :=
  let f := Front.configured n
  let c := c.reshape tick fun c => { c with vec := { c.vec with
    vl := 0, vcount := f.vcount, tags := f.tags, vecs := Vector.ofFn fun i => .undefined tick i.val } }
  { c with front := f }

/-- VCFG (R116). -/
def execVcfg (rd : Reg) (code : BitVec 2) (s : State) : Out :=
  if !s.ctx.ownsVector then .next (s.takeTrap .vown 0)
  else if s.mxmPending allVecs then .next s.wait
  else
    let s' := { s with ctx := s.ctx.configure s.tick (8 * 2 ^ code.toNat) }
    s'.result rd (BitVec.ofNat 64 s'.ctx.vlmax)

/-- Another register than `vd` that is bound to the anchor register of a bead tag which `vd` takes (R14). -/
def boundTo (tags : Vector (BitVec 8) 64) (vd : VecNo) (tag : BitVec 8) : Option (Fin 64) :=
  if (tagType tag).isBead then
    (List.finRange 64).find? fun i =>
      let t := tags[i]
      i.val ≠ vd.toNat && (tagType t).isBead && tagAnchor t == tagAnchor tag
  else none

/-- The tags after `vd` takes a new one (R118): a register that held the anchor is unbound and becomes FP32. -/
def retagged (tags : Vector (BitVec 8) 64) (vd : VecNo) (tag : BitVec 8) : Vector (BitVec 8) 64 :=
  let tags := match boundTo tags vd tag with
    | some j => tags.set j 0
    | none => tags
  tags.set vd.toNat tag vd.isLt

/-- Give `vd` a new tag (R118): its contents become undefined, and those of a register that is unbound. -/
def VecState.retag (v : VecState) (tick : Nat) (vd : VecNo) (tag : BitVec 8) : VecState :=
  let vecs := match boundTo v.tags vd tag with
    | some j => v.vecs.set j (.undefined tick j.val)
    | none => v.vecs
  { v with tags := retagged v.tags vd tag, vecs := vecs.set vd.toNat (.undefined tick vd.toNat) vd.isLt }

/-- The tags of program order after a VTAG (R112, R118); one that traps leaves them. -/
def Front.retag (f : Front) (vd : VecNo) (tag : BitVec 8) : Front :=
  if tagValid tag then { f with tags := retagged f.tags vd tag } else f

/-- Whether a register after `i` is bound to the anchor register that `i` is bound to. -/
def boundLater (tags : Vector (BitVec 8) 64) (i : Fin 64) : Bool :=
  (tagType tags[i]).isBead && (List.finRange 64).any fun j =>
    i < j && (tagType tags[j]).isBead && tagAnchor tags[j] == tagAnchor tags[i]

/-- Tags that are set together in register order: one that binds an anchor register unbinds the one before it, which
becomes FP32 (R14). -/
def uniqueTags (tags : Vector (BitVec 8) 64) : Vector (BitVec 8) 64 :=
  Vector.ofFn fun i => if boundLater tags i then 0 else tags[i]

/-- The vector state after its tags were set together: contents that were unbound are undefined (R14). -/
def VecState.unbind (v : VecState) (tick : Nat) : VecState :=
  { v with
    tags := uniqueTags v.tags
    vecs := Vector.ofFn fun i => if boundLater v.tags i then .undefined tick i.val else v.vecs[i] }

/-- VTAG (R117, R118). -/
def execVtag (vd : VecNo) (anchor typ : BitVec 4) (s : State) : Out :=
  s.queued [vd] 4 fun s =>
    let tag : BitVec 8 := anchor ++ typ
    if !tagValid tag then trap .illegalTag
    else if s.ctx.tag vd = tag then .ok s
    else
      let c := s.ctx.reshape s.tick fun c => { c with vec := c.vec.retag s.tick vd tag }
      let f := c.front.retag vd tag
      .ok { s with ctx := { c with front := f, vec := { c.vec with vl := min c.vec.vl (c.vlmaxFor f) } } }

end Sys2Proof.Machine
end

