-- ==== Sys2Proof/Machine/Contexts.lean ====
section
/-! DEFINITION. How contexts fork, join, end and are killed, how units finish and cores are released, and how a trap
comes to a context that another agent sends it (spec/01 R33, R41, R42, spec/09 R195, R210, R211, spec/13 R285, R287,
R296, spec/14 R303). -/

namespace Sys2Proof.Machine

def Ctx.live (c : Ctx) : Bool := c.flow.status != .ended

/-- Every context that holds architectural state: resident, or in a parked-context store. -/
def State.holders (s : State) : List Ctx := s.contexts.filter Ctx.live ++ s.dev.sched.parked

/-! ### Grants (R208-R211) -/

/-- The free tile rows of an abacus (R209). -/
def State.freeRows (s : State) (a : Nat) : Nat :=
  64 - ((s.holders.filter fun c => c.place.abacusNo = a).map (·.eng.grant)).sum

/-- Whether some context holds a grant on an abacus. -/
def State.granted (s : State) (a : Nat) : Bool := s.holders.any fun c => c.place.abacusNo == a && c.eng.grant != 0

/-- Null operations of an abacus are charged to a launch from now on (R340). -/
def Abacus.charge (x : Abacus) (l : Nat × Nat) : Abacus := { x with spun := if x.spun.contains l then x.spun else l :: x.spun }

/-- A context, given as it was, has released its grant: its launch is the last one that did on its abacus (R340). -/
def State.noteRelease (s : State) (c : Ctx) : State :=
  if c.eng.grant = 0 then s
  else
    { s with dev := { s.dev with power := { s.dev.power with
        abaci := s.dev.power.abaci.modify c.place.abacusNo fun a =>
          { a with lastRelease := some (c.origin.job, c.origin.task) } } } }

/-- While nobody holds a grant on an abacus and R is below 7, null operations are charged to the launch that released a
grant on it last (R340). -/
def State.chargeIdle (s : State) (a : Nat) : State :=
  if s.granted a then s
  else
    { s with dev := { s.dev with power := { s.dev.power with
        abaci := s.dev.power.abaci.modify a fun x =>
          match x.lastRelease with
          | some l => if x.ramp < 7 then x.charge l else x
          | none => x } } }

/-- A context waits for a grant no longer (R210). -/
def State.dropWaiter (s : State) (who : CtxNo) : State :=
  { s with dev := { s.dev with power := { s.dev.power with
      waiters := s.dev.power.waiters.filter fun w => w.who != who } } }

/-- The rows granted for a request from the free rows: the largest of 8, 16, 32 and 64 that fits (R209). -/
def grantFor (n free : Nat) : Nat :=
  let m := min n free
  if 64 ≤ m then 64 else if 32 ≤ m then 32 else if 16 ≤ m then 16 else if 8 ≤ m then 8 else 0

/-- An MXATTW that waits is given `g` rows, and is complete with them (R209, R210): MXGR and its destination register hold
`g`, and its context goes on behind it. -/
def Ctx.attached (c : Ctx) (rd : Reg) (g : Nat) : Ctx :=
  let c := c.setReg rd (BitVec.ofNat 64 g)
  { c with
    pc := c.pc + 4
    eng := { c.eng with grant := g }
    flow := { c.flow with status := .running } }

/-- While at least 8 rows of an abacus are free, its oldest waiter takes its grant (R210). -/
def State.serveWaiters (a : Nat) : Nat → State → State
  | 0, s => s
  | fuel + 1, s =>
    match s.dev.power.waiters.find? fun w => w.abacus == a with
    | none => s
    | some w =>
      let free := s.freeRows a
      if free < 8 then s
      else State.serveWaiters a fuel <| (s.dropWaiter w.who).onCtx w.who fun c => c.attached w.rd (grantFor w.rows free)

/-- Rows of an abacus were freed: who waits for them takes them, and what is left free may make the abacus idle (R210,
R340). -/
def State.rowsFreed (s : State) (a : Nat) : State := (State.serveWaiters a s.dev.power.waiters.length s).chargeIdle a

/-! ### Ends of contexts and units -/

/-- Whether an engine command was issued by a context (R195, R302). -/
def Cmd.isOf (m : Cmd) (c : Ctx) : Bool :=
  m.isle == c.place.isle && m.core == c.place.core && m.pos == c.place.pos && m.job == c.origin.job &&
    m.task == c.origin.task && m.unit == c.origin.unit

/-- Drop the command that a context waits to have accepted. -/
def State.dropUnaccepted (s : State) (c : Ctx) : State :=
  { s with dev := { s.dev with engines := { s.dev.engines with
      cmds := s.dev.engines.cmds.filter fun m => !(m.isOf c && (m.state == .waiting || m.state == .entered)) } } }

/-- Whether a context is the parent that forked another (R41): each names the other, and both are of one unit. -/
def Ctx.isParentOf (p c : Ctx) : Bool :=
  c.flow.parent == some p.num && p.flow.child == some c.num && p.origin.job == c.origin.job &&
    p.origin.task == c.origin.task && p.origin.unit == c.origin.unit

/-- The parent of a context, resident or parked, sees that its child has ended (R42). -/
def State.childEnds (s : State) (c : Ctx) : State :=
  let f := fun p : Ctx => if p.live && p.isParentOf c then { p with flow := { p.flow with childEnded := true } } else p
  { s with
    ctx := f s.ctx
    others := s.others.map f
    dev := { s.dev with sched := { s.dev.sched with parked := s.dev.sched.parked.map f } } }

/-- The records that a stalled context has still to write (R315). -/
def Ctx.asyncRecords (c : Ctx) : List FaultRec :=
  match c.flow.status with
  | .stalled recs => recs
  | _ => []

/-- The records that a context has still to write are not dropped when it ends or goes on, those of translation faults
among them: the device writes them when there is room (R315, R318). -/
def State.keepRecords (s : State) (c : Ctx) : State :=
  { s with dev := { s.dev with msu := { s.dev.msu with records := s.dev.msu.records ++ c.asyncRecords } } }

/-- A context leaves (R42): its slot and its rows are free, what it has not had accepted or released is dropped, and its
parent sees that it has ended. -/
def State.leave (s : State) (c : Ctx) : State :=
  ((((s.keepRecords c).dropUnaccepted c).childEnds c).onCtx c.num fun c =>
    { c with
      eng := { c.eng with grant := 0 }
      flow := { c.flow with status := .ended, storeBuf := [], queue := [], engine := none } }).noteRelease c

/-- Contexts end together (R42, R296): they wait for nothing any more, and the rows of their grants go to who waits. -/
def State.endAll (s : State) (cs : List Ctx) : State :=
  let s := cs.foldl (fun s c => s.dropWaiter c.num) s
  let s := cs.foldl State.leave s
  cs.foldl (fun s c => s.rowsFreed c.place.abacusNo) s

/-- A context ends. -/
def State.endCtx (s : State) (c : Ctx) : State := s.endAll [c]

/-- Whether two records of a context are of one: its unit and its place in it. -/
def Ctx.same (c d : Ctx) : Bool := c.place == d.place && c.origin == d.origin

/-- A parked context leaves the store: its grant is released. -/
def State.unpark (s : State) (c : Ctx) : State :=
  { s with dev := { s.dev with sched := { s.dev.sched with
      parked := s.dev.sched.parked.filter fun p => !p.same c } } }.noteRelease c

/-- Drop the parked contexts that `f` names: their grants are released, and a parent that is left sees that its child has
ended (R292, R296). -/
def State.dropParked (s : State) (f : Ctx → Bool) : State :=
  let gone := s.dev.sched.parked.filter f
  let s := gone.foldl State.unpark s
  let s := gone.foldl State.childEnds s
  gone.foldl (fun s c => s.rowsFreed c.place.abacusNo) s

/-- The units that one core holds at once (R285). -/
def LaunchRec.perCore (r : LaunchRec) : Nat := 1024 / r.lanes

/-- Whether a launch has placed on a core a unit that has not started yet (R287): one of the first, which start on the
core of their rank. -/
def Task.startsOn (t : Task) (g : Nat) : Bool :=
  (t.state == .filling || t.state == .running) &&
    (List.range (min t.record.units (t.cores.length * t.record.perCore))).any fun u =>
      t.nextUnit ≤ u && t.cores[u / t.record.perCore]? == some g

/-- Whether a started unit still has a context or an engine command (R195). -/
def State.unitBusy (s : State) (job task unit : Nat) : Bool :=
  (s.holders.any fun c => c.origin.job == job && c.origin.task == task && c.origin.unit == unit) ||
    s.dev.engines.cmds.any fun m => m.job == job && m.task == task && m.unit == unit

/-- Whether a reserved core is still needed by its launch (R287, R351). A core under eviction is needed until every
context on it has vacated and every command issued from it has ended (R288). Of units that were placed on it and have not
started, as of a launch that is still filling, the spec does not say what becomes: here they start on it after the fill,
take PREEMPT at once and vacate before the core is free, which is the model's choice (notes/assumptions/26.md). So it is
that a core under eviction on which no unit parks is released too, while later units of the launch have not started, and
that the launch does not get it back for them: R287 and R288 are silent. -/
def State.coreNeeded (s : State) (g : Nat) (c : Core) (host : Nat × Nat) : Bool :=
  if c.evict then
    (s.contexts.any fun x => x.live && x.place.coreNo == g) ||
      (s.dev.engines.cmds.any fun m => coreOf m.isle m.core == g) ||
      ((s.findTask host.1 host.2).any fun t => t.startsOn g)
  else if host.1 = 0 then s.contexts.any fun c => c.live && c.origin.job == 0
  else
    match s.findTask host.1 host.2 with
    | none => false
    | some t =>
      t.state == .filling || (t.state == .running && t.nextUnit < t.record.units) || t.live.any fun u => u.core == g

/-- Count the units that have finished (R195), move launches at zero to completing (R283), release the hold of a job
whose program's unit has ended (R237), and release the cores that no launch needs (R287). -/
def State.closeUnits (s : State) : State :=
  let tasks := s.dev.sched.tasks.map fun t =>
    let live := t.live.filter fun u => s.unitBusy t.job t.id u.unit
    let count := t.count - (t.live.length - live.length)
    { t with
      live := live, count := count
      state := if t.state = .running ∧ count = 0 then .completing else t.state }
  let ended := ((tasks.zip s.dev.sched.tasks).filter fun p =>
    p.1.graph.isNone && p.1.state == .completing && p.2.state == .running).map (·.1.job)
  let s := { s with dev := { s.dev with sched := { s.dev.sched with tasks := tasks } } }
  let s := ended.foldl State.programEnds s
  { s with dev := { s.dev with cores := s.dev.cores.mapIdx fun g c =>
      match c.host with
      | some h => if s.coreNeeded g c h then c else { c with host := none, part := 0, evict := false }
      | none => c } }

/-- A context and every context forked from it, resident or parked (R42): `fuel` bounds the depth of the fork tree. -/
def State.subtree (s : State) (c : Ctx) : Nat → List Ctx
  | 0 => [c]
  | fuel + 1 => c :: ((s.holders.filter fun x => c.isParentOf x).flatMap fun x => s.subtree x fuel)

/-- Contexts are killed together (R296): the resident ones end, and the parked ones are dropped. -/
def State.killAll (s : State) (cs : List Ctx) : State :=
  let s := s.endAll (s.contexts.filter fun c => c.live && cs.any c.same)
  (s.dropParked fun c => cs.any c.same).closeUnits

/-- Kill a context and its live children (R296): what has been performed stays, and nothing further is. -/
def State.kill (s : State) (c : Ctx) : State := s.killAll (s.subtree c 5)

/-- EXIT (R226): it raises JOIN_NONE while the context has a live child. Its grant is released at once, and its accepted
MXMs run on (R195): R211 releases it "in the same way" as MXDET, and does not say whether EXIT waits for them
(notes/assumptions/26.md). It waits for a header that has found no request slot yet, since every earlier access is
performed first (R226, R324). -/
def execExit (s : State) : Out :=
  if s.ctx.flow.child.isSome then .next (s.takeTrap .joinNone 0)
  else
    let s := s.drain
    if s.ctx.flow.owed ≠ [] then .next s.wait else .next (s.endCtx s.ctx).closeUnits

/-! ### Forking and joining (R41, R42, R119-R122) -/

/-- The lowest free context slot of a core (R9, R41). -/
def State.freeSlot (s : State) (isle : BitVec 4) (core : BitVec 3) : Option (BitVec 4) :=
  ((List.range 16).map (BitVec.ofNat 4)).find? fun k =>
    !s.contexts.any fun c => c.live && c.place.isle == isle && c.place.core == core && c.place.slot == k

/-- The vector state of a lane group that takes on a context with its VCOUNT of program order: its contents are undefined,
and VL is 0 (R41, R42, R120); `base` tells a child from its parent. -/
def Ctx.freshLanes (c : Ctx) (tick base : Nat) : VecState :=
  { c.vec.forget tick base c.frontVlmax with vl := 0, vcount := c.front.vcount, tags := c.front.tags }

/-- The child that a context forks into a slot (R41, R120); `held` of the request slots of its number are still taken
(R323). It takes the PREEMPT that its unit has still to take or is taking, and a CANCEL that its unit has still to take
(R120, R289). Three points are the model's choice. A child that is forked in the CANCEL handler of its parent does not take
CANCEL at once, and takes it after each RETT as its parent does (R295); R120 does not say (notes/assumptions/26.md). Its
TSTAT.PMODE is its parent's, which R120 and R302 leave open (notes/assumptions/26.md). Its fetch translates by the PTBASE
and ASID that it takes copies of (R302), also where the parent wrote them since its last ISYNC, which is the model's choice:
R220 lets fetch see a write only after an ISYNC and does not speak of a child (notes/assumptions/26.md). Its fetch has taken
in the first `since` changes of memory, every one before the FORKL among them (R122, R256). -/
def Ctx.forkChild (c : Ctx) (tick held since : Nat) (rd : Reg) (slot : BitVec 4) (pc : Pc) : Ctx :=
  let half := c.place.lanes / 2
  let place := { c.place with
    slot := slot, base := c.place.base + half, lanes := half, pos := c.place.pos + half / 64 }
  let child := { c with place := place }
  let child := { child with
    pc := pc
    trap := { c.trap with
      tstat := tstatWord (c.trap.tstat.getLsbD 0) (c.trap.tstat.getLsbD 1) false false
      vowner := place.num.zeroExtend 64 }
    vec := { child.freshLanes tick 128 with devstat := 0 }
    eng := ⟨0, 0, 0, 0, 0⟩
    flow := { Flow.initial c.trap.ptbase c.trap.asid since with
      slots := held, parent := some c.num, cancelPending := c.flow.cancelPending, cancelTaken := c.flow.cancelTaken
      preemptPending := c.flow.preemptPending || c.flow.evicting } }
  child.setReg rd 0

/-- The parent after its FORKL. -/
def Ctx.forkParent (c : Ctx) (tick : Nat) (rd : Reg) (slot : BitVec 4) : Ctx :=
  let half := c.place.lanes / 2
  let p := { c with place := { c.place with lanes := half } }
  let p := { p with
    trap := { c.trap with vowner := c.num.zeroExtend 64 }
    vec := p.freshLanes tick 0
    flow := { c.flow with child := some { c.place with slot := slot }.num, childEnded := false } }
  p.setReg rd (BitVec.ofNat 64 (c.place.pos + half / 64))

/-- FORKL (R41, R119, R120). -/
def execForkl (rd : Reg) (off : BitVec 21) (s : State) : Out :=
  if s.mxmPending allVecs then .next s.wait
  else
    let c := s.ctx
    let lanes := BitVec.ofNat 64 c.place.lanes
    if c.place.lanes < 128 ∨ c.flow.child.isSome then .next (s.takeTrap .forkLimit lanes)
    else
      match s.freeSlot c.place.isle c.place.core with
      | none => .next (s.takeTrap .forkLimit lanes)
      | some slot =>
        let s := s.drain
        let c := s.ctx
        let held := s.slotsHeld { c.place with slot := slot }.num
        let child := c.forkChild s.tick held s.mem.past.length rd slot (c.pc + (off.signExtend 56 <<< 2))
        .next ({ s with ctx := c.forkParent s.tick rd slot, others := s.others ++ [child] }.retire 4)

/-- The position and the identity of a context's live child within its unit (R41, R184). -/
def Ctx.childPos (c : Ctx) : Nat := c.place.pos + c.place.lanes / 64

/-- Whether a live context of a core holds one of the lanes from `base` on. -/
def State.lanesTaken (s : State) (core base lanes : Nat) : Bool :=
  s.contexts.any fun x =>
    x.live && x.place.coreNo == core && x.place.base < base + lanes && base < x.place.base + x.place.lanes

/-- Whether the lanes that a context gave to its child still have an owner (R42). -/
def State.childLanes (s : State) (c : Ctx) : Bool := s.lanesTaken c.place.coreNo (c.place.base + c.place.lanes) c.place.lanes

/-- Whether the commands of a context's ended child are still busy (R121). -/
def State.childBusy (s : State) (c : Ctx) : Bool :=
  s.dev.engines.cmds.any fun m => m.job == c.origin.job && m.task == c.origin.task && m.unit == c.origin.unit &&
    c.childPos ≤ m.pos && m.pos < c.childPos + c.place.lanes / 64

/-- The parent after its JOINL takes the child's lanes back (R42, R305). -/
def Ctx.rejoin (c : Ctx) (tick : Nat) : Ctx :=
  let c := { c with place := { c.place with lanes := 2 * c.place.lanes } }
  { c with
    trap := { c.trap with vowner := c.num.zeroExtend 64 }
    vec := c.freshLanes tick 0
    flow := { c.flow with child := none, childEnded := false } }

/-- JOINL (R42, R121): a parent waits for its child to end and for the child's commands; a child without a live
child ends, as by EXIT; a root without one raises JOIN_NONE. -/
def execJoinl (s : State) : Out :=
  if s.mxmPending allVecs then .next s.wait
  else if s.ctx.flow.child.isSome then
    if !s.ctx.flow.childEnded ∨ s.childLanes s.ctx ∨ s.childBusy s.ctx then .next s.wait
    else
      let s := s.drain
      .next ({ s with ctx := s.ctx.rejoin s.tick }.retire 4)
  else if s.ctx.flow.parent.isSome then
    let s := s.drain
    if s.ctx.flow.owed ≠ [] then .next s.wait else .next (s.endCtx s.ctx).closeUnits
  else .next (s.takeTrap .joinNone 0)

/-! ### Traps that come to a context from outside, and traps of a fetch -/

/-- The words that TINSTR takes for a context that did not trap by its own instruction: those at its pc, as far as
they can be fetched (R301, notes/assumptions/12.md). -/
def State.wordsAt (s : State) (c : Ctx) : Word := (s.fetch c).2.1

/-- Deliver PREEMPT or CANCEL to a context at its oldest instruction that has not begun (R33): its earlier stores are
released, the instructions behind it are discarded (R32), what it waits for is given up, and it enters its handler. Records
that it has still to write are not dropped (R315): the device writes them when there is room. -/
def State.deliverAsync (s : State) (c : Ctx) (cause : Cause) (f : Flow → Flow) : State :=
  let c := c.squash
  let words := s.wordsAt c
  let s := c.flow.storeBuf.foldl (fun s b => s.perform c.origin.job c.origin.task b.puts) s
  let packets := c.flow.storeBuf.flatMap fun b => b.packets s.dev c.place.coreNo
  let s := { s with dev := s.dev.takeHeaders c packets }.keepRecords c
  let s := (s.dropWaiter c.num).dropUnaccepted c
  let tvec := (s.core c.place.coreNo).tvec
  s.onCtx c.num fun c =>
    let c := c.squash.issueHeaders packets
    { c with flow := f { c.flow with storeBuf := [], ir := words } }.enterTrap cause 0 tvec

/-- A fault-ring record of kind fetch for a context that is killed at its handler (R303). -/
def Ctx.killRec (c : Ctx) (cause : Cause) (va : Word) : FaultRec :=
  { c.faultRec 4 0 false 0 va with cause := cause.code }

/-- A trap that the fetch or the decode of an instruction raises at the word at `va`. At the first instruction of a
handler the context is killed, with a record of kind fetch and the launch's error bit set (R303). -/
def State.fetchTrap (s : State) (e : Stop) (va : Word) : State :=
  if !s.ctx.flow.handlerFirst then s.stop e
  else if !s.canReport 1 then s.wait
  else
    let r := match e.bare with
      | .trap cause _ => { s.ctx.killRec cause va with detail := match cause with
          | .access => 3
          | .dataPoison => 4
          | _ => 0 }
      | .faults r _ => r
      | _ => s.ctx.killRec .page va
    let s := ((s.readTraffic e.reads).report r).setErr s.ctx.origin.job s.ctx.origin.task
    s.kill s.ctx

/-- An encoding that no instruction has (R45, R51, R52): ILLEGAL_INSTR. -/
def execUnassignedEncoding (word : BitVec 32) (s : State) : Out :=
  let s := if s.ctx.flow.ir = 0 then
      { s with ctx := { s.ctx with flow := { s.ctx.flow with ir := word.zeroExtend 64 } } }
    else s
  .next (s.fetchTrap (.trap .illegalInstr 0) (s.ctx.pc.zeroExtend 64))

/-- A fetch from a pool block (R46): POOL_EXEC with the fetch address. -/
def execPoolBlockFetch (va : BitVec 56) (s : State) : Out :=
  .next (s.fetchTrap (.trap .poolExec (va.zeroExtend 64)) (va.zeroExtend 64))

/-- PREEMPT comes to a context (R33, R289). -/
def execPreempt (who : CtxNo) (s : State) : Out :=
  match s.findCtx who with
  | some c =>
    if c.flow.preemptPending ∧ !c.flow.cancelPending then
      .next (s.deliverAsync c .preempt fun f => { f with preemptPending := false, evicting := true })
    else .next s
  | none => .next s

/-- CANCEL comes to a context (R33, R295). -/
def execCancelDelivery (who : CtxNo) (s : State) : Out :=
  match s.findCtx who with
  | some c =>
    if c.flow.cancelPending then
      .next (s.deliverAsync c .cancel fun f => { f with cancelPending := false, cancelTaken := true })
    else .next s
  | none => .next s

/-- The trap that a context takes before anything else of it goes on: CANCEL, also after every RETT of a context that has
taken it (R295), or PREEMPT (R289), each at its next precise point. -/
def State.summons (s : State) (who : CtxNo) : Option Out :=
  match s.findCtx who with
  | some c =>
    if c.flow.cancelPending then some (execCancelDelivery who s)
    else if c.flow.preemptPending then some (execPreempt who s)
    else none
  | none => none

end Sys2Proof.Machine
end

