-- ==== Sys2Proof/Machine/Commands.lean ====
section
/-! DEFINITION. Engine commands as the range checker sees them (spec/09 R203, R204), bringing another context to the
front, and the vector queue as its lane group executes it (spec/01 R26-R32, spec/15 R324). -/

namespace Sys2Proof.Machine

/-- Let the context numbered `who` be the one that moves. -/
def State.focus (s : State) (who : CtxNo) : Option State :=
  if s.ctx.num = who ∧ s.ctx.live then some s
  else
    match s.others.find? fun c => c.num = who ∧ c.live with
    | none => none
    | some c =>
      let rest := s.others.filter fun x => !(x.num == who && x.live)
      some { s with ctx := c, others := if s.ctx.live then rest ++ [s.ctx] else rest }

/-! ### The vector queue (R26-R32, R112, R324) -/

/-- Scalar registers after these results are written. -/
def putRegs (ws : List (Reg × Word)) (v : Vector Word 32) : Vector Word 32 :=
  ws.foldl (fun v w => if w.1 = 0 then v else v.set w.1.toNat w.2 w.1.isLt) v

/-- What a queued instruction that has come to the context `t` has written to scalar registers (R30). -/
def resultsOf (i : Instr) (t : Ctx) : List (Reg × Word) := (resultRegs i).map fun r => (r, t.reg r)

/-- A queued instruction takes in what one before it has written (R30). -/
def Queued.take (q : Queued) (ws : List (Reg × Word)) : Queued := { q with regs := putRegs ws q.regs }

/-- The entries of the undo log of a context (R29, R112). -/
def Flow.undo (f : Flow) : Nat := (f.queue.map (·.undo)).sum

/-- The scalar registers that instructions of the queue have still to write (R30). -/
def pendingRegs (qs : List Queued) : List Reg :=
  ((qs.filter fun q => q.early.isNone).flatMap fun q => resultRegs q.instr).filter (· != 0)

/-- The head of the vector queue is complete (R28): it leaves, and what it has written reaches every instruction behind it
and the scalar thread (R30). -/
def Ctx.popHead (c : Ctx) (ws : List (Reg × Word)) : Ctx :=
  { c with
    regs := putRegs ws c.regs
    flow := { c.flow with
      queue := c.flow.queue.tail.map (·.take ws)
      engine := none
      storeBuf := c.flow.storeBuf.map fun b => { b with after := b.after - 1 } } }

/-- The context whose lane group has come to `t` with the head of its vector queue: its scalar thread stands where it stood
in `front`, and the stores before the head are released. -/
def Ctx.behind (front t : Ctx) : Ctx :=
  { t with
    pc := front.pc
    regs := front.regs
    front := front.front
    vec := { t.vec with vl := front.vec.vl, mspace := front.vec.mspace }
    flow := { front.flow with
      slots := t.flow.slots, owed := t.flow.owed, sent := t.flow.sent
      storeBuf := front.flow.storeBuf.filter fun b => b.after != 0 } }

/-- The context after its lane group has completed the head `q` in `t`. What an early one wrote is out already (R324). A
first-fault load gives VL, which it may only have made less (R174). -/
def Ctx.completeHead (front t : Ctx) (q : Queued) : Ctx :=
  let c := (front.behind t).popHead (if q.early.isSome then [] else resultsOf q.instr t)
  if firstFaultLoad q.instr then { c with vec := { c.vec with vl := min t.vec.vl front.vec.vl } } else c

/-- The state in which a lane group executes an instruction of its queue: with the scalar registers, VL, MSPACE, VCOUNT and
tags of its push (R26, R112), and every store before it released (R29). One that has started early has the step of its start:
what it leaves undefined is what it was then (R6). -/
def State.atHead (f : State) (q : Queued) : State :=
  let tick := q.early.getD f.tick
  { ({ f with ctx := (f.ctx.atHead q).adopt tick } : State).drain with tick := tick }

/-- What the execution of the head `q` of a queue comes to, in `t`, with the context `front` before it: it is complete, and
the scalar thread stays where it is; it waits, and has issued some of its headers or, as nothing, left no trace; its engine
command waits to be accepted, which completes it (R28, R194); or it stopped, and everything behind it is discarded (R32). -/
def State.headOutcome (front : Ctx) (q : Queued) (t : State) : Option State :=
  match t.ctx.flow.status with
  | .running => some (if t.ctx.flow.handlerFirst then t else { t with ctx := front.completeHead t.ctx q })
  | .waiting => if t.ctx.flow.sent = front.flow.sent then none else some { t with ctx := front.behind t.ctx }
  | .atEngine id =>
    some (({ t with ctx := front.behind t.ctx } : State).setFlow fun f => { f with engine := some id })
  | _ => some t

/-- The lane group of the context numbered `who` takes the head of its vector queue, which `run` executes (R27); nothing
where there is no head, or it goes on waiting. -/
def State.runHead (run : Instr → State → Out) (who : CtxNo) (s : State) : Option Out :=
  match s.focus who with
  | none => none
  | some f =>
    match f.ctx.flow.queue, f.ctx.flow.engine with
    | q :: _, none =>
      match run q.instr (f.atHead q) with
      | .next t => (State.headOutcome f.ctx q { t with tick := f.tick }).map .next
      | o => some o
    | _, _ => none

/-- Whether an instruction of the lane pipes does without what a memory instruction before it in the queue has still to do
(R324): it names neither its vector register, nor by its number an anchor register that the load of a bead register writes,
nor its result. -/
def Ctx.independent (c : Ctx) (p q : Queued) : Bool :=
  ((loadOf p.instr).all fun v =>
    !(vecsOf q.instr).contains v && !(namesAnchor q.instr && (tagType c.vec.tags[v.toNat]).isBead)) &&
      (pendingRegs [p]).all fun r => !(scalarsOf q.instr).contains r

/-- The instructions of the queue that the next one to start early has before it: those that have started, and the memory
instructions, which wait (R324), but no sequentially consistent access, past which nothing starts (R175). -/
def started (q : Queued) : Bool := q.early.isSome || (memoryPipe q.instr && !scAccess q.instr)

/-- The lane group without the memory instructions that wait: with what those of its queue that have started early have
written to it. -/
def State.lanesAhead (run : Instr → State → Out) (f : State) (before : List Queued) : State :=
  (before.filter fun q => q.early.isSome).foldl (fun s q =>
    match run q.instr (s.atHead q) with
    | .next t => t
    | _ => s) f

/-- While a memory instruction waits in its pipe, an instruction of another pipe starts (R27, R324): the first that is not a
memory instruction and has not started, if it is independent of those that wait. Its scalar result is out (R30), and makes
an entry of the undo log (R29); what it writes to the lane group is written in its turn, and is the same then. One that
would trap or wait does not start. -/
def State.startEarly (run : Instr → State → Out) (who : CtxNo) (s : State) : Option State :=
  match s.focus who with
  | none => none
  | some f =>
    let queue := f.ctx.flow.queue
    let before := queue.takeWhile started
    match queue.dropWhile started with
    | [] => none
    | q :: rest =>
      if lanePipe q.instr ∧ f.ctx.flow.undo < 64 ∧
          before.all (fun p => p.early.isSome || f.ctx.independent p q) then
        match run q.instr { (f.lanesAhead run before).atHead q with tick := f.tick } with
        | .next t =>
          if t.ctx.flow.status = .running ∧ t.ctx.flow.handlerFirst = false then
            let ws := resultsOf q.instr t.ctx
            some { f with ctx := { f.ctx with
              regs := putRegs ws f.ctx.regs
              flow := { f.ctx.flow with queue :=
                before ++ { q with early := some f.tick, undo := q.undo + ws.length } :: rest.map (·.take ws) } } }
          else none
        | _ => none
      else none

/-- An interval of scratchpad offsets: its lowest byte, and the byte after its highest. -/
abbrev Span := Nat × Nat

def Span.meets (a b : Span) : Bool := a.1 < b.2 && b.1 < a.2

/-- The interval of the rows of a copy at one of its ends: each of `len` bytes. -/
def rowSpan (base stride : Word) (outer len : Nat) : Option Span :=
  if outer = 0 ∨ len = 0 then none
  else
    let last := (base + BitVec.ofNat 64 (outer - 1) * stride).toNat
    some (min base.toNat last, max base.toNat last + len)

/-- The interval of the rows of a copy, each of `len` bytes, that lies in the scratchpad of core `k` of the isle: from the
lowest byte to the highest that a row has there (R198, R203). -/
def rowsInCore (base stride : Word) (outer len k : Nat) : Option Span :=
  ((List.range outer).filterMap fun o =>
    let a := (base + BitVec.ofNat 64 o * stride).toNat
    let lo := max a (k * 2 ^ 24)
    let hi := min (a + len) ((k + 1) * 2 ^ 24)
    if lo < hi then some (lo - k * 2 ^ 24, hi - k * 2 ^ 24) else none).foldl
      (fun acc p => some (match acc with
        | none => p
        | some q => (min q.1 p.1, max q.2 p.2))) none

/-- The interval of MXM rows. -/
def MxSource.span : MxSource → Option Span
  | .rows _ => none
  | .offsets [] => none
  | .offsets (o :: os) => some (os.foldl min o, os.foldl max o + 64)

/-- The interval that holds two intervals. -/
def joinSpans : Option Span → Option Span → Option Span
  | none, b => b
  | a, none => a
  | some a, some b => some (min a.1 b.1, max a.2 b.2)

/-- Whether a copy moves anything (R199). -/
def CmdKind.idle : CmdKind → Bool
  | .copy kind _ _ _ _ outer cores _ vl => outer = 0 ∨ vl = 0 ∨ (kind = 2 ∧ cores = 0)
  | .gath rows _ rowBytes => rows = [] ∨ rowBytes = 0
  | .mxm .. => false

/-- The read range of a command in the scratchpad of its core (R203). -/
def Cmd.readSpan (m : Cmd) : Option Span :=
  if m.kind.idle then none
  else
    match m.kind with
    | .copy kind src _ ss _ outer _ w vl => if kind.getLsbD 0 then rowSpan src ss outer (vl * w) else none
    | .gath .. => none
    | .mxm _ _ _ a b .. => joinSpans a.span b.span

/-- The write range of a command in the scratchpad of its core (R203). -/
def Cmd.writeSpan (m : Cmd) : Option Span :=
  if m.kind.idle then none
  else
    match m.kind with
    | .copy kind _ dst _ ds outer cores w vl =>
      let r := rowSpan dst ds outer (vl * w)
      match kind.toNat with
      | 0 => r
      | 1 => none
      | 2 => if cores.getLsbD m.core.toNat then r else none
      | _ => rowsInCore dst ds outer (vl * w) m.core.toNat
    | .gath rows dst n => some (dst, dst + rows.length * n)
    | .mxm .. => none

def spansMeet : Option Span → Option Span → Bool
  | some a, some b => a.meets b
  | _, _ => false

/-- A command that holds a range-checker entry (R203). -/
def Cmd.entered (m : Cmd) : Bool := m.state != .waiting

/-- A command that its engine has accepted. -/
def Cmd.accepted (m : Cmd) : Bool :=
  match m.state with
  | .waiting | .entered => false
  | .accepted | .paused _ | .stalled _ => true

/-- A command that its engine has accepted and that has still to read its operands (R204): an MXM that only stalls with its
records has read them all (R196). -/
def Cmd.reading (m : Cmd) : Bool :=
  match m.state, m.kind with
  | .stalled _, .mxm .. => false
  | _, _ => m.accepted

/-- The number of a command's core. -/
def Cmd.coreNo (m : Cmd) : Nat := coreOf m.isle m.core

/-- The context number of a command's issuer (R316). -/
def Cmd.who (m : Cmd) : CtxNo := m.isle ++ (0#1 ++ m.core ++ m.slot)

/-- Whether the range checker holds a command back: an earlier-accepted command of its core overlaps it (R203). -/
def State.heldBack (s : State) (m : Cmd) : Bool :=
  s.dev.engines.cmds.any fun n =>
    n.accepted && n.coreNo == m.coreNo && n.order < m.order &&
      (spansMeet n.writeSpan m.readSpan || (n.reading && spansMeet n.readSpan m.writeSpan) ||
        spansMeet n.writeSpan m.writeSpan)

/-- Whether a store of the context that moves to these locations is held by the range checker: some byte of the own
scratchpad lies in the read range of an accepted command that has not read its operands yet (R177, R204). -/
def State.storeHeld (s : State) (puts : List Put) : Bool :=
  let g := s.ctx.place.coreNo
  let offs := (puts.filter fun p => spadLoc g 0 ≤ p.loc && p.loc < spadLoc (g + 1) 0).map fun p => p.loc - spadLoc g 0
  offs != [] && s.dev.engines.cmds.any fun m =>
    m.reading && m.coreNo == g &&
      match m.readSpan with
      | some r => offs.any fun o => r.1 ≤ o && o < r.2
      | none => false

end Sys2Proof.Machine
end

