-- ==== Sys2Proof/Machine/Scalar.lean ====
section
/-! DEFINITION. Scalar arithmetic, branches and scalar FP32 (spec/04 R91-R100). -/

namespace Sys2Proof.Machine

/-- Every source is read before rd is written (R89). -/
def State.alu (s : State) (rd ra rb : Reg) (f : Word → Word → Word) : Out :=
  s.result rd (f (s.reg ra) (s.reg rb))

/-- Bits 127:64 of an exact product (R67). -/
def mulHigh (a b : Int) : Word := BitVec.ofInt 64 (a * b / 2 ^ 64)

/-- Division and remainder of R67: a zero divisor gives all ones and the dividend. -/
def divSigned (a b : Word) : Word := if b = 0 then BitVec.allOnes 64 else a.sdiv b
def divUnsigned (a b : Word) : Word := if b = 0 then BitVec.allOnes 64 else a / b
def remSigned (a b : Word) : Word := if b = 0 then a else a.srem b
def remUnsigned (a b : Word) : Word := if b = 0 then a else a % b

/-- The number of zeros above the highest set bit among the low `n` bits. -/
def leadingZeros : Nat → Word → Nat
  | 0, _ => 0
  | n + 1, w => if w.getLsbD n then 0 else leadingZeros n w + 1

/-- The number of set bits among the low `n` bits. -/
def countOnes : Nat → Word → Nat
  | 0, _ => 0
  | n + 1, w => countOnes n w + (w.getLsbD n).toNat

/-- A branch (R96). -/
def State.branch (s : State) (c : BranchCond) (ra rb : Reg) (off : BitVec 16) : Out :=
  if c.taken (s.reg ra) (s.reg rb) then .next (s.goto (s.ctx.pc + (off.signExtend 56 <<< 2)))
  else .next (s.retire 4)

/-- A scalar FP32 operation (R99): the operands are bits 31:0, the result is zero-extended. -/
def State.fps (s : State) (rd ra rb : Reg) (f : Exact → Exact → Exact → Nat) : Out :=
  s.result rd (BitVec.ofNat 64 (f (scalarFloat (s.reg ra)) (scalarFloat (s.reg rb)) (scalarFloat (s.reg rd))))

/-- LI (R95, pos 00). -/
def execLi (rd : Reg) (imm : BitVec 32) (s : State) : Out :=
  .next ((s.setReg rd (imm.signExtend 64)).retire 8)

/-- LI with pos 01 (R95): the high half. -/
def execLiHi (rd ra : Reg) (imm : BitVec 32) (s : State) : Out :=
  .next ((s.setReg rd (imm ++ (s.reg ra).setWidth 32)).retire 8)

/-- JAL (R97). -/
def execJal (off : BitVec 26) (s : State) : Out :=
  .next ((s.setReg 31 ((s.ctx.pc + 4).zeroExtend 64)).goto (s.ctx.pc + (off.signExtend 56 <<< 2)))

/-- JALR (R98). -/
def execJalr (rd ra : Reg) (imm : BitVec 16) (s : State) : Out :=
  let t := s.reg ra + (imm.signExtend 64 <<< 2)
  if t.toNat % 4 ≠ 0 then .next (s.takeTrap .misalign t)
  else if t.toNat / 2 ^ 56 ≠ 0 then .next (s.takeTrap .access t)
  else .next ((s.setReg rd ((s.ctx.pc + 4).zeroExtend 64)).goto (t.setWidth 56))

/-- ADD (R92: rd ← (ra + rb) mod 2^64). -/
def execAdd (rd ra rb : Reg) (s : State) : Out :=
  s.alu rd ra rb fun a b => a + b

/-- SUB (R92: rd ← (ra − rb) mod 2^64). -/
def execSub (rd ra rb : Reg) (s : State) : Out :=
  s.alu rd ra rb fun a b => a - b

/-- AND (R92: rd ← ra AND rb). -/
def execAnd (rd ra rb : Reg) (s : State) : Out :=
  s.alu rd ra rb fun a b => a &&& b

/-- OR (R92: rd ← ra OR rb). -/
def execOr (rd ra rb : Reg) (s : State) : Out :=
  s.alu rd ra rb fun a b => a ||| b

/-- XOR (R92: rd ← ra XOR rb). -/
def execXor (rd ra rb : Reg) (s : State) : Out :=
  s.alu rd ra rb fun a b => a ^^^ b

/-- SLL (R92: rd ← ra shifted left by rb[5:0]). -/
def execSll (rd ra rb : Reg) (s : State) : Out :=
  s.alu rd ra rb fun a b => a <<< (b.toNat % 64)

/-- SRL (R92: rd ← ra shifted right by rb[5:0], zeros in). -/
def execSrl (rd ra rb : Reg) (s : State) : Out :=
  s.alu rd ra rb fun a b => a >>> (b.toNat % 64)

/-- SRA (R92: rd ← ra shifted right by rb[5:0], sign copies in). -/
def execSra (rd ra rb : Reg) (s : State) : Out :=
  s.alu rd ra rb fun a b => a.sshiftRight (b.toNat % 64)

/-- SLT (R92: rd ← 1 if s(ra) < s(rb)). -/
def execSlt (rd ra rb : Reg) (s : State) : Out :=
  s.alu rd ra rb fun a b => boolWord (a.slt b)

/-- SLTN (R92: rd ← 1 if n(ra) < n(rb)). -/
def execSltn (rd ra rb : Reg) (s : State) : Out :=
  s.alu rd ra rb fun a b => boolWord (a.ult b)

/-- MIN (R92: rd ← the smaller of s(ra), s(rb)). -/
def execMin (rd ra rb : Reg) (s : State) : Out :=
  s.alu rd ra rb fun a b => if a.slt b then a else b

/-- MAX (R92: rd ← the larger of s(ra), s(rb)). -/
def execMax (rd ra rb : Reg) (s : State) : Out :=
  s.alu rd ra rb fun a b => if a.slt b then b else a

/-- MINN (R92: rd ← the smaller of n(ra), n(rb)). -/
def execMinn (rd ra rb : Reg) (s : State) : Out :=
  s.alu rd ra rb fun a b => if a.ult b then a else b

/-- MAXN (R92: rd ← the larger of n(ra), n(rb)). -/
def execMaxn (rd ra rb : Reg) (s : State) : Out :=
  s.alu rd ra rb fun a b => if a.ult b then b else a

/-- MUL (R92: rd ← low 64 bits of ra × rb). -/
def execMul (rd ra rb : Reg) (s : State) : Out :=
  s.alu rd ra rb fun a b => a * b

/-- MULH (R92: rd ← bits 127:64 of s(ra) × s(rb)). -/
def execMulh (rd ra rb : Reg) (s : State) : Out :=
  s.alu rd ra rb fun a b => mulHigh a.toInt b.toInt

/-- MULHN (R92: rd ← bits 127:64 of n(ra) × n(rb)). -/
def execMulhn (rd ra rb : Reg) (s : State) : Out :=
  s.alu rd ra rb fun a b => mulHigh a.toNat b.toNat

/-- DIV (R92: rd ← s(ra) ÷ s(rb), truncated). -/
def execDiv (rd ra rb : Reg) (s : State) : Out :=
  s.alu rd ra rb fun a b => divSigned a b

/-- DIVN (R92: rd ← n(ra) ÷ n(rb), truncated). -/
def execDivn (rd ra rb : Reg) (s : State) : Out :=
  s.alu rd ra rb fun a b => divUnsigned a b

/-- REM (R92: rd ← the signed remainder). -/
def execRem (rd ra rb : Reg) (s : State) : Out :=
  s.alu rd ra rb fun a b => remSigned a b

/-- REMN (R92: rd ← the unsigned remainder). -/
def execRemn (rd ra rb : Reg) (s : State) : Out :=
  s.alu rd ra rb fun a b => remUnsigned a b

/-- ANDN (R92: rd ← ra AND NOT rb). -/
def execAndn (rd ra rb : Reg) (s : State) : Out :=
  s.alu rd ra rb fun a b => a &&& ~~~b

/-- CLZ (R92: rd ← the number of leading zero bits of ra). -/
def execClz (rd ra : Reg) (s : State) : Out :=
  s.alu rd ra 0 fun a _ => BitVec.ofNat 64 (leadingZeros 64 a)

/-- POPC (R92: rd ← the number of 1 bits in ra). -/
def execPopc (rd ra : Reg) (s : State) : Out :=
  s.alu rd ra 0 fun a _ => BitVec.ofNat 64 (countOnes 64 a)

/-- ADDI (R93). -/
def execAddi (rd ra : Reg) (imm : BitVec 16) (s : State) : Out :=
  s.alu rd ra 0 fun a _ => a + imm.signExtend 64

/-- ANDI (R93). -/
def execAndi (rd ra : Reg) (imm : BitVec 16) (s : State) : Out :=
  s.alu rd ra 0 fun a _ => a &&& imm.zeroExtend 64

/-- ORI (R93). -/
def execOri (rd ra : Reg) (imm : BitVec 16) (s : State) : Out :=
  s.alu rd ra 0 fun a _ => a ||| imm.zeroExtend 64

/-- XORI (R93). -/
def execXori (rd ra : Reg) (imm : BitVec 16) (s : State) : Out :=
  s.alu rd ra 0 fun a _ => a ^^^ imm.zeroExtend 64

/-- SLTI (R93). -/
def execSlti (rd ra : Reg) (imm : BitVec 16) (s : State) : Out :=
  s.alu rd ra 0 fun a _ => boolWord (a.slt (imm.signExtend 64))

/-- SLLI (R94). -/
def execSlli (rd ra : Reg) (amount : BitVec 6) (s : State) : Out :=
  s.alu rd ra 0 fun a _ => a <<< amount.toNat

/-- SRLI (R94). -/
def execSrli (rd ra : Reg) (amount : BitVec 6) (s : State) : Out :=
  s.alu rd ra 0 fun a _ => a >>> amount.toNat

/-- SRAI (R94). -/
def execSrai (rd ra : Reg) (amount : BitVec 6) (s : State) : Out :=
  s.alu rd ra 0 fun a _ => a.sshiftRight amount.toNat

/-- BEQ (R96). -/
def execBeq (ra rb : Reg) (off : BitVec 16) (s : State) : Out := s.branch .eq ra rb off

/-- BNE (R96). -/
def execBne (ra rb : Reg) (off : BitVec 16) (s : State) : Out := s.branch .ne ra rb off

/-- BLT (R96). -/
def execBlt (ra rb : Reg) (off : BitVec 16) (s : State) : Out := s.branch .lt ra rb off

/-- BGE (R96). -/
def execBge (ra rb : Reg) (off : BitVec 16) (s : State) : Out := s.branch .ge ra rb off

/-- BLTN (R96). -/
def execBltn (ra rb : Reg) (off : BitVec 16) (s : State) : Out := s.branch .ltn ra rb off

/-- BGEN (R96). -/
def execBgen (ra rb : Reg) (off : BitVec 16) (s : State) : Out := s.branch .gen ra rb off

/-- FADDS (R100). -/
def execFadds (rd ra rb : Reg) (s : State) : Out :=
  s.fps rd ra rb fun a b _ => fp32.round (a.add b)

/-- FSUBS (R100). -/
def execFsubs (rd ra rb : Reg) (s : State) : Out :=
  s.fps rd ra rb fun a b _ => fp32.round (a.sub b)

/-- FMULS (R100). -/
def execFmuls (rd ra rb : Reg) (s : State) : Out :=
  s.fps rd ra rb fun a b _ => fp32.round (a.mul b)

/-- FDIVS (R100). -/
def execFdivs (rd ra rb : Reg) (s : State) : Out :=
  s.fps rd ra rb fun a b _ => fp32.div a b

/-- FMINS (R100). -/
def execFmins (rd ra rb : Reg) (s : State) : Out :=
  s.fps rd ra rb fun a b _ => fp32.round (a.min b)

/-- FMAXS (R100). -/
def execFmaxs (rd ra rb : Reg) (s : State) : Out :=
  s.fps rd ra rb fun a b _ => fp32.round (a.max b)

/-- FFMAS (R100): fused a × b + rd. -/
def execFfmas (rd ra rb : Reg) (s : State) : Out :=
  s.fps rd ra rb fun a b d => fp32.round (a.fma b d)

/-- FSQRTS (R100). -/
def execFsqrts (rd ra : Reg) (s : State) : Out :=
  s.fps rd ra 0 fun a _ _ => fp32.sqrt a

/-- FCVTSI (R100): RNE, saturated to the I64 range, NaN gives 0. -/
def execFcvtsi (rd ra : Reg) (s : State) : Out :=
  s.result rd (BitVec.ofInt 64 ((scalarFloat (s.reg ra)).toIntSat (-2 ^ 63) (2 ^ 63 - 1)))

/-- FCVTIS (R100): RN of all 64 bits of ra as a signed integer. -/
def execFcvtis (rd ra : Reg) (s : State) : Out :=
  s.result rd (BitVec.ofNat 64 (fp32.round (.ofInt (s.reg ra).toInt)))

/-- FCLTS (R100): 0 when unordered. -/
def execFclts (rd ra rb : Reg) (s : State) : Out :=
  s.fps rd ra rb fun a b _ => (Cond.holds .lt (a.compare b)).toNat

/-- FCLES (R100): 0 when unordered. -/
def execFcles (rd ra rb : Reg) (s : State) : Out :=
  s.fps rd ra rb fun a b _ => (Cond.holds .le (a.compare b)).toNat

/-- FCEQS (R100): 0 when unordered. -/
def execFceqs (rd ra rb : Reg) (s : State) : Out :=
  s.fps rd ra rb fun a b _ => (Cond.holds .eq (a.compare b)).toNat

end Sys2Proof.Machine
end

