-- ==== Sys2Proof/Machine/Memory.lean ====
section
/-! DEFINITION. Scalar loads and stores, acquire loads, release stores and scalar atomics (spec/04 R101-R111). The
accesses of this model are performed at one moment each, in one order that every party sees
(notes/assumptions/9.md); a scope orders nothing further. -/

namespace Sys2Proof.Machine

/-- The width in bytes of a size code, and whether a load extends its sign (R101). -/
def sizeBytes (sz : BitVec 3) : Nat := 2 ^ (sz.toNat / 2)

def loadExtend (sz : BitVec 3) (v : Nat) : Word :=
  if sz.getLsbD 0 then BitVec.ofNat 64 v else BitVec.ofInt 64 (signedOf (8 * sizeBytes sz) v)

/-- The effective address of a scalar access (R102). -/
def State.address (s : State) (ra : Reg) (off : BitVec 10) : Word := s.reg ra + off.signExtend 64

/-- The youngest byte that the store buffer holds for a location in a stream (R103). -/
def bufferedByte (buf : List Buffered) (st : Stream) (loc : Nat) : Option Byte :=
  ((buf.filter fun b => b.stream == st).flatMap (·.puts)).reverse.findSome? fun p =>
    if p.loc = loc then some p.byte else none

/-- A load was performed from the entries of its stream in the buffer: what follows it follows them all (R255). -/
def Flow.mark (f : Flow) (st : Stream) : Flow :=
  { f with storeBuf := f.storeBuf.map fun b => { b with seen := b.seen || b.stream == st } }

/-- Whether a load that is performed at memory must follow an entry of the store buffer: one of its own stream (R103), or
one that a load performed before it follows, so that an address computed from that load may order the two (R255, R257,
R258). -/
def Flow.holdsBack (f : Flow) (st : Stream) : Bool := f.storeBuf.any fun b => b.stream == st || b.seen

/-- The stream of a memory instruction of the vector queue (R26, R180). -/
def queuedStream : Instr → Option Stream
  | .vld _ _ _ st | .vldStrided _ _ _ _ st | .vldIndexed _ _ _ _ st | .vldFirstFault _ _ _ st | .vldSc _ _ _ st
  | .vldScIndexed _ _ _ _ st | .vst _ _ _ st | .vstStrided _ _ _ _ st | .vstIndexed _ _ _ _ st | .vstSc _ _ _ st
  | .vstScIndexed _ _ _ _ st | .stnl _ _ _ st | .rlq _ _ st => some st
  | .vamoAdd .. | .vamoAnd .. | .vamoOr .. | .vamoXor .. | .vamoMin .. | .vamoMax .. | .vamoMinn .. | .vamoMaxn ..
  | .vamoFadd .. => some 0
  | _ => none

/-- Whether an instruction is a nameless store, whose writes every later access of its context follows, in every stream
(R190, R255). -/
def namelessStore : Instr → Bool
  | .stnl .. => true
  | _ => false

/-- Whether a scalar load of a stream waits for the vector queue: for a memory instruction of that stream (R29), or for a
nameless store (R255). -/
def Flow.awaits (f : Flow) (st : Stream) : Bool :=
  f.queue.any fun q => queuedStream q.instr == some st || namelessStore q.instr

/-- The `n` bytes at `loc` as an access through `h` reads them: with the accessed bit of its page set before (R312), and
with its request and its header. -/
def State.readThrough (s : State) (need : Need) (h : Hit) (n : Nat) : State × Nat :=
  let s := (s.touch need h).sendFor h
  (s.readFor s.ctx.origin.job s.ctx.origin.task [(h.loc, n)], s.numberFor s.ctx.origin.job h.loc n)

/-- A scalar load of `w` bytes (R102, R103): it waits while a memory instruction of its stream, or a nameless store, stands in
the vector queue (R29, R255). It is answered from the store buffer, which needs no request slot, when that holds every byte in the stream.
Otherwise it waits while anything in the vector queue keeps the buffer from being released where it must be, and the buffer is released first where it holds an entry that the load must follow
(`Flow.holdsBack`), and for a page of host memory, which is read at the vector commit pointer. That every other entry goes
with them is the model's choice (notes/assumptions/8.md). A load that the write buffer of the core answers sends no header
and needs no slot (R322). -/
def State.loadScalar (s : State) (st : Stream) (w : Nat) (va : Word) : Except Stop (State × Nat) :=
  match s.locate .read w va with
  | .error e => .error e
  | .ok h =>
    let host : Bool := h.loc / 2 ^ 52 = 3
    let held := (List.range w).map fun i => bufferedByte s.ctx.flow.storeBuf st (h.loc + i)
    let answered := fun s : State => s.bufferAnswers s.ctx.place.coreNo h.loc w
    if s.ctx.flow.awaits st then .error .stall
    else if held.all Option.isSome && !host then
      .ok ((s.touch .read h).setFlow fun f => f.mark st, leNat (held.filterMap id))
    else if s.ctx.flow.queue != [] && (host || s.ctx.flow.holdsBack st) then .error .stall
    else if s.slotless h && !answered s then .error .stall
    else
      let s := if host || s.ctx.flow.holdsBack st then s.drain else s
      if s.poisonedFor s.ctx.origin.job h.loc w then .error (.asked (s.accessSpans h w) (.trap .dataPoison 0))
      else if answered s then .ok (s.touch .read h, s.numberFor s.ctx.origin.job h.loc w)
      else if s.slotless h then .error .stall
      else .ok (s.readThrough .read h w)

/-- A scalar store of `w` bytes (R102): ahead of the vector commit pointer it enters the store buffer (R29), and takes
its request slot when it is released (R322). R312 has the walker set A and D before the access is performed: for a store
that enters the buffer they are set as it enters, and not as it is released, which is the model's choice
(notes/assumptions/8.md). -/
def State.storeScalar (s : State) (st : Stream) (w : Nat) (va : Word) (v : Word) : Except Stop State :=
  match s.locate .write w va with
  | .error e => .error e
  | .ok h =>
    let puts := h.puts w v.toNat
    if s.ctx.flow.ahead then
      let full : Bool := 32 ≤ s.ctx.flow.storeBuf.length
      if full && s.ctx.flow.queue != [] then .error .stall
      else
        let s := s.touch .write h
        let s := if full then s.drain else s
        .ok { s with ctx := { s.ctx with flow := { s.ctx.flow with
          storeBuf := s.ctx.flow.storeBuf ++ [⟨st, puts, false, s.ctx.flow.queue.length⟩] } } }
    else if s.slotless h then .error .stall
    else .ok (((s.touch .write h).sendStore h w).perform s.ctx.origin.job s.ctx.origin.task puts)

/-- LDS (R101). -/
def execLds (rd ra : Reg) (sz : BitVec 3) (st : Stream) (off : BitVec 10) (s : State) : Out :=
  s.settle <| (s.loadScalar st (sizeBytes sz) (s.address ra off)).map fun p =>
    (p.1.setReg rd (loadExtend sz p.2)).retire 4

/-- STS (R101). -/
def execSts (rs ra : Reg) (sz : BitVec 2) (st : Stream) (off : BitVec 10) (s : State) : Out :=
  s.settle <| (s.storeScalar st (2 ^ sz.toNat) (s.address ra off) (s.reg rs)).map fun s => s.retire 4

/-- LDSA (R105). -/
def execLdsa (rd ra : Reg) (sz _scope : BitVec 3) (off : BitVec 10) (s : State) : Out :=
  s.settle <| (s.loadScalar 0 (sizeBytes sz) (s.address ra off)).map fun p =>
    (p.1.setReg rd (loadExtend sz p.2)).retire 4

/-- STSL (R106). -/
def execStsl (rs ra : Reg) (sz : BitVec 2) (_scope : BitVec 3) (off : BitVec 10) (s : State) : Out :=
  s.settle <| (s.storeScalar 0 (2 ^ sz.toNat) (s.address ra off) (s.reg rs)).map fun s => s.retire 4

/-- A scalar atomic on `w` bytes (R109, R110): `f` gives the new value, or nothing for a failed comparison; `sext`
tells how a 32-bit old value is extended. It is never counted in the store digest (R246). -/
def State.amo (s : State) (rd ra rb : Reg) (w : Nat) (sext : Bool) (f : Nat → Nat → Option Nat) :
    Except Stop State :=
  match s.probe .atomic w (s.reg ra) with
  | .error e => .error e
  | .ok h =>
    if s.poisonedFor s.ctx.origin.job h.loc w then .error (.asked (s.accessSpans h w) (.trap .dataPoison 0))
    else
      let (s', old) := s.readThrough .atomic h w
      let s' := match f old ((s.reg rb).toNat % 2 ^ (8 * w)) with
        | some v => s'.performPlain s.ctx.origin.job s.ctx.origin.task (h.puts w v)
        | none => s'
      .ok (s'.setReg rd (if sext then BitVec.ofInt 64 (signedOf (8 * w) old) else BitVec.ofNat 64 old))

/-- A scalar atomic with an integer operation of R109. -/
def State.amoInt (s : State) (op : VOp) (sg : Bool) (rd ra rb : Reg) (size64 : Bool) : Out :=
  let w := if size64 then 8 else 4
  s.settle <| (s.amo rd ra rb w sg fun old b => some (op.int (8 * w) sg old b b)).map fun s => s.retire 4

/-- AMOADD (R109). -/
def execAmoAdd (rd ra rb : Reg) (_scope : BitVec 3) (size64 : Bool) (_order : BitVec 2) (s : State) : Out :=
  s.amoInt .add true rd ra rb size64

/-- AMOAND (R109). -/
def execAmoAnd (rd ra rb : Reg) (_scope : BitVec 3) (size64 : Bool) (_order : BitVec 2) (s : State) : Out :=
  s.amoInt .and true rd ra rb size64

/-- AMOOR (R109). -/
def execAmoOr (rd ra rb : Reg) (_scope : BitVec 3) (size64 : Bool) (_order : BitVec 2) (s : State) : Out :=
  s.amoInt .or true rd ra rb size64

/-- AMOXOR (R109). -/
def execAmoXor (rd ra rb : Reg) (_scope : BitVec 3) (size64 : Bool) (_order : BitVec 2) (s : State) : Out :=
  s.amoInt .xor true rd ra rb size64

/-- AMOMIN (R109). -/
def execAmoMin (rd ra rb : Reg) (_scope : BitVec 3) (size64 : Bool) (_order : BitVec 2) (s : State) : Out :=
  s.amoInt .min true rd ra rb size64

/-- AMOMAX (R109). -/
def execAmoMax (rd ra rb : Reg) (_scope : BitVec 3) (size64 : Bool) (_order : BitVec 2) (s : State) : Out :=
  s.amoInt .max true rd ra rb size64

/-- AMOMINN (R109). -/
def execAmoMinn (rd ra rb : Reg) (_scope : BitVec 3) (size64 : Bool) (_order : BitVec 2) (s : State) : Out :=
  s.amoInt .min false rd ra rb size64

/-- AMOMAXN (R109). -/
def execAmoMaxn (rd ra rb : Reg) (_scope : BitVec 3) (size64 : Bool) (_order : BitVec 2) (s : State) : Out :=
  s.amoInt .max false rd ra rb size64

/-- AMOSWAP (R109). -/
def execAmoSwap (rd ra rb : Reg) (_scope : BitVec 3) (size64 : Bool) (_order : BitVec 2) (s : State) : Out :=
  s.settle <| (s.amo rd ra rb (if size64 then 8 else 4) true fun _ b => some b).map fun s => s.retire 4

/-- AMOCAS (R109): rd holds the expected value; a failed comparison performs no write. -/
def execAmoCas (rd ra rb : Reg) (_scope : BitVec 3) (size64 : Bool) (_order : BitVec 2) (s : State) : Out :=
  let w := if size64 then 8 else 4
  let expected := (s.reg rd).toNat % 2 ^ (8 * w)
  s.settle <| (s.amo rd ra rb w true fun old b => if old = expected then some b else none).map fun s => s.retire 4

/-- AMOFADD (R109): RN_FP32(old + b). -/
def execAmoFadd (rd ra rb : Reg) (_scope : BitVec 3) (_order : BitVec 2) (s : State) : Out :=
  s.settle <| (s.amo rd ra rb 4 false fun old b =>
    some (fp32.round ((fp32.decode old).add (fp32.decode b)))).map fun s => s.retire 4

/-- STORE_RELEASE (R29): the oldest entry of the store buffer of the context that moves is released to memory, unless an
instruction of the vector queue stands before it. -/
def execStoreRelease (s : State) : Out :=
  match s.ctx.flow.storeBuf with
  | [] => .next s
  | b :: rest =>
    let s' := s.release b
    .next (if b.after ≠ 0 then s else { s' with ctx := { s'.ctx with flow := { s'.ctx.flow with storeBuf := rest } } })

end Sys2Proof.Machine
end

