-- ==== Sys2Proof/Machine/VMem.lean ====
section
/-! DEFINITION. Vector loads, stores and atomics, and deterministic holding (spec/08 R166-R186). -/

namespace Sys2Proof.Machine

/-! ### Elements as bytes (R70, R170) -/

/-- D4 codes, two to a byte, the lower element in the low half. -/
def packPairs : List Nat → List Byte
  | a :: b :: rest => BitVec.ofNat 8 (a % 16 + 16 * (b % 16)) :: packPairs rest
  | [a] => [BitVec.ofNat 8 (a % 16)]
  | [] => []

/-- Elements of a type as bytes. -/
def ElemType.pack (t : ElemType) (es : List Nat) : List Byte :=
  if t = .d4 then packPairs es else es.flatMap (leBytes t.bytes)

/-- Bytes as elements of a type. -/
def ElemType.unpack (t : ElemType) (bs : List Byte) : List Nat :=
  if t = .d4 then bs.flatMap fun b => [b.toNat % 16, b.toNat / 16]
  else (chunks t.bytes (bs.length / t.bytes) bs).map leNat

/-- The 64 bytes of a rod (R70). -/
def rodBytes (t : ElemType) (anchor : Word) (codes : List Nat) : List Byte := leBytes 8 anchor.toNat ++ t.pack codes

/-! ### Addresses (R167, R168, R172) -/

/-- The addressing of a vector access: unit-stride, strided or indexed. -/
inductive VAddr | unit | strided (stride : Word) | indexed (offsets : List Word)
deriving DecidableEq, Repr

/-- The address of element or rod `i`, of `w` bytes. -/
def VAddr.at (m : VAddr) (base : Word) (w i : Nat) : Word :=
  match m with
  | .unit => base + BitVec.ofNat 64 (i * w)
  | .strided st => base + BitVec.ofNat 64 i * st
  | .indexed offs => base + offs.getD i 0

/-- The active elements below VL with their addresses. -/
def Ctx.elemAddrs (c : Ctx) (m : VAddr) (base : Word) (w : Nat) (mk : MaskNo) : List (Nat × Word) :=
  ((List.range c.vec.vl).filter fun i => c.active mk i).map fun i => (i, m.at base w i)

/-- The active rods below VL of a bead register, by their first element, with their addresses. -/
def Ctx.rodAddrs (c : Ctx) (t : ElemType) (m : VAddr) (base : Word) (mk : MaskNo) : List (Nat × Word) :=
  ((List.range (c.vec.vl / t.rod)).filter fun k => c.active mk (k * t.rod)).map fun k => (k * t.rod, m.at base 64 k)

/-- The byte offsets of an index register (R167). -/
def Ctx.offsets (c : Ctx) (vx : VecNo) : List Word := (c.raw vx c.vec.vl).map fun b => BitVec.ofInt 64 ((c.typ vx).int b)

/-- Where one address of a vector access goes (R168). -/
def State.reach (s : State) (need : Need) (a : Word) : Except Miss Hit :=
  let c := s.ctx
  let g := c.place.coreNo
  match c.vec.mspace.toNat with
  | 0 => if a.toNat < c.origin.part.toNat / 2 ^ 8 % 256 * 65536 then .ok ⟨spadLoc g a.toNat, a, none, c.space⟩ else .error .access
  | 1 =>
    let k := g / 8 * 8 + a.toNat / 2 ^ 24
    if a.toNat < 2 ^ 27 ∧ a.toNat % 2 ^ 24 < (s.core k).spadBytes then
      .ok ⟨spadLoc k (a.toNat % 2 ^ 24), a, none, c.space⟩
    else .error .access
  | _ => s.resolve c.space need a

/-! ### Checks (R169, R315) -/

/-- The element of an access at `h` that consumes poison, as an offset among the elements that the access moves: a rod
of bead type has its anchor word first. -/
def State.poisonIn (s : State) (t : ElemType) (h : Hit) : Option Nat :=
  let bad := s.poisonedFor s.ctx.origin.job
  if t.isBead then
    if bad h.loc 8 then some 0
    else (List.range t.rod).find? fun j => bad (h.loc + 8 + j * t.bits / 8) 1
  else if bad h.loc t.bytes then some 0
  else none

/-- The first of each group of translation faults on one page. Of a page whose walk fails neither R169 nor R315 gives the
size: 4 KiB is the model's choice (notes/assumptions/24.md). -/
def onePerPage : List Nat → List FaultRec → List FaultRec
  | _, [] => []
  | seen, r :: rs =>
    let page := r.va.toNat / 2 ^ 12
    if seen.contains page then onePerPage seen rs else r :: onePerPage (page :: seen) rs

/-- How a vector access is checked: what it needs, its type, whether each element is translated by itself (indexed),
and the kind of its fault-ring records. -/
structure Check where
  need : Need
  typ : ElemType
  indexed : Bool
  kind : Nat
deriving DecidableEq, Repr

/-- The width of one access. -/
def Check.width (k : Check) : Nat := if k.typ.isBead then 64 else k.typ.bytes

/-- The page of an address that an access crosses (R320): that of its leaf; 4 KiB of the window. -/
def Hit.page (h : Hit) : Nat × Nat :=
  match h.leaf with
  | some l => (l.size, h.va.toNat / l.size)
  | none => (0, h.va.toNat / 2 ^ 12)

/-- The first of the hits of each group that `f` tells apart. -/
def onePer {α : Type} [BEq α] (f : Hit → α) : List α → List Hit → List Hit
  | _, [] => []
  | seen, h :: hs => if seen.contains (f h) then onePer f seen hs else h :: onePer f (f h :: seen) hs

/-- The request headers of an access that leave the core (R320, R322): one for each page that a unit-stride or strided
access crosses, for each core that an indexed one under MSPACE 1 names, and else for each element; none for what the write
buffer of the core answers. -/
def State.headers (s : State) (k : Check) (hits : List (Nat × Hit)) : List Packet :=
  let g := s.ctx.place.coreNo
  let out := (hits.map (·.2)).filter fun h => h.leaves g && !(k.need == .read && s.bufferAnswers g h.loc k.width)
  (if !k.indexed then onePer Hit.page [] out
    else if s.ctx.vec.mspace = 1 then onePer (fun h => h.va.toNat / 2 ^ 24) [] out
    else out).map fun h => s.dev.packet h.loc

/-- A page that an access has translated: its size, its number, and the leaf that maps it, or why it has none. -/
structure PageUse where
  size : Nat
  num : Nat
  leaf : Except Miss Leaf
deriving DecidableEq

/-- The page that the translation of an address used: that of the leaf that maps it, also where the leaf refuses the access;
4 KiB where the walk failed (notes/assumptions/24.md); none where no table maps the address. -/
def State.pageUsed (s : State) (a : Word) : List PageUse :=
  if 0xFF ≤ a.toNat / 2 ^ 48 then []
  else
    match s.leaf s.ctx.space a.toNat with
    | .ok l => [⟨l.size, a.toNat / l.size, .ok l⟩]
    | .error m => [⟨2 ^ 12, a.toNat / 2 ^ 12, .error m⟩]

/-- Where an address on a page that the access has translated goes. -/
def State.onPage (s : State) (need : Need) (a : Word) (p : PageUse) : Except Miss Hit :=
  match p.leaf with
  | .ok l => s.through s.ctx.space need a l
  | .error m => .error m

/-- Where each element of an access goes. The elements of a unit-stride or strided access to global memory are
translated once for each page, whatever its size, and those of an indexed one each by itself (R169); `seen` holds the
pages so far. -/
def State.reachAll (s : State) (k : Check) :
    List PageUse → List (Nat × Word) → List ((Nat × Word) × Except Miss Hit)
  | _, [] => []
  | seen, e :: es =>
    match seen.find? fun p => e.2.toNat / p.size == p.num with
    | some p => (e, s.onPage k.need e.2 p) :: s.reachAll k seen es
    | none =>
      (e, s.reach k.need e.2) ::
        s.reachAll k (if k.indexed || s.ctx.vec.mspace != 2 then [] else seen ++ s.pageUsed e.2) es

/-- The table entries that the translations of an access read (R311). -/
def State.checkSpans (s : State) (els : List (Nat × Word)) : List (Nat × Nat) :=
  if s.ctx.vec.mspace = 2 then (els.flatMap fun e => s.walkSpans s.ctx.space e.2).eraseDups else []

/-- The stretches that the elements of an access read. -/
def Check.spans (k : Check) (hits : List (Nat × Hit)) : List (Nat × Nat) := hits.map fun p => (p.2.loc, k.width)

/-- Make every check of R169 on the active elements: where each goes, or how the instruction stops. Where the walk of one
element of a load meets a poisoned entry, which gives TVAL 0 (R311), and the data of another are poisoned, which gives its
index (R169), the lower element prevails: the model's choice, of which R169, R311 and R319 do not speak
(notes/assumptions/10.md). -/
def State.check (s : State) (k : Check) (els : List (Nat × Word)) : Except Stop (List (Nat × Hit)) :=
  match els.find? fun e => e.2.toNat % k.width ≠ 0 with
  | some e => .error (.trap .misalign e.2)
  | none =>
    let asked := fun e : Stop => Stop.asked (s.checkSpans els) e
    let res := s.reachAll k [] els
    let hits := res.filterMap fun r => match r.2 with
      | .ok h => some (r.1.1, h)
      | .error _ => none
    match res.find? fun r => match r.2 with | .error .access => true | _ => false with
    | some r => .error (asked (.trap .access r.1.2))
    | none =>
      let faults := res.filterMap fun r => match r.2 with
        | .error (.fault d) => some (s.ctx.faultRec k.kind d k.need.writes r.1.1 r.1.2)
        | _ => none
      match if k.indexed then faults else onePerPage [] faults with
      | r :: rs => .error (asked (.faults r rs))
      | [] =>
        let bad := res.findSome? fun r => match r.2 with
          | .error _ => some 0
          | .ok h => if k.need = .read then (s.poisonIn k.typ h).map (r.1.1 + ·) else none
        match bad with
        | some i => .error (asked (.asked (if k.need = .read then k.spans hits else []) (.trap .dataPoison (BitVec.ofNat 64 i))))
        | none => .ok hits

/-- An access waits in the memory pipe until its last header has found a request slot, and is performed then (R324). -/
def State.inPipe (s : State) (packets : List Packet) (k : Except Stop State) : Except Stop State :=
  if s.pipeWaits packets then .error (.headers packets) else k

/-- The accesses are on their way: accessed and dirty bits, and the last headers. -/
def State.depart (s : State) (k : Check) (hits : List (Nat × Hit)) : State :=
  (hits.foldl (fun s p => s.touch k.need p.2) s).sendRest (s.headers k hits)

/-! ### VLD and VST (R170-R175) -/

/-- Load the elements or rods at `hits` into a vector register (R170, R172). -/
def State.fill (s : State) (t : ElemType) (vt : VecNo) (hits : List (Nat × Hit)) : State :=
  let job := s.ctx.origin.job
  if t.isBead then
    s.setVec fun v => (v.writeElems vt (hits.flatMap fun p =>
        (t.unpack (s.bytesFor job (p.2.loc + 8) 56)).mapIdx fun j b => (p.1 + j, b))).writeAnchors (tagAnchor (s.ctx.tag vt))
      (hits.map fun p => (p.1 / t.rod, BitVec.ofNat 64 (s.numberFor job p.2.loc 8)))
  else s.setVec fun v => v.writeElems vt (hits.map fun p => (p.1, s.numberFor job p.2.loc t.bytes))

/-- Pair what is listed by ascending index with the elements, the first of which has index `i`. -/
def pick {α β : Type} : Nat → List α → List (Nat × β) → List (β × α)
  | i, x :: xs, (j, b) :: hs => if i = j then (b, x) :: pick (i + 1) xs hs else pick (i + 1) xs ((j, b) :: hs)
  | _, _, _ => []

/-- The bytes that storing a vector register at `hits` writes (R170-R172). -/
def Ctx.spill (c : Ctx) (t : ElemType) (vt : VecNo) (hits : List (Nat × Hit)) : List Put :=
  let raw := c.raw vt c.vec.vl
  if t.isBead then
    let rods := (c.anchorReg vt).first (c.vec.vl / t.rod)
    hits.flatMap fun p => (rodBytes t (rods.getD (p.1 / t.rod) 0) ((raw.drop p.1).take t.rod)).mapIdx fun i b =>
      ⟨p.2.loc + i, p.2.va + BitVec.ofNat 64 i, b, p.2.zel, p.2.global⟩
  else
    (pick 0 raw hits).flatMap fun p => p.1.puts t.bytes p.2

/-- MISALIGN of a bead access: its base, then its stride (R172). -/
def rodAlign (m : VAddr) (base : Word) (t : ElemType) (els : List (Nat × Word)) : Option Word :=
  if els = [] then none
  else if base.toNat % 64 ≠ 0 then some base
  else
    match m with
    | .strided st =>
      if st.toNat % 64 = 0 then none
      else some (((els.find? fun e => t.rod ≤ e.1).map (·.2)).getD base)
    | _ => none

/-- The accesses of a VLD or VST and where they go, with every check made (R169, R172). -/
def State.aim (s : State) (k : Check) (m : VAddr) (base : Word) (mk : MaskNo) : Except Stop (List (Nat × Hit)) :=
  let t := k.typ
  if t.isBead then
    let els := s.ctx.rodAddrs t m base mk
    if !s.ctx.vlFits [t] then trap .illegalVl s.ctx.vlWord
    else
      match rodAlign m base t els with
      | some a => trap .misalign a
      | none => s.check k els
  else s.check k (s.ctx.elemAddrs m base t.bytes mk)

/-- A vector load (R170, R172). -/
def State.vload (s : State) (vt : VecNo) (indexed : Bool) (m : VAddr) (base : Word) (mk : MaskNo) :
    Except Stop State :=
  let t := s.ctx.typ vt
  let k : Check := ⟨.read, t, indexed, if indexed then 2 else 0⟩
  match s.aim k m base mk with
  | .error e => .error e
  | .ok hits =>
    s.inPipe (s.headers k hits) <|
    let t' := (s.depart k hits).readFor s.ctx.origin.job s.ctx.origin.task (k.spans hits)
    .ok (t'.fill t vt hits)

/-- A vector store (R170-R173). A store to the own scratchpad under MSPACE 0 or 1 waits while the range checker holds
it (R177, R204). -/
def State.vstore (s : State) (vt : VecNo) (indexed : Bool) (m : VAddr) (base : Word) (mk : MaskNo) :
    Except Stop State :=
  let t := s.ctx.typ vt
  let k : Check := ⟨.write, t, indexed, if indexed then 3 else 1⟩
  match s.aim k m base mk with
  | .error e => .error e
  | .ok hits =>
    let puts := s.ctx.spill t vt hits
    if s.ctx.vec.mspace ≠ 2 ∧ s.storeHeld puts then .error .stall
    else s.inPipe (s.headers k hits) (.ok ((s.depart k hits).perform s.ctx.origin.job s.ctx.origin.task puts))

/-- Run `k` unless the data register carries a bead type (R172, R174, R175). -/
def State.withElems (s : State) (vt : VecNo) (k : Except Stop State) : Except Stop State :=
  if (s.ctx.typ vt).isBead then trap .illegalTag else k

/-- Run `k` unless the index register carries no integer type (R167) or the data register a bead type (R172). -/
def State.withIndex (s : State) (vt vx : VecNo) (k : VAddr → Except Stop State) : Except Stop State :=
  if !(s.ctx.typ vx).isInt then trap .illegalTag else s.withElems vt (k (.indexed (s.ctx.offsets vx)))

/-- Each active element of an SC access draws the next ticket (R175). -/
def State.drawTickets (s : State) (mk : MaskNo) : State :=
  let n := ((List.range s.ctx.vec.vl).filter fun i => s.ctx.active mk i).length
  { s with dev := { s.dev with msu := { s.dev.msu with ticket := s.dev.msu.ticket + n } } }

/-- VLD unit-stride (R170). -/
def execVld (vt : VecNo) (base : Reg) (mk : MaskNo) (_st : Stream) (s : State) : Out :=
  s.queued [vt] 4 fun s => s.vload vt false .unit (s.reg base) mk

/-- VLD strided (R167). -/
def execVldStrided (vt : VecNo) (base stride : Reg) (mk : MaskNo) (_st : Stream) (s : State) : Out :=
  s.queued [vt] 4 fun s => s.vload vt false (.strided (s.reg stride)) (s.reg base) mk

/-- VLD indexed (R167). -/
def execVldIndexed (vt : VecNo) (base : Reg) (vx : VecNo) (mk : MaskNo) (_st : Stream) (s : State) : Out :=
  s.queued [vt, vx] 4 fun s => s.withIndex vt vx fun m => s.vload vt true m (s.reg base) mk

/-- The lowest element of a load that meets a condition of R169. -/
def State.firstFault (s : State) (k : Check) (els : List (Nat × Word)) : Option Nat :=
  (s.reachAll k [] els).findSome? fun r =>
    let meets := r.1.2.toNat % k.width != 0 || match r.2 with
      | .error _ => true
      | .ok h => (s.poisonIn k.typ h).isSome
    if meets then some r.1.1 else none

/-- VLD unit-stride first-fault (R174). Of the element at which it ends only the walk is made, which found the condition; its
data are not accessed. -/
def execVldFirstFault (vt : VecNo) (base : Reg) (mk : MaskNo) (_st : Stream) (s : State) : Out :=
  s.queued [vt] 4 fun s => s.withElems vt <|
    let t := s.ctx.typ vt
    let k : Check := ⟨.read, t, false, 0⟩
    let els := s.ctx.elemAddrs .unit (s.reg base) t.bytes mk
    match s.firstFault k els with
    | none | some 0 => s.vload vt false .unit (s.reg base) mk
    | some n =>
      match s.check k (els.filter fun e => e.1 < n) with
      | .error e => .error e
      | .ok hits =>
        s.inPipe (s.headers k hits) <|
        let t' := (s.depart k hits).readFor s.ctx.origin.job s.ctx.origin.task (k.spans hits)
        let t' := t'.readTraffic (t'.checkSpans (els.filter fun e => e.1 == n))
        .ok ((t'.fill t vt hits).setVec fun v => { v with vl := n })

/-- VLD SC unit-stride (R175). -/
def execVldSc (vt : VecNo) (base : Reg) (mk : MaskNo) (_st : Stream) (s : State) : Out :=
  s.queued [vt] 4 fun s => s.withElems vt <|
    (s.vload vt false .unit (s.reg base) mk).map fun s' => s'.drawTickets mk

/-- VLD SC indexed (R175). -/
def execVldScIndexed (vt : VecNo) (base : Reg) (vx : VecNo) (mk : MaskNo) (_st : Stream) (s : State) : Out :=
  s.queued [vt, vx] 4 fun s => s.withIndex vt vx fun m =>
    (s.vload vt true m (s.reg base) mk).map fun s' => s'.drawTickets mk

/-- VST unit-stride (R170). -/
def execVst (vt : VecNo) (base : Reg) (mk : MaskNo) (_st : Stream) (s : State) : Out :=
  s.queued [vt] 4 fun s => s.vstore vt false .unit (s.reg base) mk

/-- VST strided (R167). -/
def execVstStrided (vt : VecNo) (base stride : Reg) (mk : MaskNo) (_st : Stream) (s : State) : Out :=
  s.queued [vt] 4 fun s => s.vstore vt false (.strided (s.reg stride)) (s.reg base) mk

/-- VST indexed (R171). -/
def execVstIndexed (vt : VecNo) (base : Reg) (vx : VecNo) (mk : MaskNo) (_st : Stream) (s : State) : Out :=
  s.queued [vt, vx] 4 fun s => s.withIndex vt vx fun m => s.vstore vt true m (s.reg base) mk

/-- VST SC unit-stride (R175). -/
def execVstSc (vt : VecNo) (base : Reg) (mk : MaskNo) (_st : Stream) (s : State) : Out :=
  s.queued [vt] 4 fun s => s.withElems vt <|
    (s.vstore vt false .unit (s.reg base) mk).map fun s' => s'.drawTickets mk

/-- VST SC indexed (R175). -/
def execVstScIndexed (vt : VecNo) (base : Reg) (vx : VecNo) (mk : MaskNo) (_st : Stream) (s : State) : Out :=
  s.queued [vt, vx] 4 fun s => s.withIndex vt vx fun m =>
    (s.vstore vt true m (s.reg base) mk).map fun s' => s'.drawTickets mk

/-- Run a VST; any other instruction waits. -/
def execVstForm (i : Instr) (s : State) : Out :=
  match i with
  | .vst vt base mk st => execVst vt base mk st s
  | .vstStrided vt base stride mk st => execVstStrided vt base stride mk st s
  | .vstIndexed vt base vx mk st => execVstIndexed vt base vx mk st s
  | .vstSc vt base mk st => execVstSc vt base mk st s
  | .vstScIndexed vt base vx mk st => execVstScIndexed vt base vx mk st s
  | _ => .next s.wait

/-- HELD_STORE_RELEASE (R204): the VST that waits at the head of a context's vector queue proceeds when the range checker
holds it no longer. It stands at the vector commit pointer, so every store before it is released first (R29, R255). -/
def execHeldStoreRelease (who : CtxNo) (s : State) : Out := (s.runHead execVstForm who).getD (.next s)

/-! ### Deterministic holding (R184, R185) -/

/-- The MSU of a target word: its channel; the memory agent of its tier port (R335); or the host port (R334). -/
def msuOf (loc : Nat) : Nat :=
  match channelOf loc with
  | some ch => ch
  | none => if loc < 3 * 2 ^ 52 then 512 + loc % 2 ^ 52 / 2 ^ 41 % 4 else 516

/-- The issuer key of a held update. -/
def issuerKey (unit pos : Nat) (seq : BitVec 22) (elem : Nat) : BitVec 64 :=
  BitVec.ofNat 64 (unit % 2 ^ 20 * 2 ^ 44 + pos % 16 * 2 ^ 40 + seq.toNat * 2 ^ 18 + elem % 2 ^ 18)

def HeldWord.isFor (h : HeldWord) (u : HeldUpdate) : Bool := h.job == u.job && h.task == u.task && h.loc == u.loc

/-- The word takes one more update; at the 17th a slot falls back to the exact sum. -/
def HeldWord.take (h : HeldWord) (u : HeldUpdate) : HeldWord :=
  let us := h.updates ++ [(u.key, u.bits)]
  { h with updates := us, fallback := h.fallback || (h.slot && 16 < us.length) }

/-- The write of a spill record of 64 bytes at a location. -/
def State.spillAt (s : State) (loc : Nat) : State :=
  if s.dev.fencedAt loc then { s with mem := s.mem.mark loc }
  else
    let s := s.request loc (if s.mem.elided.contains (loc / 256) then 256 else 64)
    { s with mem := s.mem.forget loc (loc + 64) s.tick }

/-- The walk and the write of a new record of a spill area, in the address space of the job, at their MSUs (R185, R248,
R276, R311), in a line that it clears where that is elided (R271). What the record holds is not architectural, and undefined
(R248); on a fenced channel it is poison (R278). Where the page of the record does not translate or refuses the write, the record counts
and nothing is written, and its page is not marked accessed here: R185 and R248 do not say, and both are the model's choice
(notes/assumptions/25.md). -/
def State.spillTraffic (s : State) (t : Task) : State :=
  match s.findJob t.job with
  | none => s
  | some j =>
    let va := t.record.spbase + BitVec.ofNat 64 (64 * t.spilled)
    let walked := s.walkTraffic (t.space j) va
    match s.resolve (t.space j) .write va with
    | .ok h => walked.spillAt h.loc
    | .error _ => walked

/-- An MSU accepts a held update: into the word's slot or record, into a free target slot, or into a new record of the
spill area. Nothing when the spill area is full. A word keeps the address, the pc and the context of its first accepted
update, for its store record (R246) and its fault-ring record (R186, R316): which update gives them, where several reach one
location through several addresses, is the model's choice (notes/assumptions/25.md). -/
def State.acceptHeld (s : State) (u : HeldUpdate) : Option State :=
  let held := s.dev.msu.held
  let put := fun (s : State) hs => { s with dev := { s.dev with msu := { s.dev.msu with held := hs } } }
  if held.any (·.isFor u) then some (put s (held.map fun h => if h.isFor u then h.take u else h))
  else
    let word : HeldWord := ⟨u.job, u.task, u.loc, u.va, u.pc, u.who, true, false, [(u.key, u.bits)]⟩
    if (held.filter fun h => h.slot && msuOf h.loc == msuOf u.loc).length < 256 then some (put s (held ++ [word]))
    else
      match s.findTask u.job u.task with
      | none => none
      | some t =>
        if t.spilled < t.record.spsize / 64 then
          some (((put s (held ++ [{ word with slot := false }])).spillTraffic t).onTask u.job u.task fun t =>
            { t with spilled := t.spilled + 1 })
        else none

/-- HELD_UPDATE_ACCEPT (R185). -/
def execHeldUpdateAccept (upd : HeldUpdate) (s : State) : Out := .next ((s.acceptHeld upd).getD s)

/-! ### VAMO (R180-R185) -/

/-- What a VAMO carries along: the state, and the records of the updates that met poison. -/
abbrev VamoRun := State × List FaultRec

/-- One update of a VAMO (R181-R185), with what it computes on the old word. -/
def vamoUpdate (w : Nat) (held : Bool) (f : Nat → Nat → Nat) (r : VamoRun) (e : (Nat × Hit) × Nat) :
    Except Stop VamoRun :=
  let s := r.1
  let h := e.1.2
  if held ∧ h.global then
    let c := s.ctx
    let key := issuerKey c.origin.unit (c.place.pos) c.eng.vamoSeq e.1.1
    match s.acceptHeld ⟨c.origin.job, c.origin.task, h.loc, h.va, key, BitVec.ofNat 32 e.2, c.pc.zeroExtend 64, c.num⟩ with
    | some s' => .ok (s', r.2)
    | none => trap .detSpill h.va
  else if s.poisonedFor s.ctx.origin.job h.loc w then
    .ok (s.readTraffic [(h.loc, w)], r.2 ++ [{ s.ctx.faultRec 6 4 true e.1.1 h.va with cause := 8 }])
  else
    let job := s.ctx.origin.job
    let s := s.readFor job s.ctx.origin.task [(h.loc, w)]
    .ok (s.performPlain job s.ctx.origin.task (h.puts w (f (s.numberFor job h.loc w) e.2)), r.2)

/-- Every update in ascending order of element. -/
def vamoAll (w : Nat) (held : Bool) (f : Nat → Nat → Nat) : VamoRun → List ((Nat × Hit) × Nat) → Except Stop VamoRun
  | r, [] => .ok r
  | r, e :: es =>
    match vamoUpdate w held f r e with
    | .error x => .error x
    | .ok r' => vamoAll w held f r' es

/-- Write the records of updates that met poison, and set the error bit of the launch (R183). Records that find no
room are left to be written, and the context stalls (R315). -/
def State.reportPoison (s : State) (recs : List FaultRec) : State :=
  if recs = [] then s
  else
    let s := s.setErr s.ctx.origin.job s.ctx.origin.task
    if !s.ringOn then s
    else
      let (s', left) := s.writeRecords recs
      if left = [] then s'
      else { s' with ctx := { s'.ctx with flow := { s'.ctx.flow with status := .stalled left } } }

/-- A VAMO whose values register may carry the types `ok`; `fadd` marks VAMOFADD. -/
def State.vamo (s : State) (vv : VecNo) (base : Reg) (vx : VecNo) (mk : MaskNo) (ok : List ElemType) (fadd : Bool)
    (f : ElemType → Nat → Nat → Nat) : Out :=
  s.queuedAs [vv, vx] fun s =>
    let t := s.ctx.typ vv
    if !ok.contains t ∨ !(s.ctx.typ vx).isInt then trap .illegalTag
    else
      let k : Check := ⟨.atomic, t, true, 6⟩
      let els := s.ctx.elemAddrs (.indexed (s.ctx.offsets vx)) (s.reg base) t.bytes mk
      match s.check k els with
      | .error e => .error e
      | .ok hits =>
        s.inPipe (s.headers k hits) <|
        let vals := (s.ctx.raw vv s.ctx.vec.vl).zipIdx.filterMap fun e => if s.ctx.active mk e.2 then some e.1 else none
        match vamoAll t.bytes (fadd && s.ctx.origin.det) (f t) (s.depart k hits, []) (hits.zip vals) with
        | .error e => .error (.behind (s.checkSpans els) e)
        | .ok (s', recs) =>
          let s' := { s' with ctx := { s'.ctx with eng := { s'.ctx.eng with
            vamoSeq := if fadd then s'.ctx.eng.vamoSeq + 1 else s'.ctx.eng.vamoSeq } } }
          .ok ((s'.retire 4).reportPoison recs)

/-- The integer VAMOs. -/
def State.vamoInt (s : State) (op : VOp) (sg : Bool) (vv : VecNo) (base : Reg) (vx : VecNo) (mk : MaskNo) : Out :=
  s.vamo vv base vx mk [.i32, .n32, .i64, .n64] false fun t old b => op.int t.bits sg old b b

/-- VAMOADD (R181). -/
def execVamoAdd (vv : VecNo) (base : Reg) (vx : VecNo) (mk : MaskNo) (_scope : BitVec 2) (s : State) : Out :=
  s.vamoInt .add true vv base vx mk

/-- VAMOAND (R181). -/
def execVamoAnd (vv : VecNo) (base : Reg) (vx : VecNo) (mk : MaskNo) (_scope : BitVec 2) (s : State) : Out :=
  s.vamoInt .and true vv base vx mk

/-- VAMOOR (R181). -/
def execVamoOr (vv : VecNo) (base : Reg) (vx : VecNo) (mk : MaskNo) (_scope : BitVec 2) (s : State) : Out :=
  s.vamoInt .or true vv base vx mk

/-- VAMOXOR (R181). -/
def execVamoXor (vv : VecNo) (base : Reg) (vx : VecNo) (mk : MaskNo) (_scope : BitVec 2) (s : State) : Out :=
  s.vamoInt .xor true vv base vx mk

/-- VAMOMIN (R181). -/
def execVamoMin (vv : VecNo) (base : Reg) (vx : VecNo) (mk : MaskNo) (_scope : BitVec 2) (s : State) : Out :=
  s.vamoInt .min true vv base vx mk

/-- VAMOMAX (R181). -/
def execVamoMax (vv : VecNo) (base : Reg) (vx : VecNo) (mk : MaskNo) (_scope : BitVec 2) (s : State) : Out :=
  s.vamoInt .max true vv base vx mk

/-- VAMOMINN (R181). -/
def execVamoMinn (vv : VecNo) (base : Reg) (vx : VecNo) (mk : MaskNo) (_scope : BitVec 2) (s : State) : Out :=
  s.vamoInt .min false vv base vx mk

/-- VAMOMAXN (R181). -/
def execVamoMaxn (vv : VecNo) (base : Reg) (vx : VecNo) (mk : MaskNo) (_scope : BitVec 2) (s : State) : Out :=
  s.vamoInt .max false vv base vx mk

/-- VAMOFADD (R181, R184). -/
def execVamoFadd (vv : VecNo) (base : Reg) (vx : VecNo) (mk : MaskNo) (_scope : BitVec 2) (s : State) : Out :=
  s.vamo vv base vx mk [.fp32] true fun _ old b => fp32.round ((fp32.decode old).add (fp32.decode b))

end Sys2Proof.Machine
end

