-- ==== Sys2Proof/Machine/Nameless.lean ====
section
/-! DEFINITION. Nameless pools and the nameless store (spec/08 R187-R192, spec/12 R272-R276). -/

namespace Sys2Proof.Machine

/-! ### POOLCFG (R272-R274) -/

def poolGroups (cfg : Word) : Nat := cfg.toNat / 2 ^ 58
def poolSize (cfg : Word) : Nat := 512 * 4 ^ (cfg.toNat / 2 ^ 56 % 4)
def poolBase (cfg : Word) : Nat := cfg.toNat / 2 ^ 12 % 2 ^ 44 * 4096
def poolCap (cfg : Word) : Nat := 2 ^ (cfg.toNat / 2 ^ 8 % 16)
def poolMask (cfg : Word) : Nat := cfg.toNat % 256

/-- The channel order of a pool: its allowed channels in ascending order. -/
def poolOrder (cfg : Word) : List Nat :=
  (List.range (poolGroups cfg)).flatMap fun g => ((List.range 8).filter fun b => (poolMask cfg).testBit b).map (8 * g + ·)

def poolSpan (cfg : Word) : Nat := max 4096 (poolCap cfg * poolSize cfg)

def State.pool (s : State) (p : Nat) : Pool := s.dev.msu.pools.getD p ⟨0, 0, []⟩

def State.setPool (s : State) (p : Nat) (v : Pool) : State :=
  { s with dev := { s.dev with msu := { s.dev.msu with pools := s.dev.msu.pools.set p v } } }

/-- The offset of a skerry within the local region of its channel (R274). -/
def State.skerryOffset (s : State) (p : Nat) (cfg : Word) (k : Nat) : Nat :=
  p * (s.dev.clsize / 8) + k * poolSize cfg

/-- The location of a skerry. -/
def State.skerryLoc (s : State) (p : Nat) (cfg : Word) (ch k : Nat) : Nat :=
  2 ^ 52 + ch * 2 ^ 31 + s.skerryOffset p cfg k

/-- The free skerries of a slot in ascending order; none of a channel whose map is lost (R275). -/
def State.freeSkerries (s : State) (p : Nat) (slot ch : Nat) : List Nat :=
  let q := s.pool p
  if s.dev.msu.lostMaps.contains ch then []
  else (List.range (poolCap q.cfg)).filter fun k => !q.taken.contains (slot, k)

/-- Whether the DRAM row that a skerry begins in is open (R276): a request came to it within the last 100 ns. A skerry of
8 KiB spans four rows of 2 KiB, and R189 does not say which of them counts as its row: that it is the one the skerry
begins in is the model's choice (notes/assumptions/16.md). -/
def State.rowOpen (s : State) (p : Nat) (cfg : Word) (ch k : Nat) : Bool :=
  let row := s.dev.rowOf (s.skerryLoc p cfg ch k)
  s.dev.msu.openRows.any fun r => r.1 == ch && r.2.1 == row && decide (s.nowNs < r.2.2 + 100)

/-- The slots in turn, the one at the pointer first. -/
def inTurn {α : Type} (pointer : Nat) (slots : List α) : List α := slots.drop pointer ++ slots.take pointer

/-- The slot and skerry of the next allocation of a pool (R189, R276). -/
def State.allocation (s : State) (p : Nat) : Option (Nat × Nat × Nat) :=
  let q := s.pool p
  let slots := inTurn q.pointer ((poolOrder q.cfg).zipIdx.map fun c => (c.2, c.1))
  let able := slots.filter fun c => !s.dev.msu.fenced.contains c.2 && s.freeSkerries p c.1 c.2 != []
  let least := able.foldl (fun m c => min m (s.outstanding c.2)) (able.map fun c => s.outstanding c.2).sum
  match able.find? fun c => s.outstanding c.2 == least with
  | none => none
  | some (slot, ch) =>
    let free := s.freeSkerries p slot ch
    let k := ((free.find? fun k => s.rowOpen p q.cfg ch k) <|> free.head?).getD 0
    some (slot, ch, k)

/-- The bytes of elements 0 to VL − 1 of a register as unit-stride VST lays them (R188). -/
def Ctx.image (c : Ctx) (v : VecNo) : List Byte :=
  let t := c.typ v
  let raw := c.raw v c.vec.vl
  if t.isBead then
    let n := c.vec.vl / t.rod
    (((c.anchorReg v).first n).zip (chunks t.rod n raw)).flatMap fun r => rodBytes t r.1 r.2
  else t.pack raw

/-- The bytes that a record of a register takes (R188). -/
def Ctx.imageSize (c : Ctx) (v : VecNo) : Nat :=
  let t := c.typ v
  if t.isBead then c.vec.vl / t.rod * 64 else c.vec.vl * t.bytes

/-- A stretch is given to a job as its skerry (R189, R191). Of what it was given before as well, one is kept, which tells
that the stretch was given more than once. -/
def State.give (s : State) (lo n : Nat) (job : Nat) : State :=
  let g : Skerry := ⟨lo, lo + n, job⟩
  let before := s.dev.msu.given
  { s with dev := { s.dev with msu := { s.dev.msu with
      given := g :: (if before.contains g then g :: before.filter (· != g) else before) } } }

/-- STNL (R188, R189). One that finds no free skerry, or whose pool is disabled, returns 0 and sends no header: R320 gives an
STNL one and does not speak of this case, which makes it the model's choice (notes/assumptions/25.md). -/
def execStnl (rd : Reg) (vs : VecNo) (pool : BitVec 3) (_st : Stream) (s : State) : Out :=
  s.queued [vs] 4 fun s => s.withRods [s.ctx.typ vs] <|
    let p := pool.toNat
    let q := s.pool p
    let size := poolSize q.cfg
    if q.cfg ≠ 0 ∧ size < s.ctx.imageSize vs then trap .illegalVl s.ctx.vlWord
    else
      match if q.cfg = 0 then none else s.allocation p with
      | none => s.inPipe [] (.ok (s.setReg rd 0))
      | some (slot, ch, k) =>
        let image := s.ctx.image vs
        let loc := s.skerryLoc p q.cfg ch k
        let name := poolBase q.cfg + slot * poolSpan q.cfg + k * size
        let packets := [s.dev.packet loc]
        s.inPipe packets <|
        let s := s.setPool p { q with
          pointer := (slot + 1) % (poolOrder q.cfg).length, taken := (slot, k) :: q.taken }
        let s := (s.give loc size s.ctx.origin.job).sendRest packets
        let s := s.performPlain s.ctx.origin.job s.ctx.origin.task
          (rawPuts loc (image ++ List.replicate (size - image.length) 0))
        .ok (s.setReg rd (BitVec.ofNat 64 name))

/-- The slot and skerry that a name names (R191). -/
def poolSkerry (cfg : Word) (name : Nat) : Option (Nat × Nat) :=
  let off := name - poolBase cfg
  let slot := off / poolSpan cfg
  let k := off % poolSpan cfg / poolSize cfg
  if cfg = 0 ∨ name < poolBase cfg ∨ (poolOrder cfg).length ≤ slot ∨ poolCap cfg ≤ k ∨
      off % poolSpan cfg % poolSize cfg ≠ 0 then none
  else some (slot, k)

/-- RLQ (R191): a name of the pool, translated as a store would be, and not free. -/
def execRlq (ra : Reg) (pool : BitVec 3) (_st : Stream) (s : State) : Out :=
  s.queued [] 4 fun s =>
    let p := pool.toNat
    let q := s.pool p
    let name := s.reg ra
    match poolSkerry q.cfg name.toNat with
    | none => trap .access name
    | some (slot, k) =>
      match s.resolve s.ctx.space .write name with
      | .error m => .error (.asked (s.walkSpans s.ctx.space name) (s.ctx.missed 7 true name m))
      | .ok h =>
        let lost := s.dev.msu.lostMaps.contains ((poolOrder q.cfg).getD slot 0)
        if !lost ∧ !q.taken.contains (slot, k) then .error (.asked (s.walkSpans s.ctx.space name) (.trap .rlqFree name))
        else
          let packets := [s.dev.packet h.loc]
          s.inPipe packets
            (.ok (((s.touch .write h).setPool p { q with taken := q.taken.filter (· != (slot, k)) }).sendRest packets))

/-- NLFREE (R192). -/
def execNlfree (rd : Reg) (pool : BitVec 3) (s : State) : Out :=
  s.queued [] 4 fun s =>
    let p := pool.toNat
    let q := s.pool p
    let n := if q.cfg = 0 then 0
      else ((poolOrder q.cfg).zipIdx.map fun c => (s.freeSkerries p c.2 c.1).length).sum
    .ok (s.setReg rd (BitVec.ofNat 64 n))

/-- Whether a WRC to POOLCFG is taken (R273). -/
def State.poolcfgOk (s : State) (v : Word) : Bool :=
  v == 0 || (v.toNat / 2 ^ 56 % 4 != 3 && poolGroups v != 0 && poolMask v != 0 && poolSpan v ≤ s.dev.clsize / 8)

/-- The write of POOLCFG (R273): every skerry becomes free, and the pointer moves to slot 0. -/
def State.writePoolcfg (s : State) (p : Nat) (v : Word) : State :=
  if s.poolcfgOk v then s.setPool p ⟨v, 0, []⟩ else s

end Sys2Proof.Machine
end

