-- ==== Sys2Proof/Machine/Engine.lean ====
section
/-! DEFINITION. The copy engine and the abacus (spec/09): engine commands from their issue to their end, copy tags,
grants and MXM. -/

namespace Sys2Proof.Machine

def State.setCmds (s : State) (f : List Cmd → List Cmd) : State :=
  { s with dev := { s.dev with engines := { s.dev.engines with cmds := f s.dev.engines.cmds } } }

def State.findCmd (s : State) (id : Nat) : Option Cmd := s.dev.engines.cmds.find? fun m => m.id == id

def State.onCmd (s : State) (id : Nat) (f : Cmd → Cmd) : State :=
  s.setCmds fun ms => ms.map fun m => if m.id = id then f m else m

/-- Apply `f` to the issuer of a command, resident or parked. -/
def State.onIssuer (s : State) (m : Cmd) (f : Ctx → Ctx) : State :=
  let g := fun c : Ctx => if m.isOf c ∧ c.live then f c else c
  { s with
    ctx := g s.ctx
    others := s.others.map g
    dev := { s.dev with sched := { s.dev.sched with parked := s.dev.sched.parked.map g } } }

/-! ### Tags (R193) -/

/-- A command is issued on a tag: busy, error bit cleared. -/
def EngineState.startTag (e : EngineState) (t : BitVec 6) : EngineState :=
  let bit : BitVec 64 := 1#64 <<< t.toNat
  { e with tagBusy := e.tagBusy ||| bit, tagReady := e.tagReady &&& ~~~bit, tagErr := e.tagErr &&& ~~~bit }

/-- The command of a tag ends: ready, with its error bit. -/
def EngineState.endTag (e : EngineState) (t : BitVec 6) (err : Bool) : EngineState :=
  let bit : BitVec 64 := 1#64 <<< t.toNat
  { e with
    tagBusy := e.tagBusy &&& ~~~bit, tagReady := e.tagReady ||| bit
    tagErr := if err then e.tagErr ||| bit else e.tagErr &&& ~~~bit }

/-- The end of a command: its tag becomes ready, its range-checker entry is free, and its unit may be finished
(R193, R195). -/
def State.endCmd (s : State) (m : Cmd) (err : Bool) : State :=
  let s := match m.tag with
    | some t => s.onIssuer m fun c => { c with eng := c.eng.endTag t err }
    | none => s
  (s.setCmds fun ms => ms.filter fun n => n.id != m.id).closeUnits

/-! ### Issue and acceptance (R194, R203) -/

/-- The issuer of a command whose command is accepted goes on behind it, with its register writes (R28, R216): where the
command is the head of its vector queue, that is complete. -/
def Ctx.accepted (c : Ctx) (id : Nat) (writes : List (Reg × Word)) : Ctx :=
  if c.flow.engine = some id then c.popHead writes
  else { c with regs := putRegs writes c.regs, pc := c.pc + 8, flow := { c.flow with status := .running } }

/-- A command is accepted: the next acceptance number; its tag is busy; its issuer goes on behind it. -/
def State.accept (s : State) (m : Cmd) (writes : List (Reg × Word)) : State :=
  let n := s.dev.engines.nextOrder
  let s := s.onCmd m.id fun m => { m with state := .accepted, order := n }
  let s := { s with dev := { s.dev with engines := { s.dev.engines with nextOrder := n + 1 } } }
  s.onCtx m.who fun c =>
    { c.accepted m.id writes with
      eng := match m.tag with
        | some t => c.eng.startTag t
        | none => c.eng }

/-- Whether a command may take an entry of its core's range checker now: it has waited longest, and one of the 32
entries is free. -/
def State.mayEnter (s : State) (m : Cmd) : Bool :=
  let here := s.dev.engines.cmds.filter fun n => n.coreNo == m.coreNo
  (here.filter Cmd.entered).length < 32 && (here.find? fun n => !n.entered).map (·.id) == some m.id

/-- A waiting command takes its entry. A copy is accepted with it, and one that moves nothing ends at once (R199,
R202); an MXM goes on to wait for its abacus (R218). -/
def State.enterChecker (s : State) (m : Cmd) : State :=
  match m.kind with
  | .mxm .. => s.onCmd m.id fun m => { m with state := .entered }
  | _ =>
    let s := s.accept m []
    if m.kind.idle then s.endCmd m false else s

/-- RANGE_CHECKER_ENTRY (R194). -/
def execRangeCheckerEntry (cmd : Nat) (s : State) : Out :=
  match s.findCmd cmd with
  | some m => .next (if m.state = .waiting ∧ s.mayEnter m then s.enterChecker m else s)
  | none => .next s

/-- Issue an engine command of the context that moves, its checks made: it waits for its entry, or takes it within
the step. -/
def State.issueCmd (s : State) (tag : Option (BitVec 6)) (kind : CmdKind) : State :=
  let c := s.ctx
  let m : Cmd :=
    { id := s.dev.engines.nextId, isle := c.place.isle, core := c.place.core, slot := c.place.slot
      pos := c.place.pos, job := c.origin.job, task := c.origin.task, unit := c.origin.unit, user := c.user
      ptbase := c.trap.ptbase, asid := c.trap.asid, pc := c.pc.zeroExtend 64, tag := tag, kind := kind
      state := .waiting, order := 0, err := false, cancelled := false }
  let s := { s with
    ctx := { c with flow := { c.flow with status := .atEngine m.id } }
    dev := { s.dev with engines := { s.dev.engines with
      cmds := s.dev.engines.cmds ++ [m], nextId := m.id + 1 } } }
  if s.mayEnter m then s.enterChecker m else s

/-! ### ACOPY and AGATH (R197-R202) -/

/-- One element of a copy: row and index, source address, destination address. -/
structure Move where
  outer : Nat
  elem : Nat
  src : Word
  dst : Word
  width : Nat
deriving DecidableEq, Repr

/-- The elements of an ACOPY in (o, i) order (R199). -/
def copyMoves (src dst ss ds : Word) (outer w vl : Nat) : List Move :=
  (List.range outer).flatMap fun o => (List.range vl).map fun i =>
    let at' := fun a s : Word => a + BitVec.ofNat 64 o * s + BitVec.ofNat 64 (i * w)
    ⟨o, i, at' src ss, at' dst ds, w⟩

/-- The units of an AGATH: each row in 8-byte units (R202). -/
def gathMoves (rows : List (Nat × Word)) (dst rowBytes : Nat) : List Move :=
  rows.zipIdx.flatMap fun r => (List.range (rowBytes / 8)).map fun u =>
    ⟨0, r.1.1, r.1.2 + BitVec.ofNat 64 (8 * u), BitVec.ofNat 64 (dst + r.2 * rowBytes + 8 * u), 8⟩

/-- What a command moves. -/
def CmdKind.moves (k : CmdKind) : List Move :=
  if k.idle then []
  else
    match k with
    | .copy _ src dst ss ds outer _ w vl => copyMoves src dst ss ds outer w vl
    | .gath rows dst n => gathMoves rows dst n
    | .mxm .. => []

/-- The cores whose scratchpad a destination offset of a copy names (R198); none when it is a global address. -/
def CmdKind.targets (k : CmdKind) (core : Nat) (dst : Word) : Option (List Nat) :=
  match k with
  | .copy kind _ _ _ _ _ cores _ _ =>
    match kind.toNat with
    | 0 => some [core]
    | 1 => none
    | 2 => some (((List.range 8).filter fun c => cores.getLsbD c).map (core / 8 * 8 + ·))
    | _ => some [core / 8 * 8 + dst.toNat / 2 ^ 24]
  | _ => some [core]

/-- Whether the sources of a copy are global addresses. -/
def CmdKind.fromGlobal : CmdKind → Bool
  | .copy kind .. => !kind.getLsbD 0
  | _ => true

/-- The scratchpad offset that a destination address names. -/
def CmdKind.dstOffset (k : CmdKind) (dst : Word) : Nat :=
  match k with
  | .copy kind .. => if kind = 3 then dst.toNat % 2 ^ 24 else dst.toNat
  | _ => dst.toNat

/-- Whether an ACOPY's addresses of one element pass the check at issue (R198, R200): the one that does not. -/
def State.badMove (s : State) (k : CmdKind) (core : Nat) (m : Move) : Option Word :=
  let inside := fun g off => decide (off + m.width ≤ (s.core g).spadBytes)
  if k.fromGlobal then
    if m.src.toNat / 2 ^ 56 ≠ 0 then some m.src else dstBad inside
  else if !inside core m.src.toNat then some m.src
  else dstBad inside
where
  dstBad (inside : Nat → Nat → Bool) : Option Word :=
    match k.targets core m.dst with
    | none => if m.dst.toNat / 2 ^ 56 ≠ 0 then some m.dst else none
    | some gs =>
      if m.dst.toNat / 2 ^ 27 ≠ 0 ∨ gs.any (fun g => !inside g (k.dstOffset m.dst)) then some m.dst else none

/-- The scratchpad region of the launch of a context (R168, R198). -/
def Ctx.spadBytes (c : Ctx) : Nat := c.origin.part.toNat / 2 ^ 8 % 256 * 65536

/-- ACOPY (R197-R200) of kind `kind`. -/
def State.acopy (s : State) (kind : BitVec 2) (strides src dst : Reg) (tag : BitVec 6) (outer : BitVec 16)
    (cores : BitVec 8) (esz : BitVec 2) : Out :=
  s.queuedAs [] fun s =>
    let w := 2 ^ esz.toNat
    let st := s.reg strides
    let ss : Word := (st.setWidth 32).signExtend 64
    let ds : Word := ((st >>> 32).setWidth 32).signExtend 64
    let k := CmdKind.copy kind (s.reg src) (s.reg dst) ss ds outer.toNat cores w s.ctx.vec.vl
    if s.ctx.eng.tagBusy.getLsbD tag.toNat then trap .tagBusy (tag.zeroExtend 64)
    else
      match [s.reg src, s.reg dst, ss, ds].find? fun a => a.toNat % w ≠ 0 with
      | some a => trap .misalign a
      | none =>
        match k.moves.findSome? fun m => s.badMove k s.ctx.place.coreNo m with
        | some a => trap .access a
        | none => .ok (s.issueCmd (some tag) k)

/-- ACOPY from global memory to the own scratchpad (R198). -/
def execAcopyG2s (strides src dst : Reg) (tag : BitVec 6) (outer : BitVec 16) (esz : BitVec 2) (s : State) : Out :=
  s.acopy 0 strides src dst tag outer 0 esz

/-- ACOPY from the own scratchpad to global memory (R198). -/
def execAcopyS2g (strides src dst : Reg) (tag : BitVec 6) (outer : BitVec 16) (esz : BitVec 2) (s : State) : Out :=
  s.acopy 1 strides src dst tag outer 0 esz

/-- ACOPY from global memory to the scratchpads of a core mask (R198). -/
def execAcopyMcast (strides src dst : Reg) (tag : BitVec 6) (outer : BitVec 16) (cores : BitVec 8) (esz : BitVec 2)
    (s : State) : Out :=
  s.acopy 2 strides src dst tag outer cores esz

/-- ACOPY from the own scratchpad to a scratchpad of the isle (R198). -/
def execAcopyS2s (strides src dst : Reg) (tag : BitVec 6) (outer : BitVec 16) (esz : BitVec 2) (s : State) : Out :=
  s.acopy 3 strides src dst tag outer 0 esz

/-- AGATH (R201, R202). -/
def execAgath (vx : VecNo) (base dst row : Reg) (mk : MaskNo) (tag : BitVec 6) (s : State) : Out :=
  s.queuedAs [vx] fun s =>
    let c := s.ctx
    let sr := s.reg row
    let nb : Word := sr &&& 0xFFFFFFFF
    let pitch : Word := ((sr >>> 32).setWidth 32).signExtend 64
    let rows := (c.activeElems mk (c.offsets vx)).map fun e => (e.1, s.reg base + e.2 * pitch)
    if !(c.typ vx).isInt then trap .illegalTag
    else if c.eng.tagBusy.getLsbD tag.toNat then trap .tagBusy (tag.zeroExtend 64)
    else
      match [s.reg dst, s.reg base, nb, pitch].find? fun a => a.toNat % 8 ≠ 0 with
      | some a => trap .misalign a
      | none =>
        if c.spadBytes < (s.reg dst).toNat + rows.length * nb.toNat then trap .access (s.reg dst)
        else
          match rows.find? fun r => r.2.toNat / 2 ^ 56 ≠ 0 with
          | some r => trap .access r.2
          | none => .ok (s.issueCmd (some tag) (.gath rows (s.reg dst).toNat nb.toNat))

/-! ### The course of a copy (R196, R199) -/

/-- The address space in which an engine translates for a command (R312). -/
def Cmd.space (m : Cmd) : Space := ⟨m.coreNo, m.user, m.ptbase, m.asid⟩

/-- The source of one element. -/
def State.srcHit (s : State) (m : Cmd) (e : Move) : Except Miss Hit :=
  if m.kind.fromGlobal then s.resolve m.space .read e.src
  else .ok ⟨spadLoc m.coreNo e.src.toNat, e.src, none, m.space⟩

/-- The destinations of one element. -/
def State.dstHits (s : State) (m : Cmd) (e : Move) : Except Miss (List Hit) :=
  match m.kind.targets m.coreNo e.dst with
  | none => (s.resolve m.space .write e.dst).map fun h => [h]
  | some gs => .ok (gs.map fun g => ⟨spadLoc g (m.kind.dstOffset e.dst), e.dst, none, m.space⟩)

/-- A record of kind engine (R316). -/
def Cmd.record (m : Cmd) (cause : Cause) (detail flags outer elem : Nat) (va : Word) : FaultRec where
  outer := outer
  tag := match m.tag with
    | some t => t.toNat
    | none => 0
  flags := flags
  detail := detail
  cause := cause.code
  loc := m.who.toNat
  kind := 5
  elem := elem
  unit := m.unit
  launch := m.task
  job := m.job
  pc := m.pc
  va := va

/-- What a copy meets: it can be done; a translation fault; or a failure that aborts it. -/
inductive Course
  | done (hits : List (Move × Hit × List Hit))
  | fault (r : FaultRec)
  | abort (r : FaultRec)
deriving DecidableEq, Repr

/-- The course of an access that missed (R196, R311). -/
def Cmd.miss (m : Cmd) (e : Move) (write : Bool) : Miss → Course
  | .fault d => .fault (m.record .page d (write.toNat + 4) e.outer e.elem (if write then e.dst else e.src))
  | .access => .abort (m.record .access 3 write.toNat e.outer e.elem (if write then e.dst else e.src))
  | .poison => .abort (m.record .dataPoison 4 write.toNat e.outer e.elem (if write then e.dst else e.src))

/-- Probe the elements of a copy in order. -/
def State.course (s : State) (m : Cmd) : List (Move × Hit × List Hit) → List Move → Course
  | acc, [] => .done acc.reverse
  | acc, e :: es =>
    match s.srcHit m e with
    | .error x => m.miss e false x
    | .ok h =>
      match s.dstHits m e with
      | .error x => m.miss e true x
      | .ok ds => s.course m ((e, h, ds) :: acc) es

/-- The table entries that the walks of a copy read, up to the first address that is not translated (R276, R311). -/
def State.courseSpans (s : State) (m : Cmd) (es : List Move) : List (Nat × Nat) :=
  let written : Bool := (m.kind.targets m.coreNo 0).isNone
  let at' := fun e : Move => (if m.kind.fromGlobal then [(Need.read, e.src)] else []) ++ if written then [(Need.write, e.dst)] else []
  let used := (es.flatMap at').foldr (fun a rest => s.walkSpans m.space a.2 ++ match s.resolve m.space a.1 a.2 with
    | .error _ => []
    | .ok _ => rest) []
  used.eraseDups

/-- The elements of a copy of a job whose source is poisoned. -/
def State.poisonedMoves (s : State) (job : Nat) (hits : List (Move × Hit × List Hit)) : List (Move × Hit × List Hit) :=
  hits.filter fun h => s.poisonedFor job h.2.1.loc h.1.width

/-- Whether a command is an ACOPY. -/
def CmdKind.isCopy : CmdKind → Bool
  | .copy .. => true
  | _ => false

/-- The bytes that a copy of a job writes: those of its source, and free bytes where a destination byte of an ACOPY is also a
source byte of it (R199). The bytes of an element whose source is poisoned set no elision bit (R196, R271). -/
def State.copyPuts (s : State) (job : Nat) (k : CmdKind) (hits : List (Move × Hit × List Hit)) : List Put :=
  let lo := hits.foldl (fun n h => min n h.2.1.loc) ((hits.map fun h => h.2.1.loc).sum)
  let hi := hits.foldl (fun n h => max n (h.2.1.loc + h.1.width)) 0
  hits.flatMap fun h =>
    let whole := !s.poisonedFor job h.2.1.loc h.1.width
    h.2.2.flatMap fun d =>
      (s.bytesFor job h.2.1.loc h.1.width).mapIdx fun i b =>
        let a := d.loc + i
        let both := k.isCopy && lo ≤ a && a < hi && hits.any fun x => x.2.1.loc ≤ a && a < x.2.1.loc + x.1.width
        ⟨a, d.va + BitVec.ofNat 64 i, if both then Config.freeByte s.tick a else b, d.zel && whole, d.global⟩

/-- The locations that elements of a copy write. -/
def markedLocs (hits : List (Move × Hit × List Hit)) : List Nat := hits.flatMap fun h => h.2.2.map (·.loc)

/-- The copy streamer of a core sends headers: each takes one of its 32 slots, and those that find none wait for one
(R322). -/
def Dev.stream (d : Dev) (isle : BitVec 4) (core : Nat) (packets : List Packet) : Dev :=
  let st := d.fabric.streamers.getD core ⟨0, []⟩
  let out := packets.take (32 - st.slots)
  { d with fabric := { d.fabric with
      headers := d.fabric.headers ++ out.map fun x => ⟨isle, x, .streamer core⟩
      streamers := d.fabric.streamers.set core ⟨st.slots + out.length, st.owed ++ packets.drop (32 - st.slots)⟩ } }

/-- The headers of a copy: one for each page of its sources and of its destinations that leaves the core. R320 leaves
their number to the engine (notes/assumptions/27.md). -/
def Dev.copyHeaders (d : Dev) (core : Nat) (hits : List (Move × Hit × List Hit)) : List Packet :=
  let out := fun hs : List Hit => (onePer Hit.page [] (hs.filter fun h => h.leaves core)).map fun h => d.packet h.loc
  out (hits.map (·.2.1)) ++ out (hits.flatMap (·.2.2))

/-- The walker's updates for every access of a copy (R312). -/
def State.touchCopy (s : State) (hits : List (Move × Hit × List Hit)) : State :=
  hits.foldl (fun s h => h.2.2.foldl (fun s d => s.touch .write d) (s.touch .read h.2.1)) s

/-- Every read and every write of a copy is performed (R193, R246): one store of its launch. -/
def State.performCopy (s : State) (m : Cmd) (hits : List (Move × Hit × List Hit)) : State :=
  let s := s.touchCopy hits
  let s := { s with dev := s.dev.stream m.isle m.coreNo (s.dev.copyHeaders m.coreNo hits) }
  let s := s.readFor m.job m.task (hits.map fun h => (h.2.1.loc, h.1.width))
  s.perform m.job m.task (s.copyPuts m.job m.kind hits)

/-- What the destination of an aborting command holds is undefined (R196): the bytes that a copy would have written, which
then do not trap although the rest of their unit is poisoned (R6), and the accumulator of an MXM. R196 and R246 do not say
whether a copy that aborts adds the bytes it has written to the digest of its launch: here it adds nothing, which is the
model's choice (notes/assumptions/21.md). -/
def State.spoil (s : State) (m : Cmd) : State :=
  match m.kind with
  | .mxm vacc g .. =>
    let free := (List.range (64 * g)).map fun i => (i, (Config.freeElem s.tick vacc.toNat i).toNat % 2 ^ 32)
    s.onIssuer m fun c => { c with vec := c.vec.writeElems vacc free }
  | _ =>
    let hits := (m.kind.moves.filterMap fun e => (s.dstHits m e).toOption.map fun ds => (e.width, ds)).flatMap fun p =>
      p.2.map fun d => (p.1, d)
    let puts : List Put := hits.flatMap fun p => (List.range p.1).map fun i =>
      ⟨p.2.loc + i, p.2.va + BitVec.ofNat 64 i, Config.freeByte s.tick (p.2.loc + i), false, false⟩
    let s := s.store 0 0 puts
    { s with mem := s.mem.spare ((puts.filter fun p => !s.dev.fencedAt p.loc).map (·.loc)) }

/-- The records that a stalled command has still to write (R315). -/
def Cmd.owed (m : Cmd) : List FaultRec :=
  match m.state with
  | .stalled left => left
  | _ => []

/-- A command aborts (R196): the error bits of its tag and of its launch. The record of a failure that it stalls with is
not dropped (R315): the device writes it when there is room. -/
def State.abortCmd (s : State) (m : Cmd) : State :=
  let s := { s with dev := { s.dev with msu := { s.dev.msu with records := s.dev.msu.records ++ m.owed } } }
  ((s.spoil m).setErr m.job m.task).endCmd m true

/-- A record whose writer has no room stalls its command (R315). -/
def State.recorded (s : State) (m : Cmd) (r : FaultRec) (k : State → State) : State :=
  if s.canReport 1 then k (s.report r)
  else s.onCmd m.id fun m => { m with state := .stalled [r] }

/-- Whether a command is an MXM. -/
def CmdKind.isMxm : CmdKind → Bool
  | .mxm .. => true
  | _ => false

/-- Whether a command is an accepted copy that the range checker does not hold back (R203). -/
def State.servable (s : State) (m : Cmd) : Bool := m.state == .accepted && !m.kind.isMxm && !s.heldBack m

/-- Whether the streamer serves a copy now: the earliest accepted one of its core that is not held back (R203, R299). One
that is paused or stalls with its record is passed over, which is the model's choice (notes/assumptions/27.md). -/
def State.served (s : State) (m : Cmd) : Bool :=
  s.servable m && !s.dev.engines.cmds.any fun n => n.coreNo == m.coreNo && n.order < m.order && s.servable n

/-- COPY_FINISH (R193): a copy that meets no failure performs every write, and its tag becomes ready. -/
def execCopyFinish (cmd : Nat) (s : State) : Out :=
  match s.findCmd cmd with
  | none => .next s
  | some m =>
    if !s.served m then .next s
    else
      match s.course m [] m.kind.moves with
      | .done hits => .next (if s.poisonedMoves m.job hits = [] then (s.performCopy m hits).endCmd m m.err else s)
      | _ => .next s

/-- ENGINE_FAULT (R196): a copy meets a translation fault and pauses, or aborts while the ring is disabled; it meets a
permission failure and aborts; it meets poisoned data, marks its destination and ends with its error bit set. R196 has one
record written for a copy, whichever of its units are poisoned: here it names the first of them in the order of R199; and
where a later clean element of an ACOPY writes over the destination of a poisoned one, that destination is marked poisoned
all the same. Both are the model's choice (notes/assumptions/21.md). A cancelled command aborts (R242), but for an MXM
whose accumulator is written and that stalls with its records. -/
def execEngineFault (cmd : Nat) (s : State) : Out :=
  match s.findCmd cmd with
  | none => .next s
  | some m =>
    if m.cancelled ∧ m.accepted ∧ !(m.kind.isMxm && m.owed != []) then .next (s.abortCmd m)
    else if !s.served m then .next s
    else
      let asked := s.readTraffic (s.courseSpans m m.kind.moves)
      match s.course m [] m.kind.moves with
      | .fault r =>
        let s := asked
        .next (if !s.ringOn then s.abortCmd m
          else s.recorded m r fun s => s.onCmd m.id fun m => { m with state := .paused (s.dev.ring.prod - 1).toNat })
      | .abort r => .next (asked.recorded m r fun s => s.abortCmd m)
      | .done hits =>
        match s.poisonedMoves m.job hits with
        | [] => .next s
        | p :: ps =>
          let r := m.record .dataPoison 4 0 p.1.outer p.1.elem p.1.src
          .next (s.recorded m r fun s =>
            let s := s.performCopy m hits
            let s := { s with mem := (markedLocs (p :: ps)).foldl Memory.mark s.mem }
            (s.setErr m.job m.task).endCmd m true)

/-- ENGINE_RETRY (R196, R315): a paused command goes on once the consumer word has passed its record, a stalled copy once
there is room; a stalled MXM writes its records while there is room, and ends with the last of them. -/
def execEngineRetry (cmd : Nat) (s : State) : Out :=
  match s.findCmd cmd with
  | none => .next s
  | some m =>
    let s := s.observe
    match m.state with
    | .paused seq =>
      .next (if seq < s.dev.ring.cons.toNat then s.onCmd m.id fun m => { m with state := .accepted } else s)
    | .stalled recs =>
      if m.kind.isMxm then
        let (s, left) := s.writeRecords recs
        .next (if left = [] then s.endCmd m false else s.onCmd m.id fun m => { m with state := .stalled left })
      else .next (if s.canReport 1 then s.onCmd m.id fun m => { m with state := .accepted } else s)
    | _ => .next s

/-! ### Waiting on tags (R205-R207) -/

/-- WAITANY (R206). -/
def execWaitany (rd ra : Reg) (s : State) : Out :=
  let m := s.reg ra
  let ready := s.ctx.eng.tagReady &&& m
  if ready = 0 ∧ s.ctx.eng.tagBusy &&& m ≠ 0 then .next s.wait else s.result rd ready

/-- WAITALL (R206). -/
def execWaitall (rd ra : Reg) (s : State) : Out :=
  let m := s.reg ra
  if s.ctx.eng.tagBusy &&& m ≠ 0 then .next s.wait else s.result rd (s.ctx.eng.tagReady &&& m)

/-- The lowest bit of a word that is set. -/
def lowestBit (w : BitVec 64) : Option Nat := (List.range 64).find? fun t => w.getLsbD t

/-- FFRT (R206). -/
def execFfrt (rd ra : Reg) (s : State) : Out :=
  s.result rd <| match lowestBit (s.ctx.eng.tagReady &&& s.reg ra) with
    | some t => BitVec.ofNat 64 t
    | none => -1

/-- TAGCLR (R206). -/
def execTagclr (ra : Reg) (s : State) : Out :=
  let m := s.reg ra
  let e := s.ctx.eng
  match lowestBit (e.tagBusy &&& m) with
  | some t => .next (s.takeTrap .tagBusy (BitVec.ofNat 64 t))
  | none => .next ({ s with ctx := { s.ctx with eng := { e with
      tagReady := e.tagReady &&& ~~~m, tagErr := e.tagErr &&& ~~~(m &&& e.tagReady) } } }.retire 4)

/-- TAGERR (R206). -/
def execTagerr (rd ra : Reg) (s : State) : Out := s.result rd (s.ctx.eng.tagErr &&& s.reg ra)

/-! ### Grants (R208-R211) -/

/-- Take a grant of at most `n` rows. -/
def State.attach (s : State) (rd : Reg) (n : Nat) : Out :=
  let g := grantFor n (s.freeRows s.ctx.place.abacusNo)
  { s with ctx := { s.ctx with eng := { s.ctx.eng with grant := g } } }.result rd (BitVec.ofNat 64 g)

/-- Whether an MXATTW waits on an abacus. -/
def State.awaited (s : State) (a : Nat) : Bool := s.dev.power.waiters.any fun w => w.abacus == a

/-- MXATT (R209). -/
def execMxatt (rd ra : Reg) (s : State) : Out :=
  if s.ctx.eng.grant ≠ 0 then s.result rd (BitVec.ofNat 64 s.ctx.eng.grant)
  else if s.awaited s.ctx.place.abacusNo then s.result rd 0
  else s.attach rd (s.reg ra).toNat

/-- MXATTW (R209, R210): it queues behind the waiters of its abacus, and is given its grant when rows are freed. -/
def execMxattw (rd ra : Reg) (s : State) : Out :=
  let a := s.ctx.place.abacusNo
  let n := (s.reg ra).toNat
  if s.ctx.eng.grant ≠ 0 then s.result rd (BitVec.ofNat 64 s.ctx.eng.grant)
  else if n < 8 then s.result rd 0
  else if s.awaited a ∨ s.freeRows a < 8 then
    let ws := s.dev.power.waiters
    let ws := if ws.any fun w => w.who == s.ctx.num then ws else ws ++ [⟨a, s.ctx.num, n, rd⟩]
    .next { s with dev := { s.dev with power := { s.dev.power with waiters := ws } } }.wait
  else s.attach rd n

/-- MXDET (R211): after every earlier MXM of the context has written its accumulator. -/
def execMxdet (s : State) : Out :=
  if s.mxmPending allVecs then .next s.wait
  else
    let c := s.ctx
    let s := { s with ctx := { c with eng := { c.eng with grant := 0 } } }.noteRelease c
    .next ((s.rowsFreed c.place.abacusNo).retire 4)

/-! ### MXM (R212-R218) -/

def mxElem : MxType → ElemType
  | .d8 => .d8
  | .d4 => .d4
  | .bf16 => .bf16

/-- The elements of one K step (R213). -/
def mxStep : MxType → Nat
  | .d8 => 56
  | .d4 => 112
  | .bf16 => 32

/-- The type of an operand of MXM, if it is allowed. -/
def Ctx.mxType (c : Ctx) : MxOperand → Option MxType
  | .spad _ _ t => some t
  | .vec v =>
    match c.typ v with
    | .d8 => some .d8
    | .d4 => some .d4
    | .bf16 => some .bf16
    | _ => none

/-- A scratchpad operand (R215): its base register value and its descriptor. -/
structure MxDesc where
  sx0 : Word
  sx1 : Word
deriving DecidableEq, Repr

def MxDesc.base (d : MxDesc) : Nat := d.sx0.toNat % 2 ^ 24
def MxDesc.pitch (d : MxDesc) : Nat := d.sx1.toNat % 2 ^ 24
def MxDesc.tpitch (d : MxDesc) : Nat := d.sx1.toNat / 2 ^ 24 % 2 ^ 24
def MxDesc.rot (d : MxDesc) : Nat := d.sx1.toNat / 2 ^ 48 % 64

/-- The offset of row `r`. -/
def MxDesc.row (d : MxDesc) (r : Nat) : Nat := d.base + r * d.pitch + 64 * (r * d.rot % 64)

def State.mxDesc (s : State) : MxOperand → Option MxDesc
  | .spad a b _ => some ⟨s.reg a, s.reg b⟩
  | .vec _ => none

/-- MISALIGN of a scratchpad operand (R213). -/
def MxDesc.misalign (d : MxDesc) : Option Word :=
  if d.base % 64 ≠ 0 then some (BitVec.ofNat 64 d.base)
  else if d.pitch % 64 ≠ 0 then some (BitVec.ofNat 64 (d.row 1))
  else none

/-- ACCESS of the scratchpad operands, each with its number of rows (R213): bits of SX0, the operand A before B; then the
lowest row that does not lie in the scratchpad. -/
def mxAccess (ds : List (MxDesc × Nat)) (spad : Nat) : Option Word :=
  match ds.find? fun d => d.1.sx0.toNat / 2 ^ 24 ≠ 0 with
  | some d => some d.1.sx0
  | none =>
    match (ds.flatMap fun d => (List.range d.2).map d.1.row).filter fun o => spad < o + 64 with
    | [] => none
    | o :: os => some (BitVec.ofNat 64 (os.foldl min o))

/-- The rows of a register operand (R214). -/
def Ctx.mxRows (c : Ctx) (v : VecNo) (t : MxType) (n : Nat) : List MxRow :=
  let codes := chunks (mxStep t) n (c.raw v (n * mxStep t))
  let anchors := if t = .bf16 then List.replicate n 0 else (c.anchorReg v).first n
  (anchors.zip codes).map fun r => ⟨r.1, r.2.map (BitVec.ofNat 16)⟩

/-- The operand of an issued MXM. -/
def State.mxSource (s : State) (o : MxOperand) (t : MxType) (n : Nat) : MxSource :=
  match o, s.mxDesc o with
  | .vec v, _ => .rows (s.ctx.mxRows v t n)
  | _, some d => .offsets ((List.range n).map d.row)
  | _, none => .offsets []

/-- The advance of a scratchpad operand (R216): its address register by the tile pitch of its descriptor. -/
def State.mxAdvance (s : State) (o : MxOperand) : List (Reg × Word) :=
  match o, s.mxDesc o with
  | .spad a _ _, some d => [(a, s.reg a + BitVec.ofNat 64 d.tpitch)]
  | _, _ => []

/-- The register writes of an MXM (R216): that of A, and then that of B, which reads its registers as the first left them
(R3); so one register for both operands advances by both tile pitches. -/
def State.mxWrites (s : State) (a b : MxOperand) : List (Reg × Word) :=
  s.mxAdvance a ++ ((s.mxAdvance a).foldl (fun s w => s.setReg w.1 w.2) s).mxAdvance b

def mxRegs : MxOperand → List VecNo
  | .vec v => [v]
  | .spad .. => []

/-- MXM (R212-R216). Where both operands fail the same check, R213 does not say which is reported: A before B, and the bits
of an SX0 before a row (notes/assumptions/26.md). -/
def execMxm (vacc : VecNo) (a b : MxOperand) (kvalid : BitVec 7) (zacc : Bool) (s : State) : Out :=
  s.queuedAs (vacc :: (mxRegs a ++ mxRegs b)) fun s =>
    let c := s.ctx
    let g := c.eng.grant
    match c.mxType a, c.mxType b with
    | some t, some u =>
      if c.typ vacc ≠ .fp32 ∨ t ≠ u then trap .illegalTag
      else if c.vlmax < g * 64 ∨ (mxRegs a ≠ [] ∧ c.vlmax < g * mxStep t) ∨
          (mxRegs b ≠ [] ∧ c.vlmax < 64 * mxStep t) then
        trap .illegalVl c.vlWord
      else if g = 0 then trap .mxNogrant
      else
        let ds := [(s.mxDesc a, g), (s.mxDesc b, 64)].filterMap fun d => d.1.map fun x => (x, d.2)
        match ds.findSome? fun d => d.1.misalign with
        | some v => trap .misalign v
        | none =>
          match mxAccess ds c.spadBytes with
          | some v => trap .access v
          | none =>
            let kv := if 0 < kvalid.toNat ∧ kvalid.toNat < mxStep t then kvalid.toNat else mxStep t
            .ok (s.issueCmd none
              (.mxm vacc g t (s.mxSource a t g) (s.mxSource b t 64) kv zacc (s.mxWrites a b)))
    | _, _ => trap .illegalTag

/-- The abacus that a command waits for. -/
def Cmd.abacusNo (m : Cmd) : Nat := 2 * m.isle.toNat + m.core.toNat / 4

def State.abacus (s : State) (a : Nat) : Abacus := s.dev.power.abaci.getD a ⟨7, 7, 0, none, none, none, [], []⟩

/-- The step at which an abacus accepts in a cycle: a change of R takes effect with the next aligned window (R339). -/
def Abacus.stepAt (a : Abacus) (cycle : Nat) : Nat := if cycle < a.since then a.before else a.ramp

/-- MXM_ACCEPT (R218): in the first 8 − R cycles of a window of 8, at most one per cycle, the MXM that has waited
longest is accepted, and its address registers advance (R216); the energy of the abacus goes to its launch (R342). R218
does not say from when a wait is counted: here from the issue, so that the wait for a range-checker entry counts (notes/assumptions/26.md). -/
def execMxmAccept (abacus : Nat) (s : State) : Out :=
  let ab := s.abacus abacus
  let now := s.dev.clock.cycles
  if 8 - ab.stepAt now ≤ now % 8 ∨ ab.lastAccept = some now then .next s
  else
    match s.dev.engines.cmds.find? fun m => m.state == .entered && m.abacusNo == abacus with
    | none => .next s
    | some m =>
      let writes := match m.kind with
        | .mxm _ _ _ _ _ _ _ ws => ws
        | _ => []
      let s := s.accept m writes
      .next { s with dev := { s.dev with power := { s.dev.power with
        abaci := s.dev.power.abaci.modify abacus fun x =>
          { x with lastAccept := some now, ran := addLaunch m.job m.task x.ran } } } }

/-- The values of an MXM row (R73, R215). -/
def MxRow.values (r : MxRow) (t : MxType) : List Exact :=
  if t = .bf16 then r.codes.map fun b => bf16.decode b.toNat
  else r.codes.map fun b => rodValue (mxElem t) r.anchor ((mxElem t).int b.toNat)

/-- A row as it stands in the scratchpad (R215). -/
def State.spadRow (s : State) (core : Nat) (t : MxType) (off : Nat) : MxRow :=
  let loc := spadLoc core off
  if t = .bf16 then ⟨0, ((mxElem t).unpack (s.mem.bytes loc 64)).map (BitVec.ofNat 16)⟩
  else ⟨BitVec.ofNat 64 (s.mem.number loc 8), ((mxElem t).unpack (s.mem.bytes (loc + 8) 56)).map (BitVec.ofNat 16)⟩

/-- The values of the rows of an operand; nothing for a row that is poisoned (R196). -/
def State.mxValues (s : State) (core : Nat) (t : MxType) : MxSource → List (Option (List Exact))
  | .rows rs => rs.map fun r => some (r.values t)
  | .offsets os => os.map fun o =>
    if s.poisoned (spadLoc core o) 64 then none else some ((s.spadRow core t o).values t)

/-- acc + T (R86, R87): the exact sum of the accumulator and the products below kv, rounded once. -/
def mxCell (acc : Exact) (x y : List Exact) (kv : Nat) : Nat :=
  match (x.zip y).take kv with
  | [] => fp32.round acc
  | p :: ps => fp32.round (acc.add (ps.foldl (fun t q => t.add (q.1.mul q.2)) (p.1.mul p.2)))

/-- The poisoned rows of an operand: row number and scratchpad offset. -/
def State.mxPoison (s : State) (core : Nat) : MxSource → List (Nat × Nat)
  | .rows _ => []
  | .offsets os => (os.zipIdx.filter fun o => s.poisoned (spadLoc core o.1) 64).map fun o => (o.2, o.1)

/-- The accumulator elements that an MXM writes (R214, R216). -/
def mxOut (accs : List Nat) (zacc : Bool) (xs ys : List (Option (List Exact))) (kv : Nat) : List (Nat × Nat) :=
  (xs.zipIdx.flatMap fun x => ys.zipIdx.map fun y => (64 * x.2 + y.2, x.1, y.1)).zip accs |>.map fun p =>
    match p.1.2.1, p.1.2.2 with
    | some x, some y => (p.1.1, mxCell (if zacc then .num false 0 0 else fp32.decode p.2) x y kv)
    | _, _ => (p.1.1, fp32.nanBits)

/-- Whether two commands are of one context (R217). -/
def Cmd.sameIssuer (m n : Cmd) : Bool :=
  m.isle == n.isle && m.core == n.core && m.pos == n.pos && m.job == n.job && m.task == n.task && m.unit == n.unit

/-- The next accepted MXM of an abacus that can be applied: the range checker does not hold it back (R203), and no earlier
one of its context is still to be applied (R217). -/
def State.nextMxm (s : State) (abacus : Nat) : Option Cmd :=
  let ms := s.dev.engines.cmds.filter fun m => m.state == .accepted && m.kind.isMxm
  ms.find? fun m => m.abacusNo == abacus && !s.heldBack m && !ms.any fun n => n.order < m.order && n.sameIssuer m

/-- MXM_ACCUMULATE (R216, R217): an accepted MXM reads its rows and writes its accumulator. A poisoned row gives the
canonical NaN, a record and the error bit of the launch (R196); records that find no room stall the command (R315). That
the VA field of such a record holds the scratchpad offset of its row, and that the records of the rows of A come before
those of B, each in ascending order, is the model's choice: R196 and R316 give neither (notes/assumptions/21.md). -/
def execMxmAccumulate (abacus : Nat) (s : State) : Out :=
  match s.nextMxm abacus with
  | none => .next s
  | some m =>
    match m.kind with
    | .mxm vacc g t a b kv zacc _ =>
      let core := m.coreNo
      let bad := s.mxPoison core a ++ s.mxPoison core b
      let xs := s.mxValues core t a
      let ys := s.mxValues core t b
      let s := s.onIssuer m fun c =>
        { c with vec := c.vec.writeElems vacc (mxOut (c.raw vacc (g * 64)) zacc xs ys kv) }
      if bad = [] then .next (s.endCmd m false)
      else
        let s := s.setErr m.job m.task
        let recs := bad.map fun p => m.record .dataPoison 4 0 0 p.1 (BitVec.ofNat 64 p.2)
        let (s, left) := if s.ringOn then s.writeRecords recs else (s, [])
        .next (if left = [] then s.endCmd m false else s.onCmd m.id fun m => { m with state := .stalled left })
    | _ => .next s

end Sys2Proof.Machine
end

