-- ==== Sys2Proof/Machine/System.lean ====
section
/-! DEFINITION. The SYS group (spec/10 R219-R230): control registers, fences, trap returns, waiting on memory, saving
and restoring vector state, and the fault ring's waiting parties (spec/14 R302-R308, R315-R317). -/

namespace Sys2Proof.Machine

/-! ### Control registers (R35-R38, R220) -/

/-- The live launch of a context. -/
def State.launch (s : State) : Option Task := s.findTask s.ctx.origin.job s.ctx.origin.task

/-- What RDC reads (R35, R37): nothing for a number that is not listed. -/
def State.readCr (s : State) (cr : Nat) : Option Word :=
  let c := s.ctx
  let d := s.dev
  match cr with
  | 0x000 => some c.vlWord
  | 0x001 => some (BitVec.ofNat 64 c.frontVlmax)
  | 0x002 => some (BitVec.ofNat 64 c.front.vcount)
  | 0x003 => some (c.vec.mspace.zeroExtend 64)
  | 0x004 => some (c.vec.devpol.zeroExtend 64)
  | 0x005 => some c.vec.devstat
  | 0x006 => some c.eng.tagReady
  | 0x007 => some (BitVec.ofNat 64 c.eng.grant)
  | 0x008 => some (BitVec.ofNat 64 (s.abacus c.place.abacusNo).ramp)
  | 0x009 => some (BitVec.ofNat 64 c.origin.unit)
  | 0x00A => some (BitVec.ofNat 64 c.origin.units)
  | 0x00B => some (BitVec.ofNat 64 c.place.lanes)
  | 0x00C => some (c.num.zeroExtend 64)
  | 0x00D => some (BitVec.ofNat 64 c.origin.task)
  | 0x00E => some c.origin.param
  | 0x00F => some (BitVec.ofNat 64 c.origin.det.toNat)
  | 0x010 => some (BitVec.ofNat 64 (d.clock.cycles - d.clock.coreStart))
  | 0x011 => some (BitVec.ofNat 64 s.nowNs)
  | 0x012 => some ((s.launch.map (·.energy)).getD 0)
  | 0x013 => some (((s.findJob c.origin.job).map (·.energy)).getD 0)
  | 0x800 => some c.trap.tstat
  | 0x801 => some c.trap.tcause
  | 0x802 => some c.trap.tepc
  | 0x803 => some c.trap.tval
  | 0x804 => some c.trap.tinstr
  | 0x805 => some (s.core c.place.coreNo).tvec
  | 0x806 => some c.trap.hvl
  | 0x807 => some c.trap.hvcount
  | 0x808 => some c.trap.hmspace
  | 0x809 => some c.trap.tscratch
  | 0x80A => some c.trap.vowner
  | 0x80B => some c.trap.vsaveptr
  | 0x80C => some c.trap.ptbase
  | 0x80D => some c.trap.asid
  | 0x810 => some d.ring.base
  | 0x811 => some d.ring.size
  | 0x812 => some d.ring.prod
  | 0x813 => some d.ring.cons
  | 0x820 => some d.power.rampcfg
  | 0x821 => some d.power.pwrcap
  | 0x822 => some d.power.ageind
  | 0x823 => some d.power.eolmonths
  | n => if 0x830 ≤ n ∧ n ≤ 0x837 then some (s.pool (n - 0x830)).cfg else none

def State.setTrapRegs (s : State) (f : TrapRegs → TrapRegs) : State :=
  { s with ctx := { s.ctx with trap := f s.ctx.trap } }

/-- TSTAT after a WRC (R38): HBLOST is cleared by a 1, HBVALID and PMODE are written, MODE is read only. -/
def writeTstat (old v : Word) : Word :=
  tstatWord (old.getLsbD 0) (v.getLsbD 1) (v.getLsbD 2) (old.getLsbD 3 && !v.getLsbD 3)

/-- DEVSTAT after a WRC (R22): a 1 in a field clears that whole field. -/
def clearDevstat (old v : Word) : Word :=
  let m : Word := (if v.getLsbD 63 then 0x8000000000000000 else 0) |||
    (if v.toNat / 2 ^ 32 % 2 ^ 31 ≠ 0 then 0x7FFFFFFF00000000 else 0) |||
    (if v.toNat % 2 ^ 32 ≠ 0 then 0xFFFFFFFF else 0)
  old &&& ~~~m

/-- WRC to ASID (R313): the cached translations of the old and the new ASID are invalid in the whole device. -/
def State.writeAsid (s : State) (v : Word) : State :=
  let old := s.ctx.trap.asid
  let new := v &&& 0xFFFF
  let s := s.setTrapRegs fun t => { t with asid := new }
  { s with dev := { s.dev with tlb := s.dev.tlb.filter fun e => e.asid != old && e.asid != new } }

def State.setRing (s : State) (f : Ring → Ring) : State := { s with dev := { s.dev with ring := f s.dev.ring } }

/-- WRC to FRSIZE (R314): enabling the ring sets PROD and CONS to the consumer word. -/
def State.writeFrsize (s : State) (v : Word) : State :=
  let log := v.toNat % 32
  if log ≠ 0 ∧ (log < 6 ∨ 20 < log) then s
  else
    let s' := s.setRing fun r => { r with size := BitVec.ofNat 64 log }
    if s.dev.ring.size = 0 ∧ log ≠ 0 then
      let s' := s'.observe
      s'.setRing fun r => { r with prod := r.cons, polled := s.nowNs }
    else s'

def State.setPower (s : State) (f : Power → Power) : State := { s with dev := { s.dev with power := f s.dev.power } }

/-- Whether a WRC to RAMPCFG is taken (R341). The boundaries of the new interval are those still to come. -/
def rampcfgOk (v : Word) : Bool :=
  v.toNat % 256 != 0 && v.toNat / 256 != 0 && v.toNat / 256 ≤ 32

/-- WRC to PWRCAP (R337). -/
def pwrcapOk (v : Word) : Bool := 1800 ≤ v.toNat && v.toNat ≤ 4200

/-- What WRC does (R35, R37, R38, R220): nothing for a number that is not listed; a read-only register ignores it. -/
def State.writeCr (s : State) (cr : Nat) (v : Word) : Option State :=
  let t := s.setTrapRegs
  match cr with
  | 0x004 => some (if v.toNat ≤ 2 then s.setVec fun x => { x with devpol := v.setWidth 2 } else s)
  | 0x005 => some (s.setVec fun x => { x with devstat := clearDevstat x.devstat v })
  | 0x800 => some (t fun r => { r with tstat := writeTstat r.tstat v })
  | 0x801 => some (t fun r => { r with tcause := v &&& 0xFF })
  | 0x802 => some (t fun r => { r with tepc := v })
  | 0x803 => some (t fun r => { r with tval := v })
  | 0x804 => some (t fun r => { r with tinstr := v })
  | 0x805 => some { s with dev := { s.dev with
      cores := s.dev.cores.modify s.ctx.place.coreNo fun c => { c with tvec := v &&& ~~~3#64 } } }
  | 0x806 => some (t fun r => { r with hvl := v })
  | 0x807 => some (if v = 8 ∨ v = 16 ∨ v = 32 ∨ v = 64 then t fun r => { r with hvcount := v } else s)
  | 0x808 => some (if v.toNat ≤ 2 then t fun r => { r with hmspace := v } else s)
  | 0x809 => some (t fun r => { r with tscratch := v })
  | 0x80A => some (t fun r => { r with vowner := v &&& 0x1F7F })
  | 0x80B => some (t fun r => { r with vsaveptr := v })
  | 0x80C => some (t fun r => { r with ptbase := v &&& 0x000FFFFFFFFFF000 })
  | 0x80D => some (s.writeAsid v)
  | 0x810 => some (s.setRing fun r => { r with base := v &&& 0x000FFFFFFFFFFFC0 })
  | 0x811 => some (s.writeFrsize v)
  | 0x820 => some (if rampcfgOk v then s.setPower fun p => { p with rampcfg := v, lastRamp := s.nowNs } else s)
  | 0x821 => some (if pwrcapOk v then s.setPower fun p => { p with pwrcap := v } else s)
  | n =>
    if 0x830 ≤ n ∧ n ≤ 0x837 then some (s.writePoolcfg (n - 0x830) v)
    else (s.readCr n).map fun _ => s

/-- PRIV for a user-mode access to a number from 0x800 on, and ILLEGAL_INSTR for a number that is not listed (R35). -/
def State.accessCr {α : Type} (s : State) (cr : Nat) (v : Option α) (k : α → Out) : Out :=
  if s.ctx.user ∧ 0x800 ≤ cr then .next (s.takeTrap .priv 0)
  else
    match v with
    | some x => k x
    | none => .next (s.takeTrap .illegalInstr 0)

/-- RDC (R220). -/
def execRdc (rd : Reg) (cr : BitVec 12) (s : State) : Out :=
  s.accessCr cr.toNat (s.readCr cr.toNat) fun v => s.result rd v

/-- A WRC to control register `cr`. -/
def State.wrc (s : State) (ra : Reg) (cr : Nat) : Out :=
  s.accessCr cr (s.writeCr cr (s.reg ra)) fun s' => .next (s'.retire 4)

/-- WRC (R220). -/
def execWrc (ra : Reg) (cr : BitVec 12) (s : State) : Out := s.wrc ra cr.toNat

/-- WRC to DEVSTAT (R22). -/
def execWrcDevstat (ra : Reg) (s : State) : Out := s.wrc ra 0x005

/-- WRC to POOLCFG 0-7 (R273). -/
def execWrcPoolcfg (ra : Reg) (pool : BitVec 3) (s : State) : Out := s.wrc ra (0x830 + pool.toNat)

/-- WRC to ASID (R313). -/
def execWrcAsid (ra : Reg) (s : State) : Out := s.wrc ra 0x80D

/-- WRC to FRBASE or FRSIZE (R314). -/
def execWrcFaultRing (ra : Reg) (size : Bool) (s : State) : Out := s.wrc ra (if size then 0x811 else 0x810)

/-- WRC to PWRCAP (R337). -/
def execWrcPwrcap (ra : Reg) (s : State) : Out := s.wrc ra 0x821

/-- WRC to RAMPCFG (R341). -/
def execWrcRampcfg (ra : Reg) (s : State) : Out := s.wrc ra 0x820

/-! ### Ordering (R221-R223, R228, R229) -/

/-- FENCE (R221): every earlier access is performed when an instruction at the vector commit pointer runs
(notes/assumptions/9.md). -/
def execFence (_kind : BitVec 2) (_scope : BitVec 3) (s : State) : Out := .next (s.retire 4)

/-- SBAR (R222). -/
def execSbar (_mask : BitVec 8) (s : State) : Out := .next (s.retire 4)

/-- ISYNC (R223, R220, R264): fetch takes the translation and the memory that stand now. -/
def execIsync (s : State) : Out :=
  .next ({ s with ctx := { s.ctx with flow := { s.ctx.flow with
    fetchPtbase := s.ctx.trap.ptbase, fetchAsid := s.ctx.trap.asid, since := s.mem.past.length } } }.retire 4)

/-- CNVY (R228): queued instructions run whole and in order. R228 does not say whether it waits for the accumulator of an
MXM that was accepted before it (R217): here it does not, which is the model's choice (notes/assumptions/26.md). -/
def execCnvy (s : State) : Out := .next (s.retire 4)

/-- The other resident contexts of the core of the context that moves. -/
def State.neighbours (s : State) : List CtxNo :=
  (s.others.filter fun c => c.live && c.place.coreNo == s.ctx.place.coreNo).map Ctx.num

/-- YIELD (R229): the context holds until the others of its core that are ready to issue have issued once, or 16 cycles
have passed. -/
def execYield (s : State) : Out :=
  .next ({ s with ctx := { s.ctx with flow := { s.ctx.flow with
    yield := some (s.dev.clock.cycles + 16, s.neighbours) } } }.retire 4)

/-! ### Traps (R224, R225, R290) -/

/-- TRAP (R224). -/
def execTrap (code : BitVec 12) (s : State) : Out := .next (s.takeTrap .soft (code.zeroExtend 64))

/-- The context vacates (R290, R291): its state moves to the parked-context store of its isle, and its slot and lanes
are free. A context that has taken CANCEL and then vacates on its RETT takes CANCEL again after the RETT of its resume
handler, and not at once as it resumes: R290 and R295 do not say, and it is the model's choice (notes/assumptions/26.md). -/
def State.vacate (s : State) : State :=
  let s := s.drain
  let c := s.ctx.leaveTrap s.tick s.mem.past.length
  let c := { c with flow := { c.flow with evicting := false, slots := 0, owed := [], sent := 0, yield := none, eligible := none } }
  let s := s.dropWaiter c.num
  { s with
    ctx := { s.ctx with flow := { s.ctx.flow with status := .ended } }
    dev := { s.dev with sched := { s.dev.sched with parked := s.dev.sched.parked ++ [c] } } }.closeUnits

/-- RETT (R225). A context that has taken CANCEL takes it again after every RETT (R295); the first RETT after a
PREEMPT vacates (R290), once every earlier access has found its request slot (R324). Both wait for an accumulator that is
still to be written (R217). -/
def execRett (s : State) : Out :=
  if s.ctx.user then .next (s.takeTrap .priv 0)
  else if s.mxmPending allVecs then .next s.wait
  else if s.ctx.flow.evicting then .next (if s.drain.ctx.flow.owed ≠ [] then s.drain.wait else s.vacate)
  else
    let c := s.ctx.leaveTrap s.tick s.mem.past.length
    .next { s with ctx := { c with flow := { c.flow with
      cancelPending := c.flow.cancelPending || c.flow.cancelTaken } } }

/-! ### WAITL (R227) -/

/-- Whether the limit of a WAITL has passed. -/
def State.limitPassed (s : State) (limit : BitVec 12) : Bool :=
  limit != 0 && match s.ctx.flow.waitStart with
    | some t => t + limit.toNat * 1024 ≤ s.dev.clock.cycles
    | none => false

/-- WAITL: each execution makes one read. It ends when the value differs from rd or the limit has passed. R227 and R317 do
not say from when the limit counts for a WAITL that is parked on a translation fault while it waits: here from when it began
to wait, which is the model's choice (notes/assumptions/28.md). -/
def execWaitl (rd ra : Reg) (limit : BitVec 12) (s : State) : Out :=
  s.settle <| match s.probe .read 8 (s.reg ra) with
    | .error e => .error e
    | .ok h =>
      if s.poisonedFor s.ctx.origin.job h.loc 8 then .error (.asked (s.accessSpans h 8) (.trap .dataPoison 0))
      else
        let late := s.limitPassed limit
        let (s, n) := s.readThrough .read h 8
        let v := BitVec.ofNat 64 n
        if v ≠ s.reg rd ∨ late then .ok ((s.setReg rd v).retire 4)
        else
          let start := s.ctx.flow.waitStart.getD s.dev.clock.cycles
          .ok { s with ctx := { s.ctx with flow := { s.ctx.flow with
            status := .waiting, waitStart := some start } } }

/-- The value that a WAITL would read now. -/
def State.waitlSees (s : State) (ra : Reg) : Option Word :=
  match s.probe .read 8 (s.reg ra) with
  | .ok h => if s.poisonedFor s.ctx.origin.job h.loc 8 then none else some (BitVec.ofNat 64 (s.readThrough .read h 8).2)
  | .error _ => none

/-- The WAITL at which a context waits, brought to the front at the vector commit pointer, where every store before it is
released (R31, R255). -/
def State.waitingWaitl (s : State) (who : CtxNo) : Option (Reg × Reg × BitVec 12 × State) :=
  match s.focus who with
  | none => none
  | some f =>
    match f.ctx.flow.status, (f.fetch f.ctx).1 with
    | .waiting, .ok (.waitl rd ra limit) _ => some (rd, ra, limit, f.toPointer)
    | _, _ => none

/-- WAITL_CHANGE (R227): a waiting WAITL reads a value other than rd and returns it. -/
def execWaitlChange (who : CtxNo) (s : State) : Out :=
  match s.waitingWaitl who with
  | none => .next s
  | some (rd, ra, limit, f) =>
    match f.waitlSees ra with
    | some v => if v = f.reg rd then .next s else execWaitl rd ra limit f
    | none => .next s

/-- WAITL_LIMIT (R227): the limit of a waiting WAITL has passed. -/
def execWaitlLimit (who : CtxNo) (s : State) : Out :=
  match s.waitingWaitl who with
  | none => .next s
  | some (rd, ra, limit, f) => if f.limitPassed limit then execWaitl rd ra limit f else .next s

/-! ### VSAVE and VRSTR (R307, R308) -/

/-- The parts of an area that lie in one 4 KiB page each. -/
def pageParts : Nat → Nat → Nat → List (Nat × Nat)
  | 0, _, _ => []
  | fuel + 1, a, n =>
    if n = 0 then []
    else
      let k := min n (4096 - a % 4096)
      (a, k) :: pageParts fuel (a + k) (n - k)

def areaParts (a : Word) (n : Nat) : List (Nat × Nat) := pageParts (n / 4096 + 2) a.toNat n

/-- Where the parts of an area lie, or why they are refused, in ascending order. -/
def State.areaReach (s : State) (need : Need) (parts : List (Nat × Nat)) : List ((Word × Nat) × Except Miss Hit) :=
  parts.map fun p => ((BitVec.ofNat 64 p.1, p.2), s.resolve s.ctx.space need (BitVec.ofNat 64 p.1))

/-- Check an area (R230): where its parts lie, or how the instruction stops. Every page is probed before anything is
performed (R313, R317): the lowest part that is refused raises ACCESS; else the lowest that faults gives its record
(R315); else a poisoned table entry, and then poisoned data that are read, raise DATA_POISON (R319). The order is that of
R169 and R39, which the spec does not repeat for an area (notes/assumptions/22.md). -/
def State.areaHits (s : State) (need : Need) (parts : List (Nat × Nat)) : Except Stop (List (Hit × Nat)) :=
  let res := s.areaReach need parts
  let asked := fun e : Stop => Stop.asked (parts.flatMap fun p => s.walkSpans s.ctx.space (BitVec.ofNat 64 p.1)).eraseDups e
  let hits := res.filterMap fun r => match r.2 with
    | .ok h => some (h, r.1.2)
    | .error _ => none
  match res.find? fun r => match r.2 with | .error .access => true | _ => false with
  | some r => .error (asked (.trap .access r.1.1))
  | none =>
    match res.findSome? fun r => match r.2 with
        | .error (.fault d) => some (s.ctx.faultRec need.recKind d need.writes 0 r.1.1)
        | _ => none with
    | some r => .error (asked (.faults r []))
    | none =>
      if (res.any fun r => match r.2 with | .error _ => true | _ => false) ||
          (need == .read && hits.any fun h => s.poisonedFor s.ctx.origin.job h.1.loc h.2) then
        .error (asked (.asked (if need = .read then hits.map fun h => (h.1.loc, h.2) else []) (.trap .dataPoison 0)))
      else .ok hits

/-- The headers of an area: one for each page that leaves the core (R322). R320 gives VSAVE and VRSTR no headers: that they
have those of a unit-stride access is the model's choice (notes/assumptions/25.md). -/
def State.areaHeaders (s : State) (hits : List (Hit × Nat)) : List Packet :=
  (onePer Hit.page [] ((hits.map (·.1)).filter fun h => h.leaves s.ctx.place.coreNo)).map fun h => s.dev.packet h.loc

/-- The accesses of an area are on their way: accessed and dirty bits, and the last headers. -/
def State.areaDepart (s : State) (need : Need) (hits : List (Hit × Nat)) : State :=
  (hits.foldl (fun s h => s.touch need h.1) s).sendRest (s.areaHeaders hits)

/-- The size of a register's part of the area: S of R307. -/
def saveStride (vlmax halfw : Nat) : Nat := (vlmax * halfw + 127) / 128 * 64

/-- The size of a mask's part: Mb of R307. -/
def saveMask (vlmax : Nat) : Nat := (vlmax + 511) / 512 * 64

/-- The size of a save area. -/
def areaSize (vlmax vcount halfw : Nat) : Nat :=
  599424 + vcount * saveStride vlmax halfw + 8 * saveMask vlmax

/-- Bytes padded with zeros to `n`. -/
def padTo (n : Nat) (bs : List Byte) : List Byte := bs ++ List.replicate (n - bs.length) 0

def word8 (v : Nat) : List Byte := leBytes 8 v

/-- The save area of a context (R307). -/
def Ctx.saveArea (c : Ctx) : List Byte :=
  let n := c.vlmax
  let k := c.vec.vcount
  let stride := saveStride n (widest c.vec.tags.toList k)
  word8 c.trap.hvl.toNat ++ word8 k ++ word8 c.trap.hmspace.toNat ++ word8 c.vec.devpol.toNat ++
    word8 c.vec.devstat.toNat ++ word8 c.eng.grant ++ word8 n ++ word8 0 ++
    padTo 64 (c.vec.tags.toList.take k) ++
    (((List.finRange 64).take k).flatMap fun i =>
      let t := tagType c.vec.tags[i]
      padTo stride (t.pack ((c.vec.vecs[i].first n).map fun b => b.toNat % 2 ^ t.bits))) ++
    (c.vec.anchors.toList.flatMap fun a => (a.first anchorEntries).flatMap fun w => word8 w.toNat) ++
    c.vec.masks.toList.flatMap fun m => leBytes (saveMask n) (m % 2 ^ n)

/-- The bytes of an area at its parts. -/
def areaPuts : List (Hit × Nat) → List Byte → List Put
  | [], _ => []
  | (h, k) :: rest, bs =>
    ((bs.take k).mapIdx fun i b => ⟨h.loc + i, h.va + BitVec.ofNat 64 i, b, h.zel, false⟩) ++ areaPuts rest (bs.drop k)

/-- VSAVE (R307). -/
def execVsave (ra : Reg) (s : State) : Out :=
  let a := s.reg ra
  let c := s.ctx
  if c.user then .next (s.takeTrap .priv 0)
  else if a.toNat % 64 ≠ 0 then .next (s.takeTrap .misalign a)
  else if s.mxmPending allVecs then .next s.wait
  else
    let n := areaSize c.vlmax c.vec.vcount (widest c.vec.tags.toList c.vec.vcount)
    s.settle <| match s.areaHits .write (areaParts a n) with
      | .error e => .error e
      | .ok hits =>
        s.inPipe (s.areaHeaders hits)
          (.ok (((s.areaDepart .write hits).performPlain c.origin.job c.origin.task (areaPuts hits c.saveArea)).retire 4))

/-- The number in the `n` bytes of a list from offset `o`. -/
def fieldAt (bs : List Byte) (o n : Nat) : Nat := leNat ((bs.drop o).take n)

/-- The bytes of an area as a job reads them. -/
def State.areaBytes (s : State) (job : Nat) (hits : List (Hit × Nat)) : List Byte :=
  hits.flatMap fun h => s.bytesFor job h.1.loc h.2

/-- Load a context's vector state from a save area: its header `hb`, which passed its checks, and all its bytes
(R308). A header that binds two registers to one anchor register binds it to the later one (R14). Registers at and above
the saved VCOUNT, of which R308 does not speak, become undefined (notes/assumptions/22.md). -/
def Ctx.loadArea (c : Ctx) (tick : Nat) (hb bs : List Byte) : Ctx :=
  let k := fieldAt hb 8 8
  let n := fieldAt hb 48 8
  let tags : Vector (BitVec 8) 64 := Vector.ofFn fun i => (hb.getD (64 + i.val) 0)
  let stride := saveStride n (widest tags.toList k)
  let reg := fun (i : Fin 64) =>
    let t := tagType tags[i]
    let es := (t.unpack ((bs.drop (128 + i.val * stride)).take stride)).take n
    VReg.mk (es.mapIdx fun j b => (j, BitVec.ofNat 64 b)) [(0, .zero)]
  let base := 128 + k * stride
  let anchor := fun (i : Fin 16) =>
    let ws := chunks 8 anchorEntries (bs.drop (base + i.val * 8 * anchorEntries))
    VReg.mk (ws.mapIdx fun j b => (j, BitVec.ofNat 64 (leNat b))) [(0, .zero)]
  let masks := base + 16 * 8 * anchorEntries
  let c := { c with
    front := ⟨k, uniqueTags tags⟩
    vec := { c.vec with
      vl := min c.vec.vl n, vcount := k, tags := tags
      devpol := if fieldAt hb 24 8 ≤ 2 then BitVec.ofNat 2 (fieldAt hb 24 8) else c.vec.devpol
      devstat := BitVec.ofNat 64 (fieldAt hb 32 8)
      vecs := Vector.ofFn fun i => if i.val < k then reg i else .undefined tick i.val
      anchors := Vector.ofFn anchor
      masks := Vector.ofFn fun i => fieldAt bs (masks + i.val * saveMask n) (saveMask n) % 2 ^ n }
    trap := { c.trap with
      hvl := BitVec.ofNat 64 (fieldAt hb 0 8), hvcount := BitVec.ofNat 64 k
      hmspace := BitVec.ofNat 64 (fieldAt hb 16 8), tstat := c.trap.tstat ||| 4 } }
  c.reshape tick fun c => { c with vec := c.vec.unbind tick }

/-- The check of a header (R308): the trap that it raises. -/
def Ctx.badHeader (c : Ctx) (bs : List Byte) : Option Stop :=
  let k := fieldAt bs 8 8
  let n := fieldAt bs 48 8
  let tags := (bs.drop 64).take 64
  if tags.any fun t => !tagValid t then some (.trap .illegalTag 0)
  else if !(k = 8 ∨ k = 16 ∨ k = 32 ∨ k = 64) ∨ vlmaxOf c.origin.part c.place.lanes k tags ≠ n then
    some (.trap .illegalVl (BitVec.ofNat 64 n))
  else none

/-- VRSTR (R308): the header is read and checked, and then the area. Where a check fails, or the area stops, the accessed bit
set for the read of the header stays set: R8, R308 and R312 do not say, and it is the model's choice
(notes/assumptions/22.md). -/
def execVrstr (ra : Reg) (s : State) : Out :=
  let a := s.reg ra
  let c := s.ctx
  if c.user then .next (s.takeTrap .priv 0)
  else if a.toNat % 64 ≠ 0 then .next (s.takeTrap .misalign a)
  else if s.mxmPending allVecs then .next s.wait
  else
    match s.areaHits .read (areaParts a 128) with
    | .error e => .next (s.stop e)
    | .ok head =>
      let s' := head.foldl (fun s h => s.touch .read h.1) s
      let hb := s'.areaBytes c.origin.job head
      let reads := head.map fun h => (h.1.loc, h.2)
      match c.badHeader hb with
      | some e => .next (s'.stop (.behind reads e))
      | none =>
        let n := areaSize (fieldAt hb 48 8) (fieldAt hb 8 8) (widest ((hb.drop 64).take 64) (fieldAt hb 8 8))
        match s'.areaHits .read (areaParts a n) with
        | .error e => .next (s'.stop (.behind reads e))
        | .ok hits =>
          s'.settle <| s'.inPipe (s'.areaHeaders hits) <|
          let t := (s'.areaDepart .read hits).readFor c.origin.job c.origin.task (hits.map fun h => (h.1.loc, h.2))
          .ok ({ t with ctx := t.ctx.loadArea s.tick hb (t.areaBytes c.origin.job hits) }.retire 4)

/-! ### Parties that wait on the fault ring (R315, R317) -/

/-- The device writes the records of asynchronous failures of a context that went on (R315). -/
def State.writeOwn (s : State) (who : CtxNo) : State :=
  let mine := s.dev.msu.records.filter fun r => r.loc == who.toNat
  let (s, left) := s.writeRecords mine
  { s with dev := { s.dev with msu := { s.dev.msu with
    records := (s.dev.msu.records.filter fun r => r.loc != who.toNat) ++ left } } }

/-- FAULT_RING_ROOM (R315): a stalled context writes its records while there is room; then it is parked, or goes on
when the records were of an asynchronous failure. Records of an asynchronous failure that the context, or an engine
command of it, no longer waits for are written by the device. -/
def execFaultRingRoom (who : CtxNo) (s : State) : Out :=
  match (s.findCtx who).map fun c : Ctx => c.flow.status with
  | some (.stalled recs) =>
    let (s', left) := s.writeRecords recs
    let st := if left = [] ∧ recs.all fun r => r.cause ≠ 7 then .running else parkStatus s'.dev.ring.prod left
    .next (s'.onCtx who fun c => { c with flow := { c.flow with status := st } })
  | _ => .next (s.writeOwn who)

/-- PARK_RESUME (R317): a parked context re-executes its instruction once it observes a consumer word greater than
its last record. -/
def execParkResume (who : CtxNo) (s : State) : Out :=
  match s.findCtx who with
  | none => .next s
  | some c =>
    match c.flow.status with
    | .parked seq =>
      let s := s.observe
      .next (if seq < s.dev.ring.cons.toNat then
          s.onCtx who fun c => { c with flow := { c.flow with status := .running } }
        else s)
    | _ => .next s

/-- CONSUMER_WORD_POLL (R317): while the ring is enabled the device reads the consumer word, as a read at its MSU, and
FRCONS takes it. It comes about at least once every microsecond, as a mark of TIME. -/
def execConsumerWordPoll (s : State) : Out :=
  .next (if s.ringOn then
      s.observe.setRing fun r => { r with polled := s.nowNs }
    else s)

end Sys2Proof.Machine
end

