-- ==== Sys2Proof/Machine/Scheduler.lean ====
section
/-! DEFINITION. Jobs, graphs, tasks and their counters, TIDE and RDDIG (spec/10 R231-R248). -/

namespace Sys2Proof.Machine

/-! ### Launch records (R231) -/

/-- The `i`-th 8-byte word of a list of bytes. -/
def dword (bs : List Byte) (i : Nat) : Nat := fieldAt bs (8 * i) 8

/-- The launch checks of R231, and what the record gives that was read at an address and a location. -/
def parseRecord (va : Word) (loc : Nat) (bs : List Byte) : Option LaunchRec :=
  let entry := dword bs 0
  let part := dword bs 2
  let q := dword bs 3
  let units := q % 2 ^ 32
  let lanes := q / 2 ^ 32 % 8
  if entry % 4 ≠ 0 ∨ entry / 2 ^ 56 ≠ 0 ∨ part / 2 ^ 18 ≠ 0 ∨ 192 < part % 256 + part / 256 % 256 ∨ units = 0 ∨
      2 ^ 20 < units ∨ 4 < lanes ∨ q / 2 ^ 35 % 2 ≠ 0 ∨ q / 2 ^ 38 % 4 ≠ 0 ∨ q / 2 ^ 41 ≠ 0 ∨
      dword bs 4 % 64 ≠ 0 ∨ dword bs 5 % 64 ≠ 0 then none
  else some
    { va := va, loc := loc, entry := BitVec.ofNat 64 entry, param := BitVec.ofNat 64 (dword bs 1), part := BitVec.ofNat 64 part
      units := units, lanes := 64 * 2 ^ lanes, ldrop := q / 2 ^ 36 % 4, det := q / 2 ^ 40 % 2 == 1
      spbase := BitVec.ofNat 64 (dword bs 4), spsize := dword bs 5 }

/-- Read 64 bytes at an address as one granule, and where they lie (R232, R243). R320 gives the read of a record no header:
that it has one is the model's choice (notes/assumptions/25.md). -/
def State.granule (s : State) (va : Word) : Except Stop (State × Nat × List Byte) :=
  match s.probe .read 64 va with
  | .error e => .error e
  | .ok h =>
    if s.poisonedFor s.ctx.origin.job h.loc 64 then .error (.asked (s.accessSpans h 64) (.trap .dataPoison 0))
    else
      let s := (s.touch .read h).sendFor h
      .ok (s.readFor s.ctx.origin.job s.ctx.origin.task [(h.loc, 64)], h.loc, s.bytesFor s.ctx.origin.job h.loc 64)

/-- What reading a granule reads in memory. -/
def State.granuleSpans (s : State) (va : Word) : List (Nat × Nat) :=
  match s.probe .read 64 va with
  | .error _ => []
  | .ok h => s.accessSpans h 64

/-! ### Creating work (R232, R233, R282) -/

def State.setSched (s : State) (f : Sched → Sched) : State := { s with dev := { s.dev with sched := f s.dev.sched } }

/-- The entries in use of an isle's task table (R282). -/
def State.tableUse (s : State) (isle : Nat) : Nat :=
  (s.dev.sched.tasks.filter fun t => t.isle == isle && t.id != 0).length

/-- The isle of a reach with the most free entries of 256, ties to the lower number (R282). -/
def State.tableIsle (s : State) (reach : Nat) : Option Nat :=
  ((List.range 16).filter fun i => reach.testBit i && s.tableUse i < 256).foldl
    (fun best i => match best with
      | none => some i
      | some b => if s.tableUse i < s.tableUse b then some i else some b) none

/-- The serial after `n`, from 1 to `top`. -/
def nextSerial (n top : Nat) : Nat := if n = top then 1 else n + 1

/-- A new launch (R232). -/
def Task.new (job id isle : Nat) (graph : Option Nat) (r : LaunchRec) (deps tick : Nat) : Task where
  job := job
  id := id
  isle := isle
  graph := graph
  record := r
  state := if deps = 0 then .ready else .created
  deps := deps
  succs := []
  transfers := []
  count := r.units
  err := false
  cancelled := false
  cores := []
  nextUnit := 0
  live := []
  createdAt := tick
  readyAt := tick
  digest := 0
  spilled := 0
  energy := 0
  paused := none

/-- Change one graph of a job. -/
def Job.onGraph (j : Job) (g : Nat) (f : Graph → Graph) : Job :=
  { j with graphs := j.graphs.map fun x => if x.id = g then f x else x }

/-- One more in the count of a graph. -/
def Job.graphPlus (j : Job) (g : Nat) : Job := j.onGraph g fun x => { x with count := x.count + 1 }

/-- A graph is created in the current phase of its job, with a count (R236). -/
def Job.newGraph (j : Job) (count : Nat) : Job × Nat :=
  let id := nextSerial j.graphSerial (2 ^ 32 - 1)
  ({ (j.onPhase j.curPhase fun p => { p with count := p.count + 1 }) with
      graphSerial := id, graphs := j.graphs ++ [⟨id, j.curPhase, count, false, false⟩] }, id)

/-- Create a task of a job (R232). -/
def State.createTask (s : State) (j : Job) (isle : Nat) (r : LaunchRec) (deps : Nat) : State × Nat :=
  let id := nextSerial j.taskSerial (2 ^ 32 - 1)
  let (j', g) := match j.openGraph with
    | some (g, _) => (j.graphPlus g, g)
    | none => j.newGraph 1
  let s := s.onJob j.id fun _ => { j' with taskSerial := id }
  (s.setSched fun d => { d with tasks := d.tasks ++ [Task.new j.id id isle (some g) r deps s.tick] }, id)

/-- TASK (R232). A context of no job starts nothing (R351). Where it ends in SCHED_FULL after its record was read, no accessed
bit is set for that read: R8 and R312 do not say, and it is the model's choice (notes/assumptions/23.md). -/
def execTask (rd ra : Reg) (deps : BitVec 16) (s : State) : Out :=
  match s.granule (s.reg ra) with
  | .error e => .next (s.stop e)
  | .ok (s', loc, bs) =>
    match parseRecord (s.reg ra) loc bs, s.findJob s.ctx.origin.job with
    | some r, some j =>
      match s.tableIsle j.reach with
      | none => .next (s.stop (.behind (s.granuleSpans (s.reg ra)) (.trap .schedFull 0)))
      | some isle =>
        let (s'', id) := s'.createTask j isle r deps.toNat
        .next ((s''.setReg rd (BitVec.ofNat 64 id)).retire 8)
    | _, _ => .next ((s'.setReg rd 0).retire 8)

/-- XFER (R233). A task that was cancelled before its dependence count reached zero is live until it completes, and R233
does not speak of it: it does not take the transfer, and its error bit is set (notes/assumptions/26.md). -/
def State.xfer (s : State) (split : Bool) (task src off : Reg) (bytes : BitVec 32) : Out :=
  let so := s.reg off
  let n := bytes.toNat
  let job := s.ctx.origin.job
  let id := (s.reg task).toNat
  if n % 64 ≠ 0 then .next (s.takeTrap .illegalInstr 0)
  else if so.toNat % 64 ≠ 0 then .next (s.takeTrap .misalign so)
  else if (s.reg src).toNat / 2 ^ 56 ≠ 0 then .next (s.takeTrap .access (s.reg src))
  else
    match if id = 0 then none else s.findTask job id with
    | none => .next (s.retire 8)
    | some t =>
      if t.record.part.toNat / 2 ^ 8 % 256 * 65536 < so.toNat + n then .next (s.takeTrap .access so)
      else if 8 ≤ t.transfers.length then .next (s.takeTrap .schedFull 0)
      else if t.state ≠ .created then .next ((s.setErr job id).retire 8)
      else
        .next ((s.onTask job id fun t =>
          { t with transfers := t.transfers ++
            [⟨split, s.reg src, so.toNat, n, s.ctx.num, s.ctx.origin.unit, s.ctx.pc.zeroExtend 64, none⟩] }).retire 8)

/-- XFER mode=bcast (R233). -/
def execXferBcast (task src off : Reg) (bytes : BitVec 32) (s : State) : Out := s.xfer false task src off bytes

/-- XFER mode=split (R233). -/
def execXferSplit (task src off : Reg) (bytes : BitVec 32) (s : State) : Out := s.xfer true task src off bytes

/-! ### Dependences, graphs and phases (R235-R237) -/

/-- A live task of the issuer's job by its id; id 0 names none. -/
def State.myTask (s : State) (id : Word) : Option Task :=
  if id = 0 then none else s.findTask s.ctx.origin.job id.toNat

/-- TDEP (R235). A successor that was cancelled before its dependence count reached zero, of which R235 does not speak,
takes no edge, and its error bit is set (notes/assumptions/26.md). -/
def execTdep (succ pred : Reg) (s : State) : Out :=
  let job := s.ctx.origin.job
  match s.myTask (s.reg succ) with
  | none => .next (s.retire 4)
  | some t =>
    if pred = 0 then .next ((s.onTask job t.id fun t => t.satisfy s.tick).retire 4)
    else
      match s.myTask (s.reg pred) with
      | none => .next (s.retire 4)
      | some p =>
        if t.state ≠ .created ∨ t.deps = 0 then .next ((s.setErr job t.id).retire 4)
        else if 32 ≤ p.succs.length ∨ 65535 ≤ t.deps then .next (s.takeTrap .schedFull 0)
        else
          let s := s.onTask job p.id fun p => { p with succs := p.succs ++ [t.id] }
          .next ((s.onTask job t.id fun t => { t with deps := t.deps + 1 }).retire 4)

/-- GRAPH, the open form (R236). A context of no job opens nothing (R351). -/
def execGraphOpen (rd : Reg) (s : State) : Out :=
  match s.findJob s.ctx.origin.job with
  | none => .next (s.retire 4)
  | some j =>
    match j.openGraph with
    | some (g, n) =>
      let s := s.onJob j.id fun j => { j.graphPlus g with openGraph := some (g, n + 1) }
      s.result rd (BitVec.ofNat 64 g)
    | none =>
      let (j', g) := j.newGraph 1
      (s.onJob j.id fun _ => { j' with openGraph := some (g, 1) }).result rd (BitVec.ofNat 64 g)

/-- GRAPH close (R236). -/
def execGraphClose (s : State) : Out :=
  match s.findJob s.ctx.origin.job with
  | none => .next (s.retire 4)
  | some j =>
    match j.openGraph with
    | none => .next (s.retire 4)
    | some (g, n) =>
      let s := s.onJob j.id fun j => { j with openGraph := if n ≤ 1 then none else some (g, n - 1) }
      .next ((s.graphMinus j.id g).retire 4)

/-- PHASE (R237). -/
def execPhase (rd : Reg) (s : State) : Out :=
  match s.findJob s.ctx.origin.job with
  | none => .next (s.retire 4)
  | some j =>
    let n := j.curPhase + 1
    let s := s.onJob j.id fun j =>
      { j.dropHold with curPhase := n, phases := j.dropHold.phases ++ [⟨n, 1, true, false, false⟩] }
    (s.closeCounts j.id).result rd (BitVec.ofNat 64 n)

/-! ### Counters (R234, R239) -/

/-- The launches that a named object covers. -/
def State.tasksOf (s : State) (key : ObjKey) : List Task :=
  let j := s.findJob key.job
  let phaseOf := fun (t : Task) => j.bind fun j => (j.graphs.find? fun g => some g.id == t.graph).map (·.phase)
  s.dev.sched.tasks.filter fun t =>
    t.job == key.job && match key.level.toNat with
      | 0 => t.id == key.id && t.id != 0
      | 1 => t.graph == some key.id
      | 2 => phaseOf t == some key.id
      | _ => true

/-- The word of a cancelled object: count 0 and CANC once no launch of it is left (R242). -/
def State.objWord (s : State) (key : ObjKey) (count : Nat) (err canc : Bool) : Nat × Bool × Bool :=
  if canc && (s.tasksOf key).isEmpty then (0, err, true) else (count, err, false)

/-- Count, error and cancel bits of a live object; nothing for an id that names none (R234). The zero of a launch is
not observable before its completion steps have ended (R240). What is read until then R239 and R240 do not say where its
count in the scheduler is zero: here it is 1, which is the model's choice (notes/assumptions/23.md). -/
def State.object (s : State) (key : ObjKey) : Option (Nat × Bool × Bool) :=
  match s.findJob key.job with
  | none => none
  | some j =>
    match key.level.toNat with
    | 0 => if key.id = 0 then none else (s.findTask key.job key.id).map fun t => (max 1 t.count, t.err, false)
    | 1 => (j.graphs.find? fun g => g.id == key.id).map fun g => s.objWord key g.count g.err g.cancelled
    | 2 => (j.phases.find? fun p => p.num == key.id).map fun p => s.objWord key p.count p.err p.cancelled
    | _ => some (s.objWord key j.count j.err j.cancelled)

/-- The object that an id register names at a level (R234): at level 3, S0 names the issuer's job. -/
def State.named (s : State) (ra : Reg) (level : BitVec 2) : ObjKey :=
  if level = 3 then
    let id := if ra = 0 then s.ctx.origin.job else (s.reg ra).toNat
    ⟨id, level, id⟩
  else ⟨s.ctx.origin.job, level, (s.reg ra).toNat⟩

/-- PRIV for another job's id in user mode (R234). -/
def State.foreign (s : State) (ra : Reg) (level : BitVec 2) : Bool := s.ctx.user && level == 3 && ra != 0

/-- CNT (R239). -/
def execCnt (rd ra : Reg) (level : BitVec 2) (s : State) : Out :=
  if s.foreign ra level then .next (s.takeTrap .priv 0)
  else
    match s.object (s.named ra level) with
    | none => s.result rd 0
    | some (n, err, canc) => s.result rd (counterWord n err canc)

/-- WAITC (R239): it ends with the word of the object it waited for, also once that is live no longer. -/
def execWaitc (rd ra : Reg) (level : BitVec 2) (s : State) : Out :=
  if s.foreign ra level then .next (s.takeTrap .priv 0)
  else
    match s.ctx.flow.waitWord with
    | some w => s.result rd w
    | none =>
      let key := s.named ra level
      match s.object key with
      | none => s.result rd 0
      | some (n, err, canc) =>
        if n = 0 ∨ canc then s.result rd (counterWord n err canc)
        else .next { s with ctx := { s.ctx with flow := { s.ctx.flow with status := .waiting, waitOn := some key } } }

/-! ### Cancel and kill (R242, R284, R292, R296) -/

/-- A core that hosts the launch is released. -/
def Core.dropHost (c : Core) (job task : Nat) : Core :=
  if c.host = some (job, task) then { c with host := none, part := 0, evict := false } else c

/-- Release the cores of a launch that will not start. -/
def State.dropCores (s : State) (job task : Nat) : State :=
  { s with dev := { s.dev with cores := s.dev.cores.map fun c => c.dropHost job task } }

def Ctx.ofLaunch (c : Ctx) (job task : Nat) : Bool := c.origin.job == job && c.origin.task == task

/-- The unit of a job's program will never start where its launch is that of a program (R237). -/
def State.neverStarts (s : State) (t : Task) : State := if t.graph.isNone then s.programEnds t.job else s

/-- Cancel one launch according to its state (R284). The transfers of a filling one abort, and so set its error bit
(R233). Of a unit that is parked in part R284 and R292 do not speak: the contexts that are parked are dropped, and those
that are still resident take CANCEL, which is the model's choice (notes/assumptions/26.md). -/
def State.cancelTask (s : State) (t : Task) : State :=
  match t.state with
  | .completing => s
  | .created | .ready =>
    (s.onTask t.job t.id fun t =>
      { t with cancelled := true, count := 0, nextUnit := t.record.units, state := .completing }).neverStarts t
  | .filling =>
    (((s.setErr t.job t.id).onTask t.job t.id fun t =>
      { t with
        cancelled := true, count := 0, nextUnit := t.record.units, transfers := []
        state := .completing }).dropCores t.job t.id).neverStarts t
  | .running =>
    let s := s.onTask t.job t.id fun t =>
      { t with cancelled := true, count := t.count - (t.record.units - t.nextUnit), nextUnit := t.record.units }
    let s := s.dropParked fun c => c.ofLaunch t.job t.id
    let f := fun c : Ctx => if c.live ∧ c.ofLaunch t.job t.id then
      { c with flow := { c.flow with cancelPending := true } } else c
    { s with
      ctx := f s.ctx
      others := s.others.map f
      dev := { s.dev with engines := { s.dev.engines with
        cmds := s.dev.engines.cmds.map fun m =>
          if m.job = t.job ∧ m.task = t.id then { m with cancelled := true } else m } } }

/-- The cancel bit of the named object, and of what it holds. -/
def Job.markCancelled (j : Job) (key : ObjKey) : Job :=
  match key.level.toNat with
  | 0 => j
  | 1 => { j with graphs := j.graphs.map fun g => if g.id = key.id then { g with cancelled := true } else g }
  | 2 =>
    { j with
      graphs := j.graphs.map fun g => if g.phase = key.id then { g with cancelled := true } else g
      phases := j.phases.map fun p => if p.num = key.id then { p with cancelled := true } else p }
  | _ =>
    { j with
      cancelled := true
      graphs := j.graphs.map fun g => { g with cancelled := true }
      phases := j.phases.map fun p => { p with cancelled := true } }

/-- CANCEL (R242). -/
def execCancel (ra : Reg) (level : BitVec 2) (s : State) : Out :=
  if s.foreign ra level then .next (s.takeTrap .priv 0)
  else
    let key := s.named ra level
    let s := s.retire 4
    match s.object key with
    | none => .next s
    | some _ =>
      let ts := s.tasksOf key
      let s := s.onJob key.job fun j => j.markCancelled key
      .next ((ts.foldl State.cancelTask s).closeUnits.endCancelled key.job)

/-- The spill area of a deterministic launch is undefined once the launch has completed (R248), as far as it can be
written. That the pages of the whole area are marked accessed and dirty then, whether or not anything spilled, is the
model's choice (notes/assumptions/25.md). -/
def State.forgetSpill (s : State) (t : Task) (j : Job) : State :=
  if !t.record.det then s
  else (areaParts t.record.spbase t.record.spsize).foldl (fun s p =>
    match s.resolve (t.space j) .write (BitVec.ofNat 64 p.1) with
    | .ok h =>
      let s := s.touch .write h
      { s with mem := s.mem.forget h.loc (h.loc + p.2) s.tick }
    | .error _ => s) s

/-- End every context, command, launch, graph and phase of a job, and the job (R296). -/
def State.killJob (s : State) (j : Job) : State :=
  let w := counterWord 0 true true
  let s := s.endAll (s.contexts.filter fun c => c.live && c.origin.job == j.id)
  let s := s.dropParked fun c => c.origin.job == j.id
  let s := (s.dev.engines.cmds.filter fun m => m.job == j.id).foldl State.abortCmd s
  let s := { s with dev := { s.dev with msu := { s.dev.msu with
    held := s.dev.msu.held.filter fun h => h.job != j.id } } }
  let ts := s.dev.sched.tasks.filter fun t => t.job == j.id
  let s := ts.foldl (fun s t => s.forgetSpill t j) s
  let s := ts.foldl (fun s t => (s.retireObj ⟨j.id, 0, t.id⟩ w).dropCores j.id t.id) s
  let s := j.graphs.foldl (fun s g => s.retireObj ⟨j.id, 1, g.id⟩ w) s
  let s := j.phases.foldl (fun s p => s.retireObj ⟨j.id, 2, p.num⟩ w) s
  let s := s.setSched fun d => { d with tasks := d.tasks.filter fun t => t.job != j.id }
  let s := s.onJob j.id fun j =>
    { j with graphs := [], phases := [], openGraph := none, progDone := true, err := true, cancelled := true }
  (s.closeJob j.id).closeUnits

/-- CANCEL, the kill form (R296): it returns at once, unless its own context is killed. -/
def execJobKill (ra : Reg) (s : State) : Out :=
  if s.ctx.user then .next (s.takeTrap .priv 0)
  else
    let key := s.named ra 3
    let s := s.retire 4
    match s.findJob key.id with
    | none => .next s
    | some j => .next (s.killJob j)

/-! ### JOB (R243) -/

/-- A job descriptor (R243). -/
structure Descriptor where
  ptb : Nat
  asid : Nat
  reach : Nat
  prio : Nat
  jprog : Nat
deriving DecidableEq, Repr

/-- The descriptor in 64 bytes, unless a check of its own refuses it. -/
def parseDescriptor (bs : List Byte) : Option Descriptor :=
  let q := dword bs 1
  let d : Descriptor := ⟨dword bs 0, q % 2 ^ 16, q / 2 ^ 16 % 2 ^ 16, q / 2 ^ 32 % 4, dword bs 2⟩
  if q / 2 ^ 34 ≠ 0 ∨ (bs.drop 24).any (· != 0) ∨ d.ptb % 4096 ≠ 0 ∨ d.ptb / 2 ^ 52 ≠ 0 ∨ d.jprog % 64 ≠ 0 ∨
      d.asid = 0 ∨ d.reach = 0 then none
  else some d

/-- The context as it reads the job program's record: with the new job's table and address space. -/
def State.inSpace (s : State) (d : Descriptor) : State :=
  s.setTrapRegs fun t => { t with ptbase := BitVec.ofNat 64 d.ptb, asid := BitVec.ofNat 64 d.asid }

/-- The lowest free slot of the job table. -/
def State.jobSlot (s : State) : Option Nat := (List.range 64).find? fun k => !s.dev.sched.jobs.any fun j => j.slot == k

/-- Start a job: table slot, id, straits at split 4, the job program's launch, and phase 0 with its hold. R243 and R327 do
not say how the setting of split 4 comes about: here it takes effect at once, without drain and dead time, puts an end to a
turn of the strait that is under way, the return of an earlier job among them, and to a window that a TIDE of the control
program left, and drops a request that still waits; all of this is the model's choice (notes/assumptions/5.md). -/
def State.startJob (s : State) (d : Descriptor) (r : LaunchRec) (slot : Nat) : State × Nat :=
  let serial := s.dev.sched.jobSerial
  let id := serial * 64 + slot
  let j : Job :=
    { id := id, slot := slot, prio := d.prio, reach := d.reach, asid := BitVec.ofNat 64 d.asid
      ptb := BitVec.ofNat 64 d.ptb, taskSerial := 0, graphSerial := 0, openGraph := none, graphs := []
      phases := [⟨0, 1, true, false, false⟩], curPhase := 0, progDone := false, err := false, cancelled := false
      used := 0, energy := 0 }
  let s := s.onReach d.reach fun _ _ => ⟨4, none, none, none⟩
  (s.setSched fun x =>
    { x with
      jobs := x.jobs ++ [j], jobSerial := nextSerial serial (2 ^ 26 - 1)
      tasks := x.tasks ++ [Task.new id 0 16 none r 0 s.tick] }, id)

/-- Whether the resident control program runs still: without it no job can start (R351). -/
def State.controlRuns (s : State) : Bool := s.contexts.any fun c => c.live && c.origin.job == 0

/-- JOB (R243). Once the resident control program has exited it starts nothing (R351). Where it stops after its descriptor or
its record was read, no accessed bit is set for those reads, as for TASK (notes/assumptions/23.md). -/
def execJob (rd ra : Reg) (s : State) : Out :=
  if s.ctx.user then .next (s.takeTrap .priv 0)
  else
    match s.granule (s.reg ra) with
    | .error e => .next (s.stop e)
    | .ok (s', _, bs) =>
      let refuse := fun s : State => Host.Outcome.next ((s.setReg rd 0).retire 4)
      match parseDescriptor bs with
      | none => refuse s'
      | some d =>
        if !s.controlRuns || s.dev.sched.jobs.any fun j => j.reach &&& d.reach != 0 then refuse s'
        else
          let va := BitVec.ofNat 64 d.jprog
          match (s'.inSpace d).granule va with
          | .error e => .next (s.stop (.behind (s.granuleSpans (s.reg ra)) e))
          | .ok (s'', loc, rb) =>
            let s'' := s''.setTrapRegs fun _ => s.ctx.trap
            match parseRecord va loc rb with
            | none => refuse s''
            | some r =>
              if r.units ≠ 1 then refuse s''
              else
                match s.jobSlot with
                | none =>
                  let reads := s.granuleSpans (s.reg ra) ++ (s'.inSpace d).granuleSpans va
                  .next (s.stop (.behind reads (.trap .schedFull 0)))
                | some slot =>
                  let (s3, id) := s''.startJob d r slot
                  .next ((s3.setReg rd (BitVec.ofNat 64 id)).retire 4)

/-! ### TIDE and RDDIG (R245, R247) -/

/-- The strait of an isle. -/
def State.strait (s : State) (isle : BitVec 4) : Strait := s.dev.fabric.straits.getD isle.toNat ⟨4, none, none, none⟩

def State.onStrait (s : State) (isle : BitVec 4) (f : Strait → Strait) : State :=
  { s with dev := { s.dev with fabric := { s.dev.fabric with straits := s.dev.fabric.straits.modify isle.toNat f } } }

/-- A request is honoured at an instant: the lanes turn, and the new split takes effect at the instant `ends` (R245). That the
new turn replaces one that is under way still is the model's choice: R245 does not say (notes/assumptions/5.md). -/
def Strait.honour (st : Strait) (n : BitVec 3) (now ends : Nat) : Strait :=
  { st with turning := some (n, ends), lastHonour := some now, request := none }

/-- Whether a request can be honoured now: none was in the last 20 µs. -/
def Strait.windowOver (st : Strait) (now : Nat) : Bool :=
  match st.lastHonour with
  | none => true
  | some t => t + 20000 ≤ now

/-- TIDE (R245). -/
def execTide (rd : Reg) (split : BitVec 3) (s : State) : Out :=
  let isle := s.ctx.place.isle
  let st := s.strait isle
  let now := s.nowNs
  let s' := if split = st.split ∧ st.request = none then s
    else if st.windowOver now then s.onStrait isle fun x => x.honour split now (turnEnds s.tick isle.toNat now)
    else s.onStrait isle fun x => { x with request := some split }
  s'.result rd (st.split.zeroExtend 64)

/-- The instant at which the waiting request of a strait is honoured: 20 µs after the last honour (R245). -/
def Strait.honourAt (st : Strait) (now : Nat) : Nat := (st.lastHonour.map (· + 20000)).getD now

/-- TIDE_HONOUR (R245): the waiting request is honoured, or dropped when it equals the split in effect. -/
def execTideHonour (isle : BitVec 4) (s : State) : Out :=
  let st := s.strait isle
  match st.request with
  | none => .next s
  | some n =>
    let t := st.honourAt s.nowNs
    .next <| if !st.windowOver s.nowNs then s
      else if n = st.split then s.onStrait isle fun x => { x with request := none }
      else s.onStrait isle fun x => x.honour n t (turnEnds s.tick isle.toNat t)

/-- TIDE_SPLIT_EFFECT (R245). -/
def execTideSplitEffect (isle : BitVec 4) (s : State) : Out :=
  match (s.strait isle).turning with
  | none => .next s
  | some (n, t) =>
    .next (if t ≤ s.nowNs then s.onStrait isle fun x => { x with split := n, turning := none } else s)

/-- Whether a live launch was created from the record at an address (R247): from the location that the address names, by
whatever job, or by the own job from that address. -/
def State.recordInUse (s : State) (a : Word) : Bool :=
  s.dev.sched.tasks.any fun t =>
    (t.job == s.ctx.origin.job && t.record.va == a) || match s.resolve s.ctx.space .read a with
      | .ok h => t.record.loc == h.loc
      | .error _ => false

/-- RDDIG (R247). -/
def execRddig (rd ra : Reg) (s : State) : Out :=
  let a := s.reg ra
  if a.toNat % 64 ≠ 0 then .next (s.takeTrap .misalign a)
  else if s.recordInUse a then .next s.wait
  else s.settle <| (s.loadScalar 0 8 (a + 48)).map fun p => (p.1.setReg rd (BitVec.ofNat 64 p.2)).retire 4

end Sys2Proof.Machine
end

