-- ==== Sys2Proof/Machine/Placement.lean ====
section
/-! DEFINITION. What the schedulers do with tasks (spec/13 R282-R294, spec/08 R186, spec/10 R233, R240): placement and
pre-emption, stream transfers, the start and the resumption of units, and the completion of launches. -/

namespace Sys2Proof.Machine

/-! ### Which cores are free (R285) -/

/-- The cores of a reach that may host units, in ascending order. -/
def State.hostable (s : State) (reach : Nat) : List Nat :=
  (List.range 128).filter fun g => reach.testBit (g / 8) && (s.core g).host != some (0, 0)

/-- C: the cores that a launch needs. -/
def State.coresFor (s : State) (reach : Nat) (r : LaunchRec) : Nat :=
  min ((r.units + r.perCore - 1) / r.perCore) (s.hostable reach).length

/-- The priority of a launch (R231, R286). -/
def State.prioOf (s : State) (job task : Nat) : Nat :=
  match s.findJob job, s.findTask job task with
  | some j, some t => j.prio - t.record.ldrop
  | _, _ => 0

/-- Whether a core is free for a priority, setting aside the parked contexts that `own` names. -/
def State.freeFor (s : State) (g p : Nat) (own : Ctx → Bool) : Bool :=
  (s.core g).host.isNone && !(s.dev.engines.cmds.any fun m => m.coreNo == g) &&
    s.dev.sched.parked.all fun x =>
      x.place.coreNo != g || own x || s.prioOf x.origin.job x.origin.task < p

/-- The cores that the placement engine reserves, in rank order. -/
def State.reserve (s : State) (reach p c : Nat) : Option (List Nat) :=
  let free := (s.hostable reach).filter fun g => s.freeFor g p fun _ => false
  let ofIsle := fun i => free.filter fun g => g / 8 == i
  match (List.range 16).find? fun i => c ≤ (ofIsle i).length with
  | some i => some ((ofIsle i).take c)
  | none =>
    let order := (List.range 9).reverse.flatMap fun n => (List.range 16).filter fun i => (ofIsle i).length == n
    let chosen := (order.flatMap ofIsle).take c
    if chosen.length < c then none else some ((List.range 128).filter fun g => chosen.contains g)

/-! ### Units that can resume (R293) -/

def Ctx.ofUnit (c : Ctx) (job task unit : Nat) : Bool := c.ofLaunch job task && c.origin.unit == unit

/-- The parked contexts of a unit. -/
def State.parkedUnit (s : State) (job task unit : Nat) : List Ctx :=
  s.dev.sched.parked.filter fun c => c.ofUnit job task unit

/-- Whether the core hosts at most units of a launch, and runs no engine command of another (R293). -/
def State.keptFor (s : State) (g job task : Nat) : Bool :=
  let c := s.core g
  (c.host.isNone || (c.host == some (job, task) && !c.evict)) &&
    !(s.dev.engines.cmds.any fun m => m.coreNo == g && !(m.job == job && m.task == task))

/-- Whether no two contexts of one core share a lane or a slot. -/
def apart : List Ctx → Bool
  | [] => true
  | c :: cs =>
    (cs.all fun x => x.place.coreNo != c.place.coreNo || (x.place.slot != c.place.slot &&
      (x.place.base + x.place.lanes ≤ c.place.base || c.place.base + c.place.lanes ≤ x.place.base))) && apart cs

/-- Whether the slots and the lanes of parked contexts are free. -/
def State.roomFor (s : State) (cs : List Ctx) : Bool :=
  apart cs && cs.all fun y =>
    !(s.lanesTaken y.place.coreNo y.place.base y.place.lanes) &&
      !(s.contexts.any fun x => x.live && x.place.coreNo == y.place.coreNo && x.place.slot == y.place.slot)

/-- Whether R293 lets a parked unit resume on the core it vacated: the core is free for its priority, its own contexts
set aside; or it hosts no unit of another launch and holds no parked context of higher priority. -/
def State.resumable (s : State) (job task unit : Nat) : Bool :=
  match s.parkedUnit job task unit with
  | [] => false
  | c :: cs =>
    let g := c.place.coreNo
    let p := s.prioOf job task
    let own := fun x : Ctx => x.ofUnit job task unit
    let alone := !(s.contexts.any fun x => x.live && own x)
    let shared := s.keptFor g job task &&
      s.dev.sched.parked.all fun x => x.place.coreNo != g || s.prioOf x.origin.job x.origin.task ≤ p
    alone && (s.freeFor g p own || shared) && s.roomFor (c :: cs)

/-! ### Placement (R286, R288) -/

/-- Whether the phase of a task lets it be placed (R237). -/
def Job.letsPlace (j : Job) (t : Task) : Bool :=
  match t.graph with
  | none => true
  | some g => (j.graphs.find? fun x => x.id == g).map (·.phase) == j.phases.head?.map (·.num)

/-- Whether a unit of its job and priority goes before a ready task: a parked one that can resume (R286), or one that was
pre-empted before the task became ready and has not resumed, whether its contexts have vacated yet or not (R293). -/
def State.yields (s : State) (t : Task) : Bool :=
  s.dev.sched.tasks.any fun x =>
    x.job == t.job && s.prioOf x.job x.id == s.prioOf t.job t.id && x.live.any fun u =>
      ((u.preempted.any fun k => k < t.readyAt) && s.holders.any fun c => c.ofUnit x.job x.id u.unit) ||
        s.resumable x.job x.id u.unit

/-- The earlier of two ready tasks, ties to the lower id (R286). -/
def Task.earlier (a b : Task) : Task :=
  if b.readyAt < a.readyAt ∨ (b.readyAt = a.readyAt ∧ b.id < a.id) then b else a

/-- The task of a job that would be placed at a priority: the one that became ready earliest. -/
def State.headTask (s : State) (j : Job) (p : Nat) : Option Task :=
  let ts := s.dev.sched.tasks.filter fun t =>
    t.job == j.id && t.state == .ready && j.letsPlace t && j.prio - t.record.ldrop == p
  match ts with
  | [] => none
  | t :: rest =>
    let h := rest.foldl Task.earlier t
    if s.yields h then none else some h

/-- The head tasks at a priority, jobs in slot order from the pointer on. -/
def State.heads (s : State) (p : Nat) : List (Job × Task) :=
  (inTurn (s.dev.sched.pointers.getD p 0) (List.range 64)).filterMap fun slot =>
    (s.dev.sched.jobs.find? fun j => j.slot == slot).bind fun j => (s.headTask j p).map fun t => (j, t)

/-- The head tasks of all priorities, the highest first. -/
def State.allHeads (s : State) : List (Nat × Job × Task) := [3, 2, 1, 0].flatMap fun p => (s.heads p).map fun h => (p, h)

/-- The task that is placed in this cycle, and its cores. -/
def State.winner (s : State) : Option (Nat × Job × Task × List Nat) :=
  s.allHeads.findSome? fun h =>
    (s.reserve h.2.1.reach h.1 (s.coresFor h.2.1.reach h.2.2.record)).map fun cs => (h.1, h.2.1, h.2.2, cs)

/-- A core comes to host a launch, to which its energy goes from now on (R342): it is cleared when it served another job last, its scratchpad here and the lanes of the
units that start on it by `Core.cleared`, and else its scratchpad contents are undefined (R266, R268). -/
def State.hostCore (s : State) (job task : Nat) (part : Word) (g : Nat) : State :=
  let c := s.core g
  let lo := spadLoc g 0
  let hi := spadLoc (g + 1) 0
  { s with
    mem := if c.lastJob = job then s.mem.forget lo hi s.tick else s.mem.zero lo hi
    dev := { s.dev with
      cores := s.dev.cores.set g { c with
        host := some (job, task), part := part, lastJob := job, evict := false, cleared := c.lastJob != job
        served := addLaunch job task c.served } } }

/-- The engine reserves cores for a task (R283, R285). -/
def State.place (s : State) (p : Nat) (j : Job) (t : Task) (cores : List Nat) : State :=
  let s := s.setSched fun d => { d with pointers := d.pointers.set p ((j.slot + 1) % 64) }
  let s := cores.foldl (fun s g => s.hostCore t.job t.id t.record.part g) s
  s.onTask t.job t.id fun t =>
    { t with cores := cores, state := if t.transfers = [] then .running else .filling }

/-- The placed launches below a priority on the cores of a reach, those that are still being filled among them, victims
first: the lowest priority, and among equals the one created last (R288). -/
def State.victims (s : State) (reach p : Nat) : List Task :=
  (List.range p).flatMap fun q => (s.dev.sched.tasks.filter fun t =>
    (t.state == .running || t.state == .filling) && s.prioOf t.job t.id == q && t.cores.any fun g => reach.testBit (g / 8)).reverse

/-- The cores of a reach that are free for a priority, or are being vacated (R285, R288). Where several tasks lack cores,
R288 does not say whether cores that are being vacated for one of them count for another: here each counts for every task,
so that no further core is pre-empted for the other while they are vacated, which is the model's choice
(notes/assumptions/26.md). -/
def State.openCores (s : State) (reach p : Nat) : List Nat :=
  (s.hostable reach).filter fun g => (s.core g).evict || s.freeFor g p fun _ => false

/-- The cores that victims of a priority hold, in the order in which they are taken (R288). -/
def State.victimPool (s : State) (reach p : Nat) : List Nat :=
  (s.victims reach p).flatMap fun v =>
    v.cores.reverse.filter fun g => (s.core g).host == some (v.job, v.id) && !(s.core g).evict

/-- The cores that a task which lacks cores takes from victims: enough of them, in descending rank, or none. -/
def State.victimCores (s : State) (j : Job) (p : Nat) (t : Task) : List Nat :=
  let need := s.coresFor j.reach t.record - (s.openCores j.reach p).length
  let cores := s.victimPool j.reach p
  if cores.length < need then [] else cores.take need

/-- Whether a ready task gets its cores: those that are free for it or being vacated and those of victims are enough. -/
def State.claims (s : State) (p : Nat) (j : Job) (t : Task) : Bool :=
  s.coresFor j.reach t.record ≤ (s.openCores j.reach p).length + (s.victimPool j.reach p).length

/-- Whether a task of higher priority has a claim on a free core of its reach: it is placed there, or it waits until the
cores of its victims have been vacated and is placed then (R286, R288, R300). -/
def State.outranked (s : State) (g p : Nat) : Bool :=
  s.allHeads.any fun h => decide (p < h.1) && h.2.1.reach.testBit (g / 8) && s.claims h.1 h.2.1 h.2.2

/-- Whether a parked unit resumes (R293). It takes no free core on which a task of higher priority has a claim: R286 lets
it go before the tasks of its own priority alone, and R300 requires that the task is placed once its victims have vacated
(notes/assumptions/6.md). -/
def State.canResume (s : State) (job task unit : Nat) : Bool :=
  s.resumable job task unit && (s.parkedUnit job task unit).all fun c =>
    (s.core c.place.coreNo).host.isSome || !s.outranked c.place.coreNo (s.prioOf job task)

/-- A started unit whose core is a victim core from step `tick` on. R293 counts from "the pre-emption" and does not say which
moment that is: here the step in which the core becomes a victim core, and not that in which the unit has vacated it, which is
the model's choice (notes/assumptions/16.md). -/
def LiveUnit.preemptedOn (u : LiveUnit) (cores : List Nat) (tick : Nat) : LiveUnit :=
  if u.preempted.isNone ∧ cores.contains u.core then { u with preempted := some tick } else u

/-- Every context on a victim core takes PREEMPT at its next precise point (R289). -/
def State.evict (s : State) (cores : List Nat) : State :=
  let f := fun c : Ctx =>
    if c.live ∧ cores.contains c.place.coreNo then { c with flow := { c.flow with preemptPending := true } } else c
  let s := { s with ctx := f s.ctx, others := s.others.map f }
  let s := s.setSched fun d =>
    { d with tasks := d.tasks.map fun t => { t with live := t.live.map fun u => u.preemptedOn cores s.tick } }
  State.closeUnits { s with dev := { s.dev with
    cores := s.dev.cores.mapIdx fun g c => if cores.contains g then { c with evict := true } else c } }

/-- PLACEMENT_CYCLE (R286, R288): at most one task is placed; a task that lacks cores pre-empts. -/
def execPlacementCycle (s : State) : Out :=
  let s := match s.winner with
    | some (p, j, t, cores) => s.place p j t cores
    | none => s
  let plan := s.allHeads.findSome? fun h =>
    if (s.reserve h.2.1.reach h.1 (s.coresFor h.2.1.reach h.2.2.record)).isSome then none
    else
      match s.victimCores h.2.1 h.1 h.2.2 with
      | [] => none
      | cs => some cs
  .next (match plan with
    | some cs => s.evict cs
    | none => s)

/-! ### Stream transfers (R233) -/

/-- Resolve the parts of an area in a space: the hits, or the first miss with its address. -/
def State.resolveParts (s : State) (sp : Space) (need : Need) :
    List (Nat × Nat) → Except (Miss × Word) (List (Hit × Nat))
  | [] => .ok []
  | (a, k) :: rest =>
    match s.resolve sp need (BitVec.ofNat 64 a) with
    | .error m => .error (m, BitVec.ofNat 64 a)
    | .ok h => (s.resolveParts sp need rest).map fun hs => (h, k) :: hs

/-- A record of kind engine of a launch (R233, R240, R316). -/
def Task.record' (t : Task) (cause : Cause) (detail flags unit : Nat) (who : CtxNo) (pc va : Word) : FaultRec where
  outer := 0
  tag := 0
  flags := flags
  detail := detail
  cause := cause.code
  loc := who.toNat
  kind := 5
  elem := 0
  unit := unit
  launch := t.id
  job := t.job
  pc := pc
  va := va

/-- The cause and detail of a miss in a record (R316). -/
def Miss.code : Miss → Cause × Nat
  | .fault d => (.page, d)
  | .access => (.access, 3)
  | .poison => (.dataPoison, 4)

/-- A transfer aborts: the units of its task never start (R233). -/
def State.abortTransfer (s : State) (t : Task) : State :=
  (((s.setErr t.job t.id).onTask t.job t.id fun t =>
    { t with transfers := [], count := 0, nextUnit := t.record.units, state := .completing }).dropCores t.job t.id).closeUnits

/-- The transfer at the head of a task's list has ended. -/
def Task.transferDone (t : Task) : Task :=
  { t with transfers := t.transfers.tail, state := if t.transfers.tail = [] then .running else t.state }

/-- The bytes that a transfer brings to each core: core, source parts. -/
def Transfer.parts (x : Transfer) (cores : List Nat) : List (Nat × List (Nat × Nat)) :=
  cores.zipIdx.map fun q =>
    (q.1, areaParts (x.src + BitVec.ofNat 64 (if x.split then q.2 * x.bytes else 0)) x.bytes)

/-- Resolve every part of a transfer. -/
def State.transferHits (s : State) (sp : Space) :
    List (Nat × List (Nat × Nat)) → Except (Miss × Word) (List (Nat × List (Hit × Nat)))
  | [] => .ok []
  | (g, ps) :: rest =>
    match s.resolveParts sp .read ps with
    | .error e => .error e
    | .ok hs => (s.transferHits sp rest).map fun r => (g, hs) :: r

/-- Fill the scratchpads (R233): the bytes as the job reads them (R191), and poison where the source is poisoned (R196). -/
def State.fillCore (s : State) (job off g : Nat) (hits : List (Hit × Nat)) : State :=
  let bytes := s.areaBytes job hits
  let flags := hits.flatMap fun h => (List.range h.2).map fun i => s.poisonedFor job (h.1.loc + i) 1
  let s := s.store 0 0 (rawPuts (spadLoc g off) bytes)
  { s with mem := (flags.zipIdx.filter (·.1)).foldl (fun m p => m.mark (spadLoc g off + p.2)) s.mem }

/-- STREAM_TRANSFER_END (R233): the first transfer of a filling task ends, aborts, or pauses on a fault; a paused one
goes on once the consumer word has passed its record. -/
def execStreamTransferEnd (job task : Nat) (s : State) : Out :=
  match s.findTask job task, s.findJob job with
  | some t, some j =>
    match t.state, t.transfers with
    | .filling, x :: _ =>
      let s := s.observe
      let held : Bool := match x.paused with
        | some seq => s.ringOn && !decide (seq < s.dev.ring.cons.toNat)
        | none => false
      if held then .next s
      else
        let sp := t.space j
        match s.transferHits sp (x.parts t.cores) with
        | .error (m, va) =>
          let ask := fun s : State => s.readTraffic (s.spansUntil sp .read
            ((x.parts t.cores).flatMap fun g => g.2.map fun p => BitVec.ofNat 64 p.1)).eraseDups
          let wait : Bool := match m with
            | .fault _ => s.ringOn
            | _ => false
          if !s.canReport 1 then .next s
          else
            let s := ask s
            let r := t.record' m.code.1 m.code.2 (if wait then 4 else 0) x.unit x.who x.pc va
            if wait then
              let s := s.report r
              let seq := (s.dev.ring.prod - 1).toNat
              .next (s.onTask job task fun t =>
                { t with transfers := { x with paused := some seq } :: t.transfers.tail })
            else
              let s := match m with
                | .fault _ => s
                | _ => s.report r
              .next (s.abortTransfer t)
        | .ok hits =>
          let bad := (hits.flatMap (·.2)).find? fun h => s.poisonedFor job h.1.loc h.2
          if bad.isSome ∧ !s.canReport 1 then .next s
          else
            let s := match bad with
              | some h => (s.report (t.record' .dataPoison 4 0 x.unit x.who x.pc h.1.va)).setErr job task
              | none => s
            let s := hits.foldl (fun s g => g.2.foldl (fun s h => s.touch .read h.1) s) s
            let s := s.readFor job task ((if x.split then hits else hits.take 1).flatMap fun g =>
              g.2.map fun h => (h.1.loc, h.2))
            let s := hits.foldl (fun s g => s.fillCore job x.off g.1 g.2) s
            .next (s.onTask job task Task.transferDone)
    | _, _ => .next s
  | _, _ => .next s

/-! ### Units (R287, R293, R294, R40) -/

/-- Whether the lane group at a base of a core is free: every unit of the launch that was started there has no
context left. -/
def State.groupFree (s : State) (t : Task) (g base : Nat) : Bool :=
  (s.core g).host == some (t.job, t.id) && !(s.lanesTaken g base t.record.lanes) &&
    !(t.live.any fun u => u.core == g && u.base == base && s.holders.any fun c => c.ofUnit t.job t.id u.unit)

/-- Where unit `u` of a running launch starts, if it can start now: the first C·k units on the core of their rank, where
they were placed, also once that core is being vacated; and each later one where a group is free, in order of rank and
then of base. -/
def State.unitPlace (s : State) (t : Task) : Option (Nat × Nat) :=
  let k := t.record.perCore
  let u := t.nextUnit
  let spots := t.cores.flatMap fun g => (List.range k).map fun b => (g, b * t.record.lanes)
  if u < t.cores.length * k then (spots[u]?).filter fun p => s.groupFree t p.1 p.2
  else spots.find? fun p => !(s.core p.1).evict && s.groupFree t p.1 p.2

/-- The root context of a unit as it starts (R40); `held` of the request slots of its number are still taken (R323), and
its fetch has taken in `since` changes of memory (R264). On a core that is being vacated it takes PREEMPT (R289). Its
vector registers are undefined, but zero in the first unit on its lanes after the core was cleared (`clear`, R268). -/
def Ctx.root (t : Task) (j : Job) (unit g base tick held since : Nat) (slot : BitVec 4) (evict clear : Bool) : Ctx :=
  let place : Place := ⟨BitVec.ofNat 4 (g / 8), BitVec.ofNat 3 (g % 8), slot, base, t.record.lanes, 0⟩
  { place := place
    origin := ⟨t.job, t.id, unit, t.record.units, t.record.param, t.record.det, t.record.part⟩
    pc := t.record.entry.setWidth 56
    regs := (((Vector.replicate 32 0).set 1 t.record.param).set 2 (BitVec.ofNat 64 unit)).set 3
      (BitVec.ofNat 64 t.record.units)
    trap := .initial true (place.num.zeroExtend 64) j.ptb j.asid
    vec :=
      { vl := 0, vcount := 8 * 2 ^ (t.record.part.toNat / 2 ^ 16 % 4), mspace := 2, devpol := 0, devstat := 0
        tags := .replicate 64 0, vecs := Vector.ofFn fun i => if clear then .zero else .undefined tick i.val
        anchors := .replicate 16 .zero, masks := .replicate 8 0 }
    front := .configured (8 * 2 ^ (t.record.part.toNat / 2 ^ 16 % 4))
    eng := ⟨0, 0, 0, 0, 0⟩
    flow := { Flow.initial j.ptb j.asid since with preemptPending := evict, slots := held } }

/-- UNIT_START (R287): the next unit of a running launch starts; its root takes the lowest free slot of its core. -/
def execUnitStart (job task : Nat) (s : State) : Out :=
  match s.findTask job task, s.findJob job with
  | some t, some j =>
    if t.state ≠ .running ∨ t.record.units ≤ t.nextUnit then .next s
    else
      match s.unitPlace t with
      | none => .next s
      | some (g, base) =>
        match s.freeSlot (BitVec.ofNat 4 (g / 8)) (BitVec.ofNat 3 (g % 8)) with
        | none => .next s
        | some slot =>
          let evict := (s.core g).evict
          let held := s.slotsHeld (Place.num ⟨BitVec.ofNat 4 (g / 8), BitVec.ofNat 3 (g % 8), slot, base, 0, 0⟩)
          let clear := (s.core g).cleared && decide (t.nextUnit < t.cores.length * t.record.perCore)
          let c := Ctx.root t j t.nextUnit g base s.tick held s.mem.past.length slot evict clear
          let unit : LiveUnit := ⟨t.nextUnit, g, base, if evict then some s.tick else none⟩
          let s := s.onTask job task fun t => { t with nextUnit := t.nextUnit + 1, live := t.live ++ [unit] }
          .next { s with others := s.others ++ [c] }
  | _, _ => .next s

/-- The tag of a resumed context's register (R291 keeps none): an undefined one of the valid values. -/
def freeTag (tick i : Nat) : BitVec 8 :=
  let t := (Config.freeElem tick (1024 + i) 0).setWidth 8
  if tagValid t then t else 0

/-- A context as it resumes (R294), with the handler address of its core and the words at its parked pc; `held` of the
request slots of its number are still taken (R323), and its fetch has taken in `since` changes of memory. Its undefined
tags, in the lane group and in program order, bind an anchor register once at most (R14). Its PTBASE and ASID are those of its job, as at unit start: R291 does not
keep them and R294 does not give them, which makes this the model's choice (notes/assumptions/22.md). So it is that the
other fields of VOWNER are 0 beside NONE (R305, notes/assumptions/28.md), and that HBLOST is as it was when the context
vacated: R291 does not keep TSTAT, and R294 gives its modes and HBVALID alone (notes/assumptions/28.md). -/
def Ctx.resumed (c : Ctx) (tick base held since : Nat) (tvec ptb asid words : Word) : Ctx :=
  let tags := uniqueTags (Vector.ofFn fun i => freeTag tick (base + i.val))
  let c' := { c with front := { c.front with tags := tags } }
  { c' with
    pc := tvec.setWidth 56
    trap := { c.trap with
      tepc := c.pc.zeroExtend 64, tcause := BitVec.ofNat 64 Cause.preempt.code, tval := 0, tinstr := words
      tstat := tstatWord true (c.trap.tstat.getLsbD 0) true (c.trap.tstat.getLsbD 3)
      hvl := c.vlWord, hvcount := BitVec.ofNat 64 c.front.vcount, hmspace := c.vec.mspace.zeroExtend 64
      vowner := 0x1000, ptbase := ptb, asid := asid }
    vec := { c'.freshLanes tick base with vl := min c.vec.vl c'.frontVlmax }
    flow := { Flow.initial ptb asid since with
      slots := held, parent := c.flow.parent, child := c.flow.child, childEnded := c.flow.childEnded
      cancelPending := c.flow.cancelPending, cancelTaken := c.flow.cancelTaken, handlerFirst := true } }

/-- UNIT_RESUME (R293, R294): the parked contexts of a unit resume together on the core they vacated. -/
def execUnitResume (job task unit : Nat) (s : State) : Out :=
  match s.parkedUnit job task unit, s.findJob job with
  | c :: cs, some j =>
    if !s.canResume job task unit then .next s
    else
      let g := c.place.coreNo
      let s := if (s.core g).host.isNone then s.hostCore job task c.origin.part g else s
      let tvec := (s.core g).tvec
      let back := (c :: cs).zipIdx.map fun x =>
        let since := s.mem.past.length
        let y := { x.1 with flow := { x.1.flow with fetchPtbase := j.ptb, fetchAsid := j.asid, since := since } }
        y.resumed s.tick (128 * x.2) (s.slotsHeld y.num) since tvec j.ptb j.asid (s.wordsAt y)
      let s := s.onTask job task fun t =>
        { t with live := t.live.map fun u => if u.unit = unit then { u with preempted := none } else u }
      .next { s with
        others := s.others ++ back
        dev := { s.dev with sched := { s.dev.sched with
          parked := s.dev.sched.parked.filter fun p => !p.ofUnit job task unit } } }
  | _, _ => .next s

/-! ### Completion of a launch (R186, R240) -/

/-- Insert an update by ascending key, and by ascending bits among equal keys (R186). -/
def insertUpdate (u : BitVec 64 × BitVec 32) : List (BitVec 64 × BitVec 32) → List (BitVec 64 × BitVec 32)
  | [] => [u]
  | v :: vs =>
    if u.1.toNat < v.1.toNat ∨ (u.1 = v.1 ∧ u.2.toNat ≤ v.2.toNat) then u :: v :: vs else v :: insertUpdate u vs

/-- The final value of a held target word (R186). -/
def HeldWord.final (h : HeldWord) (v0 : Nat) : Nat :=
  if h.slot ∧ !h.fallback then
    (h.updates.foldr insertUpdate []).foldl (fun v u => fp32.round ((fp32.decode v).add (fp32.decode u.2.toNat))) v0
  else
    match h.updates with
    | [] => v0
    | u :: us =>
      let sum := us.foldl (fun x y => x.add (fp32.decode y.2.toNat)) (fp32.decode u.2.toNat)
      fp32.round ((fp32.decode v0).add sum)

/-- The record of a held target word that is poisoned (R186, R316, R318): it names the first update of the word. -/
def HeldWord.record (h : HeldWord) (t : Task) : FaultRec :=
  let key := ((h.updates.head?.map Prod.fst).getD 0).toNat
  { t.record' .dataPoison 4 1 (key / 2 ^ 44) h.who h.pc h.va with kind := 6, elem := key % 2 ^ 18 }

/-- A held target word is written, unless it is poisoned (R186, R318): then the read of it is all that is asked of its MSU. -/
def State.flushWord (s : State) (t : Task) (h : HeldWord) : State :=
  if s.poisonedFor t.job h.loc 4 then
    ((s.readTraffic [(h.loc, 4)]).report (h.record t)).setErr t.job t.id
  else
    let s := s.readFor t.job t.id [(h.loc, 4)]
    s.perform t.job t.id ((leBytes 4 (h.final (s.numberFor t.job h.loc 4))).mapIdx fun i b =>
      ⟨h.loc + i, h.va + BitVec.ofNat 64 i, b, false, true⟩)

/-- The held words of a launch. -/
def State.heldBy (s : State) (t : Task) : List HeldWord :=
  s.dev.msu.held.filter fun h => h.job == t.job && h.task == t.id

/-- A word is held no longer. -/
def State.dropHeld (s : State) (h : HeldWord) : State :=
  { s with dev := { s.dev with msu := { s.dev.msu with held := s.dev.msu.held.filter fun x => x != h } } }

/-- Step 2 of R240: every held word of the launch is written once. A poisoned one whose record finds no room waits, and
those after it with it (R315). -/
def State.flush (s : State) (t : Task) : List HeldWord → State
  | [] => s
  | h :: hs =>
    if s.poisonedFor t.job h.loc 4 && !s.canReport 1 then s else ((s.dropHeld h).flushWord t h).flush t hs

/-- Step 4 of R240: the launch leaves the tables, and its spill area is undefined (R248). -/
def State.finishTask (s : State) (t : Task) (j : Job) : State :=
  ((s.forgetSpill t j).retireTask ((s.findTask t.job t.id).getD t)).closeUnits

/-- Steps 3 and 4 of R240: FINAL and DIGEST into the record, then the count of zero is observable. A fault of the
write pauses the completion, or the write is given up, with the error bit set (R196, R318); a failure whose record finds
no room waits (R315). -/
def State.writeBack (s : State) (t : Task) (j : Job) : State :=
  let va := t.record.va + 48
  match s.resolve (t.space j) .write va with
  | .ok h =>
    let bytes := leBytes 8 t.digest.toNat ++ leBytes 8 (counterWord 0 t.err t.cancelled).toNat
    ((s.touch .write h).performPlain t.job t.id (bytes.mapIdx fun i b =>
      ⟨h.loc + i, va + BitVec.ofNat 64 i, b, h.zel, false⟩)).finishTask t j
  | .error m =>
    if !s.canReport 1 then s
    else
      let s := s.readTraffic (s.walkSpans (t.space j) va)
      match m with
      | .fault d =>
        if s.ringOn then
          let s := s.report (t.record' .page d 5 0 0 0 va)
          s.onTask t.job t.id fun t => { t with paused := some (s.dev.ring.prod - 1).toNat }
        else (s.setErr t.job t.id).finishTask t j
      | _ => ((s.report (t.record' m.code.1 m.code.2 1 0 0 0 va)).setErr t.job t.id).finishTask t j

/-- LAUNCH_COMPLETE (R240): a launch whose count is zero completes. -/
def execLaunchComplete (job task : Nat) (s : State) : Out :=
  match s.findTask job task, s.findJob job with
  | some t, some j =>
    let s' := s.observe
    let held : Bool := match t.paused with
      | some seq => s'.ringOn && !decide (seq < s'.dev.ring.cons.toNat)
      | none => false
    if t.state ≠ .completing ∨ held then .next s
    else
      let s' := s'.flush t (s'.heldBy t)
      .next (if s'.heldBy t = [] then s'.writeBack ((s'.findTask job task).getD t) j else s')
  | _, _ => .next s

end Sys2Proof.Machine
end

