-- ==== Sys2Proof/Machine/MemSystem.lean ====
section
/-! DEFINITION. The memory system behind the MSUs (spec/12 R271, R275-R280): accesses and their budgets, rows, scrubs,
remap tables, free maps and fatal-class events. -/

namespace Sys2Proof.Machine

def State.setMsu (s : State) (f : Msu → Msu) : State := { s with dev := { s.dev with msu := f s.dev.msu } }

/-- The bytes of an access as a store. -/
def accessPuts (a : LineAccess) : List Put := a.data.mapIdx fun i b => ⟨a.loc + i, 0, b, a.zel, false⟩

/-- Whether an access lies within one line of kind 00 or 01. -/
def inLine (a : LineAccess) : Bool :=
  a.data != [] && a.loc / 256 == (a.loc + a.data.length - 1) / 256 && (channelOf a.loc).isSome

/-- MSU_ACCESS (R271, R280): the access takes its place in the order in which the accesses of the line are performed, with
the elision rules of `Memory.store`; its DRAM transfer is served, or waits for the next interval while the budget of its
channel is spent (`State.request`). -/
def execMsuAccess (acc : LineAccess) (s : State) : Out :=
  .next (if !inLine acc then s
    else if acc.write then s.perform 0 0 (accessPuts acc)
    else s.readTraffic [(acc.loc, acc.data.length)])

/-- Serve the waiting transfers in arrival order while the budgets last; `stuck` are channels that have none left. One that is
held goes on waiting, and those of other rows of its channel pass it (R278). -/
def State.serveQueue : List Nat → List LineAccess → State → State
  | _, [], s => s
  | stuck, a :: as, s =>
    match channelOf a.loc with
    | none => State.serveQueue stuck as s
    | some ch =>
      let n := a.data.length
      if s.dev.msu.holding ch (s.dev.rowOf a.loc) then
        State.serveQueue stuck as (s.setMsu fun m => { m with queue := m.queue ++ [a] })
      else if !stuck.contains ch && decide (n ≤ s.dev.msu.budgets.getD ch 0) then
        State.serveQueue stuck as (s.setMsu fun m => m.serve ch (s.dev.rowOf a.loc) s.nowNs n)
      else State.serveQueue (ch :: stuck) as (s.setMsu fun m => { m with queue := m.queue ++ [a] })

/-- Take every waiting transfer again. -/
def State.drainQueue (s : State) : State :=
  State.serveQueue [] s.dev.msu.queue (s.setMsu fun m => { m with queue := [] })

/-- ROW_CLOSE (R276): an open row to which no request came for 100 ns is closed. -/
def execRowClose (channel row : Nat) (s : State) : Out :=
  .next (s.setMsu fun m =>
    { m with openRows := m.openRows.filter fun r => !(r.1 == channel && r.2.1 == row && decide (r.2.2 + 100 ≤ s.nowNs)) })

/-- One more event in the current hour of unit `k`. -/
def countHour (hours : List (List Nat)) (k : Nat) : List (List Nat) :=
  hours.modify k fun h => (h.headD 0 + 1) :: h.tail

/-- SCRUB (R277): an uncorrectable error marks its protected unit poisoned, in a line that is not elided (R271); a
correctable one is counted in the telemetry of its HBM stack. A corrected error of core SRAM or shoal SRAM is counted
nowhere: R277 says that it is counted, and neither R343 nor R352 gives the telemetry a count for it
(notes/assumptions/14.md). -/
def execScrub (loc : Nat) (uncorrectable : Bool) (s : State) : Out :=
  if uncorrectable then
    .next (if s.mem.elided.contains (loc / 256) then s else { s with mem := s.mem.mark loc })
  else
    match channelOf loc with
    | none => .next s
    | some ch => .next { s with dev := { s.dev with power := { s.dev.power with
        stackErrors := countHour s.dev.power.stackErrors (ch / 32) } } }

/-- A fatal-class event (R279): a record, the job-event interrupt, and the error bit of every live job. -/
def State.fatal (s : State) (detail ch : Nat) : State :=
  let r : FaultRec :=
    { outer := 0, tag := 0, flags := 2, detail := detail, cause := Cause.dataPoison.code, loc := 0, kind := 5, elem := 0
      unit := 0, launch := 0, job := 0, pc := 0, va := BitVec.ofNat 64 (ch * 2 ^ 31) }
  let s := s.report r
  let s := { s with dev := s.dev.jobEvent 1 }
  s.setSched fun d => { d with jobs := d.jobs.map fun j => { j with err := true } }

/-- Requests to a channel, or to one row of it, are held from now on, for a free time: R278 gives "about 2 µs" for the one and
no figure for the other (notes/assumptions/16.md). -/
def State.hold (s : State) (channel : Nat) (row : Option Nat) : State :=
  s.setMsu fun m => { m with holds := m.holds ++ [⟨channel, row, s.nowNs + Config.freeHold s.tick channel⟩] }

/-- The holds whose time is over end, and the requests that they held are served (R278). -/
def State.endHolds (s : State) : State :=
  (s.setMsu fun m => { m with holds := m.holds.filter fun h => s.nowNs < h.ends }).drainQueue

/-- ROW_RETIRE (R278): the row is served from a spare row; no contents change, and requests to it are held, in order, while
it is copied. -/
def execRowRetire (channel row spare : Nat) (s : State) : Out :=
  .next ((s.setMsu fun m =>
    { m with remaps := (channel, row, spare) :: m.remaps.filter fun x => !(x.1 == channel && x.2.1 == row) }).hold
      channel (some row))

/-- REMAP_RELOAD (R278): the table is read again from its backing copy, and the requests of the channel are held, in order,
meanwhile; when the backing copy is bad too, the channel is fenced at once, and nothing waits to be transferred there any
more. -/
def execRemapReload (channel : Nat) (backingBad : Bool) (s : State) : Out :=
  if 509 ≤ channel ∨ s.dev.msu.fenced.contains channel then .next s
  else if !backingBad then .next (s.hold channel none)
  else if !s.canReport 1 then .next s
  else
    let s := s.setMsu fun m =>
      { m with
        fenced := channel :: m.fenced, holds := m.holds.filter fun h => h.channel != channel
        queue := m.queue.filter fun a => !(channelOf a.loc == some channel) }
    .next (s.fatal 5 channel)

/-- FREE_MAP_REPAIR (R275): the map is repaired from its backing copy; when that is bad too, the skerries of the
channel count as allocated from then on. -/
def execFreeMapRepair (channel : Nat) (backingBad : Bool) (s : State) : Out :=
  if !backingBad ∨ 509 ≤ channel ∨ s.dev.msu.lostMaps.contains channel ∨ !s.canReport 1 then .next s
  else .next ((s.setMsu fun m => { m with lostMaps := channel :: m.lostMaps }).fatal 4 channel)

/-- REGISTER_POISON_KILL (R277, R296): every context of the unit that owns the lane group is killed, those in the
parked-context store among them. No instruction and no address brings it about, and R277, R316 and R318 do not say what the
PC and VA fields of its record hold: the pc of the context and 0, which is the model's choice (notes/assumptions/24.md). -/
def execRegisterPoisonKill (who : CtxNo) (s : State) : Out :=
  match s.findCtx who with
  | none => .next s
  | some c =>
    if !s.canReport 1 then .next s
    else
      let r := { c.faultRec 5 4 false 0 0 with cause := Cause.dataPoison.code }
      let s := (s.report r).setErr c.origin.job c.origin.task
      .next (s.killAll (s.holders.filter fun x => x.ofUnit c.origin.job c.origin.task c.origin.unit))

end Sys2Proof.Machine
end

