-- ==== Sys2Proof/Machine/Power.lean ====
section
/-! DEFINITION. Power, energy and health (spec/16 R337-R343): what happens at the marks of TIME. -/

namespace Sys2Proof.Machine

/-- Whether the instant `t` of TIME, in nanoseconds, has come. -/
def State.reached (s : State) (t : Nat) : Bool := t ≤ s.nowNs

/-- The next boundary of a period after the instant `t`. -/
def nextMark (period t : Nat) : Nat := (t / period + 1) * period

/-- The instants of the next arbiter interval, energy update and health update. -/
def Power.nextInterval (p : Power) : Nat := (p.lastInterval + 1) * 1000000
def Power.nextEnergy (p : Power) : Nat := (p.lastEnergy + 1) * 10000
def Power.nextHealth (p : Power) : Nat := (p.lastHealth + 1) * 3600000000000

/-- The instant of the next ramp boundary (R339, R341). -/
def Power.nextRamp (p : Power) : Nat := nextMark (p.rampcfg.toNat % 256 * 100) p.lastRamp

/-- A byte budget within its bounds (R280). -/
def budgetOk (n : Nat) : Nat := max 12800000 (min 102500000 n)

/-- The arbiter sets the split of a ring strait: the lanes that turn take effect at the instant `ends` (R329). At least one
eighth is left in each direction, so a plan of 0 changes nothing. A turn that is still draining or dead is replaced by the new
one: R245 and R329 do not say, and it is the model's choice (notes/assumptions/5.md). -/
def Strait.plan (st : Strait) (n : BitVec 3) (ends : Nat) : Strait :=
  if n = 0 ∨ (n = st.split ∧ st.turning = none) then st else { st with turning := some (n, ends) }

/-- ARBITER_INTERVAL (R338): at a millisecond the arbiter's plan sets a throttle step per isle, a byte budget per
controller and a split per ring strait, under the limit as it stands then (R337), and the requests that waited for a
budget are served (R280). Until step 10 of a start nothing is set. -/
def execArbiterInterval (plan : ArbiterPlan) (s : State) : Out :=
  let t := s.dev.power.nextInterval
  if !s.reached t then .next s
  else
    let s := s.setPower fun p => { p with lastInterval := p.lastInterval + 1 }
    if !s.dev.start.memoryActive then .next s
    else
      let s := s.setPower fun p =>
        { p with applied := p.pwrcap, steps := p.steps.mapIdx fun i a => plan.steps.getD i a }
      let s := s.setMsu fun m =>
        { m with budgets := m.budgets.mapIdx fun i _ => budgetOk (plan.budgets.getD i 102500000) }
      let s := { s with dev := { s.dev with fabric := { s.dev.fabric with
        rings := s.dev.fabric.rings.mapIdx fun i (r : Strait) =>
          r.plan (plan.ringSplits.getD i 0) (turnEnds s.tick (16 + i) t) } } }
      .next s.drainQueue

/-- The turn of a ring strait is over (R329). -/
def State.ringEffect (s : State) (ring : Nat) : State :=
  { s with dev := { s.dev with fabric := { s.dev.fabric with
      rings := s.dev.fabric.rings.modify ring fun r =>
        match r.turning with
        | some (n, t) => if s.reached t then { r with split := n, turning := none } else r
        | none => r } } }

/-- The target of an abacus (R339). -/
def State.rampTarget (s : State) (a : Nat) : Nat :=
  if s.granted a then
    (s.dev.power.steps.getD (a / 2) 7).toNat
  else 7

/-- Insert an abacus by the boundary its wait began at, ties by number (R341). -/
def insertDue (x : Nat × Nat) : List (Nat × Nat) → List (Nat × Nat)
  | [] => [x]
  | y :: ys => if x.1 < y.1 ∨ (x.1 = y.1 ∧ x.2 ≤ y.2) then x :: y :: ys else y :: insertDue x ys

/-- An abacus at the boundary at the instant `t`: its wait begins, goes on, or ends because it is due no longer (R341). -/
def Abacus.await (x : Abacus) (target t : Nat) : Abacus :=
  { x with waitSince := if x.ramp = target then none else some (x.waitSince.getD t) }

/-- One step toward the target at the boundary at the instant `t`, in effect from the next aligned window of 8 cycles
(R339). -/
def Abacus.change (x : Abacus) (target t : Nat) : Abacus :=
  let cycle := t * 19 / 10
  { x with
    before := x.stepAt cycle
    since := (cycle / 8 + 1) * 8
    ramp := if x.ramp < target then x.ramp + 1 else if target < x.ramp then x.ramp - 1 else x.ramp
    waitSince := none }

/-- RAMP_BOUNDARY (R339, R341): at a multiple of the ramp interval each due abacus steps toward its target, as many
as STAGGER allows, those first whose wait began first. -/
def execRampBoundary (s : State) : Out :=
  let t := s.dev.power.nextRamp
  if !s.reached t then .next s
  else
    let targets := (List.range s.dev.power.abaci.length).map s.rampTarget
    let waiting := (s.dev.power.abaci.zip targets).map fun x => x.1.await x.2 t
    let due := waiting.zipIdx.filterMap fun x => x.1.waitSince.map fun t => (t, x.2)
    let go := ((due.foldr insertDue []).take (s.dev.power.rampcfg.toNat / 256)).map (·.2)
    .next (s.setPower fun p =>
      { p with
        lastRamp := t
        abaci := (waiting.zip targets).mapIdx fun i x => if go.contains i then x.1.change x.2 t else x.1 })

/-! ### Energy (R340, R342) -/

/-- A 64-bit count that never decreases. -/
def addCount (w : Word) (n : Nat) : Word := BitVec.ofNat 64 (min (2 ^ 64 - 1) (w.toNat + n))

/-- What the activity model gives a launch of the cores and their SRAM (R342): of those that hosted it since the last
update. -/
def State.coreShare (s : State) (l : Nat × Nat) : Nat :=
  ((s.dev.cores.zipIdx.filter fun c => c.1.served.contains l).map fun c => Config.coreEnergy s.tick c.2 l.1 l.2).sum

/-- What it gives a launch of the abaci (R342): for the MXMs that its contexts issued. -/
def State.mxmShare (s : State) (l : Nat × Nat) : Nat :=
  ((s.dev.power.abaci.zipIdx.filter fun a => a.1.ran.contains l).map fun a => Config.mxmEnergy s.tick a.2 l.1 l.2).sum

/-- The bytes that a launch has moved since the last update. -/
def State.bytesMoved (s : State) (l : Nat × Nat) : Nat :=
  ((s.dev.msu.moved.filter fun m => (m.job, m.task) == l).map (·.bytes)).sum

/-- What it gives a launch of HBM, straits, shoals and CXL: in proportion to the bytes that it moved (R342). -/
def State.moveShare (s : State) (l : Nat × Nat) : Nat :=
  Config.moveEnergy s.tick * s.bytesMoved l / (s.dev.msu.moved.map (·.bytes)).sum

/-- What it gives a launch for the null operations that it is charged with (R340). -/
def State.nullShare (s : State) (l : Nat × Nat) : Nat :=
  ((s.dev.power.abaci.zipIdx.filter fun a => a.1.spun.contains l).map fun a => Config.nullEnergy s.tick a.2 l.1 l.2).sum

/-- What a launch is charged with at an update (R340, R342). -/
def State.launchEnergy (s : State) (l : Nat × Nat) : Nat := s.coreShare l + s.mxmShare l + s.moveShare l + s.nullShare l

/-- The launches that something is charged to at an update, those that have completed since the last one among them. -/
def State.chargedLaunches (s : State) : List (Nat × Nat) :=
  (s.dev.cores.flatMap (·.served) ++ (s.dev.power.abaci.flatMap fun a => a.ran ++ a.spun) ++
    s.dev.msu.moved.map fun m => (m.job, m.task)).eraseDups

/-- The null operations of the abaci of an isle that are charged to a launch whose job has completed: idle energy (R340). -/
def State.orphanEnergy (s : State) (isle : Nat) : Nat :=
  ((s.dev.power.abaci.zipIdx.filter fun a => a.2 / 2 == isle).flatMap fun a =>
    (a.1.spun.filter fun l => l.1 != 0 && (s.findJob l.1).isNone).map fun l => Config.nullEnergy s.tick a.2 l.1 l.2).sum

/-- What a job is charged (R340, R342): what its launches and its program are, also those that have completed; and the idle
energy of the isles of its reach. -/
def State.jobEnergy (s : State) (j : Job) : Nat :=
  ((s.chargedLaunches.filter fun l => l.1 == j.id).map s.launchEnergy).sum +
    (((List.range 16).filter fun i => j.reach.testBit i).map fun i => Config.idleEnergy s.tick i + s.orphanEnergy i).sum

/-- The launches of the MXMs that an abacus has accepted and has still to apply. -/
def State.abacusUsers (s : State) (a : Nat) : List (Nat × Nat) :=
  ((s.dev.engines.cmds.filter fun m => m.kind.isMxm && m.accepted && m.abacusNo == a).map fun m => (m.job, m.task)).eraseDups

/-- Charging begins anew: the cores still serve their hosts, and nothing has been moved. -/
def Dev.recharged (d : Dev) : Dev :=
  { d with
    cores := d.cores.map fun (c : Core) => { c with served := c.host.toList }
    msu := { d.msu with moved := [] } }

/-- Charging begins anew for an abacus: the MXMs that it still has to apply, and its null operations if it is held without
a grant. -/
def State.recharge (s : State) (a : Nat) (x : Abacus) : Abacus :=
  { x with
    spun := (if x.ramp < 7 ∧ !s.granted a then x.lastRelease.toList else [])
    ran := s.abacusUsers a }

/-- ENERGY_UPDATE (R340, R342): every 10 µs ENERGY and ENERGYJ grow together, by what the activity model gives
(notes/assumptions/14.md): each launch by the energy of the cores that hosted it, of its MXMs, of the bytes that it moved and
of the null operations that it is charged with. A job's figure covers those of its launches, and is shown in whole
millijoules. What is charged at the next update begins anew. -/
def execEnergyUpdate (s : State) : Out :=
  if !s.reached s.dev.power.nextEnergy then .next s
  else
    let s' := s.setSched fun d =>
      { d with
        tasks := d.tasks.map fun t => { t with energy := addCount t.energy (s.launchEnergy (t.job, t.id)) }
        jobs := d.jobs.map fun j =>
          let used := j.used + s.jobEnergy j
          { j with used := used, energy := addCount 0 (used / 1000) } }
    .next (({ s' with dev := s'.dev.recharged }).setPower fun p =>
      { p with lastEnergy := p.lastEnergy + 1, abaci := p.abaci.mapIdx s.recharge })

/-! ### Health (R343) -/

/-- Events per hour over the hours that are held, saturating at 255. R343 does not say how the average is rounded to the
integer field: down, which is the model's choice (notes/assumptions/14.md). -/
def hourRate (h : List Nat) : Nat := min 255 (h.sum / max 1 h.length)

/-- The lowest unit with the largest figure, and that figure. -/
def worst (figures : List Nat) : Nat × Nat :=
  figures.zipIdx.foldl (fun b h => if b.2 < h.1 then (h.2, h.1) else b) (0, 0)

/-- AGEIND (R343): the worst strait, stack and isle, ties to the lower number. -/
def ageindWord (perStrait perStack perIsle : List Nat) : Word :=
  let a := worst perStrait
  let b := worst perStack
  let c := worst perIsle
  BitVec.ofNat 64 (a.1 % 32 * 2 ^ 40 + a.2 * 2 ^ 32 + b.1 % 16 * 2 ^ 24 + b.2 * 2 ^ 16 + c.1 % 16 * 2 ^ 8 + c.2)

/-- A new hour begins. -/
def nextHour (hours : List (List Nat)) : List (List Nat) := hours.map fun h => 0 :: h.take 24

/-- The rates of an update: the hour that ends and the 23 before it. -/
def hourRates (hours : List (List Nat)) : List Nat := hours.map fun h => hourRate (h.take 24)

/-- The guardband consumed of each isle, as its ageing oscillators give it in a step. -/
def measuredGuardbands (tick : Nat) : List Nat := (List.range 16).map fun i => min 100 (Config.freeGuardband tick i)

/-- HEALTH_UPDATE (R343): once an hour. -/
def execHealthUpdate (s : State) : Out :=
  if !s.reached s.dev.power.nextHealth then .next s
  else .next (s.setPower fun p =>
    { p with
      lastHealth := p.lastHealth + 1
      guardbands := measuredGuardbands s.tick
      ageind := ageindWord (hourRates p.straitRetries) (hourRates p.stackErrors) (measuredGuardbands s.tick)
      eolmonths := (Config.freeEolmonths s.tick) &&& 0xFFFF
      straitRetries := nextHour p.straitRetries, stackErrors := nextHour p.stackErrors })

/-- STRAIT_LANE_RETRY (R343). -/
def execStraitLaneRetry (strait : Nat) (s : State) : Out :=
  .next (s.setPower fun p => { p with straitRetries := countHour p.straitRetries strait })

end Sys2Proof.Machine
end

