-- ==== Sys2Proof/Machine/HostLink.lean ====
section
/-! DEFINITION. The fabric's headers and responses, and what the host, peers and the board do to the device (spec/15
R320-R336, spec/17 R349, R352). -/

namespace Sys2Proof.Machine

def State.setFabric (s : State) (f : Fabric → Fabric) : State := { s with dev := { s.dev with fabric := f s.dev.fabric } }

def State.setHost (s : State) (f : HostSide → HostSide) : State := { s with dev := { s.dev with host := f s.dev.host } }

/-- A slot is returned to who sent a header; a header that waits for one takes it (R323, R324). -/
def State.slotBack (s : State) : HeaderSource → State
  | .context who =>
    match s.findCtx who with
    | none => s
    | some c =>
      let free := fun c : Ctx => { c with flow := { c.flow with slots := c.flow.slots - 1, owed := [] } }
      let s := s.onCtx who fun x => (free x).issueHeaders c.flow.owed
      { s with dev := s.dev.takeHeaders (free c) c.flow.owed }
  | .streamer core =>
    let st := s.dev.fabric.streamers.getD core ⟨0, []⟩
    let s := s.setFabric fun f => { f with streamers := f.streamers.set core ⟨st.slots - 1, []⟩ }
    { s with dev := s.dev.stream (BitVec.ofNat 4 (core / 8)) core st.owed }

/-- HEADER_FORWARD (R323): the oldest header of a queue at the port of an isle goes on, and its request slot is
returned. Headers for other destinations do not wait for it. -/
def execHeaderForward (queue : HeaderQueue) (s : State) : Out :=
  match s.dev.fabric.headers.find? fun h => h.isle == queue.isle && h.packet.dest == queue.dest with
  | none => .next s
  | some h => .next ((s.setFabric fun f => { f with headers := f.headers.erase h }).slotBack h.src)

/-- RESPONSE_LANDING (R324): its effect stands since the access was performed (notes/assumptions/9.md). -/
def execResponseLanding (who : CtxNo) (s : State) : Out :=
  .next (s.setFabric fun f => { f with responses := f.responses.erase who })

/-- DEVID and MEMINFO (R331). -/
def devid : Word := BitVec.ofNat 64 (0x9160 * 2 ^ 16 + Config.revision.toNat * 2 ^ 8)

def Dev.meminfo (d : Dev) : Word :=
  BitVec.ofNat 64 (d.host.clsCode.toNat * 2 ^ 32 + d.msu.fenced.length % 2 ^ 16 * 2 ^ 16 + 1024)

/-- PORTSTAT of a port (R331). -/
def Port.stat (p : Port) : Word := BitVec.ofNat 64 (p.cap.toNat * 2 ^ 8 + p.up.toNat * 2 ^ 3 + p.mode.toNat)

/-- The register of the register space at an offset (R331). -/
def Dev.hostRegister (d : Dev) (off : Nat) : Word :=
  if off = 0x000 then devid
  else if off = 0x008 then d.meminfo
  else if off = 0x010 then d.host.jevstat
  else if 0x020 ≤ off ∧ off < 0x040 ∧ off % 8 = 0 then (d.host.ports.getD ((off - 0x020) / 8) ⟨0, false, 0⟩).stat
  else if 0x040 ≤ off ∧ off < 0x060 ∧ off % 8 = 0 then d.host.peerbase.getD ((off - 0x040) / 8) 0
  else 0

/-- The bytes of the register space from an offset on. -/
def Dev.hostBytes (d : Dev) (off n : Nat) : List Byte :=
  (List.range n).map fun i => BitVec.ofNat 8 ((d.hostRegister ((off + i) / 8 * 8)).toNat / 256 ^ ((off + i) % 8))

/-- A write of JEVSTAT (R331): the bits written as 1 are cleared. -/
def HostSide.clearEvents (h : HostSide) (v : Word) : HostSide := { h with jevstat := h.jevstat &&& ~~~v }

/-- A write of PEERBASE (R331): BASE in 51:40, EN in 0. -/
def HostSide.setPeerbase (h : HostSide) (port : Nat) (v : Word) : HostSide :=
  { h with peerbase := h.peerbase.set port (v &&& 0x000FFF0000000001) }

/-- A write of an aligned word of the register space: what cannot be written ignores it (R331). -/
def HostSide.writeRegister (h : HostSide) (off : Nat) (v : Word) : HostSide :=
  if off = 0x010 then h.clearEvents v
  else if 0x040 ≤ off ∧ off < 0x060 ∧ off % 8 = 0 then h.setPeerbase ((off - 0x040) / 8) v
  else h

/-- A request from outside is completed (R333, R349). -/
def State.complete (s : State) (c : Completion) : State := s.setHost fun h => { h with completion := some c }

/-- A CXL.mem access to the exposed interleaved region (R333): a write takes its place in coherence order, and a read
returns the bytes. Before step 10 of a start, and outside the region, it completes as an unsupported request (R349). -/
def State.exposed (s : State) (req : OutsideAccess) : State :=
  let n := req.data.length
  if !s.dev.start.memoryActive ∨ n = 0 ∨ 2 ^ 52 ≤ req.addr + n ∨ !s.dev.inRange (req.addr + (n - 1)) then
    s.complete .unsupported
  else if req.write then (s.perform 0 0 (rawPuts req.addr req.data)).complete .done
  else (s.readTraffic [(req.addr, n)]).complete (.data (s.mem.bytes req.addr n) (s.poisoned req.addr n))

/-- HOST_MEM_REQUEST (R331, R333, R334, R349): an access of the host to the exposed region; a write of the host to its own
memory, which the device reads as kind 11; or an access over CXL.io to the register space. R331 gives no width of an access
to the registers: a read gives the bytes it names, and a write takes effect where it is one of 8 bytes at the offset of a
register and is ignored otherwise, which is the model's choice (notes/assumptions/17.md). -/
def execHostMemRequest (req : OutsideAccess) (s : State) : Out :=
  .next <| match req.space with
    | .hbm => s.exposed req
    | .host =>
      if req.write ∧ req.addr + req.data.length ≤ 2 ^ 52 then s.store 0 0 (rawPuts (3 * 2 ^ 52 + req.addr) req.data)
      else s
    | .registers =>
      if !req.write then s.complete (.data (s.dev.hostBytes req.addr req.data.length) false)
      else if req.data.length = 8 then
        s.setHost fun h => h.writeRegister req.addr (BitVec.ofNat 64 (leNat req.data))
      else s

/-- PEER_MEM_REQUEST (R336): through a port in peer mode whose link trained, to the exposed region. -/
def execPeerMemRequest (port : BitVec 2) (req : OutsideAccess) (s : State) : Out :=
  let p := s.dev.host.ports.getD port.toNat ⟨0, false, 0⟩
  .next (if p.mode = 2 ∧ p.up ∧ req.space = .hbm then s.exposed req else s)

/-- JEVSTAT_WRITE (R331): the bits written as 1 are cleared. -/
def execJevstatWrite (value : BitVec 64) (s : State) : Out := .next (s.setHost fun h => h.clearEvents value)

/-- PEERBASE_WRITE (R331). -/
def execPeerbaseWrite (port : BitVec 2) (value : BitVec 64) (s : State) : Out :=
  .next (s.setHost fun h => h.setPeerbase port.toNat value)

/-- A response stands in the DOE mailbox, with the device's signature or without, and vector 2 is raised (R332). -/
def State.respond (s : State) (r : List (BitVec 384)) (signature : Option (BitVec 768)) : State :=
  let s := s.setHost fun h => { h with doeResponse := some r, doeSignature := signature }
  { s with dev := s.dev.msix 2 }

/-- The number of a cause in a failure report. Its layout is the model's own (notes/assumptions/18.md). -/
def causeNumber : StartCause → Nat
  | .lmsKey => 1
  | .lmsLeaf => 2
  | .lmsSignature => 3
  | .ecdsaKey => 4
  | .ecdsaSignature => 5
  | .timeout => 6
  | .hardware n => 7 + n

/-- A failure report as a response: the step and the cause (R348). -/
def FailureReport.words (r : FailureReport) : List (BitVec 384) :=
  [BitVec.ofNat 384 r.step, BitVec.ofNat 384 (causeNumber r.cause)]

/-- DOE_REQUEST (R330, R346, R348): an SPDM measurement is answered from the attestation log, with the device's signature;
one of an index that R346 does not list, of which R330 and R346 do not speak, by a signed response without a measurement,
which is the model's choice (notes/assumptions/17.md); a piece of firmware is acknowledged, with the report of the last failed start. -/
def execDoeRequest (req : DoeRequest) (s : State) : Out :=
  .next <| match req with
    | .spdm index =>
      let r := (s.dev.start.log[index]?).toList
      s.respond r (some (Config.spdmSignature r))
    | .firmware => s.respond ((s.dev.start.report.map FailureReport.words).getD []) none

/-- MSIX_TABLE_WRITE (R332): unmasking an entry delivers the vector that is pending. -/
def execMsixTableWrite (vector : BitVec 2) (masked : Bool) (s : State) : Out :=
  let v := vector.toNat
  let s := s.setHost fun h => { h with masked := h.masked.set v masked }
  .next (if !masked ∧ s.dev.host.pending.getD v false then
      s.setHost fun h => { h with pending := h.pending.set v false, raised := h.raised.modify v (· + 1) }
    else s)

/-- The health telemetry (R343, R352), its rates as the last hourly update found them. -/
def State.telemetry (s : State) : Telemetry where
  guardbands := s.dev.power.guardbands
  straitRates := s.dev.power.straitRetries.map fun h => hourRate h.tail
  stackRates := s.dev.power.stackErrors.map fun h => hourRate h.tail
  failed := s.dev.start.failed
  report := s.dev.start.report
  temperatures := (List.range Config.sensors).map (Config.freeTemperature s.tick)

/-- SIDEBAND_READ (R352): the telemetry is read; nothing else changes. -/
def execSidebandRead (s : State) : Out :=
  .next { s with dev := { s.dev with start := { s.dev.start with
    sidebandReads := s.dev.start.sidebandReads + 1, telemetry := some s.telemetry } } }

/-- BIST_REQUEST (R347): for the next warm start. -/
def execBistRequest (s : State) : Out :=
  .next { s with dev := { s.dev with start := { s.dev.start with bist := true } } }

end Sys2Proof.Machine
end

