-- ==== Sys2Proof/Machine/Start.lean ====
section
/-! DEFINITION. Cold and warm start (spec/17 R344-R351). -/

namespace Sys2Proof.Machine

/-- The kinds of start: a cold start, a warm start, and the warm start from step 4 that a pushed image begins. -/
inductive StartKind | cold | warm | push
deriving DecidableEq, Repr

/-- Whether the checks that let step 6 be skipped pass (R347): the retained coefficients of every stack and the test
pattern of each channel. -/
def hbmRetained (found : StartFindings) : Bool :=
  (List.range 16).all (fun i => found.coefficients.getD i false) && (List.range 512).all fun i => found.patterns.getD i false

/-- Whether the retained lane map of every isle, ring and port strait passes its check (R347). -/
def lanesRetained (found : StartFindings) : Bool := (List.range 24).all fun i => found.laneMaps.getD i false

/-- HBM is trained (R347). -/
def StartKind.trains (k : StartKind) (found : StartFindings) : Bool := k == .cold || !hbmRetained found

/-- Whether a start performs a step (R344, R347, R348); step 7 for the straits whose lane maps fail their checks. -/
def State.performs (s : State) (k : StartKind) (found : StartFindings) (step : Nat) : Bool :=
  if step ≤ 3 then k != .push
  else if step = 6 then k.trains found
  else if step = 7 then k == .cold || !lanesRetained found
  else if step = 8 then k == .cold || s.dev.start.bist
  else true

/-- The fuse values that a start goes by: read in step 1 (R344), which a pushed image does not perform. -/
def State.fusesFor (s : State) (k : StartKind) (found : StartFindings) : Fuses :=
  if k = .push then s.dev.start.fuses else found.fuses

/-- Bytes behind their number, in eight bytes. -/
def counted (bs : List Byte) : List Byte := leBytes 8 bs.length ++ bs

/-- The body of an image, over which it is signed (R345): the header values, the program, and what else the body holds. R345
and R350 give no layout of it; this one is the model's own (notes/assumptions/18.md). -/
def imageBody (img : FirmwareImage) : List Byte :=
  ([img.entry, img.ptbase, img.part, img.param].flatMap fun v => leBytes 8 v.toNat) ++
    leBytes 8 img.program.length ++ (img.program.flatMap fun p => leBytes 8 p.1 ++ [p.2]) ++ counted img.rest

/-- An image whole, as it is measured (R346): the body, the keys and the signatures. -/
def imageBytes (img : FirmwareImage) : List Byte :=
  counted (imageBody img) ++ counted img.lmsKey ++ counted img.lmsSignature ++ counted img.ecdsaKey ++ counted img.ecdsaSignature

/-- The fuse values as they are measured (R346). -/
def fuseBytes (f : Fuses) : List Byte :=
  beBytes 48 f.lmsHash.toNat ++ beBytes 48 f.ecdsaHash.toNat ++ beBytes 48 f.values.toNat ++
    f.usedLeaves.flatMap fun q => beBytes 4 q

/-- Why an image is refused (R345): the LMS signature is checked first and the ECDSA signature second, each with a key
that matches its fused hash, and the leaf of the LMS signature must not be one that was used. -/
def refusalOf (f : Fuses) (img : FirmwareImage) : Option StartCause :=
  let digest := sha384 (imageBody img)
  if sha384 img.lmsKey ≠ f.lmsHash then some .lmsKey
  else if lmsLeaf img.lmsSignature ∈ f.usedLeaves then some .lmsLeaf
  else if !lmsVerifies img.lmsKey (beBytes 48 digest.toNat) img.lmsSignature then some .lmsSignature
  else if sha384 img.ecdsaKey ≠ f.ecdsaHash then some .ecdsaKey
  else if !ecdsaVerifies img.ecdsaKey digest img.ecdsaSignature then some .ecdsaSignature
  else none

/-- Why a step of a start fails, if it fails. -/
def State.stepFails (s : State) (k : StartKind) (img : FirmwareImage) (found : StartFindings) (n : Nat) :
    Option FailureReport :=
  if !s.performs k found n then none
  else
    match if n = 4 then refusalOf (s.fusesFor k found) img else none with
    | some c => some ⟨n, c⟩
    | none => found.failedStep.bind fun f => if f.1 = n then some ⟨n, f.2⟩ else none

/-- The step at which a start fails and the cause, if it fails. -/
def State.failsAt (s : State) (k : StartKind) (img : FirmwareImage) (found : StartFindings) : Option FailureReport :=
  [1, 2, 3, 4, 5, 6, 7, 8, 9].findSome? (s.stepFails k img found)

/-- The attestation log as a start rewrites it (R346): the boot ROM and fuse values; the accepted image; and the kind of
start in bit 0 (1 for warm) with a bit for each of the steps 6, 7 and 8 that it skipped. -/
def State.newLog (s : State) (k : StartKind) (img : FirmwareImage) (found : StartFindings) : List (BitVec 384) :=
  let f := s.fusesFor k found
  let skipped := [6, 7, 8].foldl (fun w n => if s.performs k found n then w else w + 2 ^ n) 0
  [sha384 (Config.bootRom ++ fuseBytes f), sha384 (imageBytes img),
    BitVec.ofNat 384 (skipped + if k = .cold then 0 else 1)]

/-- What a port becomes from its partner (R335): a tier's capacity is held to 2 TiB. -/
def portOf : PortPartner → Port
  | .none => ⟨0, false, 0⟩
  | .tier units => ⟨1, true, if 2 ^ 29 < units.toNat then BitVec.ofNat 40 (2 ^ 29) else units⟩
  | .peer => ⟨2, true, 0⟩
  | .other up => ⟨0, up, 0⟩

/-- Memory after the steps of a start before step `upto`, and the failure of that step (R347): the scratchpads are undefined;
kinds 00 and 01 are undefined once HBM training has begun, and else kept; elision bits are clear after a cold start (R271)
and where HBM was trained. Tier and host memory are not the device's. -/
def State.memAfter (s : State) (k : StartKind) (found : StartFindings) (upto : Nat) : Memory :=
  let m := s.mem.forget spadBase (spadLoc 128 0) s.tick
  let m := if k = .cold then { m with elided := [] } else m
  if k.trains found ∧ 6 ≤ upto then m.forget 0 (2 * 2 ^ 52) s.tick else m

/-- The device after the steps of a start before step `upto` (R347): every control register at its reset value, and what
is kept. Every skerry is free on every start, those of a lost free map (R275) among them: R275 does not say how long a
map stays lost (notes/assumptions/26.md). -/
def State.devAfter (s : State) (k : StartKind) (found : StartFindings) (part : Word) (upto : Nat) : Dev :=
  let old := s.dev
  let cls := if k.trains found ∧ 6 < upto then found.clsCode else old.host.clsCode
  let ports := if k = .cold ∧ 7 < upto then (List.range 4).map fun p => portOf (found.ports.getD p .none)
    else old.host.ports
  let d := Dev.started cls ports part
  { d with
    localTables := old.localTables
    clock := if k = .cold then ⟨0, 0⟩ else ⟨old.clock.cycles, old.clock.cycles⟩
    msu := { d.msu with
      remaps := old.msu.remaps
      fenced := if k = .cold then [] else old.msu.fenced }
    power :=
      if k = .cold then d.power
      else
        { d.power with
          ageind := old.power.ageind, eolmonths := old.power.eolmonths, guardbands := old.power.guardbands
          straitRetries := old.power.straitRetries, stackErrors := old.power.stackErrors
          lastInterval := s.nowNs / 1000000, lastRamp := s.nowNs, lastEnergy := s.nowNs / 10000
          lastHealth := s.nowNs / 3600000000000 }
    start := { old.start with bist := false, fuses := s.fusesFor k found } }

/-- A start fails (R348): the count of failed starts grows, at 3 the device waits for a pushed image, and
the report is the response in the DOE mailbox. Every context, job and command has ended. -/
def State.startFails (s : State) (d : Dev) (r : FailureReport) : State :=
  let n := d.start.failed + 1
  let d := { d with
    cores := List.replicate 128 .idle
    start := { d.start with failed := n, report := some r, awaitingPush := decide (3 ≤ n), memoryActive := false } }
  ({ s with
    ctx := { s.ctx with flow := { Flow.initial 0 0 s.mem.past.length with status := .ended } }
    others := []
    dev := d }).respond r.words none

/-- The program image of the firmware, placed in device memory (R350). -/
def imagePuts (img : FirmwareImage) : List Put :=
  (img.program.filter fun p => p.1 < 2 * 2 ^ 52).map fun p => ⟨p.1, 0, p.2, false, false⟩

/-- Run a start (R344): through step 10, or up to the step that fails. Bits 1:0 of the pc are
zero (R11), and PTBASE has bits 51:12 (R37). -/
def State.start (s : State) (k : StartKind) (img : FirmwareImage) (found : StartFindings) : State :=
  let log := s.newLog k img found
  match s.failsAt k img found with
  | some r =>
    let d := s.devAfter k found img.part r.step
    let d := if 6 ≤ r.step then { d with start := { d.start with log := log } } else d
    { s with mem := s.memAfter k found r.step }.startFails d r
  | none =>
    let d := s.devAfter k found img.part 10
    let m := (({ s with mem := s.memAfter k found 10, dev := d } : State).store 0 0 (imagePuts img)).mem
    let c := Ctx.control (img.entry.setWidth 56 &&& ~~~3#56) (img.ptbase &&& 0x000FFFFFFFFFF000) img.part img.param
      m.past.length
    { s with
      ctx := { c with vec := { c.vec with vecs := Vector.ofFn fun i => .undefined s.tick i.val } }
      others := []
      mem := m
      dev := { d with start := { d.start with
        failed := 0, awaitingPush := false, memoryActive := true, log := log } } }

/-- COLD_START (R344). -/
def execColdStart (img : FirmwareImage) (found : StartFindings) (s : State) : Out := .next (s.start .cold img found)

/-- WARM_START (R347): one that the host brings about, or an attempt of the device's own (`StartFindings.own`), of which
none is made while it waits for a pushed image (R348). -/
def execWarmStart (img : FirmwareImage) (found : StartFindings) (s : State) : Out :=
  .next (if found.own ∧ s.dev.start.awaitingPush then s else s.start .warm img found)

/-- FIRMWARE_PUSH (R348): a pushed image begins a warm start from step 4 when the device waits for one. -/
def execFirmwarePush (img : FirmwareImage) (found : StartFindings) (s : State) : Out :=
  .next (if s.dev.start.awaitingPush then s.start .push img found else s)

/-- FIRMWARE_FETCH_TIMEOUT (R344): a warm start of the device's own in which the image does not arrive within 10 s fails at
step 3; none is under way while the device waits for a pushed image (R348). A cold start, and a warm start that the host
brings about, that times out is a COLD_START or a WARM_START that finds so at step 3 (`StartFindings.failedStep`,
notes/assumptions/18.md). -/
def execFirmwareFetchTimeout (s : State) : Out :=
  let found : StartFindings := ⟨none, s.dev.start.fuses, s.dev.host.clsCode, [], [], [], [], true⟩
  if s.dev.start.awaitingPush then .next s
  else .next ({ s with mem := s.memAfter .warm found 3 }.startFails (s.devAfter .warm found 0 3) ⟨3, .timeout⟩)

end Sys2Proof.Machine
end

