-- ==== Sys2Proof/Machine/Issue.lean ====
section
/-! DEFINITION. The issue of a context's next instruction (spec/01 R26-R33, spec/10 R229), the end of a step, and the
placing of an instruction where the next step fetches it. -/

namespace Sys2Proof.Machine

/-- What a turn comes to: an event runs at a state; the instruction that a context has fetched runs at a state, and `stay`
is what is left where it waits behind the vector queue; the turn is over with an outcome; a mark of TIME has come about,
which takes no time; or there is no such turn. -/
inductive Ready
  | run (i : Instr) (s : State)
  | front (i : Instr) (s stay : State)
  | over (o : Out)
  | mark (o : Out)
  | absent

/-- VCOUNT, the tags and VL of program order after the push of an instruction (R112, R116, R118). -/
def Ctx.frontAfter (c : Ctx) : Instr → Front × Nat
  | .vcfg _ code => (.configured (8 * 2 ^ code.toNat), 0)
  | .vtag vd anchor typ =>
    let f := c.front.retag vd (anchor ++ typ)
    (f, min c.vec.vl (c.vlmaxFor f))
  | _ => (c.front, c.vec.vl)

/-- The entries of the undo log that a push makes: one for a VCFG or VTAG that is pushed ahead of the vector commit pointer
(R112). -/
def Flow.pushUndo (f : Flow) (i : Instr) : Nat :=
  match i with
  | .vcfg .. | .vtag .. => if f.queue = [] then 0 else 1
  | _ => 0

/-- The bytes of a queued instruction (R44). -/
def queuedBytes (i : Instr) : Nat := if engineCommand i then 8 else 4

/-- The instruction at the pc is pushed into the vector queue, with the state of program order (R26, R112), and the scalar
thread goes on behind it. -/
def State.push (s : State) (i : Instr) : State :=
  let c := s.ctx
  let q : Queued := ⟨i, c.pc, c.flow.ir, c.regs, c.vec.vl, c.vec.mspace, c.front, c.flow.pushUndo i, none⟩
  let after := c.frontAfter i
  let c := { c with
    front := after.1
    vec := { c.vec with vl := after.2 }
    flow := { c.flow with queue := c.flow.queue ++ [q] } }
  { s with ctx := c }.retire (queuedBytes i)

/-- One more entry of the undo log, made behind the youngest instruction of the queue (R29). -/
def countUndo : List Queued → List Queued
  | [] => []
  | [q] => [{ q with undo := q.undo + 1 }]
  | q :: qs => q :: countUndo qs

/-- Whether the store buffer has room for one more of 32 entries (R29). -/
def Flow.storeRoom (f : Flow) : Bool := f.storeBuf.length < 32

/-- Whether an instruction waits for what the vector queue has still to give: a scalar register that it names (R30), or the
VL of a first-fault load, behind which nothing is pushed and no SETVL executes (R174). -/
def Flow.holds (f : Flow) (i : Instr) : Bool :=
  (scalarClass i && (scalarsOf i).any (pendingRegs f.queue).contains) ||
    (f.queue.any fun q => firstFaultLoad q.instr) &&
      match i with
      | .setvl .. => true
      | _ => pushed i

/-- The instruction is fetched: its translations are used, its words are read at their MSUs and stand for TINSTR (R276,
R301, R312). -/
def State.fetched (s : State) (ir : Word) (hits : List Hit) : State :=
  hits.foldl (fun s h => (s.touch .fetch h).readTraffic [(h.loc, 4)]) (s.setFlow fun f => { f with ir := ir })

/-- The instruction `i` at the pc is about to run: ahead of the vector commit pointer, as everything does behind the vector
queue, or at it with every earlier store released (R29), as where the store buffer is full, since scalar issue stalls until
an entry is freed; the lane group that executes it holds VCOUNT as in program order (R112, R305). -/
def State.begin (s : State) (i : Instr) (ahead : Bool) : State :=
  if (ahead && scalarClass i && s.ctx.flow.storeRoom) || s.ctx.flow.queue != [] then
    s.setFlow fun f => { f with ahead := true, handlerFirst := false }
  else
    let s := s.toPointer
    if pushed i then { s with ctx := s.ctx.adopt s.tick } else s

/-- A trap or a stop of a fetch: behind the vector queue it is held until the vector commit pointer reaches it, without a
trace (R32). -/
def State.atPointer (s : State) (o : Out) : Ready := .over (if s.ctx.flow.queue = [] then o else .next s)

/-- The context that moves issues its next instruction. -/
def State.issueHere (s : State) (ahead : Bool) : Ready :=
  let (f, ir, hits) := s.fetch s.ctx
  let s' := s.fetched ir hits
  match f with
  | .ok i _ => .front i (s'.begin i ahead) s
  | .illegal w => s.atPointer (execUnassignedEncoding w s')
  | .pool va => s.atPointer (execPoolBlockFetch va s')
  | .stop e va => s.atPointer (.next (s'.fetchTrap e (va.zeroExtend 64)))

/-- Whether a context can issue: it runs, or waits at an instruction that it executes again (R33). -/
def Ctx.issues (c : Ctx) : Bool := c.flow.status == .running || c.flow.status == .waiting

/-- Whether a context holds after a YIELD (R229): some other context of its core that is ready to issue has not issued
since, and 16 cycles have not passed. -/
def State.yieldHolds (s : State) (c : Ctx) : Bool :=
  match c.flow.yield with
  | none => false
  | some (t, who) =>
    decide (s.dev.clock.cycles < t) && s.contexts.any fun x =>
      x.flow.status == .running && x.place.coreNo == c.place.coreNo && who.contains x.num

/-- The context that moves issues: it holds no longer, and no other waits for it to have issued (R229); it waits anew for its
next turn (R297). -/
def State.issued (s : State) : State :=
  { s.setFlow fun f => { f with yield := none, eligible := none } with
    others := s.others.map fun c =>
      { c with flow := { c.flow with yield := c.flow.yield.map fun y => (y.1, y.2.filter (· != s.ctx.num)) } } }

/-- The context numbered `who` issues its next instruction, if it can; a trap that it has to take comes first (R289,
R295). -/
def State.issue (s : State) (who : CtxNo) (ahead : Bool) : Ready :=
  match s.focus who with
  | none => .absent
  | some s' =>
    match s'.summons who with
    | some o => .over o
    | none => if s'.ctx.issues && !s'.yieldHolds s'.ctx then s'.issued.issueHere ahead else .over (.next s)

/-! ### The end of a step -/

/-- Contexts that have ended leave the machine; while another is left, one that lives moves. -/
def State.tidy (s : State) : State :=
  let rest := s.others.filter Ctx.live
  match s.ctx.live, rest with
  | false, c :: cs => { s with ctx := c, others := cs }
  | _, _ => { s with others := rest }

/-- The step is over, and took no time. -/
def State.markDone (s : State) : State := { s with tick := s.tick + 1 }

/-! ### Placing an instruction where the next step fetches it -/

/-- Five tables one behind the other, and behind them the page, that map the page of an address for fetch (R310,
R311). -/
def fetchEntries (table va : Nat) (user : Bool) : List (Nat × Nat) :=
  let at' := fun (k shift n : Nat) => table + 4096 * k + 8 * (va / 2 ^ shift % n)
  let target := fun k : Nat => table % 2 ^ 52 + 4096 * k + table / 2 ^ 52 * 2 ^ 10
  [(at' 0 48 256, target 1 + 1), (at' 1 39 512, target 2 + 1), (at' 2 30 512, target 3 + 1), (at' 3 21 512, target 4 + 1),
    (at' 4 12 512, target 5 + 0x113 + if user then 0x20 else 0)]

/-- An instruction of at most two words placed at the pc of the context that moves, and mapped for its fetch: no trap and
no other context comes before it. -/
def State.placeWords (s : State) (v : Nat) : State :=
  let c := s.ctx
  let table := s.dev.rootTable c.flow.fetchPtbase
  let code := table + 5 * 4096 + c.pc.toNat % 4096
  let entries := (fetchEntries table c.pc.toNat c.user).flatMap fun e => rawPuts e.1 (leBytes 8 e.2)
  let m := s.mem.store (entries ++ rawPuts code (leBytes 8 v))
  let m := { m with poison := m.poison.filter fun u => !(table ≤ u && u < table + 6 * 4096) }
  let now := s.dev.clock.cycles
  { s with
    ctx := { c with flow := { c.flow with
      status := .running, yield := none, queue := [], engine := none, cancelPending := false, preemptPending := false
      eligible := some now, since := m.past.length } }
    others := s.others.map fun x => { x with flow := { x.flow with eligible := some (now + 1) } }
    mem := m
    dev := { s.dev with tlb := s.dev.tlb.filter fun e => !e.holder.serves c.place.coreNo } }

/-- No mark of TIME is still to come about before the next turn. -/
def State.quiet (s : State) : State :=
  let now := s.nowNs
  let calm := fun st : Strait =>
    { st with
      turning := st.turning.filter fun x => now < x.2
      request := if st.honourAt now ≤ now then none else st.request }
  { s with dev := { s.dev with
      ring := { s.dev.ring with polled := max s.dev.ring.polled now }
      msu := { s.dev.msu with holds := s.dev.msu.holds.filter fun h => now < h.ends }
      power := { s.dev.power with
        lastInterval := max s.dev.power.lastInterval (now / 1000000), lastRamp := max s.dev.power.lastRamp now
        lastEnergy := max s.dev.power.lastEnergy (now / 10000)
        lastHealth := max s.dev.power.lastHealth (now / 3600000000000) }
      fabric := { s.dev.fabric with straits := s.dev.fabric.straits.map calm, rings := s.dev.fabric.rings.map calm } } }

end Sys2Proof.Machine
end

