-- ==== Sys2Proof/Machine/Dispatch.lean ====
section
/-! DEFINITION. The meaning of each instruction. -/

namespace Sys2Proof.Machine

def exec (i : Instr) (s : State) : Host.Outcome State Fault Refusal :=
  match i with
  | .add rd ra rb => Sys2Proof.Machine.execAdd rd ra rb s
  | .sub rd ra rb => Sys2Proof.Machine.execSub rd ra rb s
  | .and rd ra rb => Sys2Proof.Machine.execAnd rd ra rb s
  | .or rd ra rb => Sys2Proof.Machine.execOr rd ra rb s
  | .xor rd ra rb => Sys2Proof.Machine.execXor rd ra rb s
  | .sll rd ra rb => Sys2Proof.Machine.execSll rd ra rb s
  | .srl rd ra rb => Sys2Proof.Machine.execSrl rd ra rb s
  | .sra rd ra rb => Sys2Proof.Machine.execSra rd ra rb s
  | .slt rd ra rb => Sys2Proof.Machine.execSlt rd ra rb s
  | .sltn rd ra rb => Sys2Proof.Machine.execSltn rd ra rb s
  | .min rd ra rb => Sys2Proof.Machine.execMin rd ra rb s
  | .max rd ra rb => Sys2Proof.Machine.execMax rd ra rb s
  | .minn rd ra rb => Sys2Proof.Machine.execMinn rd ra rb s
  | .maxn rd ra rb => Sys2Proof.Machine.execMaxn rd ra rb s
  | .mul rd ra rb => Sys2Proof.Machine.execMul rd ra rb s
  | .mulh rd ra rb => Sys2Proof.Machine.execMulh rd ra rb s
  | .mulhn rd ra rb => Sys2Proof.Machine.execMulhn rd ra rb s
  | .div rd ra rb => Sys2Proof.Machine.execDiv rd ra rb s
  | .divn rd ra rb => Sys2Proof.Machine.execDivn rd ra rb s
  | .rem rd ra rb => Sys2Proof.Machine.execRem rd ra rb s
  | .remn rd ra rb => Sys2Proof.Machine.execRemn rd ra rb s
  | .clz rd ra => Sys2Proof.Machine.execClz rd ra s
  | .popc rd ra => Sys2Proof.Machine.execPopc rd ra s
  | .andn rd ra rb => Sys2Proof.Machine.execAndn rd ra rb s
  | .addi rd ra imm => Sys2Proof.Machine.execAddi rd ra imm s
  | .andi rd ra imm => Sys2Proof.Machine.execAndi rd ra imm s
  | .ori rd ra imm => Sys2Proof.Machine.execOri rd ra imm s
  | .xori rd ra imm => Sys2Proof.Machine.execXori rd ra imm s
  | .slti rd ra imm => Sys2Proof.Machine.execSlti rd ra imm s
  | .slli rd ra amount => Sys2Proof.Machine.execSlli rd ra amount s
  | .srli rd ra amount => Sys2Proof.Machine.execSrli rd ra amount s
  | .srai rd ra amount => Sys2Proof.Machine.execSrai rd ra amount s
  | .li rd imm => Sys2Proof.Machine.execLi rd imm s
  | .liHi rd ra imm => Sys2Proof.Machine.execLiHi rd ra imm s
  | .lds rd ra sz st off => Sys2Proof.Machine.execLds rd ra sz st off s
  | .sts rs ra sz st off => Sys2Proof.Machine.execSts rs ra sz st off s
  | .ldsa rd ra sz scope off => Sys2Proof.Machine.execLdsa rd ra sz scope off s
  | .stsl rs ra sz scope off => Sys2Proof.Machine.execStsl rs ra sz scope off s
  | .amoAdd rd ra rb scope size64 order => Sys2Proof.Machine.execAmoAdd rd ra rb scope size64 order s
  | .amoAnd rd ra rb scope size64 order => Sys2Proof.Machine.execAmoAnd rd ra rb scope size64 order s
  | .amoOr rd ra rb scope size64 order => Sys2Proof.Machine.execAmoOr rd ra rb scope size64 order s
  | .amoXor rd ra rb scope size64 order => Sys2Proof.Machine.execAmoXor rd ra rb scope size64 order s
  | .amoMin rd ra rb scope size64 order => Sys2Proof.Machine.execAmoMin rd ra rb scope size64 order s
  | .amoMax rd ra rb scope size64 order => Sys2Proof.Machine.execAmoMax rd ra rb scope size64 order s
  | .amoMinn rd ra rb scope size64 order => Sys2Proof.Machine.execAmoMinn rd ra rb scope size64 order s
  | .amoMaxn rd ra rb scope size64 order => Sys2Proof.Machine.execAmoMaxn rd ra rb scope size64 order s
  | .amoSwap rd ra rb scope size64 order => Sys2Proof.Machine.execAmoSwap rd ra rb scope size64 order s
  | .amoCas rd ra rb scope size64 order => Sys2Proof.Machine.execAmoCas rd ra rb scope size64 order s
  | .amoFadd rd ra rb scope order => Sys2Proof.Machine.execAmoFadd rd ra rb scope order s
  | .beq ra rb off => Sys2Proof.Machine.execBeq ra rb off s
  | .bne ra rb off => Sys2Proof.Machine.execBne ra rb off s
  | .blt ra rb off => Sys2Proof.Machine.execBlt ra rb off s
  | .bge ra rb off => Sys2Proof.Machine.execBge ra rb off s
  | .bltn ra rb off => Sys2Proof.Machine.execBltn ra rb off s
  | .bgen ra rb off => Sys2Proof.Machine.execBgen ra rb off s
  | .jal off => Sys2Proof.Machine.execJal off s
  | .jalr rd ra imm => Sys2Proof.Machine.execJalr rd ra imm s
  | .fadds rd ra rb => Sys2Proof.Machine.execFadds rd ra rb s
  | .fsubs rd ra rb => Sys2Proof.Machine.execFsubs rd ra rb s
  | .fmuls rd ra rb => Sys2Proof.Machine.execFmuls rd ra rb s
  | .fdivs rd ra rb => Sys2Proof.Machine.execFdivs rd ra rb s
  | .fmins rd ra rb => Sys2Proof.Machine.execFmins rd ra rb s
  | .fmaxs rd ra rb => Sys2Proof.Machine.execFmaxs rd ra rb s
  | .ffmas rd ra rb => Sys2Proof.Machine.execFfmas rd ra rb s
  | .fsqrts rd ra => Sys2Proof.Machine.execFsqrts rd ra s
  | .fcvtsi rd ra => Sys2Proof.Machine.execFcvtsi rd ra s
  | .fcvtis rd ra => Sys2Proof.Machine.execFcvtis rd ra s
  | .fclts rd ra rb => Sys2Proof.Machine.execFclts rd ra rb s
  | .fcles rd ra rb => Sys2Proof.Machine.execFcles rd ra rb s
  | .fceqs rd ra rb => Sys2Proof.Machine.execFceqs rd ra rb s
  | .rdc rd cr => Sys2Proof.Machine.execRdc rd cr s
  | .wrc ra cr => Sys2Proof.Machine.execWrc ra cr s
  | .wrcDevstat ra => Sys2Proof.Machine.execWrcDevstat ra s
  | .wrcPoolcfg ra pool => Sys2Proof.Machine.execWrcPoolcfg ra pool s
  | .wrcAsid ra => Sys2Proof.Machine.execWrcAsid ra s
  | .wrcFaultRing ra size => Sys2Proof.Machine.execWrcFaultRing ra size s
  | .wrcPwrcap ra => Sys2Proof.Machine.execWrcPwrcap ra s
  | .wrcRampcfg ra => Sys2Proof.Machine.execWrcRampcfg ra s
  | .fence kind scope => Sys2Proof.Machine.execFence kind scope s
  | .sbar mask => Sys2Proof.Machine.execSbar mask s
  | .isync => Sys2Proof.Machine.execIsync s
  | .trap code => Sys2Proof.Machine.execTrap code s
  | .rett => Sys2Proof.Machine.execRett s
  | .exit => Sys2Proof.Machine.execExit s
  | .waitl rd ra limit => Sys2Proof.Machine.execWaitl rd ra limit s
  | .cnvy => Sys2Proof.Machine.execCnvy s
  | .yield => Sys2Proof.Machine.execYield s
  | .vsave ra => Sys2Proof.Machine.execVsave ra s
  | .vrstr ra => Sys2Proof.Machine.execVrstr ra s
  | .setvl rd ra rb whole => Sys2Proof.Machine.execSetvl rd ra rb whole s
  | .setms space => Sys2Proof.Machine.execSetms space s
  | .vcfg rd code => Sys2Proof.Machine.execVcfg rd code s
  | .vtag vd anchor typ => Sys2Proof.Machine.execVtag vd anchor typ s
  | .forkl rd off => Sys2Proof.Machine.execForkl rd off s
  | .joinl => Sys2Proof.Machine.execJoinl s
  | .vadd vd va vb mk => Sys2Proof.Machine.execVadd vd va vb mk s
  | .vsub vd va vb mk => Sys2Proof.Machine.execVsub vd va vb mk s
  | .vmul vd va vb mk => Sys2Proof.Machine.execVmul vd va vb mk s
  | .vdiv vd va vb mk => Sys2Proof.Machine.execVdiv vd va vb mk s
  | .vmin vd va vb mk => Sys2Proof.Machine.execVmin vd va vb mk s
  | .vmax vd va vb mk => Sys2Proof.Machine.execVmax vd va vb mk s
  | .vand vd va vb mk => Sys2Proof.Machine.execVand vd va vb mk s
  | .vor vd va vb mk => Sys2Proof.Machine.execVor vd va vb mk s
  | .vxor vd va vb mk => Sys2Proof.Machine.execVxor vd va vb mk s
  | .vsll vd va vb mk => Sys2Proof.Machine.execVsll vd va vb mk s
  | .vsrl vd va vb mk => Sys2Proof.Machine.execVsrl vd va vb mk s
  | .vsra vd va vb mk => Sys2Proof.Machine.execVsra vd va vb mk s
  | .vfma vd va vb mk => Sys2Proof.Machine.execVfma vd va vb mk s
  | .vfnma vd va vb mk => Sys2Proof.Machine.execVfnma vd va vb mk s
  | .vmov vd va mk => Sys2Proof.Machine.execVmov vd va mk s
  | .vcvt vd va mk => Sys2Proof.Machine.execVcvt vd va mk s
  | .vabs vd va mk => Sys2Proof.Machine.execVabs vd va mk s
  | .vneg vd va mk => Sys2Proof.Machine.execVneg vd va mk s
  | .vsqrt vd va mk => Sys2Proof.Machine.execVsqrt vd va mk s
  | .vrsq vd va mk => Sys2Proof.Machine.execVrsq vd va mk s
  | .vrcp vd va mk => Sys2Proof.Machine.execVrcp vd va mk s
  | .vexp2 vd va mk => Sys2Proof.Machine.execVexp2 vd va mk s
  | .vlog2 vd va mk => Sys2Proof.Machine.execVlog2 vd va mk s
  | .vsel vd va vb mk => Sys2Proof.Machine.execVsel vd va vb mk s
  | .vgathr vd va vb mk => Sys2Proof.Machine.execVgathr vd va vb mk s
  | .vcomp vd va mk => Sys2Proof.Machine.execVcomp vd va mk s
  | .vexpd vd va mk => Sys2Proof.Machine.execVexpd vd va mk s
  | .vscan vd va mk => Sys2Proof.Machine.execVscan vd va mk s
  | .vadds vd va sb mk => Sys2Proof.Machine.execVadds vd va sb mk s
  | .vsubs vd va sb mk => Sys2Proof.Machine.execVsubs vd va sb mk s
  | .vrsubs vd va sb mk => Sys2Proof.Machine.execVrsubs vd va sb mk s
  | .vmuls vd va sb mk => Sys2Proof.Machine.execVmuls vd va sb mk s
  | .vfmas vd va sb mk => Sys2Proof.Machine.execVfmas vd va sb mk s
  | .vmins vd va sb mk => Sys2Proof.Machine.execVmins vd va sb mk s
  | .vmaxs vd va sb mk => Sys2Proof.Machine.execVmaxs vd va sb mk s
  | .vands vd va sb mk => Sys2Proof.Machine.execVands vd va sb mk s
  | .vors vd va sb mk => Sys2Proof.Machine.execVors vd va sb mk s
  | .vxors vd va sb mk => Sys2Proof.Machine.execVxors vd va sb mk s
  | .vslls vd va sb mk => Sys2Proof.Machine.execVslls vd va sb mk s
  | .vsrls vd va sb mk => Sys2Proof.Machine.execVsrls vd va sb mk s
  | .vsras vd va sb mk => Sys2Proof.Machine.execVsras vd va sb mk s
  | .vsplat vd sb mk => Sys2Proof.Machine.execVsplat vd sb mk s
  | .vslup vd va sb mk => Sys2Proof.Machine.execVslup vd va sb mk s
  | .vsldn vd va sb mk => Sys2Proof.Machine.execVsldn vd va sb mk s
  | .vaddc vd va sb mk => Sys2Proof.Machine.execVaddc vd va sb mk s
  | .vcmpEq md va vb mk => Sys2Proof.Machine.execVcmpEq md va vb mk s
  | .vcmpNe md va vb mk => Sys2Proof.Machine.execVcmpNe md va vb mk s
  | .vcmpLt md va vb mk => Sys2Proof.Machine.execVcmpLt md va vb mk s
  | .vcmpLe md va vb mk => Sys2Proof.Machine.execVcmpLe md va vb mk s
  | .vcmpGt md va vb mk => Sys2Proof.Machine.execVcmpGt md va vb mk s
  | .vcmpGe md va vb mk => Sys2Proof.Machine.execVcmpGe md va vb mk s
  | .vcmpUn md va vb mk => Sys2Proof.Machine.execVcmpUn md va vb mk s
  | .vcmpsEq md va sb mk => Sys2Proof.Machine.execVcmpsEq md va sb mk s
  | .vcmpsNe md va sb mk => Sys2Proof.Machine.execVcmpsNe md va sb mk s
  | .vcmpsLt md va sb mk => Sys2Proof.Machine.execVcmpsLt md va sb mk s
  | .vcmpsLe md va sb mk => Sys2Proof.Machine.execVcmpsLe md va sb mk s
  | .vcmpsGt md va sb mk => Sys2Proof.Machine.execVcmpsGt md va sb mk s
  | .vcmpsGe md va sb mk => Sys2Proof.Machine.execVcmpsGe md va sb mk s
  | .vcmpsUn md va sb mk => Sys2Proof.Machine.execVcmpsUn md va sb mk s
  | .mand md ma mb => Sys2Proof.Machine.execMand md ma mb s
  | .mor md ma mb => Sys2Proof.Machine.execMor md ma mb s
  | .mxor md ma mb => Sys2Proof.Machine.execMxor md ma mb s
  | .mandn md ma mb => Sys2Proof.Machine.execMandn md ma mb s
  | .mnot md ma => Sys2Proof.Machine.execMnot md ma s
  | .mset md => Sys2Proof.Machine.execMset md s
  | .mclr md => Sys2Proof.Machine.execMclr md s
  | .mpopc rd ma => Sys2Proof.Machine.execMpopc rd ma s
  | .mffs rd ma => Sys2Proof.Machine.execMffs rd ma s
  | .msbf md ma => Sys2Proof.Machine.execMsbf md ma s
  | .msif md ma => Sys2Proof.Machine.execMsif md ma s
  | .mmov md ma => Sys2Proof.Machine.execMmov md ma s
  | .vredSum rd va mk => Sys2Proof.Machine.execVredSum rd va mk s
  | .vredMax rd va mk => Sys2Proof.Machine.execVredMax rd va mk s
  | .vredMin rd va mk => Sys2Proof.Machine.execVredMin rd va mk s
  | .vredAnd rd va mk => Sys2Proof.Machine.execVredAnd rd va mk s
  | .vredOr rd va mk => Sys2Proof.Machine.execVredOr rd va mk s
  | .vext rd va sb => Sys2Proof.Machine.execVext rd va sb s
  | .vins ss vd sb => Sys2Proof.Machine.execVins ss vd sb s
  | .vtom va md => Sys2Proof.Machine.execVtom va md s
  | .vmtov vd ma => Sys2Proof.Machine.execVmtov vd ma s
  | .viota vd => Sys2Proof.Machine.execViota vd s
  | .vconfl va md => Sys2Proof.Machine.execVconfl va md s
  | .vanch vd va mk => Sys2Proof.Machine.execVanch vd va mk s
  | .vanchz vd va mk => Sys2Proof.Machine.execVanchz vd va mk s
  | .vranc vd mk => Sys2Proof.Machine.execVranc vd mk s
  | .agetc rd ak sb => Sys2Proof.Machine.execAgetc rd ak sb s
  | .agete rd ak sb => Sys2Proof.Machine.execAgete rd ak sb s
  | .aput ss ak sb => Sys2Proof.Machine.execAput ss ak sb s
  | .vdevs vd va mk => Sys2Proof.Machine.execVdevs vd va mk s
  | .vbead vd va mk => Sys2Proof.Machine.execVbead vd va mk s
  | .vld vt base mk st => Sys2Proof.Machine.execVld vt base mk st s
  | .vldStrided vt base stride mk st => Sys2Proof.Machine.execVldStrided vt base stride mk st s
  | .vldIndexed vt base vx mk st => Sys2Proof.Machine.execVldIndexed vt base vx mk st s
  | .vldFirstFault vt base mk st => Sys2Proof.Machine.execVldFirstFault vt base mk st s
  | .vldSc vt base mk st => Sys2Proof.Machine.execVldSc vt base mk st s
  | .vldScIndexed vt base vx mk st => Sys2Proof.Machine.execVldScIndexed vt base vx mk st s
  | .vst vt base mk st => Sys2Proof.Machine.execVst vt base mk st s
  | .vstStrided vt base stride mk st => Sys2Proof.Machine.execVstStrided vt base stride mk st s
  | .vstIndexed vt base vx mk st => Sys2Proof.Machine.execVstIndexed vt base vx mk st s
  | .vstSc vt base mk st => Sys2Proof.Machine.execVstSc vt base mk st s
  | .vstScIndexed vt base vx mk st => Sys2Proof.Machine.execVstScIndexed vt base vx mk st s
  | .vamoAdd vv base vx mk scope => Sys2Proof.Machine.execVamoAdd vv base vx mk scope s
  | .vamoAnd vv base vx mk scope => Sys2Proof.Machine.execVamoAnd vv base vx mk scope s
  | .vamoOr vv base vx mk scope => Sys2Proof.Machine.execVamoOr vv base vx mk scope s
  | .vamoXor vv base vx mk scope => Sys2Proof.Machine.execVamoXor vv base vx mk scope s
  | .vamoMin vv base vx mk scope => Sys2Proof.Machine.execVamoMin vv base vx mk scope s
  | .vamoMax vv base vx mk scope => Sys2Proof.Machine.execVamoMax vv base vx mk scope s
  | .vamoMinn vv base vx mk scope => Sys2Proof.Machine.execVamoMinn vv base vx mk scope s
  | .vamoMaxn vv base vx mk scope => Sys2Proof.Machine.execVamoMaxn vv base vx mk scope s
  | .vamoFadd vv base vx mk scope => Sys2Proof.Machine.execVamoFadd vv base vx mk scope s
  | .stnl rd vs pool st => Sys2Proof.Machine.execStnl rd vs pool st s
  | .rlq ra pool st => Sys2Proof.Machine.execRlq ra pool st s
  | .nlfree rd pool => Sys2Proof.Machine.execNlfree rd pool s
  | .acopyG2s strides src dst tag outer esz => Sys2Proof.Machine.execAcopyG2s strides src dst tag outer esz s
  | .acopyS2g strides src dst tag outer esz => Sys2Proof.Machine.execAcopyS2g strides src dst tag outer esz s
  | .acopyMcast strides src dst tag outer cores esz => Sys2Proof.Machine.execAcopyMcast strides src dst tag outer cores esz s
  | .acopyS2s strides src dst tag outer esz => Sys2Proof.Machine.execAcopyS2s strides src dst tag outer esz s
  | .agath vx base dst row mk tag => Sys2Proof.Machine.execAgath vx base dst row mk tag s
  | .mxm vacc a b kvalid zacc => Sys2Proof.Machine.execMxm vacc a b kvalid zacc s
  | .waitany rd ra => Sys2Proof.Machine.execWaitany rd ra s
  | .waitall rd ra => Sys2Proof.Machine.execWaitall rd ra s
  | .ffrt rd ra => Sys2Proof.Machine.execFfrt rd ra s
  | .tagclr ra => Sys2Proof.Machine.execTagclr ra s
  | .tagerr rd ra => Sys2Proof.Machine.execTagerr rd ra s
  | .mxatt rd ra => Sys2Proof.Machine.execMxatt rd ra s
  | .mxattw rd ra => Sys2Proof.Machine.execMxattw rd ra s
  | .mxdet => Sys2Proof.Machine.execMxdet s
  | .task rd ra deps => Sys2Proof.Machine.execTask rd ra deps s
  | .xferBcast task src off bytes => Sys2Proof.Machine.execXferBcast task src off bytes s
  | .xferSplit task src off bytes => Sys2Proof.Machine.execXferSplit task src off bytes s
  | .tdep succ pred => Sys2Proof.Machine.execTdep succ pred s
  | .graphOpen rd => Sys2Proof.Machine.execGraphOpen rd s
  | .graphClose => Sys2Proof.Machine.execGraphClose s
  | .phase rd => Sys2Proof.Machine.execPhase rd s
  | .cnt rd ra level => Sys2Proof.Machine.execCnt rd ra level s
  | .waitc rd ra level => Sys2Proof.Machine.execWaitc rd ra level s
  | .cancel ra level => Sys2Proof.Machine.execCancel ra level s
  | .jobKill ra => Sys2Proof.Machine.execJobKill ra s
  | .job rd ra => Sys2Proof.Machine.execJob rd ra s
  | .tide rd split => Sys2Proof.Machine.execTide rd split s
  | .rddig rd ra => Sys2Proof.Machine.execRddig rd ra s
  | .storeRelease => Sys2Proof.Machine.execStoreRelease s
  | .preempt who => Sys2Proof.Machine.execPreempt who s
  | .cancelDelivery who => Sys2Proof.Machine.execCancelDelivery who s
  | .faultRingRoom who => Sys2Proof.Machine.execFaultRingRoom who s
  | .parkResume who => Sys2Proof.Machine.execParkResume who s
  | .consumerWordPoll => Sys2Proof.Machine.execConsumerWordPoll s
  | .rangeCheckerEntry cmd => Sys2Proof.Machine.execRangeCheckerEntry cmd s
  | .mxmAccept abacus => Sys2Proof.Machine.execMxmAccept abacus s
  | .mxmAccumulate abacus => Sys2Proof.Machine.execMxmAccumulate abacus s
  | .copyFinish cmd => Sys2Proof.Machine.execCopyFinish cmd s
  | .engineFault cmd => Sys2Proof.Machine.execEngineFault cmd s
  | .engineRetry cmd => Sys2Proof.Machine.execEngineRetry cmd s
  | .heldStoreRelease who => Sys2Proof.Machine.execHeldStoreRelease who s
  | .waitlChange who => Sys2Proof.Machine.execWaitlChange who s
  | .waitlLimit who => Sys2Proof.Machine.execWaitlLimit who s
  | .placementCycle => Sys2Proof.Machine.execPlacementCycle s
  | .streamTransferEnd job task => Sys2Proof.Machine.execStreamTransferEnd job task s
  | .unitStart job task => Sys2Proof.Machine.execUnitStart job task s
  | .unitResume job task unit => Sys2Proof.Machine.execUnitResume job task unit s
  | .launchComplete job task => Sys2Proof.Machine.execLaunchComplete job task s
  | .heldUpdateAccept upd => Sys2Proof.Machine.execHeldUpdateAccept upd s
  | .registerPoisonKill who => Sys2Proof.Machine.execRegisterPoisonKill who s
  | .msuAccess acc => Sys2Proof.Machine.execMsuAccess acc s
  | .rowClose channel row => Sys2Proof.Machine.execRowClose channel row s
  | .scrub loc uncorrectable => Sys2Proof.Machine.execScrub loc uncorrectable s
  | .rowRetire channel row spare => Sys2Proof.Machine.execRowRetire channel row spare s
  | .remapReload channel backingBad => Sys2Proof.Machine.execRemapReload channel backingBad s
  | .freeMapRepair channel backingBad => Sys2Proof.Machine.execFreeMapRepair channel backingBad s
  | .arbiterInterval plan => Sys2Proof.Machine.execArbiterInterval plan s
  | .rampBoundary => Sys2Proof.Machine.execRampBoundary s
  | .energyUpdate => Sys2Proof.Machine.execEnergyUpdate s
  | .healthUpdate => Sys2Proof.Machine.execHealthUpdate s
  | .tideHonour isle => Sys2Proof.Machine.execTideHonour isle s
  | .tideSplitEffect isle => Sys2Proof.Machine.execTideSplitEffect isle s
  | .headerForward queue => Sys2Proof.Machine.execHeaderForward queue s
  | .responseLanding who => Sys2Proof.Machine.execResponseLanding who s
  | .hostMemRequest req => Sys2Proof.Machine.execHostMemRequest req s
  | .peerMemRequest port req => Sys2Proof.Machine.execPeerMemRequest port req s
  | .jevstatWrite value => Sys2Proof.Machine.execJevstatWrite value s
  | .peerbaseWrite port value => Sys2Proof.Machine.execPeerbaseWrite port value s
  | .doeRequest req => Sys2Proof.Machine.execDoeRequest req s
  | .firmwarePush img found => Sys2Proof.Machine.execFirmwarePush img found s
  | .coldStart img found => Sys2Proof.Machine.execColdStart img found s
  | .warmStart img found => Sys2Proof.Machine.execWarmStart img found s
  | .firmwareFetchTimeout => Sys2Proof.Machine.execFirmwareFetchTimeout s
  | .bistRequest => Sys2Proof.Machine.execBistRequest s
  | .sidebandRead => Sys2Proof.Machine.execSidebandRead s
  | .unassignedEncoding word => Sys2Proof.Machine.execUnassignedEncoding word s
  | .poolBlockFetch va => Sys2Proof.Machine.execPoolBlockFetch va s
  | .msixTableWrite vector masked => Sys2Proof.Machine.execMsixTableWrite vector masked s
  | .straitLaneRetry strait => Sys2Proof.Machine.execStraitLaneRetry strait s

end Sys2Proof.Machine
end

