-- ==== Sys2Proof/Machine/Turn.lean ====
section
/-! DEFINITION. What the next step does (notes/assumptions/6.md): a mark of TIME that has come, the turn that the agenda
names, or the machine's own; and how an instruction runs that a context has fetched (spec/01 R26-R32). -/

namespace Sys2Proof.Machine

/-! ### The scalar thread and the vector queue (R26-R32, R324) -/

/-- An instruction of the vector queue that came first has run, to `t`. Where it waits, or its engine command waits to be
accepted, it is pushed, and the scalar thread goes on behind it (R26, R194, R324). -/
def State.leaveBehind (t : State) (i : Instr) : State :=
  match t.ctx.flow.status with
  | .waiting => t.push i
  | .atEngine id => (t.push i).setFlow fun f => { f with engine := some id }
  | _ => t

/-- The fetched instruction runs while nothing stands in the vector queue. -/
def State.runFirst (s : State) (i : Instr) : Out :=
  match exec i s with
  | .next t => .next (if pushed i then t.leaveBehind i else t)
  | o => o

/-- The fetched instruction goes on behind the vector queue: it is pushed while the queue, and for a VCFG or VTAG the undo
log, has room; one of the scalar thread is executed while the undo log and the store buffer have room, unless it would wait
or trap (R29, R32, R112). Everything else waits (R30, R31). -/
def State.goesBehind (s : State) (i : Instr) : Option Out :=
  let f := s.ctx.flow
  if f.holds i then none
  else if pushed i then
    if f.queue.length < 64 ∧ f.undo + f.pushUndo i ≤ 64 then some (.next (s.push i)) else none
  else if scalarClass i ∧ f.undo < 64 ∧ f.storeRoom then
    match exec i s with
    | .next t =>
      if t.ctx.flow.status = .running ∧ t.ctx.flow.handlerFirst = false then
        some (.next (t.setFlow fun f => { f with queue := if undoFree i then f.queue else countUndo f.queue }))
      else none
    | o => some o
  else none

/-- The fetched instruction of the context that moves runs; `stay` is what is left where it waits behind the queue. -/
def State.runFront (s : State) (i : Instr) (stay : State) : Out :=
  if s.ctx.flow.queue = [] then s.runFirst i else (s.goesBehind i).getD (.next stay)

/-- The turn of the lane group of a context (R27, R324): a trap that the context has to take comes first (R289, R295); else it
takes the head of its vector queue; else, while that waits, another pipe starts. -/
def State.laneTurn (s : State) (who : CtxNo) : Out :=
  match s.summons who with
  | some o => o
  | none =>
    match s.runHead exec who with
    | some o => o
    | none => .next ((s.startEarly exec who).getD s)

/-! ### The marks of TIME (R245, R278, R317, R329, R338-R343) -/

/-- What comes about at an instant of TIME. -/
inductive Mark
  | ramp
  | interval
  | energy
  | health
  | turned (isle : Nat)
  | honour (isle : Nat)
  | ring (k : Nat)
  | poll
  | unhold
deriving DecidableEq, Repr

/-- When the straits turn, and when their waiting requests are honoured. -/
def State.straitMarks (s : State) : List (Nat × Mark) :=
  s.dev.fabric.straits.zipIdx.flatMap fun x =>
    (x.1.turning.map fun t => (t.2, Mark.turned x.2)).toList ++
      (x.1.request.map fun _ => (x.1.honourAt s.nowNs, Mark.honour x.2)).toList

/-- The marks that are to come, each with its instant in nanoseconds. At one instant the ramp boundary is first: an
abacus steps by the throttle step that the arbiter set before (R339). -/
def State.marks (s : State) : List (Nat × Mark) :=
  let p := s.dev.power
  [(p.nextRamp, .ramp), (p.nextInterval, .interval), (p.nextEnergy, .energy), (p.nextHealth, .health)] ++ s.straitMarks ++
    (s.dev.fabric.rings.zipIdx.flatMap fun x => (x.1.turning.map fun t => (t.2, Mark.ring x.2)).toList) ++
    (if s.ringOn then [(s.dev.ring.polled + 1000, .poll)] else []) ++ s.dev.msu.holds.map fun h => (h.ends, .unhold)

/-- The earlier of two marks; the first at one instant. -/
def earlierMark : Option (Nat × Mark) → Nat × Mark → Option (Nat × Mark)
  | none, m => some m
  | some a, m => if m.1 < a.1 then some m else some a

/-- The earliest mark that has come. -/
def State.dueMark (s : State) : Option Mark :=
  ((s.marks.filter fun m => s.reached m.1).foldl earlierMark none).map (·.2)

/-- A plan of the arbiter under the limit that it applies; the spec leaves its decisions to it (R337, R338). -/
def State.freePlan (s : State) : ArbiterPlan :=
  let f := Config.freePlan s.tick s.dev.power.pwrcap.toNat
  { steps := (List.range 16).map fun i => BitVec.ofNat 3 (f i)
    budgets := (List.range 512).map fun i => f (16 + i)
    ringSplits := (List.range 4).map fun i => BitVec.ofNat 3 (f (528 + i)) }

/-- A mark comes about. -/
def State.runMark (s : State) : Mark → Out
  | .ramp => execRampBoundary s
  | .interval => execArbiterInterval s.freePlan s
  | .energy => execEnergyUpdate s
  | .health => execHealthUpdate s
  | .turned isle => execTideSplitEffect (BitVec.ofNat 4 isle) s
  | .honour isle => execTideHonour (BitVec.ofNat 4 isle) s
  | .ring k => .next (s.ringEffect k)
  | .poll => execConsumerWordPoll s
  | .unhold => .next s.endHolds

/-- A mark comes about; the arbiter's with the plan of the agenda, where the agenda gives one. -/
def State.passMark (s : State) (m : Mark) : Out :=
  match m, s.agenda with
  | .interval, .event (.arbiterInterval plan) :: rest => execArbiterInterval plan { s with agenda := rest }
  | m, _ => s.runMark m

/-! ### The turn that comes when the agenda names none -/

/-- The device with the open rows, the waiting requests, the budgets and the bytes moved of `e` (R276, R280, R342). -/
def Dev.calmed (d e : Dev) : Dev :=
  { d with msu := { d.msu with
      openRows := e.msu.openRows, queue := e.msu.queue, budgets := e.msu.budgets, moved := e.msu.moved } }

/-- An event is due when it changes more than what is asked of the MSUs: a retry that only reads is not tried. -/
def State.due (s : State) : Out → Bool
  | .next s' => { s' with dev := s'.dev.calmed s.dev } != s
  | _ => false

/-- What may become of an engine command. -/
def State.cmdChances (s : State) (m : Cmd) : List Out :=
  [execRangeCheckerEntry m.id s, execEngineRetry m.id s, execEngineFault m.id s, execCopyFinish m.id s,
    execMxmAccept m.abacusNo s, execMxmAccumulate m.abacusNo s]

/-- What may become of a launch. -/
def State.taskChances (s : State) (t : Task) : List Out :=
  [execLaunchComplete t.job t.id s, execStreamTransferEnd t.job t.id s, execUnitStart t.job t.id s]

/-- What may become of a parked unit. -/
def State.parkedChance (s : State) (c : Ctx) : Out := execUnitResume c.origin.job c.origin.task c.origin.unit s

/-- The oldest store in the buffer of a context is released once the vector commit pointer has passed it (R29). -/
def State.releaseChance (s : State) (c : Ctx) : List Out :=
  if c.flow.storeBuf.head?.any fun b => b.after == 0 then ((s.focus c.num).map execStoreRelease).toList else []

/-- What may come to a context from outside. -/
def State.ctxChances (s : State) (c : Ctx) : List Out :=
  let n := c.num
  (if c.flow.cancelPending then [execCancelDelivery n s] else []) ++
    (if c.flow.preemptPending then [execPreempt n s] else []) ++
    match c.flow.status with
    | .parked _ => [execParkResume n s]
    | .stalled _ => [execFaultRingRoom n s]
    | _ => []

/-- The events that may come about, in the order in which they are tried. -/
def State.chances (s : State) : List Out :=
  (s.dev.fabric.headers.take 1).map (fun h => execHeaderForward ⟨h.isle, h.packet.dest⟩ s) ++
    (s.dev.fabric.responses.take 1).map (fun w => execResponseLanding w s) ++
    (s.dev.msu.records.take 1).map (fun r => execFaultRingRoom (BitVec.ofNat 12 r.loc) s) ++
    s.dev.engines.cmds.flatMap s.cmdChances ++
    (s.contexts.filter Ctx.live).flatMap s.ctxChances ++
    (s.contexts.filter Ctx.live).flatMap s.releaseChance ++
    s.dev.sched.tasks.flatMap s.taskChances ++
    s.dev.sched.parked.map s.parkedChance ++
    ((s.contexts.filter fun c => c.flow.queue != []).map fun c => s.laneTurn c.num) ++
    (if s.dev.sched.tasks = [] then [] else [execPlacementCycle s])

/-- Whether an outcome leaves the context numbered `who` waiting as it was, with `sent` headers of its access issued. -/
def waitsOn (who : CtxNo) (sent : Nat) : Out → Bool
  | .next s => (s.findCtx who).any fun c => c.flow.status == .waiting && c.flow.sent == sent
  | _ => false

/-- Whether a context that waits would go on if it executed its instruction again: only then does it take an issue turn
(R33, R300). -/
def State.wakes (s : State) (c : Ctx) : Bool :=
  match s.issue c.num false with
  | .front i s' stay => !waitsOn c.num c.flow.sent (s'.runFront i stay)
  | .over o => !waitsOn c.num c.flow.sent o
  | _ => false

/-- Whether the next instruction of a context that stands behind its vector queue goes on now (R26, R29, R30). -/
def State.goesOn (s : State) (c : Ctx) : Bool :=
  match s.issue c.num false with
  | .front i s' _ => s'.ctx.flow.queue == [] || (s'.goesBehind i).isSome
  | _ => false

/-- Whether a context takes an issue turn (R229, R297, R300): it has a trap to take; or it runs, does not hold after a YIELD,
and its next instruction can issue; or it waits and would go on. -/
def State.takesTurn (s : State) (c : Ctx) : Bool :=
  match c.flow.status with
  | .running => c.flow.cancelPending || c.flow.preemptPending || (!s.yieldHolds c && (c.flow.queue == [] || s.goesOn c))
  | .waiting => c.flow.cancelPending || c.flow.preemptPending || s.wakes c
  | _ => false

/-- Whether a context issues before another: it has waited longer, and at one time the lower number goes first, which in a
core is the lower slot (R297). -/
def Ctx.before (a b : Ctx) (now : Nat) : Bool :=
  let x := a.flow.eligible.getD now
  let y := b.flow.eligible.getD now
  decide (x < y) || (x == y && decide (a.num.toNat < b.num.toNat))

/-- The context that issues first, of those of `cs` that take a turn. -/
def State.firstOf (s : State) (cs : List Ctx) : Option Ctx :=
  (cs.filter fun c => c.live && s.takesTurn c).foldl (fun acc c => some <| match acc with
    | none => c
    | some a => if c.before a s.dev.clock.cycles then c else a) none

/-- The contexts of a core. -/
def State.onCore (s : State) (core : Nat) : List Ctx := s.contexts.filter fun c => c.live && c.place.coreNo == core

/-- A core issues the next instruction of the context whose turn it is (R297); where no context of it takes a turn, nothing
happens but the passing of time. -/
def State.coreTurn (s : State) (core : Nat) (ahead : Bool) : Ready :=
  if s.onCore core = [] then .absent
  else
    match s.firstOf (s.onCore core) with
    | some c => s.issue c.num ahead
    | none => .over (.next s)

/-- The turn that comes when the agenda names none: the first event that is due; else the context that issues first, of all
cores; else nothing happens but the passing of time. -/
def State.ownTurn (s : State) : Ready :=
  match s.chances.find? s.due with
  | some o => .over o
  | none =>
    match s.firstOf s.contexts with
    | some c => s.issue c.num false
    | none => .over (.next s)

/-- What the step comes to: a mark of TIME that has come; the first turn of the agenda, which is then off it; or the
machine's own turn. -/
def State.ready (s : State) : Ready :=
  match s.dueMark with
  | some m => .mark (s.passMark m)
  | none =>
    match s.agenda with
    | [] => s.ownTurn
    | .issue core ahead :: rest => { s with agenda := rest }.coreTurn core ahead
    | .lanes who :: rest => .over ({ s with agenda := rest }.laneTurn who)
    | .event i :: rest => if i.isEvent then .run i { s with agenda := rest } else .absent

/-! ### The end of a step -/

/-- Each context that takes a turn now has waited for it since it became eligible, or since its last issue (R297). -/
def State.stampTurns (s : State) : State :=
  let stamp := fun c : Ctx =>
    let since := if s.takesTurn c then some (c.flow.eligible.getD s.dev.clock.cycles) else none
    { c with flow := { c.flow with eligible := since } }
  { s with ctx := stamp s.ctx, others := s.others.map stamp }

/-- The step is over: its number and the time go on (notes/assumptions/5.md). -/
def State.finish (s : State) : State :=
  let s := s.tidy
  { s with
    tick := s.tick + 1
    dev := { s.dev with clock := { s.dev.clock with
      cycles := s.dev.clock.cycles + 1 + Config.freeElapsed s.tick } } }.stampTurns

end Sys2Proof.Machine
end

