-- ==== Sys2Proof/Machine/Step.lean ====
section
/-! DEFINITION. One step of the machine, and the placing of one instruction where the next step fetches it. -/

namespace Sys2Proof.Machine

/-- The end of a step, where it answers a next state. -/
def State.conclude : Out → Out
  | .next s => .next s.finish
  | .fault r => .fault r
  | .refused r => .refused r

/-- The end of a step that took no time. -/
def State.concludeMark : Out → Out
  | .next s => .next s.markDone
  | .fault r => .fault r
  | .refused r => .refused r

/-- One step: a mark of TIME that has come, or the turn that the agenda names, or else the machine's own (notes/assumptions/6.md). -/
def step (s : State) : Host.Outcome State Fault Refusal :=
  match s.ready with
  | .run i s' => State.conclude (exec i s')
  | .front i s' stay => State.conclude (s'.runFront i stay)
  | .over o => State.conclude o
  | .mark o => State.concludeMark o
  | .absent => .fault .noSuchTurn

/-- `s` with the instruction whose bits are `w` placed where the next step fetches it: its words at the pc, the
tables that map them for fetch, no mark of TIME before it, and the turn of the context that moves
(notes/assumptions/1.md). -/
def State.withFetchWord (s : State) (nbits w : Nat) : State :=
  let s := (s.placeWords (w % 2 ^ nbits)).quiet
  { s with agenda := .issue s.ctx.place.coreNo false :: s.agenda }

end Sys2Proof.Machine
end

