-- ==== Sys2Proof/Safety.lean ====
section
/-! DEFINITION. The terms in which claims about the machine are stated: what an instruction leaves as it was, what it
is to complete, the conditions of a queued instruction, and the forms that every step keeps. -/

namespace Sys2Proof.Machine

/-! ### Frames -/

/-- What of the context that moves an instruction may change besides its pc and its waiting marks. -/
structure Touched where
  regs : List Reg := []
  vecs : List VecNo := []
  anchors : List Nat := []
  masks : List MaskNo := []
  devstat : Bool := false
  vl : Bool := false
  mspace : Bool := false
  devpol : Bool := false
  trap : Bool := false
  eng : Bool := false

/-- In the context that moves, everything outside `w` is as before: scalar registers, vector, anchor and mask
registers, tags and VCOUNT, those of the lane group and those of program order, VL, MSPACE, DEVPOL, DEVSTAT, the trap and
translation registers, copy tags and grant, lanes, and what it has from its launch. -/
structure CtxFrame (s t : State) (w : Touched) : Prop where
  regs : ∀ r, r ∉ w.regs → t.reg r = s.reg r
  vecs : ∀ v, v ∉ w.vecs → t.ctx.vreg v = s.ctx.vreg v
  anchors : ∀ k : Fin 16, k.val ∉ w.anchors → t.ctx.vec.anchors[k] = s.ctx.vec.anchors[k]
  masks : ∀ m, m ∉ w.masks → t.ctx.mask m = s.ctx.mask m
  devstat : w.devstat = false → t.ctx.vec.devstat = s.ctx.vec.devstat
  tags : t.ctx.vec.tags = s.ctx.vec.tags
  vcount : t.ctx.vec.vcount = s.ctx.vec.vcount
  vl : w.vl = false → t.ctx.vec.vl = s.ctx.vec.vl
  mspace : w.mspace = false → t.ctx.vec.mspace = s.ctx.vec.mspace
  devpol : w.devpol = false → t.ctx.vec.devpol = s.ctx.vec.devpol
  trap : w.trap = false → t.ctx.trap = s.ctx.trap
  eng : w.eng = false → t.ctx.eng = s.ctx.eng
  place : t.ctx.place = s.ctx.place
  origin : t.ctx.origin = s.ctx.origin
  front : t.ctx.front = s.ctx.front

/-- Every byte of memory reads as before, and no mark of poison or of elision changes. -/
structure SameMemory (s t : State) : Prop where
  bytes : ∀ a, t.mem.read a = s.mem.read a
  poison : t.mem.poison = s.mem.poison
  spared : t.mem.spared = s.mem.spared
  elided : t.mem.elided = s.mem.elided

/-- Every byte of memory outside `at'` reads as before. -/
def MemoryOutside (s t : State) (at' : Nat → Prop) : Prop := ∀ a, ¬ at' a → t.mem.read a = s.mem.read a

/-- The other contexts, the units of the device, the agenda and the step number are as before. -/
structure SameElse (s t : State) : Prop where
  others : t.others = s.others
  dev : t.dev = s.dev
  agenda : t.agenda = s.agenda
  tick : t.tick = s.tick

/-- The byte of the page-table entry in which an access through `h` sets the accessed and dirty bits (R312). -/
def Hit.marks (h : Hit) (a : Nat) : Prop := ∃ l, h.leaf = some l ∧ a = l.pteLoc + 1

/-- The context that moves reads none of the `n` bytes from `loc` on by the name of a skerry that was its job's and is
another job's now, where a read is undefined (R191). -/
def State.freshNames (s : State) (loc n : Nat) : Prop := ∀ i < n, s.stale s.ctx.origin.job (loc + i) = false

/-- Whether a read of `n` bytes at `loc` by the context that moves consumes poison (R277). -/
def State.poisonedHere (s : State) (loc n : Nat) : Bool := s.poisonedFor s.ctx.origin.job loc n

/-- The `n` bytes from `loc` on. -/
def within (loc n a : Nat) : Prop := loc ≤ a ∧ a < loc + n

/-- The device with what is under way as in `e`: the translations that the isles hold, the fabric's headers, responses
and slots, and the requests, open rows and budgets of the MSUs, with the count of the bytes that launches move. -/
def Dev.settled (d e : Dev) : Dev :=
  { d with
    tlb := e.tlb, fabric := e.fabric
    msu := { d.msu with
      openRows := e.msu.openRows, queue := e.msu.queue, budgets := e.msu.budgets, moved := e.msu.moved } }

/-- The other contexts, the agenda, the step number and every unit of the device are as before, but for what is under
way. -/
structure SameButTransit (s t : State) : Prop where
  others : t.others = s.others
  dev : t.dev.settled s.dev = s.dev
  agenda : t.agenda = s.agenda
  tick : t.tick = s.tick

/-- The tasks of `s`, with the digest of launch `task` of `job` grown by what a store of `puts` adds (R246). -/
def State.digested (s : State) (job task : Nat) (puts : List Put) : List Task :=
  s.dev.sched.tasks.map fun t =>
    if job ≠ 0 ∧ t.job = job ∧ t.id = task then { t with digest := t.digest + digestOf puts } else t

/-- As `SameButTransit`, but the launch of the context that moves has a store of `puts` in its digest. -/
structure SameButStore (s t : State) (puts : List Put) : Prop where
  others : t.others = s.others
  dev : ({ t.dev.settled s.dev with sched := { t.dev.sched with tasks := s.dev.sched.tasks } } : Dev) = s.dev
  digests : t.dev.sched.tasks = s.digested s.ctx.origin.job s.ctx.origin.task puts
  agenda : t.agenda = s.agenda
  tick : t.tick = s.tick

/-- The context that moves goes on `n` bytes behind the instruction, and waits for nothing. -/
structure GoesOn (s t : State) (n : Nat) : Prop where
  pc : t.ctx.pc = s.ctx.pc + BitVec.ofNat 56 n
  status : t.ctx.flow.status = .running

/-- As `SameButTransit`, but the launch of the context that moves has a store of `puts` in its digest, and `n` tickets
were drawn (R175). -/
structure SameButVector (s t : State) (puts : List Put) (n : Nat) : Prop where
  others : t.others = s.others
  dev : ({ t.dev.settled s.dev with
    sched := { t.dev.sched with tasks := s.dev.sched.tasks }
    msu := { (t.dev.settled s.dev).msu with ticket := s.dev.msu.ticket } } : Dev) = s.dev
  ticket : t.dev.msu.ticket = s.dev.msu.ticket + n
  digests : t.dev.sched.tasks = s.digested s.ctx.origin.job s.ctx.origin.task puts
  agenda : t.agenda = s.agenda
  tick : t.tick = s.tick

/-- The instruction `i` of `n` bytes completes at `s`: it changes what `w` names to what `P` says, and nothing else. -/
def Completes (i : Instr) (s : State) (n : Nat) (w : Touched) (P : State → Prop) : Prop :=
  ∃ t, exec i s = .next t ∧ GoesOn s t n ∧ CtxFrame s t w ∧ SameMemory s t ∧ SameElse s t ∧ P t

/-- An access with these headers waits in the memory pipe (R322, R324): a released store still waits for a slot, or fewer of
the eight request slots are free than headers of it are left, those that it sent while it waited being out. -/
def State.headersWait (s : State) (ps : List Packet) : Prop :=
  s.ctx.flow.owed ≠ [] ∨ 8 < s.ctx.flow.slots + (ps.length - s.ctx.flow.sent)

/-- What a scalar register holds once `v` was written to it: S0 reads as zero (R12). -/
def written (r : Reg) (v : Word) : Word := if r = 0 then 0 else v

/-! ### Conditions -/

/-- The contents of every vector and anchor register are in canonical form. -/
def VecState.wf (v : VecState) : Prop := (∀ r ∈ v.vecs.toList, r.wf) ∧ ∀ r ∈ v.anchors.toList, r.wf

/-- A queued instruction that names the vector registers `regs` can run: they lie below the VCOUNT of program order (R48,
R112), the context owns its lanes (R305), and no accepted MXM has still to write one of them (R217). -/
structure QueueReady (s : State) (regs : List VecNo) : Prop where
  inside : ∀ v ∈ regs, v.toNat < s.ctx.front.vcount
  owns : s.ctx.ownsVector = true
  free : s.mxmPending regs = false

/-- Element `i` of a vector register, as many bits as its type has. -/
def Ctx.elem (c : Ctx) (v : VecNo) (i : Nat) : Nat := ((c.vreg v).get i).toNat % 2 ^ (c.typ v).bits

/-- The exact value of element `i` of a vector register: that of an integer or a float, or that of a bead in its rod
(R67, R73). -/
def Ctx.valueAt (c : Ctx) (v : VecNo) (i : Nat) : Exact :=
  let t := c.typ v
  if t.isBead then rodValue t ((c.anchorReg v).get (i / t.rod)) (t.int (c.elem v i)) else t.value (c.elem v i)

/-- Element `i` lies below VL and takes part (R5). -/
def Ctx.acts (c : Ctx) (mk : MaskNo) (i : Nat) : Prop := i < c.vec.vl ∧ (mk = 0 ∨ (c.mask mk).testBit i = true)

/-- VL is a whole number of rods of every bead type among `types` (R125, R154). -/
def Ctx.rodsFit (c : Ctx) (types : List ElemType) : Prop :=
  (.d4 ∈ types → c.vec.vl % 112 = 0) ∧ (.d8 ∈ types → c.vec.vl % 56 = 0)

/-- The bytes of access `i` of a vector register: an element, lowest byte first, or a rod of 64 bytes: its anchor word
and its codes (R70, R170). -/
def Ctx.accessBytes (c : Ctx) (v : VecNo) (i : Nat) : List Byte :=
  let t := c.typ v
  if t.isBead then rodBytes t ((c.anchorReg v).get i) ((List.range t.rod).map fun j => c.elem v (i * t.rod + j))
  else leBytes (t.bits / 8) (c.elem v i)

/-- The translation of address `a` serves address `b` too: the two lie on one page, that of the leaf that maps `a`, or a
page of 4 KiB where the walk of `a` fails, which gives no size (notes/assumptions/24.md). -/
def State.servesPage (s : State) (a b : Word) : Prop :=
  a.toNat / 2 ^ 48 < 0xFF ∧ match s.leaf s.ctx.space a.toNat with
    | .ok l => a.toNat / l.size = b.toNat / l.size
    | .error _ => a.toNat / 2 ^ 12 = b.toNat / 2 ^ 12

/-- Where address `b` goes by the translation of `a`: through its leaf, or nowhere, for the same reason. -/
def State.servedBy (s : State) (need : Need) (a b : Word) : Except Miss Hit :=
  match s.leaf s.ctx.space a.toNat with
  | .ok l => s.through s.ctx.space need b l
  | .error m => .error m

/-- `r i` is where the active element `i` of an access at the addresses `a` goes (R169): each is translated by itself under
MSPACE 0 and 1 and in an indexed access (`each`); and else each page is translated once, for its lowest active element,
also where that fails: element `i` takes the translation of element `o i`, which no lower one has served. -/
def ReachOf (s : State) (need : Need) (each : Bool) (act : Nat → Prop) (a : Nat → Word) (r : Nat → Except Miss Hit) :
    Prop :=
  (each = true ∨ s.ctx.vec.mspace ≠ 2 → ∀ i, act i → r i = s.reach need (a i)) ∧
  (each = false → s.ctx.vec.mspace = 2 → ∃ o : Nat → Nat, ∀ i, act i →
    o i ≤ i ∧ act (o i) ∧ o (o i) = o i ∧
    (∀ j < o i, act j → o j = j → ¬ s.servesPage (a j) (a i)) ∧
    (o i = i → r i = s.reach need (a i)) ∧
    (o i ≠ i → s.servesPage (a (o i)) (a i) ∧ r i = s.servedBy need (a (o i)) (a i)))

/-! ### The turns of a step, and the vector queue (R26-R33, R297) -/

/-- The next step is an issue turn of the context that moves in `f`, ahead of the vector commit pointer where `ahead` says
so: no mark of TIME has come; the agenda names its core, or names nothing while no event is due; it is the context that
issues first there, or of all; it has no trap to take (R289, R295), can issue, and does not hold after a YIELD (R229). -/
structure IssueTurn (s f : State) (ahead : Bool) : Prop where
  quiet : s.dueMark = none
  issues : f.ctx.issues = true
  goes : f.yieldHolds f.ctx = false
  calm : f.ctx.flow.cancelPending = false ∧ f.ctx.flow.preemptPending = false
  turn :
    (∃ (core : Nat) (rest : List Turn) (c : Ctx), s.agenda = .issue core ahead :: rest ∧
      let s0 : State := { s with agenda := rest }
      s0.firstOf (s0.onCore core) = some c ∧ s0.focus c.num = some f) ∨
    (ahead = false ∧ s.agenda = [] ∧ (∀ x ∈ s.chances, s.due x = false) ∧
      ∃ c : Ctx, s.firstOf s.contexts = some c ∧ s.focus c.num = some f)

/-- The cycle from which a context has waited for its turn to issue (R297). -/
def State.waitsSince (s : State) (c : Ctx) : Nat := c.flow.eligible.getD s.dev.clock.cycles

/-- An instruction neither waits nor traps. -/
def State.ran (t : State) : Prop := t.ctx.flow.status = .running ∧ t.ctx.flow.handlerFirst = false

/-- The instruction `i` waits for what the vector queue has still to give: a scalar register that it names (R30), or the VL
of a first-fault load (R174). -/
def Flow.heldUp (f : Flow) (i : Instr) : Prop :=
  (scalarClass i = true ∧ ∃ r ∈ scalarsOf i, r ≠ 0 ∧ ∃ q ∈ f.queue, q.early = none ∧ r ∈ resultRegs q.instr) ∨
    ((∃ q ∈ f.queue, firstFaultLoad q.instr = true) ∧
      (pushed i = true ∨ ∃ (rd ra rb : Reg) (whole : Bool), i = .setvl rd ra rb whole))

/-- `v` with what the instruction `q` has written to scalar registers in the context `t` (R30); what one that started early
wrote is out before. -/
def Queued.gives (q : Queued) (t : Ctx) (v v' : Vector Word 32) : Prop :=
  ∀ r : Reg, v'[r.toNat]'r.isLt =
    if r ≠ 0 ∧ r ∈ resultRegs q.instr ∧ q.early = none then t.regs[r.toNat]'r.isLt else v[r.toNat]'r.isLt

/-- The context `c` after its lane group has completed the head `q` of the vector queue of `old`, in `t` (R28, R30): its
scalar thread stands where it stood, and what `q` wrote has reached it and every instruction behind `q`. A first-fault load
gives VL (R174). -/
structure HeadDone (old t c : Ctx) (q : Queued) : Prop where
  pc : c.pc = old.pc
  front : c.front = old.front
  regs : q.gives t old.regs c.regs
  vl : c.vec.vl = if firstFaultLoad q.instr = true then min t.vec.vl old.vec.vl else old.vec.vl
  mspace : c.vec.mspace = old.vec.mspace
  vec : ({ c.vec with vl := t.vec.vl, mspace := t.vec.mspace } : VecState) = t.vec
  trap : c.trap = t.trap
  eng : c.eng = t.eng
  place : c.place = t.place
  origin : c.origin = t.origin
  engine : c.flow.engine = none
  length : c.flow.queue.length + 1 = old.flow.queue.length
  queue : ∀ (k : Nat) (p p' : Queued), old.flow.queue[k + 1]? = some p → c.flow.queue[k]? = some p' →
    p' = ({ p with regs := p'.regs } : Queued) ∧ q.gives t p.regs p'.regs

/-! ### Vector stores (R166-R175) -/

/-- The elements that one access of a register takes: one, or those of a rod (R170). -/
def Ctx.perAccess (c : Ctx) (vt : VecNo) : Nat := if (c.typ vt).isBead then (c.typ vt).rod else 1

/-- The bytes of one access of a register (R170). -/
def Ctx.accessWidth (c : Ctx) (vt : VecNo) : Nat := if (c.typ vt).isBead then 64 else (c.typ vt).bits / 8

/-- Access `i` of a register takes part. -/
def Ctx.accesses (c : Ctx) (vt : VecNo) (mk : MaskNo) (i : Nat) : Prop := c.acts mk (i * c.perAccess vt)

/-- The accesses that take part, by their first elements, and where they go. -/
def Ctx.accessHits (c : Ctx) (vt : VecNo) (mk : MaskNo) (h : Nat → Hit) : List (Nat × Hit) :=
  ((List.range (c.vec.vl / c.perAccess vt)).filter fun i => c.active mk (i * c.perAccess vt)).map fun i =>
    (i * c.perAccess vt, h i)

/-- A form of VST: the instruction, the address of each access, what its types and its stride have to meet, the tickets it
draws (R175), and whether it is indexed. -/
structure VstForm where
  instr : Instr
  addr : Nat → Word
  fits : Prop
  tickets : Nat
  indexed : Bool

/-- The forms of VST (R167, R172, R175). -/
def vstForms (s : State) (vt vx : VecNo) (rb rs : Reg) (mk : MaskNo) (st : Stream) : List VstForm :=
  let c := s.ctx
  let plain := (c.typ vt).isBead = false
  let byIndex := plain ∧ (c.typ vx).isInt = true
  let tickets := ((List.range c.vec.vl).filter fun i => c.active mk i).length
  let unit := fun i => s.reg rb + BitVec.ofNat 64 (i * c.accessWidth vt)
  let indexed := fun i => s.reg rb + BitVec.ofInt 64 ((c.typ vx).int (c.elem vx i))
  [⟨.vst vt rb mk st, unit, True, 0, false⟩,
    ⟨.vstStrided vt rb rs mk st, fun i => s.reg rb + BitVec.ofNat 64 i * s.reg rs,
      plain ∨ (s.reg rs).toNat % 64 = 0, 0, false⟩,
    ⟨.vstIndexed vt rb vx mk st, indexed, byIndex, 0, true⟩,
    ⟨.vstSc vt rb mk st, unit, plain, tickets, false⟩,
    ⟨.vstScIndexed vt rb vx mk st, indexed, byIndex, tickets, true⟩]

/-- The packets of a store (R322). -/
def VstForm.packets (p : VstForm) (s : State) (vt : VecNo) (mk : MaskNo) (h : Nat → Hit) : List Packet :=
  s.headers ⟨.write, s.ctx.typ vt, p.indexed, 1⟩ (s.ctx.accessHits vt mk h)

/-- A VST whose accesses are aligned and permitted, and which no engine command that has still to read its operands holds up
(R169, R177, R204). -/
structure VstForm.Ready (p : VstForm) (s : State) (vt vx : VecNo) (rb : Reg) (mk : MaskNo) (h : Nat → Hit) : Prop where
  mem : s.mem.wf
  vec : s.ctx.vec.wf
  queue : QueueReady s [vt, vx]
  rods : s.ctx.rodsFit [s.ctx.typ vt]
  base : (s.ctx.typ vt).isBead = true → (s.reg rb).toNat % 64 = 0
  free : s.ctx.vec.mspace = 2 ∨
    ∀ m ∈ s.dev.engines.cmds, m.reading = true → m.coreNo = s.ctx.place.coreNo → ∀ r, m.readSpan = some r →
      ∀ i, s.ctx.accesses vt mk i → ∀ b < s.ctx.accessWidth vt, ∀ o < 2 ^ 24,
        (h i).loc + b = spadLoc s.ctx.place.coreNo o → ¬ (r.1 ≤ o ∧ o < r.2)
  fits : p.fits
  aligned : ∀ i, s.ctx.accesses vt mk i → (p.addr i).toNat % s.ctx.accessWidth vt = 0
  reach : ReachOf s .write p.indexed (s.ctx.accesses vt mk) p.addr fun i => .ok (h i)

/-- Memory has taken the bytes of every access of the store at its address, those of the last in order where several meet;
no other byte changes but accessed and dirty bits; an SC store has drawn its tickets. -/
structure VstForm.Done (p : VstForm) (s t : State) (vt : VecNo) (mk : MaskNo) (h : Nat → Hit) : Prop where
  rest : SameButVector s t (s.ctx.spill (s.ctx.typ vt) vt (s.ctx.accessHits vt mk h)) p.tickets
  outside : MemoryOutside s t fun x =>
    ∃ i, s.ctx.accesses vt mk i ∧ ((h i).marks x ∨ within (h i).loc (s.ctx.accessWidth vt) x)
  bytes : ∀ i b, s.ctx.accesses vt mk i → b < s.ctx.accessWidth vt →
    (∀ j > i, s.ctx.accesses vt mk j → ¬ within (h j).loc (s.ctx.accessWidth vt) ((h i).loc + b)) →
    s.dev.fencedAt ((h i).loc + b) = false →
    some (t.mem.read ((h i).loc + b)) = (s.ctx.accessBytes vt i)[b]?

/-- What a list of new values gives for index `j`, where `old` stood. -/
def listed {α : Type} (new : List (Nat × α)) (j : Nat) (old : α) : α :=
  ((new.find? fun p => p.1 == j).map (·.2)).getD old

/-- DEVSTAT after `sat` saturated elements and `inl` re-anchored rods: counts that stop at all ones, and STICKY (R22). -/
structure Counted (old new : Word) (sat inl : Nat) : Prop where
  none : sat = 0 → inl = 0 → new = old
  sticky : sat ≠ 0 ∨ inl ≠ 0 → new.getLsbD 63 = true
  satn : new.toNat % 2 ^ 32 = min (2 ^ 32 - 1) (old.toNat % 2 ^ 32 + sat)
  inline : new.toNat / 2 ^ 32 % 2 ^ 31 = min (2 ^ 31 - 1) (old.toNat / 2 ^ 32 % 2 ^ 31 + inl)

/-- Vector register `vd` and the anchor register it is bound to hold what `o` delivers, and else what they held;
DEVSTAT has counted its resolved overflow events. -/
structure Delivered (s t : State) (vd : VecNo) (o : VecOut) : Prop where
  elems : ∀ j, (t.ctx.vreg vd).get j = listed (o.elems.map fun p => (p.1, BitVec.ofNat 64 p.2)) j ((s.ctx.vreg vd).get j)
  anchors : ∀ j, (t.ctx.anchorReg vd).get j = listed o.anchors j ((s.ctx.anchorReg vd).get j)
  devstat : Counted s.ctx.vec.devstat t.ctx.vec.devstat o.sat o.inl

/-- The instruction `i` delivers `o` to `vd` (R81): an overflow event traps with its element under DEVPOL 0, and then
nothing is written; in every other case the instruction completes, and changes nothing but what `o` delivers. -/
def Delivers (i : Instr) (s : State) (vd : VecNo) (o : VecOut) : Prop :=
  (∀ e, o.event = some e → s.ctx.vec.devpol = 0 → exec i s = .next (s.takeTrap .devOvf (BitVec.ofNat 64 e))) ∧
  (o.event = none ∨ s.ctx.vec.devpol ≠ 0 →
    Completes i s 4 { vecs := [vd], anchors := [tagAnchor (s.ctx.tag vd)], devstat := true } fun t => Delivered s t vd o)

/-- The VOP and VOPS arithmetic instructions, each with its operation and its second operand (R123-R127). -/
def arithForms (s : State) (vd va vb : VecNo) (sb : Reg) (mk : MaskNo) : List (Instr × VOp × Operand) :=
  let x := Operand.scalar (s.reg sb)
  [(.vadd vd va vb mk, .add, .vec vb), (.vsub vd va vb mk, .sub, .vec vb), (.vmul vd va vb mk, .mul, .vec vb),
    (.vdiv vd va vb mk, .div, .vec vb), (.vmin vd va vb mk, .min, .vec vb), (.vmax vd va vb mk, .max, .vec vb),
    (.vand vd va vb mk, .and, .vec vb), (.vor vd va vb mk, .or, .vec vb), (.vxor vd va vb mk, .xor, .vec vb),
    (.vsll vd va vb mk, .sll, .vec vb), (.vsrl vd va vb mk, .srl, .vec vb), (.vsra vd va vb mk, .sra, .vec vb),
    (.vfma vd va vb mk, .fma, .vec vb), (.vfnma vd va vb mk, .fnma, .vec vb),
    (.vabs vd va mk, .abs, .none), (.vneg vd va mk, .neg, .none), (.vsqrt vd va mk, .sqrt, .none),
    (.vrsq vd va mk, .rsq, .none), (.vrcp vd va mk, .rcp, .none), (.vexp2 vd va mk, .exp2, .none),
    (.vlog2 vd va mk, .log2, .none),
    (.vadds vd va sb mk, .add, x), (.vsubs vd va sb mk, .sub, x), (.vrsubs vd va sb mk, .rsub, x),
    (.vmuls vd va sb mk, .mul, x), (.vfmas vd va sb mk, .fma, x), (.vmins vd va sb mk, .min, x),
    (.vmaxs vd va sb mk, .max, x), (.vands vd va sb mk, .and, x), (.vors vd va sb mk, .or, x),
    (.vxors vd va sb mk, .xor, x), (.vslls vd va sb mk, .sll, x), (.vsrls vd va sb mk, .srl, x),
    (.vsras vd va sb mk, .sra, x)]

/-! ### Vector results as the spec forms them (R68-R83) -/

/-- The code of element `i` of a bead register (R70). -/
def Ctx.code (c : Ctx) (v : VecNo) (i : Nat) : Int := (BitVec.ofNat (c.typ v).bits (c.elem v i)).toInt

/-- The rods of a bead register below VL that are active (R5). -/
def Ctx.rodsOn (c : Ctx) (vd : VecNo) (mk : MaskNo) : List Nat :=
  (List.range (c.vec.vl / (c.typ vd).rod)).filter fun k => c.active mk (k * (c.typ vd).rod)

/-- Some bead register among `srcs` has SAT set in a rod that holds an element of rod `k` of `vd` (R75). -/
def Ctx.fedSat (c : Ctx) (srcs : List VecNo) (vd : VecNo) (k : Nat) : Prop :=
  ∃ v ∈ srcs, (c.typ v).isBead = true ∧ ∃ j < (c.typ vd).rod,
    ((c.anchorReg v).get ((k * (c.typ vd).rod + j) / (c.typ v).rod)).getLsbD 40 = true

/-- An anchor word with these fields, and with zero in bits 47:41 (R71). -/
structure AnchorIs (w : Word) (gen : Nat) (sat : Prop) (exp : Int) (centre : Nat) : Prop where
  centre : w.toNat % 2 ^ 32 = centre
  exp : (w.extractLsb' 32 8).toInt = exp
  sat : w.getLsbD 40 = true ↔ sat
  zero : w.extractLsb' 41 7 = 0
  gen : w.toNat / 2 ^ 48 = gen % 2 ^ 16

/-- a ≤ b, of values that compare (R66). -/
def Exact.atMost (a b : Exact) : Prop := a.compare b = some .lt ∨ a.compare b = some .eq

/-- RNE((v − c)/2^e), for the bits of the centre c (R76, R78). -/
def deviation (b : Nat) (e : Int) (v : Exact) : Int := ((v.sub (fp32.decode b)).mul (.num false 1 (-e))).rne

/-- A presented value is an overflow event (R76, R78). -/
def overflows (t : ElemType) (b : Nat) (e : Int) (v : Exact) : Bool :=
  v.isInf || (v.isFinite && decide (t.dmax < (deviation b e v).natAbs))

/-- The code of a presented value, an event resolved by saturation (R76, R78, R81). -/
def codeFor (t : ElemType) (b : Nat) (e : Int) (v : Exact) : Int :=
  if v.isFinite then max (-(t.dmax : Int)) (min t.dmax (deviation b e v)) else -(t.dmax + 1 : Int)

/-- The bits `b` of the centre and the exponent `e` of a rod formed from the values `vals` (R76), or by the zero-centre
variant (R77). -/
structure FreshOf (t : ElemType) (zeroCentre : Bool) (vals : List Exact) (b : Nat) (e : Int) : Prop where
  nothing : (∀ v ∈ vals, v.isFinite = false) → b = 0 ∧ e = -126
  centre : (∃ v ∈ vals, v.isFinite = true) → ∃ mx ∈ vals, ∃ mn ∈ vals, mx.isFinite = true ∧ mn.isFinite = true ∧
    (∀ v ∈ vals, v.isFinite = true → mn.atMost v ∧ v.atMost mx) ∧
    let mid := (mx.add mn).mul (.num false 1 (-1))
    let r := fp32.round mid
    let fits := fun k : Int => (mx.sub (fp32.decode b)).atMost (.num false t.dmax k) ∧
      ((fp32.decode b).sub mn).atMost (.num false t.dmax k)
    (zeroCentre = true ∨ mid.isZero = true → b = 0) ∧
    (zeroCentre = false → mid.isZero = false → b = if r % 2 ^ 31 = 0x7F800000 then r - 1 else r) ∧
    -126 ≤ e ∧ e ≤ 127 ∧ (fits e ∨ e = 127) ∧ ∀ k : Int, -126 ≤ k → k < e → ¬ fits k

/-- A rod formed anew (R76) in an entry that held `w`: its word, its codes and its saturated elements. -/
def FreshRod (t : ElemType) (w : Word) (fed : Prop) (vals : List Exact) (b : Nat) (e : Int) (w' : Word) (d : Nat → Int)
    (sat : Nat) : Prop :=
  FreshOf t false vals b e ∧ (∀ j v, vals[j]? = some v → d j = codeFor t b e v) ∧
    sat = vals.countP (overflows t b e) ∧
    AnchorIs w' (anchorGen w + 1) (anchorSat w = true ∨ fed ∨ sat ≠ 0) e b

/-- No deviation can be formed against an anchor: a NaN rod, or a centre that is not finite (R78). -/
def deadAnchor (w : Word) : Prop := anchorExp w ≤ -127 ∨ (fp32.decode (anchorCentre w)).isFinite = false

/-- A rod quantised against its anchor `w` (R78, R81) under the policy `pol`. -/
def QuantRod (t : ElemType) (pol : BitVec 2) (w : Word) (fed : Prop) (vals : List Exact) (w' : Word) (d : Nat → Int)
    (sat inl : Nat) : Prop :=
  let b := anchorCentre w
  let e := anchorExp w
  let anew := pol = 2 ∧ ∃ v ∈ vals, v.isFinite = true ∧ overflows t b e v = true
  (deadAnchor w → (∀ j < vals.length, d j = -(t.dmax + 1 : Int)) ∧ sat = 0 ∧ inl = 0 ∧
    AnchorIs w' (anchorGen w) (anchorSat w = true ∨ fed) e b) ∧
  (¬ deadAnchor w → ¬ anew → (∀ j v, vals[j]? = some v → d j = codeFor t b e v) ∧
    sat = vals.countP (overflows t b e) ∧ inl = 0 ∧
    AnchorIs w' (anchorGen w) (anchorSat w = true ∨ fed ∨ sat ≠ 0) e b) ∧
  (¬ deadAnchor w → anew → inl = 1 ∧ ∃ b' e', FreshRod t w fed vals b' e' w' d sat)

/-- A rod as an operand of bead addition: its centre, exponent, codes and values. -/
structure RodOperand where
  centre : Nat
  exp : Int
  code : Nat → Int
  value : Nat → Exact

/-- Rod `k` of an operand: a scalar is a rod of that centre, exponent −126 and zero deviations (R83). -/
def Ctx.rodOperand (c : Ctx) (t : ElemType) (o : Operand) (k : Nat) : RodOperand :=
  match o with
  | .vec v =>
    let w := (c.anchorReg v).get k
    ⟨anchorCentre w, anchorExp w, fun j => c.code v (k * t.rod + j), fun j => c.valueAt v (k * t.rod + j)⟩
  | .scalar x => ⟨x.toNat % 2 ^ 32, -126, fun _ => 0, fun _ => fp32.decode (x.toNat % 2 ^ 32)⟩
  | .none => ⟨0, -126, fun _ => 0, fun _ => .num false 0 0⟩

/-- Element `j` of a bead sum before it is clamped: nothing where a code is NaE (R79). -/
def RodOperand.total (t : ElemType) (sub : Bool) (x y : RodOperand) (j : Nat) : Option Int :=
  let e := max x.exp y.exp
  let part := fun z : RodOperand => (Exact.num (decide (z.code j < 0)) (z.code j).natAbs (z.exp - e)).rne
  let nae := -(t.dmax + 1 : Int)
  if x.code j = nae ∨ y.code j = nae then none else some (if sub then part x - part y else part x + part y)

/-- The centre of a bead sum (R79). -/
def RodOperand.centreSum (sub : Bool) (x y : RodOperand) : Nat :=
  let cy := fp32.decode y.centre
  fp32.round ((fp32.decode x.centre).add (if sub then cy.neg else cy))

/-- Element `j` of a bead sum is an overflow event (R79). -/
def RodOperand.exceeds (t : ElemType) (sub : Bool) (x y : RodOperand) (j : Nat) : Bool :=
  decide (-127 < x.exp) && decide (-127 < y.exp) && (fp32.decode (RodOperand.centreSum sub x y)).isFinite &&
    match RodOperand.total t sub x y j with
    | some d => decide (t.dmax < d.natAbs)
    | none => false

/-- The sum of two rods in an entry that held `w` (R79, R81) under the policy `pol`. -/
def SumRod (t : ElemType) (pol : BitVec 2) (sub : Bool) (w : Word) (fed : Prop) (x y : RodOperand) (w' : Word)
    (d : Nat → Int) (sat inl : Nat) : Prop :=
  let b := RodOperand.centreSum sub x y
  let exceeds := RodOperand.exceeds t sub x y
  let nan := x.exp ≤ -127 ∨ y.exp ≤ -127
  let anew := pol = 2 ∧ ∃ j < t.rod, exceeds j = true
  (nan → (∀ j < t.rod, d j = 0) ∧ sat = 0 ∧ inl = 0 ∧
    AnchorIs w' (anchorGen w) (anchorSat w = true ∨ fed) (-128) 0x7FC00000) ∧
  (¬ nan → ¬ anew → (∀ j < t.rod, d j = match RodOperand.total t sub x y j with
      | none => -(t.dmax + 1 : Int)
      | some n => if (fp32.decode b).isFinite then max (-(t.dmax : Int)) (min t.dmax n) else 0) ∧
    sat = (List.range t.rod).countP exceeds ∧ inl = 0 ∧
    AnchorIs w' (anchorGen w) (anchorSat w = true ∨ fed ∨ sat ≠ 0) (max x.exp y.exp) b) ∧
  (¬ nan → anew → inl = 1 ∧ ∃ b' e', FreshRod t w fed
    ((List.range t.rod).map fun j => (x.value j).add (if sub then (y.value j).neg else y.value j)) b' e' w' d sat)

/-- What `o` delivers to the rods `ks` of bead register `vd`: the lowest overflow event, by `ev`, and for each rod a word,
codes, saturated elements and re-anchorings that `P` relates; every other rod keeps what it holds. -/
structure RodsAre (c : Ctx) (vd : VecNo) (o : VecOut) (ks : List Nat) (ev : Nat → Nat → Prop)
    (P : Nat → Word → (Nat → Int) → Nat → Nat → Prop) : Prop where
  event : ∀ n, o.event = some n ↔
    let r := (c.typ vd).rod
    (n / r ∈ ks ∧ ev (n / r) (n % r)) ∧ ∀ m < n, ¬ (m / r ∈ ks ∧ ev (m / r) (m % r))
  rods : ∃ (w : Nat → Word) (d : Nat → Nat → Int) (sat inl : Nat → Nat),
    let r := (c.typ vd).rod
    (∀ k ∈ ks, P k (w k) (d k) (sat k) (inl k)) ∧ o.sat = (ks.map sat).sum ∧ o.inl = (ks.map inl).sum ∧
    (∀ k old, listed o.anchors k old = if k ∈ ks then w k else old) ∧
    ∀ i, listed o.elems i (c.elem vd i) =
      if i / r ∈ ks then (d (i / r) (i % r) % 2 ^ (c.typ vd).bits).toNat else c.elem vd i

/-- The values `vals` of the elements of rod `k`. -/
def rodVals (t : ElemType) (vals : Nat → Exact) (k : Nat) : List Exact :=
  (List.range t.rod).map fun j => vals (k * t.rod + j)

/-- `o` quantises `vals` into the active rods of `vd` (R78). -/
def Quantised (c : Ctx) (vd : VecNo) (mk : MaskNo) (o : VecOut) (srcs : List VecNo) (vals : Nat → Exact) : Prop :=
  let t := c.typ vd
  let w := (c.anchorReg vd).get
  RodsAre c vd o (c.rodsOn vd mk)
    (fun k j => ¬ deadAnchor (w k) ∧
      overflows t (anchorCentre (w k)) (anchorExp (w k)) (vals (k * t.rod + j)) = true)
    fun k => QuantRod t c.vec.devpol (w k) (c.fedSat srcs vd k) (rodVals t vals k)

/-- `o` forms the rods `ks` of `vd` anew from `vals` (R76), and raises no inline re-anchoring. -/
def Freshened (c : Ctx) (vd : VecNo) (ks : List Nat) (o : VecOut) (fed : Nat → Prop) (vals : Nat → Exact) : Prop :=
  let t := c.typ vd
  ∃ (b : Nat → Nat) (e : Nat → Int),
    RodsAre c vd o ks (fun k j => overflows t (b k) (e k) (vals (k * t.rod + j)) = true)
      fun k w' d sat inl => inl = 0 ∧
        FreshRod t ((c.anchorReg vd).get k) (fed k) (rodVals t vals k) (b k) (e k) w' d sat

/-- `o` copies the codes and the anchor words of the active rods of `va` (R84). -/
def Copied (c : Ctx) (vd va : VecNo) (mk : MaskNo) (o : VecOut) : Prop :=
  RodsAre c vd o (c.rodsOn vd mk) (fun _ _ => False) fun k w' d sat inl =>
    w' = (c.anchorReg va).get k ∧ (∀ j < (c.typ vd).rod, d j = c.code va (k * (c.typ vd).rod + j)) ∧ sat = 0 ∧ inl = 0

/-- `o` gives each active element of a register of another type than a bead type its value by `f`, and no more. -/
structure ElemsAre (c : Ctx) (mk : MaskNo) (o : VecOut) (f : Nat → Nat) : Prop where
  quiet : o.anchors = [] ∧ o.sat = 0 ∧ o.inl = 0 ∧ o.event = none
  on : ∀ i old, c.acts mk i → listed o.elems i old = f i
  off : ∀ i old, ¬ c.acts mk i → listed o.elems i old = old

/-- Element `i` of an operand read in a floating operation type (R82). -/
def Ctx.floatAt (c : Ctx) (o : Operand) (i : Nat) : Exact :=
  match o with
  | .vec v => if (c.typ v).isBead then fp32.decode (fp32.round (c.valueAt v i)) else c.valueAt v i
  | .scalar w => fp32.decode (w.toNat % 2 ^ 32)
  | .none => .num false 0 0

/-- Element `i` of an operand read in an integer operation type of `w` bits (R82). -/
def Ctx.intAt (c : Ctx) (w : Nat) (o : Operand) (i : Nat) : Nat :=
  match o with
  | .vec v => ((c.typ v).int (c.elem v i) % 2 ^ w).toNat
  | .scalar x => x.toNat % 2 ^ w
  | .none => 0

/-- The exact value of element `i` of an operand under a bead operation type (R83). -/
def Ctx.exactAt (c : Ctx) (o : Operand) (i : Nat) : Exact :=
  match o with
  | .vec v => c.valueAt v i
  | o => c.floatAt o i

/-- The bits of result `i` in a floating or integer operation type `t` (R65, R67, R82). -/
def Ctx.resultBits (c : Ctx) (op : VOp) (vd va : VecNo) (b : Operand) (t : ElemType) (i : Nat) : Nat :=
  let d := if op.readsDest then Operand.vec vd else .none
  if t.isFloat then op.float t.format (c.floatAt (.vec va) i) (c.floatAt b i) (c.floatAt d i)
  else op.int t.bits t.isSigned (c.intAt t.bits (.vec va) i) (c.intAt t.bits b i) (c.intAt t.bits d i)

/-- Result `i` under a bead operation type: exact, or RN_FP32 of the exact value of a function (R83). -/
def Ctx.resultExact (c : Ctx) (op : VOp) (vd va : VecNo) (b : Operand) (i : Nat) : Exact :=
  let x := c.exactAt (.vec va) i
  let y := c.exactAt b i
  let d := c.exactAt (if op.readsDest then Operand.vec vd else .none) i
  if op.isFun ∨ op = .div then fp32.decode (op.float fp32 x y d) else op.exact x y d

/-- What an operation of type `t` delivers (R68, R69, R79, R83). -/
structure ArithIs (c : Ctx) (op : VOp) (vd va : VecNo) (b : Operand) (mk : MaskNo) (t : ElemType) (o : VecOut) : Prop where
  elems : (c.typ vd).isBead = false → ElemsAre c mk o fun i =>
    if t.isBead then (c.typ vd).ofValue (c.resultExact op vd va b i)
    else t.deliver (c.typ vd) (c.resultBits op vd va b t i)
  quantised : (c.typ vd).isBead = true → t ≠ c.typ vd → Quantised c vd mk o (op.sources vd va b) fun i =>
    if t.isBead then c.resultExact op vd va b i else t.value (c.resultBits op vd va b t i)
  summed : (c.typ vd).isBead = true → t = c.typ vd → op ∈ [.add, .sub, .rsub] →
    let x := c.rodOperand t (if op = .rsub then b else .vec va)
    let y := c.rodOperand t (if op = .rsub then .vec va else b)
    let sub := op != .add
    RodsAre c vd o (c.rodsOn vd mk) (fun k j => RodOperand.exceeds t sub (x k) (y k) j = true) fun k =>
      SumRod t c.vec.devpol sub ((c.anchorReg vd).get k) (c.fedSat (op.sources vd va b) vd k) (x k) (y k)
  fresh : (c.typ vd).isBead = true → t = c.typ vd → op ∉ [.add, .sub, .rsub] →
    Freshened c vd (c.rodsOn vd mk) o (c.fedSat (op.sources vd va b) vd) (c.resultExact op vd va b)

/-- What a conversion delivers (R68, R129). -/
structure ConvertIs (c : Ctx) (vd va : VecNo) (mk : MaskNo) (o : VecOut) : Prop where
  elems : (c.typ vd).isBead = false → ElemsAre c mk o fun i =>
    if (c.typ va).isBead then (c.typ vd).ofValue (c.valueAt va i) else (c.typ va).deliver (c.typ vd) (c.elem va i)
  copied : (c.typ vd).isBead = true → c.typ va = c.typ vd → Copied c vd va mk o
  quantised : (c.typ vd).isBead = true → c.typ va ≠ c.typ vd → Quantised c vd mk o [va] (c.valueAt va)

/-- What VANCH and VANCHZ deliver: fresh anchors of the rods that have a selected element, and nothing else (R156). -/
structure AnchorsAre (c : Ctx) (zeroCentre : Bool) (vd va : VecNo) (mk : MaskNo) (o : VecOut) : Prop where
  quiet : o.elems = [] ∧ o.sat = 0 ∧ o.inl = 0 ∧ o.event = none
  entries : ∀ k old,
    let r := (c.typ vd).rod
    let sel := ((List.range r).map (k * r + ·)).filter fun i => c.active mk i
    let w := (c.anchorReg vd).get k
    let fed := (c.typ va).isBead = true ∧ ∃ i ∈ sel, ((c.anchorReg va).get (i / (c.typ va).rod)).getLsbD 40 = true
    (k < c.vec.vl / r → sel ≠ [] → ∃ b e, FreshOf (c.typ vd) zeroCentre (sel.map (c.valueAt va)) b e ∧
      AnchorIs (listed o.anchors k old) (anchorGen w + 1) (anchorSat w = true ∨ fed) e b) ∧
    (c.vec.vl / r ≤ k ∨ sel = [] → listed o.anchors k old = old)

/-- What VINS delivers to a bead register (R139). -/
structure InsertIs (c : Ctx) (vd : VecNo) (n : Nat) (v : Exact) (o : VecOut) : Prop where
  rod :
    let t := c.typ vd
    let w := (c.anchorReg vd).get (n / t.rod)
    let b := anchorCentre w
    let e := anchorExp w
    let anew := c.vec.devpol = 2 ∧ v.isFinite = true ∧ overflows t b e v = true
    let others := fun d : Nat → Int => ∀ j < t.rod, j ≠ n % t.rod → d j = c.code vd (n / t.rod * t.rod + j)
    RodsAre c vd o [n / t.rod] (fun _ j => j = n % t.rod ∧ ¬ deadAnchor w ∧ overflows t b e v = true)
      fun _ w' d sat inl =>
        (deadAnchor w → d (n % t.rod) = -(t.dmax + 1 : Int) ∧ others d ∧ sat = 0 ∧ inl = 0 ∧
          AnchorIs w' (anchorGen w) (anchorSat w = true) e b) ∧
        (¬ deadAnchor w → ¬ anew → d (n % t.rod) = codeFor t b e v ∧ others d ∧ inl = 0 ∧
          sat = (if overflows t b e v then 1 else 0) ∧
          AnchorIs w' (anchorGen w) (anchorSat w = true ∨ sat ≠ 0) e b) ∧
        (¬ deadAnchor w → anew → inl = 1 ∧ ∃ b' e', FreshRod t w False
          (rodVals t (fun i => if i = n then v else c.valueAt vd i) (n / t.rod)) b' e' w' d sat)

/-- What VBEAD delivers: clamped integers as codes; anchors are kept (R162). -/
structure BeadsAre (c : Ctx) (vd va : VecNo) (mk : MaskNo) (o : VecOut) : Prop where
  quiet : o.anchors = [] ∧ o.sat = 0 ∧ o.inl = 0 ∧ o.event = none
  elems : ∀ i old,
    let t := c.typ vd
    (i / t.rod ∈ c.rodsOn vd mk → listed o.elems i old =
      (min (max ((c.typ va).int (c.elem va i)) (-(t.dmax + 1 : Int))) t.dmax % 2 ^ t.bits).toNat) ∧
    (i / t.rod ∉ c.rodsOn vd mk → listed o.elems i old = old)

/-- What VADDC delivers: the codes of `va`, with a scalar added to its centres (R163). -/
def CentresAre (c : Ctx) (vd va : VecNo) (x : Word) (mk : MaskNo) (o : VecOut) : Prop :=
  let t := c.typ vd
  RodsAre c vd o (c.rodsOn vd mk) (fun _ _ => False) fun k w' d sat inl =>
    let w := (c.anchorReg vd).get k
    let a := (c.anchorReg va).get k
    let kept := anchorSat w = true ∨ anchorSat a = true
    sat = 0 ∧ inl = 0 ∧
    (anchorExp a ≤ -127 → (∀ j < t.rod, d j = 0) ∧ AnchorIs w' (anchorGen w) kept (-128) 0x7FC00000) ∧
    (-127 < anchorExp a → (∀ j < t.rod, d j = c.code va (k * t.rod + j)) ∧
      AnchorIs w' (anchorGen w) kept (anchorExp a)
        (fp32.round ((fp32.decode (anchorCentre a)).add (fp32.decode (x.toNat % 2 ^ 32)))))

/-- `o` copies, of each rod below VL, the codes and the anchor word of one source or the other (R143). -/
def RodsSelected (c : Ctx) (vd va vb : VecNo) (mk : MaskNo) (o : VecOut) : Prop :=
  let n := (c.typ vd).rod
  RodsAre c vd o (List.range (c.vec.vl / n)) (fun _ _ => False) fun k w' d sat inl =>
    let v := if (c.mask mk).testBit (k * n) then va else vb
    w' = (c.anchorReg v).get k ∧ (∀ j < n, d j = c.code v (k * n + j)) ∧ sat = 0 ∧ inl = 0

/-- The running sum of VSCAN at element `i` (R148): from the first active element on, in FP32 for a bead register and else
in the type of the register, with one rounding or wrap for each step. -/
def Ctx.sumTo (c : Ctx) (va : VecNo) (mk : MaskNo) (i : Nat) : Nat :=
  let t := if (c.typ va).isBead then ElemType.fp32 else c.typ va
  let v := fun j => if t.isFloat then t.format.round (c.valueAt va j) else c.elem va j
  let add := fun x y => if t.isFloat then t.format.round ((t.format.decode x).add (t.format.decode y))
    else (x + y) % 2 ^ t.bits
  match (List.range (i + 1)).filter fun j => mk == 0 || (c.mask mk).testBit j with
  | [] => 0
  | j :: js => (js.map v).foldl add (v j)

/-- The number that a finite value is. -/
def Exact.rat : Exact → ℚ
  | .num n m e => (if n then -1 else 1) * m * 2 ^ e
  | _ => 0

/-- The operand of an MXM gives `n` rows, those of a register with every element of a K step. -/
def MatrixRows (t : MxType) (o : MxSource) (n : Nat) : Prop :=
  match o with
  | .rows rs => rs.length = n ∧ ∀ r ∈ rs, r.codes.length = mxStep t
  | .offsets os => os.length = n

/-- The value of element `k` of row `r` of an operand of an MXM on a core: a code against the anchor word of its row, or a
BF16 (R70, R73, R214, R215). -/
def State.rowValue (s : State) (core : Nat) (t : MxType) (o : MxSource) (r k : Nat) : Exact :=
  let bead := fun (u : ElemType) (w : Word) (code : Nat) => rodValue u w (BitVec.ofNat u.bits code).toInt
  match o with
  | .rows rs =>
    let row := rs.getD r ⟨0, []⟩
    let code := (row.codes.getD k 0).toNat
    match t with
    | .bf16 => bf16.decode code
    | .d8 => bead .d8 row.anchor code
    | .d4 => bead .d4 row.anchor code
  | .offsets os =>
    let loc := spadLoc core (os.getD r 0)
    let w := BitVec.ofNat 64 (s.mem.number loc 8)
    match t with
    | .bf16 => bf16.decode (s.mem.number (loc + 2 * k) 2)
    | .d8 => bead .d8 w (s.mem.number (loc + 8 + k) 1)
    | .d4 => bead .d4 w (s.mem.number (loc + 8 + k / 2) 1 / 16 ^ (k % 2))

/-- Some addend of a matrix step is an infinity of sign `n`: the accumulator, or the product of a pair (R87). -/
def infiniteTerm (acc : Exact) (ps : List (Exact × Exact)) (n : Bool) : Prop :=
  acc = .inf n ∨ ∃ p ∈ ps, (p.1.isInf = true ∨ p.2.isInf = true) ∧ (p.1.isNeg != p.2.isNeg) = n

/-- Some addend of a matrix step is a NaN: the accumulator, a factor, or infinity × 0 (R87). -/
def invalidTerm (acc : Exact) (ps : List (Exact × Exact)) : Prop :=
  acc = .nan ∨ ∃ p ∈ ps, p.1 = .nan ∨ p.2 = .nan ∨ (p.1.isInf = true ∧ p.2.isZero = true) ∨
    (p.1.isZero = true ∧ p.2.isInf = true)

/-- The bits of an element of a matrix step (R86, R87): a NaN; an infinity; or the exact sum of the accumulator and the
products of the pairs, rounded once, where a zero sum is negative only if every addend is (R65). -/
structure CellOf (acc : Exact) (ps : List (Exact × Exact)) (bits : Nat) : Prop where
  nan : invalidTerm acc ps ∨ (infiniteTerm acc ps true ∧ infiniteTerm acc ps false) → bits = fp32.nanBits
  inf : ∀ n, ¬ invalidTerm acc ps → infiniteTerm acc ps n → ¬ infiniteTerm acc ps (!n) →
    bits = fp32.signed n fp32.infBits
  fin : ¬ invalidTerm acc ps → (∀ n, ¬ infiniteTerm acc ps n) → ∃ n m e, bits = fp32.round (.num n m e) ∧
    (Exact.num n m e).rat = acc.rat + (ps.map fun p => p.1.rat * p.2.rat).sum ∧
    (m = 0 → (n = true ↔ acc.isNeg = true ∧ ∀ p ∈ ps, (p.1.isNeg != p.2.isNeg) = true))

/-- What VRANC delivers: each active rod that is no NaN rod formed anew from its own values (R158). -/
def Reanchored (c : Ctx) (vd : VecNo) (mk : MaskNo) (o : VecOut) : Prop :=
  Freshened c vd ((c.rodsOn vd mk).filter fun k => decide (-127 < anchorExp ((c.anchorReg vd).get k))) o (fun _ => False)
    (c.valueAt vd)

/-- The operation type that a pair of source types gives (R82). -/
def DispatchIs (a b t : ElemType) : Prop :=
  (a = b ∧ t = a) ∨ ((a = .fp32 ∧ b = .bf16 ∨ a = .bf16 ∧ b = .fp32) ∧ t = .fp32) ∨
    (a ≠ b ∧ (a ∈ [.i8, .i16, .i32, .i64] ∧ b ∈ [.i8, .i16, .i32, .i64] ∨
      a ∈ [.n8, .n32, .n64] ∧ b ∈ [ElemType.n8, .n32, .n64]) ∧ t = if a.bits < b.bits then b else a) ∨
    ((a ∈ [.d8, .d4] ∧ b = .fp32 ∨ a = .fp32 ∧ b ∈ [ElemType.d8, .d4]) ∧ t = .fp32)

/-- The operation type of an arithmetic instruction (R82, R83): that of its two sources, joined with the destination's where
it reads it; a scalar gives the type of its register. -/
def OpTypeIs (c : Ctx) (op : VOp) (vd va : VecNo) (b : Operand) (t : ElemType) : Prop :=
  match b, op.readsDest with
  | .vec vb, false => DispatchIs (c.typ va) (c.typ vb) t
  | .vec vb, true => ∃ u, DispatchIs (c.typ va) (c.typ vb) u ∧ DispatchIs u (c.typ vd) t
  | .scalar _, true => DispatchIs (c.typ va) (c.typ vd) t
  | _, _ => t = c.typ va

/-! ### The save area (R307) -/

/-- S of R307: the bytes that one register takes in a save area; `widest` is twice the widest element width. -/
def Ctx.saveWidth (c : Ctx) : Nat := (c.vlmax * widest c.vec.tags.toList c.vec.vcount + 127) / 128 * 64

/-- The registers, anchors and masks that a save area holds, each where R307 puts it: S bytes for each register, 37,456
for each anchor register, and Mb for each mask. -/
structure AreaHolds (c : Ctx) (bs : List Byte) : Prop where
  elems : ∀ (v : VecNo) (i : Nat), v.toNat < c.vec.vcount → i < c.vlmax →
    let t := c.typ v
    let at' := 128 + v.toNat * c.saveWidth
    (t ≠ .d4 → fieldAt bs (at' + i * (t.bits / 8)) (t.bits / 8) = c.elem v i) ∧
    (t = .d4 → fieldAt bs (at' + i / 2) 1 / 16 ^ (i % 2) % 16 = c.elem v i)
  anchors : ∀ (k : Fin 16) (j : Nat), j < 4682 →
    fieldAt bs (128 + c.vec.vcount * c.saveWidth + 37456 * k + 8 * j) 8 =
      ((c.vec.anchors[k]).get j).toNat
  masks : ∀ (m : MaskNo) (i : Nat), i < c.vlmax →
    (fieldAt bs (128 + c.vec.vcount * c.saveWidth + 599296 +
      m.toNat * ((c.vlmax + 511) / 512 * 64) + i / 8) 1).testBit (i % 8) = (c.mask m).testBit i

/-- The control registers that the map lists (R35, R37). -/
def controlRegisters : List (BitVec 12) :=
  [0x000, 0x001, 0x002, 0x003, 0x004, 0x005, 0x006, 0x007, 0x008, 0x009, 0x00A, 0x00B, 0x00C, 0x00D, 0x00E, 0x00F,
    0x010, 0x011, 0x012, 0x013, 0x800, 0x801, 0x802, 0x803, 0x804, 0x805, 0x806, 0x807, 0x808, 0x809, 0x80A, 0x80B,
    0x80C, 0x80D, 0x810, 0x811, 0x812, 0x813, 0x820, 0x821, 0x822, 0x823, 0x830, 0x831, 0x832, 0x833, 0x834, 0x835,
    0x836, 0x837]

/-- Where byte `j` of an area lies whose parts lie at `hits`. -/
def areaLoc : List (Hit × Nat) → Nat → Option Nat
  | [], _ => none
  | (h, k) :: rest, j => if j < k then some (h.loc + j) else areaLoc rest (j - k)

/-! ### The forms that every step keeps -/

/-- No anchor register is bound to two vector registers (R14). -/
def boundOnce (tags : Vector (BitVec 8) 64) : Prop :=
  ∀ i j : Fin 64, i < j → (tagType tags[i]).isBead = true → (tagType tags[j]).isBead = true →
    tagAnchor tags[i] ≠ tagAnchor tags[j]

/-- VCOUNT is 8, 16, 32 or 64 (R35), and an anchor register is bound once at most (R14). -/
structure Front.wf (f : Front) : Prop where
  vcount : f.vcount = 8 ∨ f.vcount = 16 ∨ f.vcount = 32 ∨ f.vcount = 64
  bound : boundOnce f.tags

/-- A context in a legal state: canonical register contents; TSTAT holds no bit but MODE, PMODE, HBVALID and HBLOST
(R38); VCOUNT and the tags are as `Front.wf` says, in the lane group and in program order (R112); MSPACE (R20) and DEVPOL
(R21) are not 3; bits 1:0 of the pc are zero (R11); VL is at most VLMAX, in program order (R19); no tag is busy and ready at
once (R23); and the instructions of its vector queue, of which there are 64 at most (R26), have a pc, VCOUNT, tags, a VL and
an MSPACE of their push that are so too, and have made 64 entries of the undo log at most (R29, R112). -/
structure Ctx.wf (c : Ctx) : Prop where
  vec : c.vec.wf
  tstat : c.trap.tstat.toNat < 16
  lanes : Front.wf ⟨c.vec.vcount, c.vec.tags⟩
  front : c.front.wf
  mspace : c.vec.mspace ≠ 3
  devpol : c.vec.devpol ≠ 3
  pc : c.pc.toNat % 4 = 0
  vl : c.vec.vl ≤ c.frontVlmax
  tags : c.eng.tagBusy &&& c.eng.tagReady = 0
  room : c.flow.queue.length ≤ 64 ∧ c.flow.undo ≤ 64
  queue : ∀ q ∈ c.flow.queue,
    pushed q.instr = true ∧ q.pc.toNat % 4 = 0 ∧ q.front.wf ∧ q.vl ≤ c.vlmaxFor q.front ∧ q.mspace ≠ 3

/-- Two contexts of one core share no lane (R10). -/
def Ctx.lanesApart (a b : Ctx) : Prop :=
  a.place.coreNo = b.place.coreNo →
    a.place.base + a.place.lanes ≤ b.place.base ∨ b.place.base + b.place.lanes ≤ a.place.base

/-- Every context that holds state, resident or parked, is in a legal state; the lane groups of the live contexts of a core
are disjoint (R10), of which there are 128 at most (R9); and every address at which a trap or a unit may begin is word
aligned (R231, R302). -/
structure State.legal (s : State) : Prop where
  resident : ∀ c ∈ s.contexts, c.wf
  parked : ∀ p ∈ s.dev.sched.parked, p.wf
  lanes : (s.contexts.filter Ctx.live).Pairwise Ctx.lanesApart
  cores : s.dev.cores.length ≤ 128
  handlers : ∀ c ∈ s.dev.cores, c.tvec.toNat % 4 = 0
  entries : ∀ t ∈ s.dev.sched.tasks, t.record.entry.toNat % 4 = 0

end Sys2Proof.Machine
end

