-- ==== Sys2Proof/Certificates/Slice0/Obligations.lean ====
section
/-! DEFINITION. What is claimed of the machine (OBLIGATIONS.json): one definition per statement. -/

section Statements

open Sys2Proof Sys2Proof.Machine

/-! ### Encoding -/

/-- Every well-formed instruction decodes from its own encoding to itself, with every operand, whatever follows it
(R43-R53). -/
def Obligations.DecodeReadsEveryEncodedInstruction : Prop :=
  ∀ (i : Instr) (rest : List Byte), i.wellFormed = true →
    decode ((encode i).flatMap wordBytes ++ rest) = .ok (i, rest)

/-- Bytes that decode hold exactly the encoding of the instruction they decode to, which is well formed: a word with a
reserved code, a field that must be zero and is not, or a forbidden field value decodes to nothing (R45, R51, R52). -/
def Obligations.DecodedBytesAreTheEncoding : Prop :=
  ∀ (bs rest : List Byte) (i : Instr), decode bs = .ok (i, rest) →
    i.wellFormed = true ∧ bs = (encode i).flatMap wordBytes ++ rest

/-- The words that the spec writes out as examples decode to the instructions beside them (R92-R98, R100, R115). -/
def Obligations.ExampleWordsDecode : Prop :=
  decodeShort 0x04811000 = some (.add 4 1 2) ∧
  decodeShort 0x0885FFFF = some (.addi 4 5 0xFFFF) ∧
  decodeShort 0x188500BF = some (.srai 4 5 63) ∧
  decodeWords 0x20A00200 1 = some (.liHi 5 0 1) ∧
  decodeShort 0x40850003 = some (.blt 4 5 3) ∧
  decodeShort 0x50000010 = some (.jal 16) ∧
  decodeShort 0x541F0000 = some (.jalr 0 31 0) ∧
  decodeShort 0x58C42800 = some (.fadds 6 4 5) ∧
  decodeShort 0x60000101 = some (.setms 1)

/-! ### The step -/

/-- What a step comes to. A step at which a context issues, and fetches the instruction `i`, is `exec` of `i` at that state,
with the turn off the agenda, the fetch noted, and, at the vector commit pointer, earlier stores released. An instruction
marked queued is pushed where it waits, or its engine command does (R26, R194, R324). Behind the vector queue the scalar
thread goes on unless it needs a register, or the VL of a first-fault load, that the queue has still to give (R30, R174): it
pushes while queue and undo log have room for 64, and executes its own instructions while undo log and store buffer have room,
unless they would wait or trap (R29, R32, R112). A turn of a lane group is `exec` of the head of its queue, with the scalar registers, VL,
MSPACE, VCOUNT and tags of its push; what it writes reaches the scalar thread and the instructions behind it; one that stops
takes those back (R26-R28, R30, R32). While the head waits, an instruction of another pipe gives its scalar result early (R27,
R324), but not past a sequentially consistent access (R175). PREEMPT and CANCEL come before both kinds of turn (R289, R295). In a core the context goes first that has waited
longest, then the lower slot (R297). The fetch gives the instruction that the words at the pc decode to (R43, R46). A word
that decodes to nothing raises ILLEGAL_INSTR, and a word of a pool block POOL_EXEC with its address, but at the first
instruction of a handler (R45, R46, R303). Which turn comes, by the agenda or, when that is empty, the first event that would
change something and then the context of all cores that has waited longest, and that a mark of TIME comes before it and takes
no time, is the model's choice (notes/assumptions/6.md); so is how far an instruction goes before those that wait, and when
the undo log takes an entry (notes/assumptions/7.md). -/
def Obligations.StepRunsTheFetchedInstruction : Prop :=
  (∀ (s f : State) (ahead : Bool) (i : Instr) (n : Nat) (ir : Word) (hits : List Hit),
     IssueTurn s f ahead → f.issued.fetch f.issued.ctx = (.ok i n, ir, hits) →
     let u := (f.issued.fetched ir hits).begin i ahead
     let fl := f.ctx.flow
     (fl.queue = [] →
       (pushed i = false → step s = State.conclude (exec i u)) ∧
       (pushed i = true → ∀ t : State, exec i u = .next t →
         (t.ctx.flow.status = .waiting → step s = .next (t.push i).finish) ∧
         (∀ id, t.ctx.flow.status = .atEngine id →
           step s = .next ((t.push i).setFlow fun x => { x with engine := some id }).finish) ∧
         (t.ctx.flow.status ≠ .waiting → (∀ id, t.ctx.flow.status ≠ .atEngine id) → step s = .next t.finish))) ∧
     (fl.queue ≠ [] →
       let entries := match i with
         | .vcfg .. | .vtag .. => 1
         | _ => 0
       let room := fl.queue.length < 64 ∧ fl.undo + entries ≤ 64
       let goes := scalarClass i = true ∧ fl.undo < 64 ∧ fl.storeBuf.length < 32
       (fl.heldUp i → step s = .next f.issued.finish) ∧
       (¬ fl.heldUp i →
         (pushed i = true → room → step s = .next (u.push i).finish) ∧
         (pushed i = true → ¬ room → step s = .next f.issued.finish) ∧
         (pushed i = false → ¬ goes → step s = .next f.issued.finish) ∧
         (pushed i = false → goes → ∀ t : State, exec i u = .next t →
           (¬ t.ran → step s = .next f.issued.finish) ∧
           (t.ran → undoFree i = true → step s = .next t.finish) ∧
           (t.ran → undoFree i = false →
             step s = .next (t.setFlow fun x => { x with queue := countUndo x.queue }).finish))))) ∧
  (∀ (s f : State) (ahead : Bool) (ir : Word) (hits : List Hit), IssueTurn s f ahead → f.ctx.flow.handlerFirst = false →
    let ends := fun (cause : Cause) (v : Word) =>
      step s = .next (if f.ctx.flow.queue = [] then (f.issued.fetched ir hits).takeTrap cause v else f.issued).finish
    (∀ w : BitVec 32, f.issued.fetch f.issued.ctx = (.illegal w, ir, hits) → ends .illegalInstr 0) ∧
    (∀ va : Pc, f.issued.fetch f.issued.ctx = (.pool va, ir, hits) → ends .poolExec (va.zeroExtend 64))) ∧
  (∀ (s : State) (who : CtxNo) (rest : List Turn), s.dueMark = none → s.agenda = .lanes who :: rest →
    let s0 : State := { s with agenda := rest }
    let other := step s = .next ((s0.startEarly exec who).getD s0).finish
    ∀ f : State, s0.focus who = some f → f.ctx.flow.cancelPending = false → f.ctx.flow.preemptPending = false →
      (f.ctx.flow.queue = [] ∨ f.ctx.flow.engine ≠ none → other) ∧
      ∀ (q : Queued) (behind : List Queued) (t : State), f.ctx.flow.queue = q :: behind → f.ctx.flow.engine = none →
        exec q.instr (f.atHead q) = .next t →
        let comes := fun c : Ctx => step s = .next ({ t with tick := f.tick, ctx := c } : State).finish
        let waits := f.ctx.behind t.ctx
        (t.ran → comes (f.ctx.completeHead t.ctx q) ∧ HeadDone f.ctx t.ctx (f.ctx.completeHead t.ctx q) q) ∧
        (t.ctx.flow.status = .waiting → if t.ctx.flow.sent = f.ctx.flow.sent then other else comes waits) ∧
        (∀ id, t.ctx.flow.status = .atEngine id → comes { waits with flow := { waits.flow with engine := some id } }) ∧
        (¬ t.ran → t.ctx.flow.status ≠ .waiting → (∀ id, t.ctx.flow.status ≠ .atEngine id) → comes t.ctx)) ∧
  (∀ (s f t : State) (who : CtxNo), s.focus who = some f → s.startEarly exec who = some t →
    ∃ (q : Queued) (before behind : List Queued), f.ctx.flow.queue = before ++ q :: behind ∧
      lanePipe q.instr = true ∧ q.early = none ∧ f.ctx.flow.undo < 64 ∧
      (∀ p ∈ before, p.early = none →
        memoryPipe p.instr = true ∧ scAccess p.instr = false ∧ f.ctx.independent p q = true) ∧
      t = { f with ctx := { f.ctx with
        regs := t.ctx.regs, flow := { f.ctx.flow with queue := t.ctx.flow.queue } } } ∧
      (∃ u : State, exec q.instr { (f.lanesAhead exec before).atHead q with tick := f.tick } = .next u ∧ u.ran ∧
        ∀ r : Reg, t.reg r = if r ≠ 0 ∧ r ∈ resultRegs q.instr then u.reg r else f.reg r) ∧
      t.ctx.flow.queue.map (·.instr) = f.ctx.flow.queue.map (·.instr) ∧
      (t.ctx.flow.queue[before.length]?).map (·.early) = some (some f.tick)) ∧
  (∀ (s : State) (who : CtxNo) (c : Ctx), s.findCtx who = some c →
    let asks := s.summons who
    (c.flow.cancelPending = true → asks = some (exec (.cancelDelivery who) s)) ∧
    (c.flow.cancelPending = false → c.flow.preemptPending = true → asks = some (exec (.preempt who) s)) ∧
    (c.flow.cancelPending = false → c.flow.preemptPending = false → asks = none)) ∧
  (∀ (s : State) (cs : List Ctx),
    let takes := fun c : Ctx => c ∈ cs ∧ c.live = true ∧ s.takesTurn c = true
    (s.firstOf cs = none ↔ ∀ c, ¬ takes c) ∧
    ∀ c, s.firstOf cs = some c → takes c ∧ ∀ d, takes d →
      s.waitsSince c < s.waitsSince d ∨ (s.waitsSince c = s.waitsSince d ∧ c.num.toNat ≤ d.num.toNat)) ∧
  (∀ (s : State) (c : Ctx) (w0 : BitVec 32) (h0 : Hit) (i : Instr),
     s.fetchWord c c.pc = .ok (w0, h0) →
     (isLongMajor (majorOf w0) = false → decodeShort w0 = some i →
       s.fetch c = (.ok i 4, w0.zeroExtend 64, [h0])) ∧
     (∀ (w1 : BitVec 32) (h1 : Hit), isLongMajor (majorOf w0) = true →
       s.fetchWord c (c.pc + 4) = .ok (w1, h1) → decodeWords w0 w1 = some i →
       s.fetch c = (.ok i 8, w1 ++ w0, [h0, h1]))) ∧
  ∀ s : State,
    (∀ m : Mark, s.dueMark = some m → step s = State.concludeMark (s.passMark m)) ∧
    (s.dueMark = none →
      (∀ (i : Instr) (rest : List Turn), s.agenda = .event i :: rest → i.isEvent = true →
        step s = State.conclude (exec i { s with agenda := rest })) ∧
      (∀ (core : Nat) (ahead : Bool) (rest : List Turn), s.agenda = .issue core ahead :: rest →
        let s0 : State := { s with agenda := rest }
        (s0.onCore core ≠ [] → s0.firstOf (s0.onCore core) = none → step s = .next s0.finish) ∧
        ∀ (c : Ctx) (f : State) (o : Host.Outcome State Fault Refusal), s0.firstOf (s0.onCore core) = some c →
          s0.focus c.num = some f → f.summons c.num = some o → step s = State.conclude o) ∧
      (∀ (who : CtxNo) (rest : List Turn) (o : Host.Outcome State Fault Refusal), s.agenda = .lanes who :: rest →
        ({ s with agenda := rest } : State).summons who = some o → step s = State.conclude o) ∧
      (s.agenda = [] →
        (∀ x : Host.Outcome State Fault Refusal, s.chances.find? s.due = some x → step s = State.conclude x) ∧
        ((∀ x ∈ s.chances, s.due x = false) →
          (s.firstOf s.contexts = none → step s = .next s.finish) ∧
          ∀ (c : Ctx) (f : State) (o : Host.Outcome State Fault Refusal), s.firstOf s.contexts = some c →
            s.focus c.num = some f → f.summons c.num = some o → step s = State.conclude o)))

/-- Every instruction and every event answers a next state, in every state: none ends in a fault or a refusal. -/
def Obligations.EveryInstructionAnswers : Prop := ∀ (i : Instr) (s : State), ∃ t : State, exec i s = .next t

/-! ### Forms that every step keeps -/

/-- Every step keeps memory in its canonical form. -/
def Obligations.StepKeepsMemoryCanonical : Prop := ∀ s t : State, s.mem.wf → step s = .next t → t.mem.wf

/-- Every step keeps the contexts legal: register contents in canonical form, TSTAT, VCOUNT, MSPACE and DEVPOL within
their values, an anchor register bound once at most, in the lane group and in program order, VL at most VLMAX, no tag busy
and ready at once, the lane groups of the live contexts of a core disjoint, every pc and every handler address word aligned,
and at most 64 instructions in a vector queue and 64 entries in an undo log, what each instruction captured at its push being
so too (R10, R11, R14, R19-R21, R23, R26, R29, R35, R38, R112, R302). -/
def Obligations.StepKeepsContextsLegal : Prop := ∀ s t : State, s.legal → step s = .next t → t.legal

/-- The machine after reset has canonical memory and legal contexts. -/
def Obligations.ResetIsCanonicalAndLegal : Prop := State.reset.mem.wf ∧ State.reset.legal

/-- What the spec gives for the control program's context and the registers after a start (R40, R314, R337, R341,
R343, R350, R351). The values of the image header are the model's choice (notes/assumptions/1.md) and stand not
here. -/
def Obligations.ResetLeavesTheSpecifiedValues : Prop :=
  let s := State.reset
  let c := s.ctx
  c.place = ⟨0, 0, 0, 0, 1024, 0⟩ ∧ c.user = false ∧ c.trap.tstat = 1 ∧ s.reg 2 = 0 ∧ s.reg 3 = 1 ∧
  (∀ r : Reg, 4 ≤ r.toNat → s.reg r = 0) ∧
  c.vec.vl = 0 ∧ c.vec.mspace = 2 ∧ c.vec.devpol = 0 ∧ c.vec.devstat = 0 ∧
  (∀ v : VecNo, c.tag v = 0) ∧ c.front = ⟨c.vec.vcount, c.vec.tags⟩ ∧ (∀ m : MaskNo, c.mask m = 0) ∧
  (∀ (k : Fin 16) (i : Nat), (c.vec.anchors[k]).get i = 0) ∧
  c.eng.tagBusy = 0 ∧ c.eng.tagReady = 0 ∧ c.eng.tagErr = 0 ∧ c.eng.grant = 0 ∧
  c.ownsVector = true ∧ c.trap.asid = 0 ∧ c.origin.job = 0 ∧
  (s.core 0).tvec = 0 ∧ s.others = [] ∧ s.dev.sched.jobs = [] ∧ s.dev.sched.tasks = [] ∧
  s.dev.ring = ⟨0, 0, 0, 0, 0⟩ ∧ (∀ p < 8, (s.pool p).cfg = 0) ∧
  s.dev.power.rampcfg = 0x200A ∧ s.dev.power.pwrcap = 1800 ∧ s.dev.power.ageind = 0 ∧
  s.dev.power.eolmonths = 0xFFFF ∧ s.dev.host.jevstat = 0 ∧ s.dev.host.peerbase = [0, 0, 0, 0]

/-! ### Scalar arithmetic -/

/-- The integer operations on registers and with an immediate, and the two forms of LI, write the value of R92-R95,
with the division rules of R67, and change nothing else; a write to S0 is discarded (R12). -/
def Obligations.IntegerInstructionsWriteTheirResult : Prop :=
  (∀ (s : State) (rd ra rb : Reg),
     let a := s.reg ra
     let b := s.reg rb
     ∀ p ∈ [(Instr.add rd ra rb, a + b), (.sub rd ra rb, a - b), (.and rd ra rb, a &&& b), (.or rd ra rb, a ||| b),
         (.xor rd ra rb, a ^^^ b), (.andn rd ra rb, a &&& ~~~b),
         (.sll rd ra rb, a <<< (b.toNat % 64)), (.srl rd ra rb, a >>> (b.toNat % 64)),
         (.sra rd ra rb, a.sshiftRight (b.toNat % 64)),
         (.slt rd ra rb, if a.toInt < b.toInt then 1 else 0), (.sltn rd ra rb, if a.toNat < b.toNat then 1 else 0),
         (.min rd ra rb, BitVec.ofInt 64 (min a.toInt b.toInt)), (.max rd ra rb, BitVec.ofInt 64 (max a.toInt b.toInt)),
         (.minn rd ra rb, BitVec.ofNat 64 (min a.toNat b.toNat)), (.maxn rd ra rb, BitVec.ofNat 64 (max a.toNat b.toNat)),
         (.mul rd ra rb, BitVec.ofNat 64 (a.toNat * b.toNat)),
         (.mulh rd ra rb, BitVec.ofInt 64 (a.toInt * b.toInt / 2 ^ 64)),
         (.mulhn rd ra rb, BitVec.ofNat 64 (a.toNat * b.toNat / 2 ^ 64)),
         (.div rd ra rb, if b = 0 then -1 else BitVec.ofInt 64 (a.toInt.tdiv b.toInt)),
         (.divn rd ra rb, if b = 0 then -1 else BitVec.ofNat 64 (a.toNat / b.toNat)),
         (.rem rd ra rb, if b = 0 then a else BitVec.ofInt 64 (a.toInt.tmod b.toInt)),
         (.remn rd ra rb, if b = 0 then a else BitVec.ofNat 64 (a.toNat % b.toNat)),
         (.clz rd ra, BitVec.ofNat 64 ((List.range 64).findIdx fun k => a.getLsbD (63 - k))),
         (.popc rd ra, BitVec.ofNat 64 ((List.range 64).countP fun k => a.getLsbD k))],
       Completes p.1 s 4 { regs := [rd] } fun t => t.reg rd = written rd p.2) ∧
  ∀ (s : State) (rd ra : Reg) (imm : BitVec 16) (k : BitVec 6) (w : BitVec 32),
    let a := s.reg ra
    (∀ p ∈ [(Instr.addi rd ra imm, a + imm.signExtend 64),
        (.slti rd ra imm, if a.toInt < imm.toInt then 1 else 0),
        (.andi rd ra imm, a &&& imm.zeroExtend 64), (.ori rd ra imm, a ||| imm.zeroExtend 64),
        (.xori rd ra imm, a ^^^ imm.zeroExtend 64),
        (.slli rd ra k, a <<< k.toNat), (.srli rd ra k, a >>> k.toNat), (.srai rd ra k, a.sshiftRight k.toNat)],
      Completes p.1 s 4 { regs := [rd] } fun t => t.reg rd = written rd p.2) ∧
    (∀ p ∈ [(Instr.li rd w, w.signExtend 64),
        (.liHi rd ra w, (a.setWidth 32).setWidth 64 ||| (w.setWidth 64 <<< 32))],
      Completes p.1 s 8 { regs := [rd] } fun t => t.reg rd = written rd p.2)

/-- The branches go to the target of R96 exactly when their condition holds, and else to the next instruction. JAL
and JALR: the link register takes the address of the next instruction; the pc takes the target (R97, R98). A JALR to an
address that is not word aligned raises MISALIGN, and to one above 56 bits ACCESS, with neither rd nor pc written
otherwise. -/
def Obligations.BranchesAndJumpsGoToTheirTargets : Prop :=
  (∀ (s : State) (ra rb : Reg) (off : BitVec 16),
     let a := s.reg ra
     let b := s.reg rb
     ∀ p ∈ [(Instr.beq ra rb off, decide (a = b)), (.bne ra rb off, decide (a ≠ b)),
         (.blt ra rb off, decide (a.toInt < b.toInt)), (.bge ra rb off, decide (b.toInt ≤ a.toInt)),
         (.bltn ra rb off, decide (a.toNat < b.toNat)), (.bgen ra rb off, decide (b.toNat ≤ a.toNat))],
       ∃ t : State, exec p.1 s = .next t ∧
         t.ctx.pc = (if p.2 then s.ctx.pc + 4 * off.signExtend 56 else s.ctx.pc + 4) ∧
         t.ctx.flow.status = .running ∧ CtxFrame s t {} ∧ SameMemory s t ∧ SameElse s t) ∧
  ∀ (s : State) (rd ra : Reg) (imm : BitVec 16) (off : BitVec 26),
    let link : Word := (s.ctx.pc + 4).setWidth 64
    let target : Word := s.reg ra + 4 * imm.signExtend 64
    (∃ t : State, exec (.jal off) s = .next t ∧ t.ctx.pc = s.ctx.pc + 4 * off.signExtend 56 ∧ t.reg 31 = link ∧
      t.ctx.flow.status = .running ∧ CtxFrame s t { regs := [31] } ∧ SameMemory s t ∧ SameElse s t) ∧
    (target.toNat % 4 = 0 → target.toNat < 2 ^ 56 →
      ∃ t : State, exec (.jalr rd ra imm) s = .next t ∧ t.ctx.pc = target.setWidth 56 ∧ t.reg rd = written rd link ∧
        t.ctx.flow.status = .running ∧ CtxFrame s t { regs := [rd] } ∧ SameMemory s t ∧ SameElse s t) ∧
    (target.toNat % 4 ≠ 0 → exec (.jalr rd ra imm) s = .next (s.takeTrap .misalign target)) ∧
    (target.toNat % 4 = 0 → 2 ^ 56 ≤ target.toNat → exec (.jalr rd ra imm) s = .next (s.takeTrap .access target))

/-- The scalar FP32 operations: one rounding of the exact result, zero-extended; compares give 0 when unordered
(R99, R100). -/
def Obligations.ScalarFloatInstructionsWriteTheirResult : Prop :=
  ∀ (s : State) (rd ra rb : Reg),
    let x := fp32.decode ((s.reg ra).toNat % 2 ^ 32)
    let y := fp32.decode ((s.reg rb).toNat % 2 ^ 32)
    let z := fp32.decode ((s.reg rd).toNat % 2 ^ 32)
    ∀ p ∈ [(Instr.fadds rd ra rb, fp32.round (x.add y)), (.fsubs rd ra rb, fp32.round (x.add y.neg)),
        (.fmuls rd ra rb, fp32.round (x.mul y)), (.fdivs rd ra rb, fp32.div x y),
        (.fmins rd ra rb, fp32.round (x.min y)), (.fmaxs rd ra rb, fp32.round (x.max y)),
        (.ffmas rd ra rb, fp32.round ((x.mul y).add z)), (.fsqrts rd ra, fp32.sqrt x),
        (.fcvtsi rd ra, wrapTo 64 (x.toIntSat (-2 ^ 63) (2 ^ 63 - 1))),
        (.fcvtis rd ra, fp32.round (.ofInt (s.reg ra).toInt)),
        (.fclts rd ra rb, if x.compare y = some .lt then 1 else 0),
        (.fcles rd ra rb, if x.compare y = some .lt ∨ x.compare y = some .eq then 1 else 0),
        (.fceqs rd ra rb, if x.compare y = some .eq then 1 else 0)],
      Completes p.1 s 4 { regs := [rd] } fun t => t.reg rd = written rd (BitVec.ofNat 64 p.2)

/-! ### Scalar accesses to memory -/

/-- LDS and LDSA of an access that is permitted, and that does not cover the flag byte of its own page-table entry,
where the walker's update would show in it (R101-R105, R312). A load takes the bytes that the store buffer of the
context holds for it in its stream, which it waits for while a memory instruction of its stream (R29), or a nameless store
(R255), stands in the vector queue; else, from a page that is no host memory, the bytes of memory, once the buffer is released where it holds an entry of
the stream (R103), or one that an earlier load was answered from (R255); a load from host memory takes the bytes of memory
once the buffer is released. That the whole buffer is released, entries of other streams too, and that a load waits while
the vector queue holds that release up, is the model's choice (notes/assumptions/8.md). It changes rd, the accessed bit of
the page, and nothing else of the context; poisoned data raise DATA_POISON; and it waits while it needs a request slot and none is free
(R324), unless the write buffer of its core answers it (R322). What it reads by a stale skerry name is undefined (R191):
which names count as stale is the model's choice (notes/assumptions/4.md). -/
def Obligations.LoadsReturnTheStoredBytes : Prop :=
  ∀ (s : State) (rd ra : Reg) (sz : BitVec 3) (st : Stream) (scope : BitVec 3) (off : BitVec 10) (h : Hit),
    sz ≠ 7 →
    let w := 2 ^ (sz.toNat / 2)
    let value := fun n : Nat =>
      written rd (if sz.getLsbD 0 then BitVec.ofNat 64 n else (BitVec.ofNat (8 * w) n).signExtend 64)
    s.locate .read w (s.reg ra + off.signExtend 64) = .ok h → (∀ i < w, ¬ h.marks (h.loc + i)) →
    ∀ p ∈ [(Instr.lds rd ra sz st off, st), (.ldsa rd ra sz scope off, 0)],
      let buf := s.ctx.flow.storeBuf
      let held := fun i => bufferedByte buf p.2 (h.loc + i)
      let host := h.loc / 2 ^ 52 = 3
      let must := host ∨ ∃ e ∈ buf, e.stream = p.2 ∨ e.seen = true
      (s.ctx.flow.awaits p.2 = true → exec p.1 s = .next s.wait) ∧
      (s.ctx.flow.awaits p.2 = false → ∀ bs : List Byte, bs.length = w → (∀ i < w, held i = bs[i]?) → ¬ host →
        ∃ t : State, exec p.1 s = .next t ∧ GoesOn s t 4 ∧ CtxFrame s t { regs := [rd] } ∧ MemoryOutside s t h.marks ∧
          SameButTransit s t ∧ t.reg rd = value (leNat bs)) ∧
      (host ∨ (∃ i < w, held i = none) → s.ctx.flow.queue ≠ [] → must → exec p.1 s = .next s.wait) ∧
      (host ∨ (∃ i < w, held i = none) → s.ctx.flow.awaits p.2 = false → s.ctx.flow.queue = [] ∨ ¬ must →
        let b := if must then s.drain else s
        let goes := fun x : State => x.slotless h = false ∨ x.bufferAnswers s.ctx.place.coreNo h.loc w = true
        (¬ goes s → exec p.1 s = .next s.wait) ∧
        (goes s → b.poisonedHere h.loc w = true → exec p.1 s = .next ((s.readTraffic (b.accessSpans h w)).takeTrap .dataPoison 0)) ∧
        (goes s → b.poisonedHere h.loc w = false → ¬ goes b → exec p.1 s = .next s.wait) ∧
        (goes s → b.poisonedHere h.loc w = false → goes b →
          ∃ t : State, exec p.1 s = .next t ∧ GoesOn s t 4 ∧ CtxFrame s t { regs := [rd] } ∧ MemoryOutside b t h.marks ∧
            SameButTransit b t ∧ (s.freshNames h.loc w → t.reg rd = value (b.mem.number h.loc w))))

/-- STS and STSL of an access that is permitted (R29, R102-R106, R278). At the vector commit pointer, with a request
slot free where one is needed, the bytes of rs stand in memory, lowest first, and no other byte changes but the
accessed and dirty bits of the page; on a fenced channel the bytes are dropped. Ahead of it the store enters the
buffer; R29 makes it wait until an entry is free. That a full buffer is released whole before it, where no instruction
stands in the vector queue, and that the accessed and dirty bits are set as it enters, are the model's choice
(notes/assumptions/8.md). -/
def Obligations.StoresWriteTheirBytes : Prop :=
  ∀ (s : State) (rs ra : Reg) (sz : BitVec 2) (st : Stream) (scope : BitVec 3) (off : BitVec 10) (h : Hit),
    let w := 2 ^ sz.toNat
    let puts := h.puts w (s.reg rs).toNat
    s.mem.wf → s.locate .write w (s.reg ra + off.signExtend 64) = .ok h →
    ∀ p ∈ [(Instr.sts rs ra sz st off, st), (.stsl rs ra sz scope off, 0)],
      (s.ctx.flow.ahead = false → s.slotless h = false →
        ∃ t : State, exec p.1 s = .next t ∧ GoesOn s t 4 ∧ CtxFrame s t {} ∧ SameButStore s t puts ∧
          MemoryOutside s t (fun a => h.marks a ∨ within h.loc w a) ∧
          ((∀ i < w, s.dev.fencedAt (h.loc + i) = false) →
            ∀ i < w, t.mem.read (h.loc + i) = BitVec.ofNat 8 ((s.reg rs).toNat / 256 ^ i)) ∧
          ((∀ i < w, s.dev.fencedAt (h.loc + i) = true) → MemoryOutside s t h.marks)) ∧
      (s.ctx.flow.ahead = true →
        let full := 32 ≤ s.ctx.flow.storeBuf.length
        (full → s.ctx.flow.queue ≠ [] → exec p.1 s = .next s.wait) ∧
        (¬ full ∨ s.ctx.flow.queue = [] → ∃ t : State, exec p.1 s = .next t ∧ GoesOn s t 4 ∧ CtxFrame s t {} ∧ t.others = s.others ∧
          t.ctx.flow.storeBuf = (if full then [] else s.ctx.flow.storeBuf) ++
            [⟨p.2, puts, false, s.ctx.flow.queue.length⟩] ∧
          (¬ full → MemoryOutside s t h.marks ∧ SameButTransit s t) ∧
          (full → MemoryOutside s.drain t h.marks)))

/-- The scalar atomics of an access that is permitted and whose data are not poisoned (R109, R110, R312): rd takes the old
value, extended; memory takes the new value of R109, or stays where AMOCAS compares unequal. Poisoned data raise
DATA_POISON. Three points are the model's choice: the word is read as it stands once the walker has set A and D
(notes/assumptions/25.md); an AMOCAS that compares unequal sets D all the same (notes/assumptions/10.md); and what an
atomic reads by a stale skerry name is undefined (R191, notes/assumptions/4.md). -/
def Obligations.AtomicsReadModifyWrite : Prop :=
  ∀ (s : State) (rd ra rb : Reg) (scope : BitVec 3) (order : BitVec 2) (z : Bool) (h : Hit),
    let w := if z then 8 else 4
    let m := (s.touch .atomic h).mem
    let old := m.number h.loc w
    let b := (s.reg rb).toNat % 2 ^ (8 * w)
    let signed := fun v : Nat => (BitVec.ofNat (8 * w) v).toInt
    let sext := (BitVec.ofNat (8 * w) old).signExtend 64
    let zext := BitVec.ofNat 64 old
    let float := BitVec.ofNat 64 (m.number h.loc 4)
    ∀ p ∈ [(Instr.amoAdd rd ra rb scope z order, w, sext, some ((old + b) % 2 ^ (8 * w))),
        (.amoAnd rd ra rb scope z order, w, sext, some (old &&& b)),
        (.amoOr rd ra rb scope z order, w, sext, some (old ||| b)),
        (.amoXor rd ra rb scope z order, w, sext, some (old ^^^ b)),
        (.amoMin rd ra rb scope z order, w, sext, some (if signed old ≤ signed b then old else b)),
        (.amoMax rd ra rb scope z order, w, sext, some (if signed old ≤ signed b then b else old)),
        (.amoMinn rd ra rb scope z order, w, zext, some (min old b)),
        (.amoMaxn rd ra rb scope z order, w, zext, some (max old b)),
        (.amoSwap rd ra rb scope z order, w, sext, some b),
        (.amoCas rd ra rb scope z order, w, sext, if old = (s.reg rd).toNat % 2 ^ (8 * w) then some b else none),
        (.amoFadd rd ra rb scope order, 4, float,
          some (fp32.round ((fp32.decode (m.number h.loc 4)).add (fp32.decode ((s.reg rb).toNat % 2 ^ 32)))))],
      s.mem.wf → s.probe .atomic p.2.1 (s.reg ra) = .ok h →
      (s.poisonedHere h.loc p.2.1 = false →
        ∃ t : State, exec p.1 s = .next t ∧ GoesOn s t 4 ∧ CtxFrame s t { regs := [rd] } ∧ SameButTransit s t ∧
          MemoryOutside s t (fun a => h.marks a ∨ within h.loc p.2.1 a) ∧
          (s.freshNames h.loc p.2.1 → t.reg rd = written rd p.2.2.1 ∧
            match p.2.2.2 with
            | none => MemoryOutside s t h.marks
            | some v => (∀ i < p.2.1, s.dev.fencedAt (h.loc + i) = false) →
                ∀ i < p.2.1, t.mem.read (h.loc + i) = BitVec.ofNat 8 (v / 256 ^ i))) ∧
      (s.poisonedHere h.loc p.2.1 = true →
        exec p.1 s = .next ((s.readTraffic (s.accessSpans h p.2.1)).takeTrap .dataPoison 0))

/-- How a scalar access stops short of its effect (R102, R315, R324): MISALIGN before ACCESS before a translation
fault, which parks the context with one record while the ring is enabled and raises PAGE while it is disabled; and an
access that leaves the core waits while all eight request slots are in use, but for a load that the store buffer
of the context or the write buffer of the core answers whole and a store that enters the buffer. A walk that ends in a
refusal, a fault or poison has made its requests at the MSUs (R276, R280). An address in the scratchpad window reaches the scratchpad that it names,
without translation and in any mode; one above 56 bits, or beyond the region of the core it names, is refused (R102,
R266). -/
def Obligations.ScalarAccessesStopInOrder : Prop :=
  (∀ (s : State) (r ra rb : Reg) (sz : BitVec 3) (sz2 : BitVec 2) (st : Stream) (scope : BitVec 3) (off : BitVec 10)
       (z : Bool) (order : BitVec 2) (limit : BitVec 12),
     let a := s.reg ra + off.signExtend 64
     let w := if z then 8 else 4
     let n := 2 ^ (sz.toNat / 2)
     let buffers := fun (i : Instr) (h : Hit) =>
       let answers := fun x : Stream => s.bufferAnswers s.ctx.place.coreNo h.loc n = true ∨ h.loc / 2 ^ 52 ≠ 3 ∧
         ∀ k < n, bufferedByte s.ctx.flow.storeBuf x (h.loc + k) ≠ none
       (i = .lds r ra sz st off ∧ answers st) ∨ (i = .ldsa r ra sz scope off ∧ answers 0) ∨
         ((i = .sts r ra sz2 st off ∨ i = .stsl r ra sz2 scope off) ∧ s.ctx.flow.ahead = true)
     ∀ p ∈ [(Instr.lds r ra sz st off, Need.read, n, a), (.ldsa r ra sz scope off, .read, n, a),
         (.sts r ra sz2 st off, .write, 2 ^ sz2.toNat, a), (.stsl r ra sz2 scope off, .write, 2 ^ sz2.toNat, a),
         (.amoAdd r ra rb scope z order, .atomic, w, s.reg ra), (.amoAnd r ra rb scope z order, .atomic, w, s.reg ra),
         (.amoOr r ra rb scope z order, .atomic, w, s.reg ra), (.amoXor r ra rb scope z order, .atomic, w, s.reg ra),
         (.amoMin r ra rb scope z order, .atomic, w, s.reg ra), (.amoMax r ra rb scope z order, .atomic, w, s.reg ra),
         (.amoMinn r ra rb scope z order, .atomic, w, s.reg ra), (.amoMaxn r ra rb scope z order, .atomic, w, s.reg ra),
         (.amoSwap r ra rb scope z order, .atomic, w, s.reg ra), (.amoCas r ra rb scope z order, .atomic, w, s.reg ra),
         (.amoFadd r ra rb scope order, .atomic, 4, s.reg ra), (.waitl r ra limit, .read, 8, s.reg ra)],
       let va := p.2.2.2
       (va.toNat % p.2.2.1 ≠ 0 → exec p.1 s = .next (s.takeTrap .misalign va)) ∧
       (va.toNat % p.2.2.1 = 0 →
         let u := s.walkTraffic s.ctx.space va
         (s.resolve s.ctx.space p.2.1 va = .error .access → exec p.1 s = .next (u.takeTrap .access va)) ∧
         (s.resolve s.ctx.space p.2.1 va = .error .poison → exec p.1 s = .next (u.takeTrap .dataPoison 0)) ∧
         (∀ d, s.resolve s.ctx.space p.2.1 va = .error (.fault d) →
           let r := s.ctx.faultRec p.2.1.recKind d p.2.1.writes 0 va
           exec p.1 s = .next (if s.ringOn then u.drain.park [r] else u.takeTrap .page va)) ∧
         (∀ h, s.resolve s.ctx.space p.2.1 va = .ok h → h.leaves s.ctx.place.coreNo = true → 8 ≤ s.ctx.flow.slots →
           ¬ buffers p.1 h → exec p.1 s = .next s.wait))) ∧
  ∀ (s : State) (need : Need) (va : Word) (core : Nat) (off : Nat),
    need ≠ .fetch → core < 8 → off < 2 ^ 24 →
    (va.toNat = 0xFF * 2 ^ 48 + core * 2 ^ 24 + off →
      let g := s.ctx.place.coreNo / 8 * 8 + core
      s.resolve s.ctx.space need va =
        if off < (s.core g).spadBytes then .ok ⟨4 * 2 ^ 52 + g * 2 ^ 24 + off, va, none, s.ctx.space⟩
        else .error .access) ∧
    (2 ^ 56 ≤ va.toNat → s.resolve s.ctx.space need va = .error .access)

/-! ### Traps -/

/-- Taking a trap (R301), with every earlier store performed first (R32): TEPC takes the pc, TCAUSE the code, TVAL the
value, TINSTR the words fetched; HBLOST is set when a valid bank is overwritten in supervisor mode; the bank takes VL,
VCOUNT and MSPACE as they stand in program order (R112); PMODE takes MODE, the mode becomes supervisor, and the pc TVEC. Nothing else changes. TRAP raises
SOFT with its immediate as TVAL (R224). -/
def Obligations.TakingATrapFollowsTheRule : Prop :=
  (∀ (s : State) (cause : Cause) (v : Word),
     let t := s.takeTrap cause v
     let old := s.ctx.trap.tstat
     let tvec := (s.core s.ctx.place.coreNo).tvec
     (tvec.toNat < 2 ^ 56 → t.ctx.pc.setWidth 64 = tvec) ∧
     t.ctx.trap.tepc = s.ctx.pc.setWidth 64 ∧ t.ctx.trap.tcause = BitVec.ofNat 64 cause.code ∧
     t.ctx.trap.tval = v ∧ t.ctx.trap.tinstr = s.ctx.flow.ir ∧
     t.ctx.trap.tstat.getLsbD 0 = true ∧ t.ctx.trap.tstat.getLsbD 1 = old.getLsbD 0 ∧
     t.ctx.trap.tstat.getLsbD 2 = true ∧
     t.ctx.trap.tstat.getLsbD 3 = (old.getLsbD 3 || (old.getLsbD 0 && old.getLsbD 2)) ∧
     t.ctx.trap.hvl = BitVec.ofNat 64 s.ctx.vec.vl ∧ t.ctx.trap.hvcount = BitVec.ofNat 64 s.ctx.front.vcount ∧
     t.ctx.trap.hmspace = s.ctx.vec.mspace.setWidth 64 ∧
     ({ t.ctx.trap with
         tepc := s.ctx.trap.tepc, tcause := s.ctx.trap.tcause, tval := s.ctx.trap.tval
         tinstr := s.ctx.trap.tinstr, tstat := s.ctx.trap.tstat, hvl := s.ctx.trap.hvl
         hvcount := s.ctx.trap.hvcount, hmspace := s.ctx.trap.hmspace } : TrapRegs) = s.ctx.trap ∧
     t.ctx.regs = s.ctx.regs ∧ t.ctx.vec = s.ctx.vec ∧ t.ctx.front = s.ctx.front ∧ t.ctx.eng = s.ctx.eng ∧
     t.ctx.place = s.ctx.place ∧ t.ctx.origin = s.ctx.origin ∧ t.ctx.flow.status = .running ∧ t.ctx.flow.handlerFirst = true ∧
     t.mem = s.drain.mem ∧ t.others = s.others ∧ t.dev = s.drain.dev) ∧
  ∀ (s : State) (code : BitVec 12),
    exec (.trap code) s = .next (s.takeTrap .soft (code.setWidth 64)) ∧
      ∃ t : State, exec (.trap code) s = .next t ∧ t.ctx.trap.tcause = 0x0F ∧ t.ctx.trap.tval = code.setWidth 64 ∧
        t.ctx.trap.tepc = s.ctx.pc.setWidth 64

/-- RETT of a supervisor that no MXM holds up (R225, R290). Of a context that is not being evicted: the mode becomes
PMODE, the pc TEPC with bits 1:0 cleared; while the bank is valid MSPACE, VCOUNT and VL come back from it where they
are in range, VL reduced to VLMAX, and the bank is valid no longer. VCOUNT and VLMAX are those of program order (R112); the
lane group takes the VCOUNT where the context owns the vector state that it holds, and else keeps what it holds (R305). Every
other trap register keeps its value, and so do the scalar registers, the tags and memory. Of a context that is being evicted, which has taken PREEMPT: it vacates.
Its earlier stores are performed, its slot is free, and it stands in the parked-context store as the RETT leaves it.
That it waits first while the header of a released store has found no request slot is the model's choice
(notes/assumptions/25.md), and so is that the pc, which has 56 bits, drops bits 63:56 of TEPC here and those of TVEC as a trap
is taken (notes/assumptions/28.md). -/
def Obligations.RettReturnsFromATrap : Prop :=
  (∀ (s : State) (cause : Cause) (v : Word),
    (s.takeTrap cause v).ctx.pc = (s.core s.ctx.place.coreNo).tvec.setWidth 56) ∧
  (∀ s : State, s.ctx.user = false → s.mxmPending allVecs = false → s.ctx.flow.evicting = true →
    s.drain.ctx.flow.owed ≠ [] → exec .rett s = .next s.drain.wait) ∧
  (∀ s : State, s.ctx.user = false → s.mxmPending allVecs = false → s.ctx.flow.evicting = true →
    s.drain.ctx.flow.owed = [] →
    ∃ (t : State) (c : Ctx), exec .rett s = .next t ∧ t.ctx.live = false ∧
      t.dev.sched.parked = s.dev.sched.parked ++ [c] ∧ c.num = s.ctx.num ∧ c.origin = s.ctx.origin ∧
      c.place = s.ctx.place ∧ c.regs = s.ctx.regs ∧ c.eng = s.ctx.eng ∧
      c.pc.toNat = s.ctx.trap.tepc.toNat % 2 ^ 56 / 4 * 4 ∧ c.user = !s.ctx.trap.tstat.getLsbD 1 ∧
      c.flow.storeBuf = [] ∧ c.flow.evicting = false ∧ c.flow.cancelTaken = s.ctx.flow.cancelTaken ∧
      t.mem = s.drain.mem) ∧
  ∀ s : State, s.ctx.user = false → s.mxmPending allVecs = false → s.ctx.flow.evicting = false →
    let b := s.ctx.trap
    let n := b.hvcount.toNat
    ∃ t : State, exec .rett s = .next t ∧
      t.ctx.pc.toNat = b.tepc.toNat % 2 ^ 56 / 4 * 4 ∧
      t.ctx.user = !b.tstat.getLsbD 1 ∧ t.ctx.trap.tstat.getLsbD 1 = b.tstat.getLsbD 1 ∧
      t.ctx.trap.tstat.getLsbD 2 = false ∧ t.ctx.trap.tstat.getLsbD 3 = b.tstat.getLsbD 3 ∧
      ({ t.ctx.trap with tstat := b.tstat } : TrapRegs) = b ∧
      (b.tstat.getLsbD 2 = false → t.ctx.vec = s.ctx.vec ∧ t.ctx.front = s.ctx.front) ∧
      (b.tstat.getLsbD 2 = true →
        t.ctx.front.vcount = (if n = 8 ∨ n = 16 ∨ n = 32 ∨ n = 64 then n else s.ctx.front.vcount) ∧
        t.ctx.vec.vcount = (if s.ctx.ownsVector = true then t.ctx.front.vcount else s.ctx.vec.vcount) ∧
        t.ctx.vec.mspace = (if b.hmspace.toNat ≤ 2 then b.hmspace.setWidth 2 else s.ctx.vec.mspace) ∧
        t.ctx.vec.vl = min b.hvl.toNat t.ctx.frontVlmax ∧
        (t.ctx.vlmax = s.ctx.vlmax → t.ctx.vec.vecs = s.ctx.vec.vecs ∧ t.ctx.vec.masks = s.ctx.vec.masks)) ∧
      t.ctx.front.tags = s.ctx.front.tags ∧ t.ctx.vec.tags = s.ctx.vec.tags ∧ t.ctx.vec.anchors = s.ctx.vec.anchors ∧
      t.ctx.vec.devpol = s.ctx.vec.devpol ∧ t.ctx.vec.devstat = s.ctx.vec.devstat ∧
      t.ctx.regs = s.ctx.regs ∧ t.ctx.eng = s.ctx.eng ∧ t.ctx.place = s.ctx.place ∧
      t.ctx.flow.fetchPtbase = b.ptbase ∧ t.ctx.flow.fetchAsid = b.asid ∧
      (∀ loc, t.codeWords t.ctx loc = [(s.mem.word loc, s.mem.poisoned loc 4)]) ∧
      (s.ctx.flow.cancelTaken = true → t.ctx.flow.cancelPending = true) ∧
      SameMemory s t ∧ SameElse s t

/-- In user mode the privileged instructions raise PRIV and have no effect: RETT, VSAVE, VRSTR, JOB, the kill form of
CANCEL, and RDC and WRC of a control register from 0x800 on (R35, R225, R243, R296, R307, R308). -/
def Obligations.PrivilegedInstructionsTrapInUserMode : Prop :=
  ∀ (s : State) (rd ra : Reg) (cr : BitVec 12) (pool : BitVec 3) (size : Bool),
    s.ctx.user = true → 0x800 ≤ cr.toNat →
    ∀ i ∈ [Instr.rett, .vsave ra, .vrstr ra, .job rd ra, .jobKill ra, .rdc rd cr, .wrc ra cr, .wrcPoolcfg ra pool,
        .wrcAsid ra, .wrcFaultRing ra size, .wrcPwrcap ra, .wrcRampcfg ra],
      exec i s = .next (s.takeTrap .priv 0)

/-- A context that parks on an enabled ring with room writes its record at the slot of the sequence number PROD,
which PROD then passes, and waits for the consumer word to pass it; RING is set in JEVSTAT where PROD equalled the
consumer word (R315, R316, R317, R331). -/
def Obligations.ParkingWritesARecord : Prop :=
  ∀ (s : State) (r : FaultRec), s.mem.wf → s.ringOn = true → s.observe.dev.ring.room = true →
    let ring := s.observe.dev.ring
    let loc := ring.base.toNat + 64 * (ring.prod.toNat % ring.slots)
    let t := s.park [r]
    t.ctx.flow.status = .parked ring.prod.toNat ∧ t.ctx.pc = s.ctx.pc ∧ t.ctx.regs = s.ctx.regs ∧
      t.ctx.vec = s.ctx.vec ∧ t.ctx.trap = s.ctx.trap ∧
      t.dev.ring.prod = ring.prod + 1 ∧ t.dev.ring.cons = ring.cons ∧
      (∀ i < 64, some (t.mem.read (loc + i)) = (r.bytes ring.prod)[i]?) ∧
      MemoryOutside s t (within loc 64) ∧
      (ring.prod = ring.cons → t.dev.host.jevstat.getLsbD 2 = true)

/-! ### Control registers -/

/-- RDC returns the register that its number names in the map of R35 and R37; a number that is not listed raises
ILLEGAL_INSTR (R220). VLMAX and VCOUNT are those of program order (R112). That TIME counts ten nanoseconds for every nineteen cycles, from one instant on for all isles,
is the model's choice (notes/assumptions/5.md). -/
def Obligations.RdcReadsTheControlRegister : Prop :=
  ∀ (s : State) (rd : Reg) (cr : BitVec 12), (s.ctx.user = true → cr.toNat < 0x800) →
    let c := s.ctx
    let d := s.dev
    let nat := BitVec.ofNat 64
    (∀ p ∈ [((0x000 : BitVec 12), nat c.vec.vl), (0x001, nat c.frontVlmax), (0x002, nat c.front.vcount),
        (0x003, c.vec.mspace.setWidth 64), (0x004, c.vec.devpol.setWidth 64), (0x005, c.vec.devstat),
        (0x006, c.eng.tagReady), (0x007, nat c.eng.grant), (0x008, nat (s.abacus c.place.abacusNo).ramp),
        (0x009, nat c.origin.unit), (0x00A, nat c.origin.units), (0x00B, nat c.place.lanes),
        (0x00C, (c.place.isle ++ 0#1 ++ c.place.core ++ c.place.slot).setWidth 64), (0x00D, nat c.origin.task),
        (0x00E, c.origin.param), (0x00F, if c.origin.det then 1 else 0),
        (0x010, nat (d.clock.cycles - d.clock.coreStart)), (0x011, nat (d.clock.cycles * 10 / 19)),
        (0x800, c.trap.tstat), (0x801, c.trap.tcause), (0x802, c.trap.tepc), (0x803, c.trap.tval),
        (0x804, c.trap.tinstr), (0x805, (s.core c.place.coreNo).tvec), (0x806, c.trap.hvl), (0x807, c.trap.hvcount),
        (0x808, c.trap.hmspace), (0x809, c.trap.tscratch), (0x80A, c.trap.vowner), (0x80B, c.trap.vsaveptr),
        (0x80C, c.trap.ptbase), (0x80D, c.trap.asid), (0x810, d.ring.base), (0x811, d.ring.size),
        (0x812, d.ring.prod), (0x813, d.ring.cons), (0x820, d.power.rampcfg), (0x821, d.power.pwrcap),
        (0x822, d.power.ageind), (0x823, d.power.eolmonths), (0x830, (s.pool 0).cfg), (0x831, (s.pool 1).cfg),
        (0x832, (s.pool 2).cfg), (0x833, (s.pool 3).cfg), (0x834, (s.pool 4).cfg), (0x835, (s.pool 5).cfg),
        (0x836, (s.pool 6).cfg), (0x837, (s.pool 7).cfg)],
      p.1 = cr → Completes (.rdc rd cr) s 4 { regs := [rd] } fun t => t.reg rd = written rd p.2) ∧
    (∀ t ∈ s.launch, cr = 0x012 →
      Completes (.rdc rd cr) s 4 { regs := [rd] } fun u => u.reg rd = written rd t.energy) ∧
    (∀ j ∈ s.findJob c.origin.job, cr = 0x013 →
      Completes (.rdc rd cr) s 4 { regs := [rd] } fun u => u.reg rd = written rd j.energy) ∧
    (cr ∉ controlRegisters → exec (.rdc rd cr) s = .next (s.takeTrap .illegalInstr 0))

/-- WRC of a register of the context (R21, R22, R37, R38): each takes the bits it has, an out-of-range value of
DEVPOL, HVCOUNT or HMSPACE is ignored, and of TSTAT only PMODE, HBVALID and a 1 that clears HBLOST are taken. A
read-only register ignores the write, and a number that is not listed raises ILLEGAL_INSTR. -/
def Obligations.WrcWritesTheContextsRegister : Prop :=
  ∀ (s : State) (ra : Reg) (cr : BitVec 12), (s.ctx.user = true → cr.toNat < 0x800) →
    let v := s.reg ra
    let b := s.ctx.trap
    let d := s.ctx.vec.devstat
    (∀ p ∈ [((0x800 : BitVec 12), { b with tstat := (b.tstat &&& 1) ||| (v &&& 6) ||| (b.tstat &&& ~~~v &&& 8) }),
        (0x801, { b with tcause := v &&& 0xFF }), (0x802, { b with tepc := v }), (0x803, { b with tval := v }),
        (0x804, { b with tinstr := v }), (0x806, { b with hvl := v }),
        (0x807, if v = 8 ∨ v = 16 ∨ v = 32 ∨ v = 64 then { b with hvcount := v } else b),
        (0x808, if v.toNat ≤ 2 then { b with hmspace := v } else b), (0x809, { b with tscratch := v }),
        (0x80A, { b with vowner := v &&& 0x1F7F }), (0x80B, { b with vsaveptr := v }),
        (0x80C, { b with ptbase := v &&& 0x000FFFFFFFFFF000 })],
      p.1 = cr → Completes (.wrc ra cr) s 4 { trap := true } fun t => t.ctx.trap = p.2) ∧
    (cr = 0x004 → Completes (.wrc ra cr) s 4 { devpol := true } fun t =>
      t.ctx.vec.devpol = if v.toNat ≤ 2 then v.setWidth 2 else s.ctx.vec.devpol) ∧
    (Completes (.wrcDevstat ra) s 4 { devstat := true } fun t =>
      t.ctx.vec.devstat.getLsbD 63 = (d.getLsbD 63 && !v.getLsbD 63) ∧
      t.ctx.vec.devstat.extractLsb' 32 31 = (if v.extractLsb' 32 31 = 0 then d.extractLsb' 32 31 else 0) ∧
      t.ctx.vec.devstat.extractLsb' 0 32 = (if v.extractLsb' 0 32 = 0 then d.extractLsb' 0 32 else 0)) ∧
    (cr ∈ [0x000, 0x001, 0x002, 0x003, 0x006, 0x007, 0x008, 0x009, 0x00A, 0x00B, 0x00C, 0x00D, 0x00E, 0x00F, 0x010,
        0x011, 0x012, 0x013, 0x812, 0x813, 0x822, 0x823] →
      Completes (.wrc ra cr) s 4 {} fun _ => True) ∧
    (cr ∉ controlRegisters → exec (.wrc ra cr) s = .next (s.takeTrap .illegalInstr 0))

/-- WRC of a register of the core or the device by a supervisor (R272, R273, R302, R313, R314, R337, R341). TVEC takes
bits 63:2. FRBASE takes bits 51:6; FRSIZE takes 0 or 6 to 20, and enabling the ring sets PROD and CONS to the consumer
word. PWRCAP takes 1800 to 4200. RAMPCFG takes an interval and a stagger from 1, the stagger to 32. ASID takes 16
bits, and no cached translation of the old or the new one stays. POOLCFG takes a legal configuration, and then every
skerry of the pool is free. A value that is refused changes nothing. That PROD and
CONS are kept where FRSIZE goes from one size to another is the model's choice (notes/assumptions/24.md), and so is the
instant, in nanoseconds, from which the ramp boundaries of a new interval are counted (notes/assumptions/5.md). -/
def Obligations.WrcWritesTheDevicesRegister : Prop :=
  ∀ (s : State) (ra : Reg) (pool : BitVec 3), s.ctx.user = false →
    let v := s.reg ra
    let d := s.dev
    let log := v.toNat % 32
    let stays := log ≠ 0 ∧ (log < 6 ∨ 20 < log)
    let word := BitVec.ofNat 64 (s.mem.number (d.ring.base.toNat + 64 * 2 ^ log) 8)
    let size := BitVec.ofNat 64 log
    (∀ p ∈ [(Instr.wrc ra 0x805, { d with cores := d.cores.modify s.ctx.place.coreNo fun c => { c with tvec := v &&& ~~~3 } }),
        (.wrcFaultRing ra false, { d with ring := { d.ring with base := v &&& 0x000FFFFFFFFFFFC0 } }),
        (.wrcFaultRing ra true, if stays then d
          else if d.ring.size = 0 ∧ log ≠ 0 then { d with ring := ⟨d.ring.base, size, word, word, d.clock.cycles * 10 / 19⟩ }
          else { d with ring := { d.ring with size := size } }),
        (.wrcPwrcap ra, if 1800 ≤ v.toNat ∧ v.toNat ≤ 4200 then { d with power := { d.power with pwrcap := v } } else d),
        (.wrcRampcfg ra, if v.toNat % 256 ≠ 0 ∧ v.toNat / 256 ≠ 0 ∧ v.toNat / 256 ≤ 32 then
          { d with power := { d.power with rampcfg := v, lastRamp := d.clock.cycles * 10 / 19 } } else d),
        (.wrcPoolcfg ra pool, if v = 0 ∨ (v.toNat / 2 ^ 56 % 4 ≠ 3 ∧ poolGroups v ≠ 0 ∧ poolMask v ≠ 0 ∧
            poolSpan v ≤ d.clsize / 8) then
          { d with msu := { d.msu with pools := d.msu.pools.set pool.toNat ⟨v, 0, []⟩ } } else d)],
      ∃ t : State, exec p.1 s = .next t ∧ GoesOn s t 4 ∧ CtxFrame s t {} ∧ SameMemory s t ∧ t.others = s.others ∧
        t.dev = p.2) ∧
    (∃ t : State, exec (.wrcAsid ra) s = .next t ∧ GoesOn s t 4 ∧ CtxFrame s t { trap := true } ∧ SameMemory s t ∧
      t.others = s.others ∧ t.ctx.trap = { s.ctx.trap with asid := v &&& 0xFFFF } ∧
      ({ t.dev with tlb := d.tlb } : Dev) = d ∧
      t.dev.tlb = d.tlb.filter fun e => e.asid != s.ctx.trap.asid && e.asid != v &&& 0xFFFF)

/-- FENCE, SBAR and CNVY change nothing but the pc in this model of accesses performed one after another
(notes/assumptions/9.md: the model's reading, not the spec's words); that CNVY does not wait for the accumulator of an MXM
that was accepted before it is the model's choice (notes/assumptions/26.md). ISYNC also lets fetch take the page table, the
address space and the memory that stand now (R220, R223, R264, R265). YIELD also holds the context back for 16 cycles,
or until the other contexts of its core, as far as they are ready, have issued (R229). -/
def Obligations.OrderingInstructionsOnlyGoOn : Prop :=
  ∀ (s : State) (kind : BitVec 2) (scope : BitVec 3) (mask : BitVec 8),
    (∀ i ∈ [Instr.fence kind scope, .sbar mask, .cnvy, .yield, .isync], Completes i s 4 {} fun _ => True) ∧
    (∃ t : State, exec .isync s = .next t ∧ t.ctx.flow.fetchPtbase = s.ctx.trap.ptbase ∧
      t.ctx.flow.fetchAsid = s.ctx.trap.asid ∧
      ∀ loc, t.codeWords t.ctx loc = [(s.mem.word loc, s.mem.poisoned loc 4)]) ∧
    ∃ (t : State) (others : List CtxNo), exec .yield s = .next t ∧
      t.ctx.flow.yield = some (s.dev.clock.cycles + 16, others) ∧
      ∀ n, n ∈ others ↔ ∃ c ∈ s.others, c.num = n ∧ c.live = true ∧ c.place.coreNo = s.ctx.place.coreNo

/-! ### Vector configuration -/

/-- SETVL grants the least of the request, VLMAX and the cap, where S0 in the cap field means none, and rounds it down
to whole rods on demand: to 112 where a register below VCOUNT is D4, else to 56 where one is D8; VL and rd take it. VLMAX,
VCOUNT and the tags are those of program order (R112). SETMS sets MSPACE (R114, R115). VCFG sets VCOUNT to 8, 16, 32 or 64,
makes V0 to V(n-1) FP32, sets VL to 0, and returns the new VLMAX, in the lane group and in program order; anchor registers
and the bits of masks below the smaller of the two VLMAX are kept (R16, R116). A push captures the scalar registers, VL,
MSPACE, VCOUNT and tags of program order, and goes on behind the instruction; the push of a VCFG or VTAG moves VCOUNT, the
tags and VL of program order on, and makes an entry of the undo log where something stands in the queue (R26, R112). That the
registers at and above the new VCOUNT become FP32 too is the model's choice (notes/assumptions/20.md); that the program-order
VL is cut to VLMAX at the push of a VTAG is deduced (notes/assumptions/7.md). -/
def Obligations.SetvlSetmsAndVcfgConfigure : Prop :=
  (∀ (s : State) (rd ra rb : Reg) (whole : Bool) (space : BitVec 2),
     let max := s.ctx.frontVlmax
     let m := min (min (s.reg ra).toNat max) (if rb = 0 then max else (s.reg rb).toNat)
     let some' := fun ty => ∃ v : VecNo, v.toNat < s.ctx.front.vcount ∧ tagType (s.ctx.front.tags[v.toNat]'v.isLt) = ty
     (Completes (.setvl rd ra rb whole) s 4 { regs := [rd], vl := true } fun t =>
       t.reg rd = written rd (BitVec.ofNat 64 t.ctx.vec.vl) ∧
       (whole = false → t.ctx.vec.vl = m) ∧
       (whole = true → some' .d4 → t.ctx.vec.vl = m / 112 * 112) ∧
       (whole = true → ¬ some' .d4 → some' .d8 → t.ctx.vec.vl = m / 56 * 56) ∧
       (whole = true → ¬ some' .d4 → ¬ some' .d8 → t.ctx.vec.vl = m)) ∧
     (space ≠ 3 → Completes (.setms space) s 4 { mspace := true } fun t => t.ctx.vec.mspace = space)) ∧
  (∀ (s : State) (i : Instr),
    let c := s.ctx
    let t := s.push i
    let q : Queued := ⟨i, c.pc, c.flow.ir, c.regs, c.vec.vl, c.vec.mspace, c.front, c.flow.pushUndo i, none⟩
    t.ctx.flow.queue = c.flow.queue ++ [q] ∧ t.ctx.pc = c.pc + BitVec.ofNat 56 (queuedBytes i) ∧ t.ctx.regs = c.regs ∧
    t.ctx.trap = c.trap ∧ t.ctx.eng = c.eng ∧ t.ctx.place = c.place ∧
    ({ t.ctx.vec with vl := c.vec.vl } : VecState) = c.vec ∧ t.mem = s.mem ∧ t.dev = s.dev ∧ t.others = s.others ∧
    (∀ (rd : Reg) (code : BitVec 2), i = .vcfg rd code → t.ctx.vec.vl = 0 ∧ t.ctx.front.vcount = 8 * 2 ^ code.toNat ∧
      (∀ v : VecNo, t.ctx.front.tags[v.toNat]'v.isLt = 0) ∧ q.undo = if c.flow.queue = [] then 0 else 1) ∧
    (∀ (vd : VecNo) (anchor typ : BitVec 4), i = .vtag vd anchor typ →
      t.ctx.vec.vl = min c.vec.vl t.ctx.frontVlmax ∧ t.ctx.front.vcount = c.front.vcount ∧
      (tagValid (anchor ++ typ) = true → t.ctx.front.tags[vd.toNat]'vd.isLt = anchor ++ typ) ∧
      (tagValid (anchor ++ typ) = false → t.ctx.front = c.front) ∧ q.undo = if c.flow.queue = [] then 0 else 1) ∧
    ((∀ rd code, i ≠ .vcfg rd code) → (∀ vd anchor typ, i ≠ .vtag vd anchor typ) →
      t.ctx.vec.vl = c.vec.vl ∧ t.ctx.front = c.front ∧ q.undo = 0)) ∧
  ∀ (s : State) (rd : Reg) (code : BitVec 2), s.ctx.ownsVector = true → s.mxmPending allVecs = false →
    ∃ t : State, exec (.vcfg rd code) s = .next t ∧ GoesOn s t 4 ∧ SameMemory s t ∧ SameElse s t ∧
      t.ctx.vec.vcount = 8 * 2 ^ code.toNat ∧ (∀ v, t.ctx.tag v = 0) ∧ t.ctx.vec.vl = 0 ∧
      t.ctx.front = ⟨t.ctx.vec.vcount, t.ctx.vec.tags⟩ ∧
      t.reg rd = written rd (BitVec.ofNat 64 t.ctx.vlmax) ∧
      (∀ m : MaskNo, ∀ i < min s.ctx.vlmax t.ctx.vlmax, (t.ctx.mask m).testBit i = (s.ctx.mask m).testBit i) ∧
      (∀ r, r ≠ rd → t.reg r = s.reg r) ∧ t.ctx.vec.anchors = s.ctx.vec.anchors ∧
      t.ctx.vec.mspace = s.ctx.vec.mspace ∧ t.ctx.vec.devpol = s.ctx.vec.devpol ∧
      t.ctx.vec.devstat = s.ctx.vec.devstat ∧ t.ctx.trap = s.ctx.trap ∧ t.ctx.eng = s.ctx.eng ∧
      t.ctx.place = s.ctx.place ∧ t.ctx.origin = s.ctx.origin

/-- VTAG gives a register its tag (R13-R15, R118): nothing changes when it holds it already; a register that held the
anchor becomes FP32; every other tag, and while VLMAX stays every other register's contents, are kept, and VL is
reduced to VLMAX. The tags of program order change in the same way (R112). A tag of a reserved type, or of an anchor with a type that is no bead type, raises ILLEGAL_TAG. -/
def Obligations.VtagGivesATag : Prop :=
  ∀ (s : State) (vd : VecNo) (anchor typ : BitVec 4), QueueReady s [vd] →
    let tag : BitVec 8 := anchor ++ typ
    let legal := typ.toNat ≤ 10 ∧ (anchor = 0 ∨ 9 ≤ typ.toNat)
    let bound := fun v : VecNo => 9 ≤ typ.toNat ∧ v ≠ vd ∧ 9 ≤ (s.ctx.tag v).toNat % 16 ∧
      (s.ctx.tag v).toNat % 16 ≤ 10 ∧ (s.ctx.tag v).toNat / 16 = anchor.toNat
    (¬ legal → exec (.vtag vd anchor typ) s = .next (s.takeTrap .illegalTag 0)) ∧
    (legal → s.ctx.tag vd = tag → Completes (.vtag vd anchor typ) s 4 {} fun _ => True) ∧
    (legal → s.ctx.tag vd ≠ tag → (∀ v w, bound v → bound w → v = w) →
      ∃ t : State, exec (.vtag vd anchor typ) s = .next t ∧ GoesOn s t 4 ∧ SameMemory s t ∧ SameElse s t ∧
        t.ctx.tag vd = tag ∧ (∀ v, bound v → t.ctx.tag v = 0) ∧
        (∀ v, v ≠ vd → ¬ bound v → t.ctx.tag v = s.ctx.tag v) ∧
        (t.ctx.vlmax = s.ctx.vlmax → ∀ v, v ≠ vd → ¬ bound v → t.ctx.vreg v = s.ctx.vreg v) ∧
        t.ctx.front.vcount = s.ctx.front.vcount ∧ t.ctx.front.tags[vd.toNat]'vd.isLt = tag ∧
        (s.ctx.front.tags = s.ctx.vec.tags → t.ctx.front.tags = t.ctx.vec.tags) ∧
        t.ctx.vec.vl = min s.ctx.vec.vl (min t.ctx.vlmax t.ctx.frontVlmax) ∧ t.ctx.vec.anchors = s.ctx.vec.anchors ∧
        t.ctx.vec.vcount = s.ctx.vec.vcount ∧ t.ctx.vec.mspace = s.ctx.vec.mspace ∧
        t.ctx.vec.devpol = s.ctx.vec.devpol ∧ t.ctx.vec.devstat = s.ctx.vec.devstat ∧
        t.ctx.regs = s.ctx.regs ∧ t.ctx.trap = s.ctx.trap ∧ t.ctx.eng = s.ctx.eng ∧ t.ctx.place = s.ctx.place)

/-! ### Lane groups -/

/-- FORKL splits the lane group (R41, R119, R120). A caller with at least 128 lanes, no live child and a free slot on
its core keeps its lower half, and a child takes the lowest free slot and the upper half: it has the caller's scalar
registers but for rd, which is 0 there and the child's place in the unit here; its pc is the target; its copy tags are
free and it has no grant. VL is 0 on both sides. A PREEMPT that its unit has still to take, or is taking, and a CANCEL
that it has still to take come to the child too (R289, R295). Its first fetch takes memory as it stands with every store
before the FORKL performed (R122, R256). Without one of these FORK_LIMIT is raised, and nothing
is forked. -/
def Obligations.ForklSplitsTheLaneGroup : Prop :=
  ∀ (s : State) (rd : Reg) (off : BitVec 21), s.mxmPending allVecs = false →
    let c := s.ctx
    let half := c.place.lanes / 2
    (c.place.lanes < 128 ∨ c.flow.child ≠ none ∨ s.freeSlot c.place.isle c.place.core = none →
      exec (.forkl rd off) s = .next (s.takeTrap .forkLimit (BitVec.ofNat 64 c.place.lanes))) ∧
    (∀ slot, 128 ≤ c.place.lanes → c.flow.child = none → s.freeSlot c.place.isle c.place.core = some slot →
      ∃ (t : State) (k : Ctx), exec (.forkl rd off) s = .next t ∧ GoesOn s t 4 ∧ t.others = s.others ++ [k] ∧
        t.ctx.place = { c.place with lanes := half } ∧ t.ctx.vec.vl = 0 ∧
        t.reg rd = written rd (BitVec.ofNat 64 (c.place.pos + half / 64)) ∧ (∀ r, r ≠ rd → t.reg r = s.reg r) ∧
        t.ctx.front = c.front ∧ t.ctx.vec.vcount = c.front.vcount ∧ t.ctx.vec.tags = c.front.tags ∧
        t.ctx.vec.mspace = c.vec.mspace ∧ t.ctx.vec.devpol = c.vec.devpol ∧
        t.ctx.vec.devstat = c.vec.devstat ∧ t.ctx.eng = c.eng ∧ t.ctx.flow.child = some k.num ∧
        t.ctx.ownsVector = true ∧ (∀ a, t.mem.read a = s.drain.mem.read a) ∧
        k.place = { c.place with slot := slot, base := c.place.base + half, lanes := half, pos := c.place.pos + half / 64 } ∧
        k.pc = c.pc + 4 * off.signExtend 56 ∧ (∀ r, k.reg r = if r = rd then 0 else s.reg r) ∧
        k.vec.vl = 0 ∧ k.vec.devstat = 0 ∧ k.front = c.front ∧ k.vec.vcount = c.front.vcount ∧ k.vec.tags = c.front.tags ∧
        k.vec.mspace = c.vec.mspace ∧
        k.vec.devpol = c.vec.devpol ∧ k.eng = ⟨0, 0, 0, 0, 0⟩ ∧ k.flow.status = .running ∧
        k.flow.preemptPending = (c.flow.preemptPending || c.flow.evicting) ∧
        (∀ loc, t.codeWords k loc = [(t.mem.word loc, t.mem.poisoned loc 4)]) ∧
        k.flow.cancelPending = c.flow.cancelPending ∧ k.flow.parent = some c.num ∧ k.ownsVector = true ∧ k.user = c.user ∧ k.origin = c.origin)

/-- JOINL (R42, R121): a parent whose child has ended, with the child's commands and whoever held its lanes, takes the
lanes back with VL 0 and goes on; one whose child has not waits; a child without a child of its own ends; a root
without one raises JOIN_NONE. EXIT (R42, R226): a context without a live child ends, its grant is released, its
earlier stores are performed, and its parent, resident or parked, sees that it has ended; with a live child it raises
JOIN_NONE. Two points are the model's choice: that EXIT ends a context and releases its grant at once while an MXM of it
is still to be performed (R195, R211, notes/assumptions/26.md), and that JOINL and EXIT wait while the header of a released
store has found no request slot (notes/assumptions/25.md). -/
def Obligations.ContextsJoinAndEnd : Prop :=
  (∀ s : State, s.mxmPending allVecs = false →
     let c := s.ctx
     (c.flow.child ≠ none → c.flow.childEnded = true → s.childBusy c = false → s.childLanes c = false →
       ∃ t : State, exec .joinl s = .next t ∧ GoesOn s t 4 ∧ t.ctx.place = { c.place with lanes := 2 * c.place.lanes } ∧
         t.ctx.vec.vl = 0 ∧ t.ctx.flow.child = none ∧ t.ctx.ownsVector = true ∧ t.ctx.regs = c.regs ∧
         t.ctx.front = c.front ∧ t.ctx.vec.tags = c.front.tags ∧ t.ctx.vec.vcount = c.front.vcount ∧
         t.ctx.vec.mspace = c.vec.mspace ∧
         t.ctx.vec.devpol = c.vec.devpol ∧ t.ctx.vec.devstat = c.vec.devstat ∧ t.ctx.eng = c.eng ∧
         t.others = s.others ∧ (∀ a, t.mem.read a = s.drain.mem.read a)) ∧
     (c.flow.child ≠ none → c.flow.childEnded = false ∨ s.childBusy c = true ∨ s.childLanes c = true →
        exec .joinl s = .next s.wait) ∧
     (c.flow.child = none → c.flow.parent ≠ none → s.drain.ctx.flow.owed ≠ [] → exec .joinl s = .next s.drain.wait) ∧
     (c.flow.child = none → c.flow.parent ≠ none → c.flow.status = .running → s.drain.ctx.flow.owed = [] →
       ∃ t : State, exec .joinl s = .next t ∧ t.ctx.flow.status = .ended ∧ t.ctx.eng.grant = 0) ∧
     (c.flow.child = none → c.flow.parent = none → exec .joinl s = .next (s.takeTrap .joinNone 0))) ∧
  ∀ s : State, s.ctx.flow.status = .running →
    (s.ctx.flow.child ≠ none → exec .exit s = .next (s.takeTrap .joinNone 0)) ∧
    (s.ctx.flow.child = none → s.drain.ctx.flow.owed ≠ [] → exec .exit s = .next s.drain.wait) ∧
    (s.ctx.flow.child = none → s.drain.ctx.flow.owed = [] →
      ∃ t : State, exec .exit s = .next t ∧ t.ctx.flow.status = .ended ∧ t.ctx.eng.grant = 0 ∧ t.ctx.regs = s.ctx.regs ∧
        t.ctx.vec = s.ctx.vec ∧ t.mem = s.drain.mem ∧
        (∀ c ∈ s.others, c.live = true → c.isParentOf s.ctx = true →
          ∃ c' ∈ t.others, c'.num = c.num ∧ c'.flow.childEnded = true) ∧
        ∀ p ∈ s.dev.sched.parked, p.live = true → p.isParentOf s.ctx = true →
          ∃ p' ∈ t.dev.sched.parked, p'.num = p.num ∧ p'.flow.childEnded = true)

/-! ### Waiting on memory; saving and restoring -/

/-- WAITL of an access that is permitted and does not cover the flag byte of its own page-table entry, where the
walker's update would show in it (R227, R312): it returns the value as soon as that differs from rd, or once the
limit, in units of 1024 cycles from where it began to wait, has passed; till then it waits. What it reads by a stale
skerry name is undefined (R191): which names count as stale is the model's choice (notes/assumptions/4.md). -/
def Obligations.WaitlReturnsAChangedValue : Prop :=
  ∀ (s : State) (rd ra : Reg) (limit : BitVec 12) (h : Hit),
    s.probe .read 8 (s.reg ra) = .ok h → s.poisonedHere h.loc 8 = false →
    (∃ t : State, exec (.waitl rd ra limit) s = .next t ∧ (GoesOn s t 4 ∨ t.ctx.flow.status = .waiting) ∧
      CtxFrame s t { regs := [rd] } ∧ MemoryOutside s t h.marks ∧ SameButTransit s t) ∧
    ((∀ i < 8, ¬ h.marks (h.loc + i)) → s.freshNames h.loc 8 →
    let v := BitVec.ofNat 64 (s.mem.number h.loc 8)
    let late := limit ≠ 0 ∧ ∃ t0, s.ctx.flow.waitStart = some t0 ∧ t0 + 1024 * limit.toNat ≤ s.dev.clock.cycles
    (v ≠ s.reg rd ∨ late →
      ∃ t : State, exec (.waitl rd ra limit) s = .next t ∧ GoesOn s t 4 ∧ CtxFrame s t { regs := [rd] } ∧
        MemoryOutside s t h.marks ∧ SameButTransit s t ∧ t.reg rd = written rd v) ∧
    (v = s.reg rd → ¬ late →
      ∃ t : State, exec (.waitl rd ra limit) s = .next t ∧ t.ctx.pc = s.ctx.pc ∧ t.ctx.flow.status = .waiting ∧
        t.ctx.flow.waitStart = some (s.ctx.flow.waitStart.getD s.dev.clock.cycles) ∧ CtxFrame s t {} ∧
        MemoryOutside s t h.marks ∧ SameButTransit s t))

/-- VSAVE by a supervisor (R307): an area that is not 64-byte aligned raises MISALIGN; one that stops in a page stops
so; one that can be written, at locations that differ and lie on no fenced channel, takes the save area of the context
byte by byte, and nothing else changes but the accessed and dirty bits of its pages. That every page is probed before
anything is performed, so that a stop performs nothing, and which of several failures is reported, are the model's choice
(notes/assumptions/22.md). It waits while fewer request slots are free than its headers need, and sends those that find one
(R322, R324); which headers it has, and that it acts as the last of them is sent, is the model's choice
(notes/assumptions/25.md). The save area of a
context in a legal state has the fields of its header, the tags of the registers below VCOUNT, the registers, anchors and
masks where R307 puts them. -/
def Obligations.VsaveWritesTheSaveArea : Prop :=
  ∀ (s : State) (ra : Reg) (hits : List (Hit × Nat)),
    s.ctx.user = false → s.mxmPending allVecs = false → s.mem.wf →
    let c := s.ctx
    let a := s.reg ra
    let n := areaSize c.vlmax c.vec.vcount (widest c.vec.tags.toList c.vec.vcount)
    (a.toNat % 64 ≠ 0 → exec (.vsave ra) s = .next (s.takeTrap .misalign a)) ∧
    (∀ e, a.toNat % 64 = 0 → s.areaHits .write (areaParts a n) = .error e → exec (.vsave ra) s = .next (s.stop e)) ∧
    (a.toNat % 64 = 0 → s.areaHits .write (areaParts a n) = .ok hits → s.headersWait (s.areaHeaders hits) →
      exec (.vsave ra) s = .next (s.sendSome (s.areaHeaders hits)).wait) ∧
    (a.toNat % 64 = 0 → s.areaHits .write (areaParts a n) = .ok hits → ¬ s.headersWait (s.areaHeaders hits) →
      (∀ i j l, areaLoc hits i = some l → areaLoc hits j = some l → i = j) →
      (∀ i l, areaLoc hits i = some l → s.dev.fencedAt l = false) →
      ∃ t : State, exec (.vsave ra) s = .next t ∧ GoesOn s t 4 ∧ CtxFrame s t {} ∧ SameButTransit s t ∧
        (∀ (i l : Nat) (b : Byte), areaLoc hits i = some l → c.saveArea[i]? = some b → t.mem.read l = b) ∧
        MemoryOutside s t fun l => (∃ h ∈ hits, h.1.marks l) ∨ ∃ i, areaLoc hits i = some l) ∧
    (c.wf → c.eng.grant < 2 ^ 64 →
      let bs := c.saveArea
      bs.length = n ∧ AreaHolds c bs ∧
      (∀ p ∈ [(0, c.trap.hvl.toNat), (8, c.vec.vcount), (16, c.trap.hmspace.toNat), (24, c.vec.devpol.toNat),
          (32, c.vec.devstat.toNat), (40, c.eng.grant), (48, c.vlmax), (56, 0)], fieldAt bs p.1 8 = p.2) ∧
      ∀ v : VecNo, fieldAt bs (64 + v.toNat) 1 = if v.toNat < c.vec.vcount then (c.tag v).toNat else 0)

/-- VRSTR by a supervisor (R308), of an area that covers no flag byte of a page-table entry of its own pages (R312): an
area that is not 64-byte aligned raises MISALIGN, a header with an illegal tag ILLEGAL_TAG, and one whose VCOUNT is
illegal or whose VLMAX is not what R18 gives for the group ILLEGAL_VL. An area that stops in a page stops so. Otherwise
the context takes VCOUNT, tags, DEVPOL and DEVSTAT from the header, its bank becomes valid with what the header holds,
and the registers below VCOUNT, the anchors and the masks hold what the area holds where R307 puts it; scalar registers,
copy tags, grant and lanes stay. A header that binds an anchor register twice binds it once (R14). Five points are the
model's choice: that the accessed bit of the header read stays set where the instruction stops after it, that a DEVPOL above 2 is ignored, that of two registers bound to one anchor register the later one keeps
it, that the pages of the area are probed whole before anything is loaded, where R308 lets a part be loaded, and which of
several failures is reported (notes/assumptions/22.md); so is which headers the instruction has, and that it, which waits while fewer request slots
are free than its headers need (R322, R324), acts as the last of them is sent (notes/assumptions/25.md), and what a read by
a stale skerry name is (notes/assumptions/4.md). -/
def Obligations.VrstrLoadsTheSaveArea : Prop :=
  ∀ (s : State) (ra : Reg) (head hits : List (Hit × Nat)),
    s.ctx.user = false → s.mxmPending allVecs = false →
    let c := s.ctx
    let a := s.reg ra
    let s' := head.foldl (fun s h => s.touch .read h.1) s
    let asked := s'.readTraffic (head.map fun h => (h.1.loc, h.2))
    let clear := fun xs ys : List (Hit × Nat) => ∀ h ∈ xs, ∀ p ∈ ys, ∀ i < p.2, ¬ h.1.marks (p.1.loc + i)
    let hb := s.areaBytes c.origin.job head
    let k := fieldAt hb 8 8
    let n := fieldAt hb 48 8
    let tags := (hb.drop 64).take 64
    let parts := areaParts a (areaSize n k (widest tags k))
    let fits := (k = 8 ∨ k = 16 ∨ k = 32 ∨ k = 64) ∧ vlmaxOf c.origin.part c.place.lanes k tags = n
    let tagAt := fun v : Nat => hb.getD (64 + v) 0
    (a.toNat % 64 ≠ 0 → exec (.vrstr ra) s = .next (s.takeTrap .misalign a)) ∧
    (∀ e, a.toNat % 64 = 0 → s.areaHits .read (areaParts a 128) = .error e → exec (.vrstr ra) s = .next (s.stop e)) ∧
    (a.toNat % 64 = 0 → s.areaHits .read (areaParts a 128) = .ok head → clear head head →
      ((∃ g ∈ tags, tagValid g = false) → exec (.vrstr ra) s = .next (asked.takeTrap .illegalTag 0)) ∧
      ((∀ g ∈ tags, tagValid g = true) → ¬ fits →
        exec (.vrstr ra) s = .next (asked.takeTrap .illegalVl (BitVec.ofNat 64 n))) ∧
      ((∀ g ∈ tags, tagValid g = true) → fits →
        (∀ e, s'.areaHits .read parts = .error e → exec (.vrstr ra) s = .next (asked.stop e)) ∧
        (s'.areaHits .read parts = .ok hits → s'.headersWait (s'.areaHeaders hits) →
          exec (.vrstr ra) s = .next (s'.sendSome (s'.areaHeaders hits)).wait) ∧
        (s'.areaHits .read parts = .ok hits → ¬ s'.headersWait (s'.areaHeaders hits) →
          clear head hits → clear hits hits →
          ∃ t : State, exec (.vrstr ra) s = .next t ∧ GoesOn s t 4 ∧ t.ctx.vec.vcount = k ∧
            t.ctx.vec.vl = min (min c.vec.vl n) t.ctx.vlmax ∧ boundOnce t.ctx.vec.tags ∧
            t.ctx.front = ⟨k, t.ctx.vec.tags⟩ ∧
            (∀ v : VecNo, t.ctx.tag v = tagAt v.toNat ∨ t.ctx.tag v = 0) ∧
            (boundOnce (Vector.ofFn fun i => tagAt i.val) →
              (∀ v : VecNo, t.ctx.tag v = tagAt v.toNat) ∧ t.ctx.vlmax = n ∧ AreaHolds t.ctx (s.areaBytes c.origin.job hits)) ∧
            t.ctx.vec.devpol = (if fieldAt hb 24 8 ≤ 2 then BitVec.ofNat 2 (fieldAt hb 24 8) else c.vec.devpol) ∧
            t.ctx.vec.devstat = BitVec.ofNat 64 (fieldAt hb 32 8) ∧ t.ctx.vec.mspace = c.vec.mspace ∧
            t.ctx.trap = { c.trap with
              hvl := BitVec.ofNat 64 (fieldAt hb 0 8), hvcount := BitVec.ofNat 64 k
              hmspace := BitVec.ofNat 64 (fieldAt hb 16 8), tstat := c.trap.tstat ||| 4 } ∧
            t.ctx.regs = c.regs ∧ t.ctx.eng = c.eng ∧ t.ctx.place = c.place ∧ SameButTransit s t ∧
            MemoryOutside s t fun l => ∃ h ∈ head ++ hits, h.1.marks l)))

/-! ### Vector arithmetic, moves and permutes -/

/-- The VOP and VOPS instructions (R82, R125-R127): operand types without a common operation type, or an operation that
its type does not have, raise ILLEGAL_TAG; then a VL that is not a whole number of rods of a bead type that takes part
raises ILLEGAL_VL with VL; else the result is delivered to the destination (R81). The operation type is that of R82 for
the types of the operands, and the result that of R68, R69, R78, R79 and R83. The same of moves, conversions,
selections, scans, splats and the bead instructions (R128, R129, R143, R147, R148, R156, R158, R161-R163). VINS beyond
VL writes nothing, and else delivers one element, of a bead register with its rod (R139). What a move of rods, a
selection of rods, a scan, a splat into rods, a reading of codes, a conversion, a fresh anchor, a rod formed anew, a bead
made of integers, a centre added to and an element inserted come to is that of R68, R84, R129, R76 to R78, R139, R143,
R147, R148, R156, R158 and R161 to R163. That a result of a bead operation type is quantised into a bead register of the
other width, with the overflow events of R78, where R83 speaks of the element values, is the model's choice
(notes/assumptions/19.md). -/
def Obligations.VectorResultsAreDelivered : Prop :=
  (∀ (s : State) (vd va vb : VecNo) (sb : Reg) (mk : MaskNo), QueueReady s [vd, va, vb] →
     let c := s.ctx
     ∀ p ∈ arithForms s vd va vb sb mk,
       let rods := (vd :: p.2.1.sources vd va p.2.2).map c.typ
       (c.opType p.2.1 vd va p.2.2 = none → exec p.1 s = .next (s.takeTrap .illegalTag 0)) ∧
       ∀ t, c.opType p.2.1 vd va p.2.2 = some t →
         (p.2.1.allows t = false → exec p.1 s = .next (s.takeTrap .illegalTag 0)) ∧
         (p.2.1.allows t = true → ¬ c.rodsFit rods →
           exec p.1 s = .next (s.takeTrap .illegalVl (BitVec.ofNat 64 c.vec.vl))) ∧
         (p.2.1.allows t = true → c.rodsFit rods → Delivers p.1 s vd (c.arithOut p.2.1 vd va p.2.2 mk t)) ∧
         (p.2.1.allows t = true → c.rodsFit rods → c.vec.wf →
           ArithIs c p.2.1 vd va p.2.2 mk t (c.arithOut p.2.1 vd va p.2.2 mk t)) ∧
         OpTypeIs c p.2.1 vd va p.2.2 t) ∧
  (∀ (c : Ctx) (op : VOp) (vd va : VecNo) (b : Operand) (t : ElemType),
     OpTypeIs c op vd va b t → c.opType op vd va b = some t) ∧
  ∀ (s : State) (vd va vb : VecNo) (ss sb : Reg) (mk : MaskNo), QueueReady s [vd, va, vb] →
    let c := s.ctx
    let d := c.typ vd
    let a := c.typ va
    let cut := s.takeTrap .illegalVl (BitVec.ofNat 64 c.vec.vl)
    (∀ p ∈ [(Instr.vmov vd va mk, d = a, [d], c.moveOut vd va mk),
        (.vcvt vd va mk, True, [d, a], c.convertOut vd va mk),
        (.vsel vd va vb mk, a = d ∧ c.typ vb = d, [d], c.selectOut vd va vb mk),
        (.vscan vd va mk, d.isBead = false, [a], c.scanOut vd va mk),
        (.vsplat vd sb mk, True, [d], c.splatOut vd (s.reg sb) mk),
        (.vanch vd va mk, d.isBead = true, [d, a], c.anchorOut false vd va mk),
        (.vanchz vd va mk, d.isBead = true, [d, a], c.anchorOut true vd va mk),
        (.vranc vd mk, d.isBead = true, [d], c.reanchorOut vd mk),
        (.vdevs vd va mk, a.isBead = true ∧ d.isInt = true, [a], c.devsOut vd va mk),
        (.vbead vd va mk, d.isBead = true ∧ a.isInt = true, [d], c.beadOut vd va mk),
        (.vaddc vd va sb mk, d.isBead = true ∧ a = d, [d], c.addCentreOut vd va (s.reg sb) mk)],
      (¬ p.2.1 → exec p.1 s = .next (s.takeTrap .illegalTag 0)) ∧
      (p.2.1 → ¬ c.rodsFit p.2.2.1 → exec p.1 s = .next cut) ∧
      (p.2.1 → c.rodsFit p.2.2.1 → Delivers p.1 s vd p.2.2.2)) ∧
    (let k := (s.reg sb).toNat
     (¬ c.rodsFit [d] → exec (.vins ss vd sb) s = .next cut) ∧
     (c.rodsFit [d] → c.vec.vl ≤ k → Completes (.vins ss vd sb) s 4 {} fun _ => True) ∧
     (c.rodsFit [d] → k < c.vec.vl → Delivers (.vins ss vd sb) s vd
        (if d.isBead then c.insertBead vd k (fp32.decode ((s.reg ss).toNat % 2 ^ 32))
         else .ofElems [(k, d.ofScalar (s.reg ss))]))) ∧
    (c.vec.wf →
      (c.rodsFit [d, a] → ConvertIs c vd va mk (c.convertOut vd va mk)) ∧
      (d.isBead = true → a = d → c.rodsFit [d] → Copied c vd va mk (c.moveOut vd va mk) ∧
        (c.typ vb = d → RodsSelected c vd va vb mk (c.selectOut vd va vb mk))) ∧
      (d.isBead = false → c.rodsFit [a] → ElemsAre c mk (c.scanOut vd va mk) fun i =>
        (if a.isBead then ElemType.fp32 else a).deliver d (c.sumTo va mk i)) ∧
      (d.isBead = true → c.rodsFit [d] → Quantised c vd mk (c.splatOut vd (s.reg sb) mk) [] fun _ =>
        fp32.decode ((s.reg sb).toNat % 2 ^ 32)) ∧
      (d.isInt = true → a.isBead = true → c.rodsFit [a] → ElemsAre c mk (c.devsOut vd va mk) fun i =>
        let lo : Int := if d.isSigned then -2 ^ (d.bits - 1) else 0
        let hi : Int := if d.isSigned then 2 ^ (d.bits - 1) - 1 else 2 ^ d.bits - 1
        (max lo (min hi (c.code va i)) % 2 ^ d.bits).toNat) ∧
      (d.isBead = true → c.rodsFit [d, a] → ∀ zero : Bool, AnchorsAre c zero vd va mk (c.anchorOut zero vd va mk)) ∧
      (d.isBead = true → c.rodsFit [d] →
        Reanchored c vd mk (c.reanchorOut vd mk) ∧
        (a.isInt = true → BeadsAre c vd va mk (c.beadOut vd va mk)) ∧
        (a = d → CentresAre c vd va (s.reg sb) mk (c.addCentreOut vd va (s.reg sb) mk)) ∧
        ∀ (k : Nat) (v : Exact), k < c.vec.vl → InsertIs c vd k v (c.insertBead vd k v)))

/-- Arithmetic on registers of one integer type of `w` bits (R67, R126, R127): every active element takes the result,
wrapped to `w` bits, from the elements of the same index and the low bits of the scalar; everything else stays. -/
def Obligations.IntegerVectorResults : Prop :=
  ∀ (s : State) (vd va vb : VecNo) (sb : Reg) (mk : MaskNo) (ty : ElemType),
    s.ctx.vec.wf → QueueReady s [vd, va, vb] → ty.isInt = true →
    s.ctx.typ vd = ty → s.ctx.typ va = ty → s.ctx.typ vb = ty →
    let c := s.ctx
    let w := ty.bits
    let x : Nat → Nat := fun _ => (s.reg sb).toNat % 2 ^ w
    let y : Nat → Nat := c.elem vb
    let signed := fun v : Nat => (BitVec.ofNat w v).toInt
    let val := fun v : Nat => if ty.isSigned then signed v else (v : Int)
    let wrap := fun v : Int => (v % 2 ^ w).toNat
    ∀ p ∈ [(Instr.vadd vd va vb mk, y, fun (a b _ : Nat) => (a + b) % 2 ^ w),
        (.vsub vd va vb mk, y, fun a b _ => wrap ((a : Int) - b)), (.vmul vd va vb mk, y, fun a b _ => a * b % 2 ^ w),
        (.vdiv vd va vb mk, y, fun a b _ => if b = 0 then 2 ^ w - 1 else wrap ((val a).tdiv (val b))),
        (.vmin vd va vb mk, y, fun a b _ => if val a ≤ val b then a else b),
        (.vmax vd va vb mk, y, fun a b _ => if val a ≤ val b then b else a),
        (.vand vd va vb mk, y, fun a b _ => a &&& b), (.vor vd va vb mk, y, fun a b _ => a ||| b),
        (.vxor vd va vb mk, y, fun a b _ => a ^^^ b), (.vsll vd va vb mk, y, fun a b _ => a <<< (b % w) % 2 ^ w),
        (.vsrl vd va vb mk, y, fun a b _ => a >>> (b % w)),
        (.vsra vd va vb mk, y, fun a b _ => wrap (signed a / 2 ^ (b % w))),
        (.vfma vd va vb mk, y, fun a b d => (a * b + d) % 2 ^ w),
        (.vfnma vd va vb mk, y, fun a b d => wrap ((d : Int) - a * b)),
        (.vabs vd va mk, y, fun a _ _ => wrap (val a).natAbs), (.vneg vd va mk, y, fun a _ _ => wrap (-(a : Int))),
        (.vadds vd va sb mk, x, fun a b _ => (a + b) % 2 ^ w), (.vsubs vd va sb mk, x, fun a b _ => wrap ((a : Int) - b)),
        (.vrsubs vd va sb mk, x, fun a b _ => wrap ((b : Int) - a)), (.vmuls vd va sb mk, x, fun a b _ => a * b % 2 ^ w),
        (.vfmas vd va sb mk, x, fun a b d => (a * b + d) % 2 ^ w),
        (.vmins vd va sb mk, x, fun a b _ => if val a ≤ val b then a else b),
        (.vmaxs vd va sb mk, x, fun a b _ => if val a ≤ val b then b else a),
        (.vands vd va sb mk, x, fun a b _ => a &&& b), (.vors vd va sb mk, x, fun a b _ => a ||| b),
        (.vxors vd va sb mk, x, fun a b _ => a ^^^ b), (.vslls vd va sb mk, x, fun a b _ => a <<< (b % w) % 2 ^ w),
        (.vsrls vd va sb mk, x, fun a b _ => a >>> (b % w)),
        (.vsras vd va sb mk, x, fun a b _ => wrap (signed a / 2 ^ (b % w)))],
      Completes p.1 s 4 { vecs := [vd] } fun t =>
        (∀ i, c.acts mk i → t.ctx.elem vd i = p.2.2 (c.elem va i) (p.2.1 i) (c.elem vd i)) ∧
        ∀ i, ¬ c.acts mk i → (t.ctx.vreg vd).get i = (c.vreg vd).get i

/-- Arithmetic on registers of one floating type (R65, R66, R82, R126, R127): every active element takes the exact
result rounded once to that type; a scalar is read as FP32; everything else stays. -/
def Obligations.FloatVectorResults : Prop :=
  ∀ (s : State) (vd va vb : VecNo) (sb : Reg) (mk : MaskNo) (ty : ElemType) (f : Format),
    s.ctx.vec.wf → QueueReady s [vd, va, vb] → (ty = .fp32 ∧ f = fp32) ∨ (ty = .bf16 ∧ f = bf16) →
    s.ctx.typ vd = ty → s.ctx.typ va = ty → s.ctx.typ vb = ty →
    let c := s.ctx
    let at' := fun (v : VecNo) (i : Nat) => f.decode (c.elem v i)
    let x : Nat → Exact := fun _ => fp32.decode ((s.reg sb).toNat % 2 ^ 32)
    let y : Nat → Exact := at' vb
    ∀ p ∈ [(Instr.vadd vd va vb mk, y, fun (a b _ : Exact) => f.round (a.add b)),
        (.vsub vd va vb mk, y, fun a b _ => f.round (a.add b.neg)), (.vmul vd va vb mk, y, fun a b _ => f.round (a.mul b)),
        (.vdiv vd va vb mk, y, fun a b _ => f.div a b), (.vmin vd va vb mk, y, fun a b _ => f.round (a.min b)),
        (.vmax vd va vb mk, y, fun a b _ => f.round (a.max b)),
        (.vfma vd va vb mk, y, fun a b d => f.round ((a.mul b).add d)),
        (.vfnma vd va vb mk, y, fun a b d => f.round ((a.neg.mul b).add d)),
        (.vabs vd va mk, y, fun a _ _ => f.round a.abs), (.vneg vd va mk, y, fun a _ _ => f.round a.neg),
        (.vsqrt vd va mk, y, fun a _ _ => f.sqrt a), (.vrsq vd va mk, y, fun a _ _ => f.rsqrt a),
        (.vrcp vd va mk, y, fun a _ _ => f.rcp a), (.vexp2 vd va mk, y, fun a _ _ => f.exp2 a),
        (.vlog2 vd va mk, y, fun a _ _ => f.log2 a),
        (.vadds vd va sb mk, x, fun a b _ => f.round (a.add b)), (.vsubs vd va sb mk, x, fun a b _ => f.round (a.add b.neg)),
        (.vrsubs vd va sb mk, x, fun a b _ => f.round (b.add a.neg)), (.vmuls vd va sb mk, x, fun a b _ => f.round (a.mul b)),
        (.vfmas vd va sb mk, x, fun a b d => f.round ((a.mul b).add d)),
        (.vmins vd va sb mk, x, fun a b _ => f.round (a.min b)), (.vmaxs vd va sb mk, x, fun a b _ => f.round (a.max b))],
      Completes p.1 s 4 { vecs := [vd] } fun t =>
        (∀ i, c.acts mk i → t.ctx.elem vd i = p.2.2 (at' va i) (p.2.1 i) (at' vd i) % 2 ^ ty.bits) ∧
        ∀ i, ¬ c.acts mk i → (t.ctx.vreg vd).get i = (c.vreg vd).get i

/-- What the moves, selections, permutes and scans put into each element of a register that is no bead
register (R128, R140, R143-R148, R161): the instruction completes, an element with a new value takes it, and every
other keeps its own. The source is read as it was before, also where it is the destination. -/
def Obligations.PermutesPlaceTheirElements : Prop :=
  ∀ (s : State) (vd va vb : VecNo) (sb : Reg) (mk : MaskNo),
    s.ctx.vec.wf → QueueReady s [vd, va, vb] →
    let c := s.ctx
    let n := c.vec.vl
    let d := c.typ vd
    let a := c.typ va
    let x : Nat → Nat := c.elem va
    let k := (s.reg sb).toNat
    let act := fun i => mk = 0 ∨ (c.mask mk).testBit i = true
    let chosen := (List.range n).filter fun i => mk == 0 || (c.mask mk).testBit i
    let index := fun i : Nat => (c.typ vb).int (c.elem vb i)
    let same := d = a ∧ d.isBead = false
    (∀ p ∈ [(Instr.vgathr vd va vb mk, ¬ (same ∧ (c.typ vb).isInt = true)), (.vcomp vd va mk, ¬ same),
        (.vexpd vd va mk, ¬ same), (.vslup vd va sb mk, ¬ same), (.vsldn vd va sb mk, ¬ same),
        (.vmtov vd mk, d.isBead = true), (.viota vd, d.isBead = true)],
      p.2 → exec p.1 s = .next (s.takeTrap .illegalTag 0)) ∧
    ∀ p ∈ [(Instr.vmov vd va mk, same, fun i => i < n ∧ act i, x),
        (.vsel vd va vb mk, same ∧ c.typ vb = d, fun i => i < n,
          fun i => if (c.mask mk).testBit i then x i else c.elem vb i),
        (.vgathr vd va vb mk, same ∧ (c.typ vb).isInt = true, fun i => i < n ∧ act i,
          fun i => if 0 ≤ index i ∧ index i < n then x (index i).toNat else 0),
        (.vcomp vd va mk, same, fun i => i < chosen.length, fun i => x (chosen.getD i 0)),
        (.vexpd vd va mk, same, fun i => i < n ∧ act i, fun i => x (chosen.filter (· < i)).length),
        (.vslup vd va sb mk, same, fun i => i < n ∧ act i ∧ k ≤ i, fun i => x (i - k)),
        (.vsldn vd va sb mk, same, fun i => i < n ∧ act i, fun i => if i + k < n then x (i + k) else 0),
        (.vscan vd va mk, same ∧ a.isInt = true, fun i => i < n ∧ act i,
          fun i => ((chosen.filter (· ≤ i)).map x).sum % 2 ^ d.bits),
        (.vscan vd va mk, d.isBead = false ∧ c.rodsFit [a], fun i => i < n ∧ act i,
          fun i => (if a.isBead then ElemType.fp32 else a).deliver d (c.sumTo va mk i)),
        (.vsplat vd sb mk, d = .bf16, fun i => i < n ∧ act i, fun _ => bf16.round (fp32.decode (k % 2 ^ 32))),
        (.vsplat vd sb mk, d.isInt = true ∨ d = .fp32, fun i => i < n ∧ act i, fun _ => (s.reg sb).toNat % 2 ^ d.bits),
        (.vmtov vd mk, d.isInt = true, fun i => i < n, fun i => if (c.mask mk).testBit i then 1 else 0),
        (.vmtov vd mk, d = .fp32, fun i => i < n, fun i => if (c.mask mk).testBit i then 0x3F800000 else 0),
        (.vmtov vd mk, d = .bf16, fun i => i < n, fun i => if (c.mask mk).testBit i then 0x3F80 else 0),
        (.viota vd, d = .fp32, fun i => i < n, fun i => fp32.round (.ofInt i)),
        (.viota vd, d = .bf16, fun i => i < n, fun i => bf16.round (.ofInt i)),
        (.viota vd, d.isInt = true, fun i => i < n,
          fun i => min i (2 ^ (if d.isSigned then d.bits - 1 else d.bits) - 1)),
        (.vdevs vd va mk, d.isSigned = true ∧ a.isBead = true ∧ c.rodsFit [a], fun i => i < n ∧ act i,
          fun i => (a.int (x i) % 2 ^ d.bits).toNat),
        (.vdevs vd va mk, (d.isInt = true ∧ d.isSigned = false) ∧ a.isBead = true ∧ c.rodsFit [a], fun i => i < n ∧ act i,
          fun i => (a.int (x i)).toNat)],
      p.2.1 → Completes p.1 s 4 { vecs := [vd] } fun t =>
        (∀ i, p.2.2.1 i → t.ctx.elem vd i = p.2.2.2 i) ∧
        ∀ i, ¬ p.2.2.1 i → (t.ctx.vreg vd).get i = (c.vreg vd).get i

/-! ### Masks, reductions and anchor entries -/

/-- VCMP and VCMPS (R66, R132-R134): operands without a common type raise ILLEGAL_TAG, then a VL that cuts a rod
ILLEGAL_VL; else each active element below VL gets the bit that its condition gives for the exact values, unordered
when one is a NaN, and every other bit of the mask stays. A scalar is an integer of the type, or an FP32 number. -/
def Obligations.ComparesWriteTheirMask : Prop :=
  ∀ (s : State) (md : MaskNo) (va vb : VecNo) (sb : Reg) (mk : MaskNo),
    s.ctx.vec.wf → QueueReady s [va, vb] →
    let c := s.ctx
    let ty := c.typ va
    let w := s.reg sb
    let x := if ty.isInt then ty.value (w.toNat % 2 ^ ty.bits) else fp32.decode (w.toNat % 2 ^ 32)
    let cut := s.takeTrap .illegalVl (BitVec.ofNat 64 c.vec.vl)
    let sets := fun (i : Instr) (y : Nat → Exact) (holds : Option Ordering → Bool) =>
      Completes i s 4 { masks := [md] } fun t =>
        (∀ k, c.acts mk k → (t.ctx.mask md).testBit k = holds ((c.valueAt va k).compare (y k))) ∧
        ∀ k, ¬ c.acts mk k → (t.ctx.mask md).testBit k = (c.mask md).testBit k
    ∀ p ∈ [(Instr.vcmpEq md va vb mk, Instr.vcmpsEq md va sb mk, fun o : Option Ordering => o == some .eq),
        (.vcmpNe md va vb mk, .vcmpsNe md va sb mk, fun o => o != some .eq),
        (.vcmpLt md va vb mk, .vcmpsLt md va sb mk, fun o => o == some .lt),
        (.vcmpLe md va vb mk, .vcmpsLe md va sb mk, fun o => o == some .lt || o == some .eq),
        (.vcmpGt md va vb mk, .vcmpsGt md va sb mk, fun o => o == some .gt),
        (.vcmpGe md va vb mk, .vcmpsGe md va sb mk, fun o => o == some .gt || o == some .eq),
        (.vcmpUn md va vb mk, .vcmpsUn md va sb mk, fun o => o == none)],
      (joinTypes ty (c.typ vb) = none → exec p.1 s = .next (s.takeTrap .illegalTag 0)) ∧
      (joinTypes ty (c.typ vb) ≠ none → ¬ c.rodsFit [ty, c.typ vb] → exec p.1 s = .next cut) ∧
      (joinTypes ty (c.typ vb) ≠ none → c.rodsFit [ty, c.typ vb] → sets p.1 (c.valueAt vb) p.2.2) ∧
      (¬ c.rodsFit [ty] → exec p.2.1 s = .next cut) ∧ (c.rodsFit [ty] → sets p.2.1 (fun _ => x) p.2.2)

/-- The mask instructions (R135, R136, R140, R141). MAND to MMOV write every bit below VLMAX, the others the bits below
VL and keep the rest; MPOPC counts and MFFS finds the set bits below VL; VTOM sets the bit of a value that is not zero;
VCONFL keeps the bit of an element whose value no earlier element with its bit set has. -/
def Obligations.MaskInstructionsWriteTheirBits : Prop :=
  ∀ (s : State) (md ma mb : MaskNo) (rd : Reg) (va : VecNo), s.ctx.vec.wf → QueueReady s [va] →
    let c := s.ctx
    let n := c.vec.vl
    let a := (c.mask ma).testBit
    let b := (c.mask mb).testBit
    let old := (c.mask md).testBit
    let none' := fun i => ∀ j < i, a j = false
    (∀ p ∈ [(Instr.mand md ma mb, fun i => a i && b i), (.mor md ma mb, fun i => a i || b i),
        (.mxor md ma mb, fun i => a i ^^ b i), (.mandn md ma mb, fun i => a i && !b i),
        (.mnot md ma, fun i => !a i), (.mmov md ma, a)],
      Completes p.1 s 4 { masks := [md] } fun t =>
        ∀ i < c.vlmax, (t.ctx.mask md).testBit i = p.2 i) ∧
    (∀ p ∈ [(Instr.mset md, fun _ : Nat => True), (.mclr md, fun _ => False), (.msbf md ma, fun i => none' (i + 1)),
        (.msif md ma, none')],
      Completes p.1 s 4 { masks := [md] } fun t =>
        (∀ i < n, (t.ctx.mask md).testBit i = true ↔ p.2 i) ∧ ∀ i, n ≤ i → (t.ctx.mask md).testBit i = old i) ∧
    (Completes (.mpopc rd ma) s 4 { regs := [rd] } fun t =>
      t.reg rd = written rd (BitVec.ofNat 64 ((List.range n).countP a))) ∧
    (∀ k < n, a k = true → none' k →
      Completes (.mffs rd ma) s 4 { regs := [rd] } fun t => t.reg rd = written rd (BitVec.ofNat 64 k)) ∧
    (none' n → Completes (.mffs rd ma) s 4 { regs := [rd] } fun t => t.reg rd = written rd (-1)) ∧
    (c.rodsFit [c.typ va] → Completes (.vtom va md) s 4 { masks := [md] } fun t =>
      (∀ i < n, (t.ctx.mask md).testBit i = !(c.valueAt va i).isZero) ∧
      ∀ i, n ≤ i → (t.ctx.mask md).testBit i = old i) ∧
    ((c.typ va).isInt = true → Completes (.vconfl va md) s 4 { masks := [md] } fun t =>
      (∀ i < n, (t.ctx.mask md).testBit i = true ↔
        old i = true ∧ ∀ j < i, old j = true → c.elem va j ≠ c.elem va i) ∧
      ∀ i, n ≤ i → (t.ctx.mask md).testBit i = old i) ∧
    ((c.typ va).isInt = false → exec (.vconfl va md) s = .next (s.takeTrap .illegalTag 0))

/-- VRED (R85, R149) combines the elements below VL, the identity for an inactive one, in the fixed tree over the
least power of two at or above VL: an integer register in its type, whose result is extended; a float or bead register
in FP32, where VREDAND and VREDOR raise ILLEGAL_TAG. -/
def Obligations.ReductionsFollowTheFixedTree : Prop :=
  ∀ (s : State) (rd : Reg) (va : VecNo) (mk : MaskNo) (k : Nat),
    s.ctx.vec.wf → QueueReady s [va] → s.ctx.vec.vl ≤ 2 ^ k → (k = 0 ∨ 2 ^ (k - 1) < s.ctx.vec.vl) →
    let c := s.ctx
    let ty := c.typ va
    let w := ty.bits
    let val := fun v : Nat => if ty.isSigned then (BitVec.ofNat w v).toInt else (v : Int)
    let padded := fun (f : Nat → Nat) (e : Nat) =>
      (List.range (2 ^ k)).map fun i => if i < c.vec.vl ∧ (mk = 0 ∨ (c.mask mk).testBit i = true) then f i else e
    let fp := fun (op : Exact → Exact → Exact) (a b : Nat) =>
      fp32.round (op (fp32.decode (a % 2 ^ 32)) (fp32.decode (b % 2 ^ 32)))
    (ty.isInt = true →
      ∀ p ∈ [(Instr.vredSum rd va mk, 0, fun a b : Nat => (a + b) % 2 ^ w),
          (.vredMax rd va mk, if ty.isSigned then 2 ^ (w - 1) else 0, fun a b => if val a ≤ val b then b else a),
          (.vredMin rd va mk, if ty.isSigned then 2 ^ (w - 1) - 1 else 2 ^ w - 1,
            fun a b => if val a ≤ val b then a else b),
          (.vredAnd rd va mk, 2 ^ w - 1, fun a b => a &&& b), (.vredOr rd va mk, 0, fun a b => a ||| b)],
        Completes p.1 s 4 { regs := [rd] } fun t =>
          t.reg rd = written rd (BitVec.ofInt 64 (val (redTree p.2.2 k (padded (c.elem va) p.2.1))))) ∧
    (ty.isInt = false → ¬ c.rodsFit [ty] →
      ∀ i ∈ [Instr.vredSum rd va mk, .vredMax rd va mk, .vredMin rd va mk],
        exec i s = .next (s.takeTrap .illegalVl (BitVec.ofNat 64 c.vec.vl))) ∧
    (ty.isInt = false → c.rodsFit [ty] →
      ∀ p ∈ [(Instr.vredSum rd va mk, 0, fp .add), (.vredMax rd va mk, 0xFF800000, fp .max),
          (.vredMin rd va mk, 0x7F800000, fp .min)],
        Completes p.1 s 4 { regs := [rd] } fun t => t.reg rd =
          written rd (BitVec.ofNat 64 (redTree p.2.2 k (padded (fun i => fp32.round (c.valueAt va i)) p.2.1) % 2 ^ 32))) ∧
    (ty.isInt = false → ∀ i ∈ [Instr.vredAnd rd va mk, .vredOr rd va mk],
      exec i s = .next (s.takeTrap .illegalTag 0))

/-- VEXT reads an element: an integer extended, a float or bead value as FP32, and zero beyond VL (R138). AGETC and
AGETE read the centre, and the generation, SAT and exponent of an anchor entry, and zero beyond entry 4681; APUT writes
an entry, whose generation grows by one, and nothing beyond entry 4681 (R159, R160). That AGETE gives bits 15:9 as zero
where bits 47:41 of the entry are not is the model's choice (notes/assumptions/28.md). -/
def Obligations.ElementsAndAnchorsAreReadAndWritten : Prop :=
  ∀ (s : State) (rd ss sb : Reg) (va : VecNo) (k : Fin 16), s.ctx.vec.wf → QueueReady s [va] →
    let c := s.ctx
    let ty := c.typ va
    let j := (s.reg sb).toNat
    let v := c.elem va j
    let w := (c.vec.anchors[k]).get j
    let n := s.reg ss
    let ak : BitVec 6 := BitVec.ofNat 6 k
    (∀ p ∈ [(ty.isSigned = true, (BitVec.ofNat ty.bits v).signExtend 64),
        (ty.isInt = true ∧ ty.isSigned = false, BitVec.ofNat 64 v), (ty = .fp32, BitVec.ofNat 64 v),
        (ty = .bf16, BitVec.ofNat 64 (fp32.round (bf16.decode v))),
        (ty.isBead = true ∧ c.rodsFit [ty], BitVec.ofNat 64 (fp32.round (c.valueAt va j)))],
      p.1 → Completes (.vext rd va sb) s 4 { regs := [rd] } fun t =>
        t.reg rd = written rd (if j < c.vec.vl then p.2 else 0)) ∧
    (¬ c.rodsFit [ty] → exec (.vext rd va sb) s = .next (s.takeTrap .illegalVl (BitVec.ofNat 64 c.vec.vl))) ∧
    (Completes (.agetc rd ak sb) s 4 { regs := [rd] } fun t =>
      t.reg rd = written rd (if j < 4682 then w &&& 0xFFFFFFFF else 0)) ∧
    (Completes (.agete rd ak sb) s 4 { regs := [rd] } fun t =>
      t.reg rd = written rd (if j < 4682 then (w >>> 32) &&& 0xFFFF01FF else 0)) ∧
    (4682 ≤ j → Completes (.aput ss ak sb) s 4 {} fun _ => True) ∧
    (j < 4682 → Completes (.aput ss ak sb) s 4 { anchors := [k.val] } fun t =>
      let w' := (t.ctx.vec.anchors[k]).get j
      w' &&& 0x0000FFFFFFFFFFFF = n &&& 0x000001FFFFFFFFFF ∧ w'.toNat / 2 ^ 48 = (w.toNat / 2 ^ 48 + 1) % 2 ^ 16 ∧
        ∀ i, i ≠ j → (t.ctx.vec.anchors[k]).get i = (c.vec.anchors[k]).get i)

/-! ### Vector accesses to memory -/

/-- The VLDs whose accesses are all permitted (R167-R170, R172, R174, R175): every active element, or rod with
its anchor word, takes the bytes of memory at its address; everything else of the register stays, no byte of memory
changes but accessed bits, and an SC load draws one ticket for each active element. A first-fault load of which an
element but not the first is refused takes the elements below it and sets VL to its index. A load waits in the memory pipe while
fewer request slots are free than it has headers left, and sends those that find one (R322, R324); that it acts as the last
of them is sent is the model's choice (notes/assumptions/25.md). That the bytes are those of memory once the walker has set
the accessed bits of all pages, which shows in a load of its own page-table entries, is the model's choice
(notes/assumptions/25.md), and so is what is read by a stale skerry name (R191, notes/assumptions/4.md). -/
def Obligations.VectorLoadsTakeTheBytesOfMemory : Prop :=
  ∀ (s : State) (vt vx : VecNo) (rb rs : Reg) (mk : MaskNo) (st : Stream) (h : Nat → Hit),
    s.ctx.vec.wf → QueueReady s [vt, vx] →
    let c := s.ctx
    let ty := c.typ vt
    let unit' := if ty.isBead then ty.rod else 1
    let w := if ty.isBead then 64 else ty.bits / 8
    let act := fun i => c.acts mk (i * unit')
    let hits := ((List.range (c.vec.vl / unit')).filter fun i => c.active mk (i * unit')).map fun i => (i * unit', h i)
    let packets := fun each : Bool => s.headers ⟨.read, ty, each, 0⟩
    let tickets := ((List.range c.vec.vl).filter fun i => c.active mk i).length
    let plain := ty.isBead = false
    let unit := fun i => s.reg rb + BitVec.ofNat 64 (i * w)
    let indexed := fun i => s.reg rb + BitVec.ofInt 64 ((c.typ vx).int (c.elem vx i))
    let good := fun (a : Nat → Word) (r : Nat → Except Miss Hit) i => (a i).toNat % w = 0 ∧ r i = .ok (h i) ∧
      s.poisonedHere (h i).loc w = false
    let loaded := fun (i : Instr) (n m : Nat) (act : Nat → Prop) =>
      ∃ t : State, exec i s = .next t ∧ GoesOn s t 4 ∧
        CtxFrame s t { vecs := [vt], anchors := [tagAnchor (c.tag vt)], vl := true } ∧ t.ctx.vec.vl = n ∧
        SameButVector s t [] m ∧ MemoryOutside s t (fun x => ∃ i, act i ∧ (h i).marks x) ∧
        (∀ i, act i → s.freshNames (h i).loc w → t.ctx.accessBytes vt i = t.mem.bytes (h i).loc w) ∧
        (∀ j, ¬ act (j / unit') → (t.ctx.vreg vt).get j = (c.vreg vt).get j) ∧
        ∀ k, plain ∨ ¬ act k → (t.ctx.anchorReg vt).get k = (c.anchorReg vt).get k
    c.rodsFit [ty] → (ty.isBead = true → (s.reg rb).toNat % 64 = 0) →
    (∀ p ∈ [(Instr.vld vt rb mk st, unit, True, 0, false),
        (.vldStrided vt rb rs mk st, fun i => s.reg rb + BitVec.ofNat 64 i * s.reg rs,
          plain ∨ (s.reg rs).toNat % 64 = 0, 0, false),
        (.vldIndexed vt rb vx mk st, indexed, plain ∧ (c.typ vx).isInt = true, 0, true),
        (.vldFirstFault vt rb mk st, unit, plain, 0, false), (.vldSc vt rb mk st, unit, plain, tickets, false),
        (.vldScIndexed vt rb vx mk st, indexed, plain ∧ (c.typ vx).isInt = true, tickets, true)],
      p.2.2.1 → ∀ r, ReachOf s .read p.2.2.2.2 act p.2.1 r → (∀ i, act i → good p.2.1 r i) →
        let ps := packets p.2.2.2.2 hits
        (¬ s.headersWait ps → loaded p.1 c.vec.vl p.2.2.2.1 act) ∧
          (s.headersWait ps → exec p.1 s = .next (s.sendSome ps).wait)) ∧
    (∀ (n : Nat) (r : Nat → Except Miss Hit), 0 < n → act n → plain → ReachOf s .read false act unit r →
      (∀ i < n, act i → good unit r i) →
      ((unit n).toNat % w ≠ 0 ∨ (∃ m, r n = .error m) ∨ (r n = .ok (h n) ∧ s.poisonedHere (h n).loc w = true)) →
      let ps := packets false (hits.filter fun x => x.1 < n)
      (¬ s.headersWait ps → loaded (.vldFirstFault vt rb mk st) n 0 fun i => i < n ∧ act i) ∧
        (s.headersWait ps → exec (.vldFirstFault vt rb mk st) s = .next (s.sendSome ps).wait))

/-- The VSTs whose accesses are all permitted, and that no engine command that has still to read its operands holds up
(R167-R173, R175, R204, R246). A store waits in the memory pipe while fewer request slots are free than it has headers left,
and sends those that find one (R322, R324); that it acts as the last of them is sent is the model's choice
(notes/assumptions/25.md). Memory takes the bytes of every active element or rod at its address, the bytes of the last in
order where several meet; no other byte changes but accessed and dirty bits; an SC store draws its tickets. -/
def Obligations.VectorStoresWriteTheirBytes : Prop :=
  ∀ (s : State) (vt vx : VecNo) (rb rs : Reg) (mk : MaskNo) (st : Stream) (h : Nat → Hit),
    ∀ p ∈ vstForms s vt vx rb rs mk st, p.Ready s vt vx rb mk h →
      (s.headersWait (p.packets s vt mk h) → exec p.instr s = .next (s.sendSome (p.packets s vt mk h)).wait) ∧
      (¬ s.headersWait (p.packets s vt mk h) →
        ∃ t : State, exec p.instr s = .next t ∧ GoesOn s t 4 ∧ CtxFrame s t {} ∧ p.Done s t vt mk h)

/-- How a VLD, VST or VAMO stops (R167, R169, R172, R174, R181, R185, R315): an index register without an integer type,
or a bead data register where none is allowed, raises ILLEGAL_TAG; then the first misaligned active element raises
MISALIGN, then the first refused one ACCESS, each with its address; a translation fault, of the only element that
misses, raises PAGE with its address while the ring is disabled, and parks the context while it is enabled; the first element of a load that is poisoned raises DATA_POISON with its index. A first-fault load stops so at element 0. An
access of rods raises ILLEGAL_VL for a VL that cuts a rod, and MISALIGN for a base, and then for a stride, that is no
multiple of 64, with the base, or the address of the lowest active rod above rod 0. A held update for which its MSU has
no place raises DET_SPILL with its address. An access that stops in a page has read the table entries of its walks, and one
that meets poison its data, at their MSUs (R276, R280, R311). -/
def Obligations.VectorAccessesStopInOrder : Prop :=
  ∀ (s : State) (vt vx : VecNo) (rb rs : Reg) (mk : MaskNo) (st : Stream) (scope : BitVec 2) (r : Nat → Except Miss Hit),
    QueueReady s [vt, vx] → s.ctx.vec.wf →
    let c := s.ctx
    let ty := c.typ vt
    let w := ty.bits / 8
    let act := c.acts mk
    let unit := fun i => s.reg rb + BitVec.ofNat 64 (i * w)
    let strided := fun i => s.reg rb + BitVec.ofNat 64 i * s.reg rs
    let indexed := fun i => s.reg rb + BitVec.ofInt 64 ((c.typ vx).int (c.elem vx i))
    let stops := fun (i : Instr) (a : Nat → Word) (need : Need) (kind : Nat) (each : Bool) (at' : Nat → Prop) =>
      let els := ((List.range c.vec.vl).filter fun k => c.active mk k).map fun k => (k, a k)
      let u := s.readTraffic (s.checkSpans els)
      (∀ k, at' k → act k → (a k).toNat % w ≠ 0 → (∀ j < k, act j → (a j).toNat % w = 0) →
        exec i s = .next (s.takeTrap .misalign (a k))) ∧
      ((∀ j, act j → (a j).toNat % w = 0) → ReachOf s need each act a r →
        (∀ k, at' k → act k → r k = .error .access → (∀ j < k, act j → r j ≠ .error .access) →
          exec i s = .next (u.takeTrap .access (a k))) ∧
        (∀ k d, at' k → act k → r k = .error (.fault d) → (∀ j, j ≠ k → act j → ∃ h, r j = .ok h) →
          let x := c.faultRec kind d need.writes k (a k)
          exec i s = .next (if s.ringOn then u.drain.park [x] else u.takeTrap .page (a k))) ∧
        (∀ k, at' k → act k → need = .read → (∀ j, act j → ∃ h, r j = .ok h ∧ (j = k → s.poisonedHere h.loc w = true) ∧
            (j < k → s.poisonedHere h.loc w = false)) →
          let data := els.filterMap fun e => match r e.1 with
            | .ok h => some (h.loc, w)
            | .error _ => none
          exec i s = .next ((u.readTraffic data).takeTrap .dataPoison (BitVec.ofNat 64 k))))
    (∀ p ∈ [(Instr.vldIndexed vt rb vx mk st, true), (.vldSc vt rb mk st, false), (.vldScIndexed vt rb vx mk st, true),
        (.vldFirstFault vt rb mk st, false), (.vstIndexed vt rb vx mk st, true), (.vstSc vt rb mk st, false),
        (.vstScIndexed vt rb vx mk st, true)],
      ty.isBead = true ∨ (p.2 = true ∧ (c.typ vx).isInt = false) → exec p.1 s = .next (s.takeTrap .illegalTag 0)) ∧
    (ty.isBead = false →
      (∀ p ∈ [(Instr.vld vt rb mk st, unit, Need.read, 0), (.vldStrided vt rb rs mk st, strided, .read, 0),
          (.vldSc vt rb mk st, unit, .read, 0), (.vst vt rb mk st, unit, .write, 1),
          (.vstStrided vt rb rs mk st, strided, .write, 1), (.vstSc vt rb mk st, unit, .write, 1)],
        stops p.1 p.2.1 p.2.2.1 p.2.2.2 false fun _ => True) ∧
      stops (.vldFirstFault vt rb mk st) unit .read 0 false fun k => k = 0) ∧
    (∀ p ∈ [(Instr.vldIndexed vt rb vx mk st, ty.isBead = false, Need.read, 2),
        (.vldScIndexed vt rb vx mk st, ty.isBead = false, .read, 2),
        (.vstIndexed vt rb vx mk st, ty.isBead = false, .write, 3),
        (.vstScIndexed vt rb vx mk st, ty.isBead = false, .write, 3),
        (.vamoFadd vt rb vx mk scope, ty = .fp32, .atomic, 6)] ++
        [Instr.vamoAdd vt rb vx mk scope, .vamoAnd vt rb vx mk scope, .vamoOr vt rb vx mk scope,
          .vamoXor vt rb vx mk scope, .vamoMin vt rb vx mk scope, .vamoMax vt rb vx mk scope,
          .vamoMinn vt rb vx mk scope, .vamoMaxn vt rb vx mk scope].map fun i =>
            (i, ty ∈ [ElemType.i32, .n32, .i64, .n64], Need.atomic, 6),
      p.2.1 → (c.typ vx).isInt = true → stops p.1 indexed p.2.2.1 p.2.2.2 true fun _ => True) ∧
    (ty.isBead = true →
      let rod := fun k => act (k * ty.rod)
      let base := s.reg rb
      (∀ i ∈ [Instr.vld vt rb mk st, .vldStrided vt rb rs mk st, .vst vt rb mk st, .vstStrided vt rb rs mk st],
        (¬ c.rodsFit [ty] → exec i s = .next (s.takeTrap .illegalVl (BitVec.ofNat 64 c.vec.vl))) ∧
        (c.rodsFit [ty] → (∃ k, rod k) → base.toNat % 64 ≠ 0 → exec i s = .next (s.takeTrap .misalign base))) ∧
      ∀ i ∈ [Instr.vldStrided vt rb rs mk st, .vstStrided vt rb rs mk st],
        c.rodsFit [ty] → base.toNat % 64 = 0 → (s.reg rs).toNat % 64 ≠ 0 →
          (∀ k, 0 < k → rod k → (∀ j < k, 0 < j → ¬ rod j) → exec i s = .next (s.takeTrap .misalign (strided k))) ∧
          (rod 0 → (∀ k, 0 < k → ¬ rod k) → exec i s = .next (s.takeTrap .misalign base))) ∧
    (ty = .fp32 → c.origin.det = true → (c.typ vx).isInt = true →
      let hits := ((List.range c.vec.vl).filter fun k => c.active mk k).filterMap fun k =>
        match s.reach .atomic (indexed k) with
        | .ok h => some (k, h)
        | .error _ => none
      ¬ s.headersWait (s.headers ⟨.atomic, ty, true, 6⟩ hits) →
      (∀ j, act j → (indexed j).toNat % w = 0 ∧ ∃ h, s.reach .atomic (indexed j) = .ok h) →
      ∀ k h, act k → (∀ j < k, ¬ act j) → s.reach .atomic (indexed k) = .ok h → h.leaf ≠ none →
        (∀ u ∈ s.dev.msu.held, ¬ (u.job = c.origin.job ∧ u.task = c.origin.task ∧ u.loc = h.loc)) →
        256 ≤ s.dev.msu.held.countP (fun u => u.slot && msuOf u.loc == msuOf h.loc) →
        (∀ t ∈ s.findTask c.origin.job c.origin.task, t.record.spsize / 64 ≤ t.spilled) →
        let els := ((List.range c.vec.vl).filter fun k => c.active mk k).map fun k => (k, indexed k)
        exec (.vamoFadd vt rb vx mk scope) s = .next ((s.readTraffic (s.checkSpans els)).takeTrap .detSpill (indexed k)))

/-- The VAMOs whose accesses are all permitted and meet no poison (R181, R182, R184): each word takes the updates of the
active elements that name it, one after another in ascending order of element, outside a deterministic launch for
VAMOFADD; no other byte of memory changes but accessed and dirty bits. Other types raise ILLEGAL_TAG. In a
deterministic launch VAMOFADD leaves a held word as it stands (R185). A VAMO waits in the memory pipe while fewer request
slots are free than it has headers left, and sends those that find one (R322, R324); that it acts as the last of them is
sent is the model's choice (notes/assumptions/25.md). A word that is read by a stale skerry name is left out (R191, notes/assumptions/4.md). -/
def Obligations.VectorAtomicsUpdateTheirWords : Prop :=
  ∀ (s : State) (vv vx : VecNo) (rb : Reg) (mk : MaskNo) (scope : BitVec 2) (h : Nat → Hit),
    s.mem.wf → s.ctx.vec.wf → QueueReady s [vv, vx] →
    let c := s.ctx
    let ty := c.typ vv
    let w := ty.bits / 8
    let a := fun i => s.reg rb + BitVec.ofInt 64 ((c.typ vx).int (c.elem vx i))
    let act := c.acts mk
    let signed := fun v : Nat => (BitVec.ofNat ty.bits v).toInt
    let words := fun i => ((List.range c.vec.vl).filter fun j => c.active mk j && (h j).loc == (h i).loc).map (c.elem vv)
    let int := ty ∈ [ElemType.i32, .n32, .i64, .n64]
    let fadd := Instr.vamoFadd vv rb vx mk scope
    let ready := (c.typ vx).isInt = true ∧ ∀ i, act i →
      (a i).toNat % w = 0 ∧ s.reach .atomic (a i) = .ok (h i) ∧ s.poisonedHere (h i).loc w = false ∧ s.freshNames (h i).loc w ∧
        (∀ b < w, s.dev.fencedAt ((h i).loc + b) = false) ∧
        ∀ j, act j → ((h i).loc = (h j).loc ∨ (h i).loc + w ≤ (h j).loc ∨ (h j).loc + w ≤ (h i).loc) ∧
          ∀ b < w, ¬ (h i).marks ((h j).loc + b)
    let forms := [(Instr.vamoAdd vv rb vx mk scope, int, fun old b : Nat => (old + b) % 2 ^ ty.bits),
      (.vamoAnd vv rb vx mk scope, int, fun old b => old &&& b), (.vamoOr vv rb vx mk scope, int, fun old b => old ||| b),
      (.vamoXor vv rb vx mk scope, int, fun old b => old ^^^ b),
      (.vamoMin vv rb vx mk scope, int, fun old b => if signed old ≤ signed b then old else b),
      (.vamoMax vv rb vx mk scope, int, fun old b => if signed old ≤ signed b then b else old),
      (.vamoMinn vv rb vx mk scope, int, fun old b => min old b), (.vamoMaxn vv rb vx mk scope, int, fun old b => max old b),
      (fadd, ty = .fp32 ∧ c.origin.det = false,
        fun old b => fp32.round ((fp32.decode old).add (fp32.decode b)) % 2 ^ 32)]
    let ps := s.headers ⟨.atomic, ty, true, 6⟩ (((List.range c.vec.vl).filter fun i => c.active mk i).map fun i => (i, h i))
    (∀ p ∈ forms, p.2.1 → ready → s.headersWait ps → exec p.1 s = .next (s.sendSome ps).wait) ∧
    (∀ p ∈ forms, p.2.1 → ready → ¬ s.headersWait ps →
      ∃ t : State, exec p.1 s = .next t ∧ GoesOn s t 4 ∧ CtxFrame s t { eng := p.1 == fadd } ∧ SameButTransit s t ∧
        MemoryOutside s t (fun x => ∃ i, act i ∧ ((h i).marks x ∨ within (h i).loc w x)) ∧
        (∀ i, act i → t.mem.number (h i).loc w = (words i).foldl p.2.2 (s.mem.number (h i).loc w)) ∧
        t.ctx.eng = { c.eng with vamoSeq := if p.1 == fadd then c.eng.vamoSeq + 1 else c.eng.vamoSeq }) ∧
    (∀ p ∈ forms, (c.typ vx).isInt = false ∨ (p.1 == fadd) = true ∧ ty ≠ .fp32 ∨ (p.1 == fadd) = false ∧ ¬ int →
      exec p.1 s = .next (s.takeTrap .illegalTag 0)) ∧
    (ty = .fp32 → c.origin.det = true → ready → ¬ s.headersWait ps →
      (∀ i, act i → (h i).leaf ≠ none ∧ ∃ u ∈ s.dev.msu.held,
        u.job = c.origin.job ∧ u.task = c.origin.task ∧ u.loc = (h i).loc) →
      ∃ t : State, exec fadd s = .next t ∧ GoesOn s t 4 ∧ CtxFrame s t { eng := true } ∧
        MemoryOutside s t (fun x => ∃ i, act i ∧ (h i).marks x) ∧ t.others = s.others ∧
        t.ctx.eng = { c.eng with vamoSeq := c.eng.vamoSeq + 1 })

/-! ### Nameless stores -/

/-- STNL, RLQ and NLFREE (R188, R189, R191, R192, R274). STNL takes, of the channels that have a free skerry and are not
fenced, that with the fewest outstanding requests, the first at or after the pointer among equals; of its free skerries
the lowest whose row is open, or else the lowest. It writes the bytes that a unit-stride VST would lay, padded with zeros,
moves the pointer on and returns the name; from a disabled pool, or one without a free skerry, it returns 0, and a
register that is larger than a skerry raises ILLEGAL_VL. RLQ frees the skerry of a name, raises ACCESS for what is no
name, and RLQ_FREE for one that is free, once its walk has made its requests. Both wait in the memory pipe while their
header finds no request slot (R322, R324). That a skerry's row is the one it begins in is the model's
choice (notes/assumptions/16.md), and that a STNL which returns 0 has no header (notes/assumptions/25.md). -/
def Obligations.NamelessStoresTakeAndFreeSkerries : Prop :=
  ∀ (s : State) (rd ra : Reg) (vs : VecNo) (pool : BitVec 3) (st : Stream),
    s.mem.wf → s.ctx.vec.wf → QueueReady s [vs] → pool.toNat < s.dev.msu.pools.length →
    let c := s.ctx
    let ty := c.typ vs
    let p := pool.toNat
    let q := s.pool p
    let order := poolOrder q.cfg
    let size := poolSize q.cfg
    let count := if ty.isBead then c.vec.vl / ty.rod else c.vec.vl
    let image := (List.range count).flatMap (c.accessBytes vs)
    let waits := fun (i : Instr) (ps : List Packet) => s.headersWait ps → exec i s = .next (s.sendSome ps).wait
    let gives := fun v : Nat => waits (.stnl rd vs pool st) [] ∧ (¬ s.headersWait [] →
      Completes (.stnl rd vs pool st) s 4 { regs := [rd] } fun t => t.reg rd = written rd (BitVec.ofNat 64 v))
    let able := fun slot ch : Nat => order[slot]? = some ch ∧ ch ∉ s.dev.msu.fenced ∧ s.freeSkerries p slot ch ≠ []
    let turn := fun slot : Nat => (slot + order.length - q.pointer) % order.length
    (c.rodsFit [ty] →
      (s.allocation p ≠ none ↔ ∃ slot ch, able slot ch) ∧
      (q.cfg = 0 → gives 0) ∧
      (q.cfg ≠ 0 → size < image.length →
        exec (.stnl rd vs pool st) s = .next (s.takeTrap .illegalVl (BitVec.ofNat 64 c.vec.vl))) ∧
      (q.cfg ≠ 0 → image.length ≤ size → s.allocation p = none → gives 0) ∧
      ∀ slot ch k, q.cfg ≠ 0 → image.length ≤ size → s.allocation p = some (slot, ch, k) →
        let loc := s.skerryLoc p q.cfg ch k
        let free := s.freeSkerries p slot ch
        let open' := s.rowOpen p q.cfg ch
        (able slot ch ∧ (∀ slot' ch', able slot' ch' → s.outstanding ch ≤ s.outstanding ch' ∧
            (q.pointer < order.length → s.outstanding ch = s.outstanding ch' → turn slot ≤ turn slot')) ∧
          k ∈ free ∧ (open' k = true → ∀ k' ∈ free, k' < k → open' k' = false) ∧
          (open' k = false → ∀ k' ∈ free, open' k' = false ∧ k ≤ k')) ∧
        waits (.stnl rd vs pool st) [s.dev.packet loc] ∧
        (¬ s.headersWait [s.dev.packet loc] → (∀ b < size, s.dev.fencedAt (loc + b) = false) →
          ∃ t : State, exec (.stnl rd vs pool st) s = .next t ∧ GoesOn s t 4 ∧ CtxFrame s t { regs := [rd] } ∧
            t.reg rd = written rd (BitVec.ofNat 64 (poolBase q.cfg + slot * poolSpan q.cfg + k * size)) ∧
            t.pool p = ⟨q.cfg, (slot + 1) % order.length, (slot, k) :: q.taken⟩ ∧
            (∀ p', p' ≠ p → t.pool p' = s.pool p') ∧ MemoryOutside s t (within loc size) ∧
            ∀ b < size, t.mem.read (loc + b) = image.getD b 0)) ∧
    (∀ slot k, q.cfg ≠ 0 → slot < order.length → k < poolCap q.cfg → (s.reg ra).toNat =
        poolBase q.cfg + slot * poolSpan q.cfg + k * size →
      ((slot, k) ∉ q.taken → (∃ h, s.resolve c.space .write (s.reg ra) = .ok h) →
        order.getD slot 0 ∉ s.dev.msu.lostMaps →
        exec (.rlq ra pool st) s = .next ((s.walkTraffic c.space (s.reg ra)).takeTrap .rlqFree (s.reg ra))) ∧
      ∀ h, (slot, k) ∈ q.taken → s.resolve c.space .write (s.reg ra) = .ok h →
        waits (.rlq ra pool st) [s.dev.packet h.loc] ∧
        (¬ s.headersWait [s.dev.packet h.loc] →
          ∃ t : State, exec (.rlq ra pool st) s = .next t ∧ GoesOn s t 4 ∧ CtxFrame s t {} ∧ MemoryOutside s t h.marks ∧
          t.pool p = { q with taken := q.taken.filter (· != (slot, k)) } ∧ ∀ p', p' ≠ p → t.pool p' = s.pool p')) ∧
    ((∀ slot k, slot < order.length → k < poolCap q.cfg → (s.reg ra).toNat ≠
        poolBase q.cfg + slot * poolSpan q.cfg + k * size) →
      exec (.rlq ra pool st) s = .next (s.takeTrap .access (s.reg ra))) ∧
    Completes (.nlfree rd pool) s 4 { regs := [rd] } fun t => t.reg rd = written rd (BitVec.ofNat 64
      (if q.cfg = 0 then 0 else (order.mapIdx fun slot ch => (s.freeSkerries p slot ch).length).sum))

/-! ### The copy engine and the abacus -/

/-- ACOPY and AGATH (R193, R194, R197-R202). Their checks in order: of ACOPY, TAG_BUSY, MISALIGN with the first of the two
addresses and the two strides that is not aligned, and ACCESS with the first address of an element that is not valid
where the kind puts it, the source before the destination; of AGATH, ILLEGAL_TAG, TAG_BUSY, MISALIGN with the first of
destination, base, row bytes and pitch, and ACCESS with the destination that does not fit or else the first row address.
One whose checks pass, while an entry of the range checker is free and no command of the core waits, is accepted with
what it captured at issue, its tag is busy and its error bit clear, and the context goes on behind the two words; a copy
that moves nothing leaves its tag ready. While every entry is in use the command waits at the instruction. -/
def Obligations.CopiesAreIssuedAndAccepted : Prop :=
  ∀ (s : State) (st src dst row : Reg) (vx : VecNo) (mk : MaskNo) (tag : BitVec 6) (outer : BitVec 16)
      (cores : BitVec 8) (esz : BitVec 2),
    s.ctx.vec.wf → QueueReady s [] →
    let c := s.ctx
    let e := s.dev.engines
    let own := c.place.coreNo
    let here := e.cmds.filter fun m => m.coreNo == own
    let busy := c.eng.tagBusy.getLsbD tag.toNat = true
    let w := 2 ^ esz.toNat
    let ss : Word := ((s.reg st).setWidth 32).signExtend 64
    let ds : Word := ((s.reg st >>> 32).setWidth 32).signExtend 64
    let copy := fun (k : BitVec 2) (m : BitVec 8) =>
      CmdKind.copy k (s.reg src) (s.reg dst) ss ds outer.toNat m w c.vec.vl
    let pitch : Word := ((s.reg row >>> 32).setWidth 32).signExtend 64
    let n := (s.reg row).toNat % 2 ^ 32
    let rows := ((List.range c.vec.vl).filter (c.active mk)).map fun i =>
      (i, s.reg src + BitVec.ofInt 64 ((c.typ vx).int (c.elem vx i)) * pitch)
    let elemAt := fun (a t : Word) (o i : Nat) => a + BitVec.ofNat 64 o * t + BitVec.ofNat 64 (i * w)
    let outside := fun (k a : Nat) => (s.core k).spadBytes < a + w
    let global := fun a : Nat => 2 ^ 56 ≤ a
    let issued := fun (i : Instr) (k : CmdKind) =>
      ((∀ m ∈ here, m.entered = true) → here.length < 32 →
        ∃ t : State, exec i s = .next t ∧ GoesOn s t 8 ∧ CtxFrame s t { eng := true } ∧ SameMemory s t ∧
          t.ctx.eng.tagErr.getLsbD tag.toNat = false ∧ t.ctx.eng.grant = c.eng.grant ∧
          t.ctx.eng.tagBusy.getLsbD tag.toNat = !k.idle ∧ t.ctx.eng.tagReady.getLsbD tag.toNat = k.idle ∧
          (∀ j : Nat, j < 64 → j ≠ tag.toNat → t.ctx.eng.tagBusy.getLsbD j = c.eng.tagBusy.getLsbD j ∧
            t.ctx.eng.tagReady.getLsbD j = c.eng.tagReady.getLsbD j ∧
            t.ctx.eng.tagErr.getLsbD j = c.eng.tagErr.getLsbD j) ∧
          (k.idle = false → ∃ m : Cmd, t.dev.engines.cmds = e.cmds ++ [m] ∧ m.kind = k ∧ m.tag = some tag ∧
            m.state = .accepted ∧ m.order = e.nextOrder ∧ m.isOf c = true ∧ m.ptbase = c.trap.ptbase ∧
            m.asid = c.trap.asid ∧ m.user = c.user)) ∧
      (32 ≤ (here.filter Cmd.entered).length →
        ∃ (t : State) (m : Cmd), exec i s = .next t ∧ t.ctx.pc = c.pc ∧ t.ctx.flow.status = .atEngine m.id ∧ CtxFrame s t {} ∧
          SameMemory s t ∧ t.dev.engines.cmds = e.cmds ++ [m] ∧ m.kind = k ∧ m.state = .waiting)
    (∀ m ∈ e.cmds, m.id ≠ e.nextId) → (∀ o ∈ s.others, o.num = c.num → o.flow.status = .ended) →
    (∀ p ∈ [(Instr.acopyG2s st src dst tag outer esz, copy 0 0, global, fun a : Nat => outside own a),
        (.acopyS2g st src dst tag outer esz, copy 1 0, outside own, global),
        (.acopyMcast st src dst tag outer cores esz, copy 2 cores, global,
          fun a => ∃ x < 8, cores.getLsbD x = true ∧ outside (own / 8 * 8 + x) a),
        (.acopyS2s st src dst tag outer esz, copy 3 0, outside own,
          fun a => 2 ^ 27 ≤ a ∨ outside (own / 8 * 8 + a / 2 ^ 24) (a % 2 ^ 24))],
      let aligned := ∀ a ∈ [s.reg src, s.reg dst, ss, ds], a.toNat % w = 0
      let badSrc := fun o i : Nat => p.2.2.1 (elemAt (s.reg src) ss o i).toNat
      let badDst := fun o i : Nat => p.2.2.2 (elemAt (s.reg dst) ds o i).toNat
      let clean := fun o i : Nat => ¬ badSrc o i ∧ ¬ badDst o i
      (busy → exec p.1 s = .next (s.takeTrap .tagBusy (tag.setWidth 64))) ∧
      (¬ busy → ∀ a : Word, [s.reg src, s.reg dst, ss, ds].find? (fun a => a.toNat % w ≠ 0) = some a →
        exec p.1 s = .next (s.takeTrap .misalign a)) ∧
      (¬ busy → aligned → p.2.1.idle = false → ∀ o i, o < outer.toNat → i < c.vec.vl →
        (∀ o' i', o' < o ∨ o' = o ∧ i' < i → i' < c.vec.vl → clean o' i') →
        (badSrc o i → exec p.1 s = .next (s.takeTrap .access (elemAt (s.reg src) ss o i))) ∧
        (¬ badSrc o i → badDst o i → exec p.1 s = .next (s.takeTrap .access (elemAt (s.reg dst) ds o i)))) ∧
      (¬ busy → aligned → p.2.1.idle = true ∨ (∀ o i, o < outer.toNat → i < c.vec.vl → clean o i) →
        issued p.1 p.2.1)) ∧
    (QueueReady s [vx] →
      let i := Instr.agath vx src dst row mk tag
      let int := (c.typ vx).isInt = true
      let checked := [s.reg dst, s.reg src, BitVec.ofNat 64 n, pitch]
      let aligned := ∀ a ∈ checked, a.toNat % 8 = 0
      let fits := (s.reg dst).toNat + rows.length * n ≤ c.spadBytes
      (¬ int → exec i s = .next (s.takeTrap .illegalTag 0)) ∧
      (int → busy → exec i s = .next (s.takeTrap .tagBusy (tag.setWidth 64))) ∧
      (int → ¬ busy → ∀ a : Word, checked.find? (fun a => a.toNat % 8 ≠ 0) = some a →
        exec i s = .next (s.takeTrap .misalign a)) ∧
      (int → ¬ busy → aligned → ¬ fits → exec i s = .next (s.takeTrap .access (s.reg dst))) ∧
      (int → ¬ busy → aligned → fits → ∀ r, rows.find? (fun r => decide (2 ^ 56 ≤ r.2.toNat)) = some r →
        exec i s = .next (s.takeTrap .access r.2)) ∧
      (int → ¬ busy → aligned → fits → (∀ r ∈ rows, r.2.toNat < 2 ^ 56) →
        issued i (.gath rows (s.reg dst).toNat n)))

/-- MXM (R212-R216): two operands of one allowed type and an FP32 accumulator, or ILLEGAL_TAG; room for the grant in
VLMAX; a grant, or MX_NOGRANT; scratchpad operands with a base and a pitch of whole 64 bytes, or MISALIGN with the base or
else with row 1; no bit above the base and every row inside the region of the launch, or ACCESS with SX0 or the lowest
row that is not. The command then waits for an entry, or holds one and waits for its abacus, with what it captured at
issue: the rows of a register operand, its anchor words among them, the offsets of the rows of a scratchpad operand, the
valid elements, and the advance of the address registers, that of B after that of A, so that one register for both
advances twice. The context waits at the instruction. That a check that both operands fail reports A, and SX0 before
a row, is the model's choice (notes/assumptions/26.md). -/
def Obligations.MxmIsIssued : Prop :=
  ∀ (s : State) (vacc : VecNo) (a b : MxOperand) (kvalid : BitVec 7) (zacc : Bool) (t : MxType),
    QueueReady s (vacc :: (mxRegs a ++ mxRegs b)) →
    let c := s.ctx
    let g := c.eng.grant
    let k := match t with
      | .d8 => 56
      | .d4 => 112
      | .bf16 => 32
    let e := s.dev.engines
    let here := e.cmds.filter fun m => m.coreNo == c.place.coreNo
    let run := exec (.mxm vacc a b kvalid zacc) s
    let room := g * 64 ≤ c.vlmax ∧ (mxRegs a ≠ [] → g * k ≤ c.vlmax) ∧ (mxRegs b ≠ [] → 64 * k ≤ c.vlmax)
    let rowAt := fun (x y : Word) (r : Nat) =>
      x.toNat % 2 ^ 24 + r * (y.toNat % 2 ^ 24) + 64 * (r * (y.toNat / 2 ^ 48 % 64) % 64)
    let spads := ([(a, g), (b, 64)] : List (MxOperand × Nat)).filterMap fun o => match o.1 with
      | .spad x y _ => some (s.reg x, s.reg y, o.2)
      | .vec _ => none
    let badBase := fun p : Word × Word × Nat =>
      if p.1.toNat % 64 ≠ 0 then some (p.1.toNat % 2 ^ 24)
      else if p.2.1.toNat % 64 ≠ 0 then some (rowAt p.1 p.2.1 1) else none
    let badRow := fun v : Nat => c.spadBytes < v + 64 ∧ ∃ p ∈ spads, ∃ r < p.2.2, v = rowAt p.1 p.2.1 r
    let aligned := ∀ p ∈ spads, badBase p = none
    let inside := ∀ p ∈ spads, p.1.toNat < 2 ^ 24
    let captures := fun (o : MxOperand) (n : Nat) (x : MxSource) => match o with
      | .spad sx0 sx1 _ => x = .offsets ((List.range n).map (rowAt (s.reg sx0) (s.reg sx1)))
      | .vec v => ∃ rs : List MxRow, x = .rows rs ∧ rs.length = n ∧ ∀ (r : Nat) (w : MxRow), rs[r]? = some w →
          w.codes = (List.range k).map (fun j => BitVec.ofNat 16 (c.elem v (r * k + j))) ∧
          (t ≠ .bf16 → w.anchor = (c.anchorReg v).get r)
    let advance := fun (u : State) (o : MxOperand) => match o with
      | .spad sx0 sx1 _ => u.setReg sx0 (u.reg sx0 + BitVec.ofNat 64 ((u.reg sx1).toNat / 2 ^ 24 % 2 ^ 24))
      | .vec _ => u
    (c.typ vacc ≠ .fp32 ∨ c.mxType a = none ∨ c.mxType a ≠ c.mxType b → run = .next (s.takeTrap .illegalTag 0)) ∧
    (c.typ vacc = .fp32 → c.mxType a = some t → c.mxType b = some t →
      (¬ room → run = .next (s.takeTrap .illegalVl (BitVec.ofNat 64 c.vec.vl))) ∧
      (room → g = 0 → run = .next (s.takeTrap .mxNogrant 0)) ∧
      (room → g ≠ 0 → ∀ v, spads.findSome? badBase = some v → run = .next (s.takeTrap .misalign (BitVec.ofNat 64 v))) ∧
      (room → g ≠ 0 → aligned →
        (∀ p, spads.find? (fun p => decide (2 ^ 24 ≤ p.1.toNat)) = some p → run = .next (s.takeTrap .access p.1)) ∧
        (inside → ∀ v, badRow v → (∀ u, badRow u → v ≤ u) → run = .next (s.takeTrap .access (BitVec.ofNat 64 v)))) ∧
      (room → g ≠ 0 → aligned → inside → (∀ v, ¬ badRow v) → (∀ m ∈ e.cmds, m.id ≠ e.nextId) →
        ∃ (u : State) (m : Cmd) (xa xb : MxSource) (ws : List (Reg × Word)), run = .next u ∧ u.ctx.pc = c.pc ∧
          u.ctx.flow.status = .atEngine m.id ∧
          CtxFrame s u {} ∧ SameMemory s u ∧ u.others = s.others ∧ u.dev.engines.cmds = e.cmds ++ [m] ∧
          m.kind = .mxm vacc g t xa xb (if 0 < kvalid.toNat ∧ kvalid.toNat < k then kvalid.toNat else k) zacc ws ∧
          captures a g xa ∧ captures b 64 xb ∧
          (ws.foldl (fun u w => u.setReg w.1 w.2) s).ctx.regs = (advance (advance s a) b).ctx.regs ∧
          m.isOf c = true ∧
          ((∀ n ∈ here, n.entered = true) → here.length < 32 → m.state = .entered) ∧
          (32 ≤ (here.filter Cmd.entered).length → m.state = .waiting)))

/-- The tag instructions (R205, R206). -/
def Obligations.TagInstructionsFollowTheirTable : Prop :=
  ∀ (s : State) (rd ra : Reg),
    let e := s.ctx.eng
    let m := s.reg ra
    (e.tagReady &&& m ≠ 0 ∨ e.tagBusy &&& m = 0 →
      Completes (.waitany rd ra) s 4 { regs := [rd] } fun t => t.reg rd = written rd (e.tagReady &&& m)) ∧
    (e.tagReady &&& m = 0 → e.tagBusy &&& m ≠ 0 → exec (.waitany rd ra) s = .next s.wait) ∧
    (e.tagBusy &&& m = 0 →
      Completes (.waitall rd ra) s 4 { regs := [rd] } fun t => t.reg rd = written rd (e.tagReady &&& m)) ∧
    (e.tagBusy &&& m ≠ 0 → exec (.waitall rd ra) s = .next s.wait) ∧
    (∀ k, (e.tagReady &&& m).getLsbD k = true → (∀ j < k, (e.tagReady &&& m).getLsbD j = false) →
      Completes (.ffrt rd ra) s 4 { regs := [rd] } fun t => t.reg rd = written rd (BitVec.ofNat 64 k)) ∧
    (e.tagReady &&& m = 0 → Completes (.ffrt rd ra) s 4 { regs := [rd] } fun t => t.reg rd = written rd (-1)) ∧
    (e.tagBusy &&& m = 0 → Completes (.tagclr ra) s 4 { eng := true } fun t => t.ctx.eng =
      { e with tagReady := e.tagReady &&& ~~~m, tagErr := e.tagErr &&& ~~~(m &&& e.tagReady) }) ∧
    (∀ k, (e.tagBusy &&& m).getLsbD k = true → (∀ j < k, (e.tagBusy &&& m).getLsbD j = false) →
      exec (.tagclr ra) s = .next (s.takeTrap .tagBusy (BitVec.ofNat 64 k))) ∧
    Completes (.tagerr rd ra) s 4 { regs := [rd] } fun t => t.reg rd = written rd (e.tagErr &&& m)

/-- MXATT, MXATTW and MXDET (R208-R211): a context with a grant gets its size; else, where no one waits, the largest of
8, 16, 32 and 64 rows that neither the request nor the free rows fall short of, or none; MXATTW waits in order for at
least 8 rows, unless it asks for fewer; MXDET, once every earlier MXM has written, gives the grant back, and where at least
8 rows are free then, the MXATTW that has waited longest on the abacus is complete with its grant: MXGR and its destination
register hold the size, and its context goes on behind it. -/
def Obligations.GrantsAreTakenAndGivenBack : Prop :=
  ∀ (s : State) (rd ra : Reg),
    let c := s.ctx
    let k := c.place.abacusNo
    let n := (s.reg ra).toNat
    let size := fun m : Nat => if 64 ≤ m then 64 else if 32 ≤ m then 32 else if 16 ≤ m then 16 else if 8 ≤ m then 8 else 0
    let g := size (min n (s.freeRows k))
    let awaited := ∃ w ∈ s.dev.power.waiters, w.abacus = k
    let gives := fun (i : Instr) (v : Nat) => Completes i s 4 { regs := [rd], eng := true } fun t =>
      t.reg rd = written rd (BitVec.ofNat 64 v) ∧ t.ctx.eng = { c.eng with grant := v }
    (c.eng.grant ≠ 0 → gives (.mxatt rd ra) c.eng.grant ∧ gives (.mxattw rd ra) c.eng.grant) ∧
    (c.eng.grant = 0 →
      (awaited → gives (.mxatt rd ra) 0) ∧ (¬ awaited → gives (.mxatt rd ra) g) ∧ (n < 8 → gives (.mxattw rd ra) 0) ∧
      (8 ≤ n → ¬ awaited → 8 ≤ s.freeRows k → gives (.mxattw rd ra) g) ∧
      (8 ≤ n → awaited ∨ s.freeRows k < 8 →
        ∃ t : State, exec (.mxattw rd ra) s = .next t ∧ t.ctx.pc = c.pc ∧ t.ctx.flow.status = .waiting ∧ CtxFrame s t {} ∧
          SameMemory s t ∧ ((∀ w ∈ s.dev.power.waiters, w.who ≠ c.num) →
            t.dev.power.waiters = s.dev.power.waiters ++ [⟨k, c.num, n, rd⟩]))) ∧
    (s.mxmPending allVecs = true → exec .mxdet s = .next s.wait) ∧
    (s.mxmPending allVecs = false → (∀ w ∈ s.dev.power.waiters, w.who ≠ c.num) →
      ∃ t : State, exec .mxdet s = .next t ∧ GoesOn s t 4 ∧ CtxFrame s t { eng := true } ∧ SameMemory s t ∧
        t.ctx.eng = { c.eng with grant := 0 } ∧
        ∀ (w : Waiter) (x : Ctx), s.dev.power.waiters.find? (fun w => decide (w.abacus = k)) = some w → x ∈ s.others →
          x.num = w.who → x.flow.status ≠ .ended →
          let free := ({ s with ctx := { c with eng := { c.eng with grant := 0 } } } : State).freeRows k
          8 ≤ free →
            (∀ w' ∈ t.dev.power.waiters, w'.who ≠ w.who) ∧
            ∃ x' ∈ t.others, x'.num = x.num ∧ x'.flow.status = .running ∧ x'.pc = x.pc + 4 ∧
              x'.eng = { x.eng with grant := size (min w.rows free) } ∧
              ∀ r : Reg, x'.reg r = if r = w.rd then written r (BitVec.ofNat 64 (size (min w.rows free))) else x.reg r)

/-! ### Jobs, graphs and tasks -/

/-- TASK, XFER and TDEP (R231-R233, R235, R282, R351). TASK reads its record as one granule, which covers no flag byte
of its own page-table entry (R312) and is named by no stale skerry name (R191, notes/assumptions/4.md), and creates a task with the next serial, in the open graph or a graph of its own,
ready when it depends on nothing; a record that fails a check gives 0, and so does a TASK of a context of no job. XFER
attaches a transfer to a task that is not ready, TDEP adds an edge to it, or takes one from its count; of a task that
is ready already both set the error bit. An id that names no live task does nothing; a source beyond 56 bits or a
destination beyond the region of the task raises ACCESS; a full table, and a ninth transfer, raises SCHED_FULL. That
both set the error bit of a task, too, that was cancelled before it was ready, is the model's choice
(notes/assumptions/26.md); so is that a TASK that ends in SCHED_FULL has set no accessed bit (notes/assumptions/23.md). -/
def Obligations.TasksAreCreatedAndLinked : Prop :=
  (∀ (s : State) (rd ra : Reg) (deps : BitVec 16) (h : Hit), s.findJob s.ctx.origin.job = none →
    s.probe .read 64 (s.reg ra) = .ok h → s.poisonedHere h.loc 64 = false →
    ∃ t : State, exec (.task rd ra deps) s = .next t ∧ GoesOn s t 8 ∧ CtxFrame s t { regs := [rd] } ∧
      MemoryOutside s t h.marks ∧ SameButTransit s t ∧ t.reg rd = written rd 0) ∧
  ∀ (s : State) (rd ra rb rc : Reg) (deps : BitVec 16) (bytes : BitVec 32) (h : Hit) (j : Job),
    s.findJob s.ctx.origin.job = some j →
    let c := s.ctx
    let set := fun (id : Nat) (f : Task → Task) (t : Task) => if t.job = c.origin.job ∧ t.id = id then f t else t
    let id := if j.taskSerial = 2 ^ 32 - 1 then 1 else j.taskSerial + 1
    let gid := if j.graphSerial = 2 ^ 32 - 1 then 1 else j.graphSerial + 1
    let errs := fun (i : Instr) (n : Nat) (t : Task) =>
      ∃ u : State, exec i s = .next u ∧ GoesOn s u n ∧ CtxFrame s u {} ∧ SameMemory s u ∧
        u.findTask t.job t.id = some { t with err := true }
    (s.probe .read 64 (s.reg ra) = .ok h → s.poisonedHere h.loc 64 = false → s.freshNames h.loc 64 →
      (∀ i < 64, ¬ h.marks (h.loc + i)) →
      let record := parseRecord (s.reg ra) h.loc (s.mem.bytes h.loc 64)
      (record = none →
        ∃ t : State, exec (.task rd ra deps) s = .next t ∧ GoesOn s t 8 ∧ CtxFrame s t { regs := [rd] } ∧
          MemoryOutside s t h.marks ∧ SameButTransit s t ∧ t.reg rd = written rd 0) ∧
      (record ≠ none → s.tableIsle j.reach = none →
        exec (.task rd ra deps) s = .next ((s.readTraffic (s.granuleSpans (s.reg ra))).takeTrap .schedFull 0)) ∧
      ∀ (r : LaunchRec) (isle : Nat), record = some r → s.tableIsle j.reach = some isle →
        ∃ (t : State) (k : Task) (j' : Job), exec (.task rd ra deps) s = .next t ∧ GoesOn s t 8 ∧ CtxFrame s t { regs := [rd] } ∧
          MemoryOutside s t h.marks ∧ t.others = s.others ∧ t.reg rd = written rd (BitVec.ofNat 64 id) ∧
          t.dev.sched.tasks = s.dev.sched.tasks ++ [k] ∧ k.job = j.id ∧ k.id = id ∧ k.isle = isle ∧ k.record = r ∧
          k.deps = deps.toNat ∧ k.state = (if deps = 0 then .ready else .created) ∧ k.count = r.units ∧
          k.err = false ∧ k.cancelled = false ∧ k.digest = 0 ∧ k.transfers = [] ∧
          t.findJob j.id = some j' ∧ j'.taskSerial = id ∧
          (∀ g n : Nat, j.openGraph = some (g, n) → k.graph = some g ∧
            j'.graphs = j.graphs.map fun x => if x.id = g then { x with count := x.count + 1 } else x) ∧
          (j.openGraph = none → k.graph = some gid ∧ j'.graphSerial = gid ∧
            j'.graphs = j.graphs ++ [⟨gid, j.curPhase, 1, false, false⟩])) ∧
    (∀ p ∈ [(Instr.xferBcast ra rb rc bytes, false), (.xferSplit ra rb rc bytes, true)],
      let off := s.reg rc
      let n := bytes.toNat
      (n % 64 ≠ 0 → exec p.1 s = .next (s.takeTrap .illegalInstr 0)) ∧
      (n % 64 = 0 → off.toNat % 64 ≠ 0 → exec p.1 s = .next (s.takeTrap .misalign off)) ∧
      (n % 64 = 0 → off.toNat % 64 = 0 → 2 ^ 56 ≤ (s.reg rb).toNat →
        exec p.1 s = .next (s.takeTrap .access (s.reg rb))) ∧
      (n % 64 = 0 → off.toNat % 64 = 0 → (s.reg rb).toNat < 2 ^ 56 →
        (s.reg ra = 0 ∨ s.findTask c.origin.job (s.reg ra).toNat = none → Completes p.1 s 8 {} fun _ => True) ∧
        ∀ t : Task, s.reg ra ≠ 0 → s.findTask c.origin.job (s.reg ra).toNat = some t →
          let size := t.record.part.toNat / 2 ^ 8 % 256 * 65536
          (size < off.toNat + n → exec p.1 s = .next (s.takeTrap .access off)) ∧
          (off.toNat + n ≤ size → 8 ≤ t.transfers.length → exec p.1 s = .next (s.takeTrap .schedFull 0)) ∧
          (off.toNat + n ≤ size → t.transfers.length < 8 → t.state ≠ .created → errs p.1 8 t) ∧
          (off.toNat + n ≤ size → t.transfers.length < 8 → t.state = .created →
            ∃ u : State, exec p.1 s = .next u ∧ GoesOn s u 8 ∧ CtxFrame s u {} ∧ SameMemory s u ∧
              u.dev.sched.tasks = s.dev.sched.tasks.map (set t.id fun t => { t with transfers := t.transfers ++
                [⟨p.2, s.reg rb, off.toNat, n, c.num, c.origin.unit, c.pc.setWidth 64, none⟩] })))) ∧
    (s.reg ra = 0 ∨ s.findTask c.origin.job (s.reg ra).toNat = none →
      Completes (.tdep ra rb) s 4 {} fun _ => True) ∧
    ∀ t : Task, s.reg ra ≠ 0 → s.findTask c.origin.job (s.reg ra).toNat = some t →
      (∃ u : State, exec (.tdep ra 0) s = .next u ∧ GoesOn s u 4 ∧ CtxFrame s u {} ∧ SameMemory s u ∧
        (t.state = .created → 1 < t.deps → ∃ t' : Task, u.findTask c.origin.job t.id = some t' ∧ t'.deps = t.deps - 1 ∧
          t'.state = .created) ∧
        (t.state = .created → t.deps = 1 → ∃ t' : Task, u.findTask c.origin.job t.id = some t' ∧ t'.deps = 0 ∧
          t'.state = .ready ∧ t'.readyAt = s.tick)) ∧
      (rb ≠ 0 → s.reg rb = 0 ∨ s.findTask c.origin.job (s.reg rb).toNat = none →
        Completes (.tdep ra rb) s 4 {} fun _ => True) ∧
      (∀ k : Task, rb ≠ 0 → s.reg rb ≠ 0 → s.findTask c.origin.job (s.reg rb).toNat = some k →
        t.state ≠ .created ∨ t.deps = 0 → errs (.tdep ra rb) 4 t) ∧
      ∀ k : Task, rb ≠ 0 → s.reg rb ≠ 0 → s.findTask c.origin.job (s.reg rb).toNat = some k → t.state = .created →
        0 < t.deps → t.deps < 65535 →
        (32 ≤ k.succs.length → exec (.tdep ra rb) s = .next (s.takeTrap .schedFull 0)) ∧
        (k.succs.length < 32 → ∃ u : State, exec (.tdep ra rb) s = .next u ∧ GoesOn s u 4 ∧ CtxFrame s u {} ∧ SameMemory s u ∧
          u.dev.sched.tasks = (s.dev.sched.tasks.map (set k.id fun k => { k with succs := k.succs ++ [t.id] })).map
            (set t.id fun t => { t with deps := t.deps + 1 }))

/-- GRAPH and PHASE (R236, R237): the open form opens a graph in the current phase, or once more the open graph, and
returns its id; close takes that opening back and, at the last, the graph is open no longer; PHASE releases the hold of
the current phase and begins the next, with a hold of its own, and returns its number. A context of no job only goes
on (R351). -/
def Obligations.GraphsAndPhasesAreOpened : Prop :=
  ∀ (s : State) (rd : Reg),
    let c := s.ctx
    (s.findJob c.origin.job = none →
      ∀ i ∈ [Instr.graphOpen rd, .graphClose, .phase rd], Completes i s 4 {} fun _ => True) ∧
    ∀ j : Job, s.findJob c.origin.job = some j →
      let gid := if j.graphSerial = 2 ^ 32 - 1 then 1 else j.graphSerial + 1
      let becomes := fun (i : Instr) (w : Touched) (v : State → Job → Prop) =>
        ∃ (t : State) (j' : Job), exec i s = .next t ∧ GoesOn s t 4 ∧ CtxFrame s t w ∧ SameMemory s t ∧
          t.dev.sched.tasks = s.dev.sched.tasks ∧ t.findJob j.id = some j' ∧ v t j'
      (j.openGraph = none → becomes (.graphOpen rd) { regs := [rd] } fun t j' =>
        t.reg rd = written rd (BitVec.ofNat 64 gid) ∧ j'.openGraph = some (gid, 1) ∧ j'.graphSerial = gid ∧
          j'.graphs = j.graphs ++ [⟨gid, j.curPhase, 1, false, false⟩] ∧
          j'.phases = j.phases.map fun p => if p.num = j.curPhase then { p with count := p.count + 1 } else p) ∧
      (j.openGraph = none → Completes .graphClose s 4 {} fun _ => True) ∧
      (∀ g n : Nat, j.openGraph = some (g, n) →
        (becomes (.graphOpen rd) { regs := [rd] } fun t j' =>
          t.reg rd = written rd (BitVec.ofNat 64 g) ∧ j'.openGraph = some (g, n + 1) ∧
            j'.graphs = j.graphs.map fun x => if x.id = g then { x with count := x.count + 1 } else x) ∧
        ∀ x : Graph, j.graphs.find? (fun x => x.id == g) = some x → 1 < x.count →
          becomes .graphClose {} fun _ j' => j'.openGraph = (if n ≤ 1 then none else some (g, n - 1)) ∧
            j'.graphs = j.graphs.map fun x => if x.id = g then { x with count := x.count - 1 } else x) ∧
      becomes (.phase rd) { regs := [rd] } fun t j' =>
        t.reg rd = written rd (BitVec.ofNat 64 (j.curPhase + 1)) ∧ j'.curPhase = j.curPhase + 1 ∧
          (⟨j.curPhase + 1, 1, true, false, false⟩ : Phase) ∈ j'.phases ∧
          ∀ p ∈ j'.phases, p.num = j.curPhase → p.hold = false

/-- CNT, WAITC, CANCEL, its kill form, JOB, TIDE and RDDIG where their checks pass, JOB and RDDIG of an access that
covers no flag byte of its own page-table entry (R234, R239, R242, R243, R245, R247, R284, R296, R312, R351) and reads
by no stale skerry name (R191, notes/assumptions/4.md); RDDIG waits while a launch of its record is live, of whatever
job, and releases the store buffer as LDS does. CANCEL at every level cancels each launch that the object covers,
according to its state, and marks a graph, a phase or a job. A turn of TIDE takes effect 40 ns after a drain of some
length. The model's choices are: how a job's slot and serial are drawn; that JOB gives 0 once the control program has
exited; that JOB reads the record of the job program as a supervisor in the new job's space, and sets no accessed bit where it
stops; that WAITC keeps the word
of an object that is live no longer; that a cancelled job of which no launch is left completes, and which word a
cancelled object reads; that CNT reads 1 of a launch whose zero is not observable yet; that the register field S0
names the issuer's own job at level 3 (all of notes/assumptions/23.md); that a record is one with that of a live
launch where it lies at the same location, or at the same address in the issuer's own job (the same file); the
instants of TIDE, ten nanoseconds for nineteen cycles, and the free length of the drain (notes/assumptions/5.md); that a
job whose program record stops JOB has had its descriptor read at its MSU (notes/assumptions/16.md); and that the whole buffer is released (notes/assumptions/8.md). -/
def Obligations.CountersJobsAndTidesAreServed : Prop :=
  ∀ (s : State) (rd ra : Reg) (level : BitVec 2) (split : BitVec 3) (h : Hit),
    let c := s.ctx
    let a := s.reg ra
    let key : ObjKey := if level = 3 ∧ ra = 0 then ⟨c.origin.job, 3, c.origin.job⟩
      else if level = 3 then ⟨a.toNat, 3, a.toNat⟩ else ⟨c.origin.job, level, a.toNat⟩
    let word := fun (n : Nat) (err canc : Bool) =>
      BitVec.ofNat 64 (n % 2 ^ 32 + (if err then 2 ^ 62 else 0) + if canc then 2 ^ 63 else 0)
    let gives := fun (i : Instr) (v : Word) => Completes i s 4 { regs := [rd] } fun t => t.reg rd = written rd v
    let foreign := c.user = true ∧ level = 3 ∧ ra ≠ 0
    (foreign → ∀ i ∈ [Instr.cnt rd ra level, .waitc rd ra level, .cancel ra level],
      exec i s = .next (s.takeTrap .priv 0)) ∧
    (¬ foreign →
      (s.object key = none → gives (.cnt rd ra level) 0 ∧ (c.flow.waitWord = none → gives (.waitc rd ra level) 0) ∧
        Completes (.cancel ra level) s 4 {} fun _ => True) ∧
      (∀ (n : Nat) (err canc : Bool), s.object key = some (n, err, canc) →
        gives (.cnt rd ra level) (word n err canc) ∧
        (c.flow.waitWord = none → n = 0 ∨ canc = true → gives (.waitc rd ra level) (word n err canc)) ∧
        (c.flow.waitWord = none → n ≠ 0 → canc = false →
          ∃ t : State, exec (.waitc rd ra level) s = .next t ∧ t.ctx.pc = c.pc ∧ t.ctx.flow.status = .waiting ∧
            t.ctx.flow.waitOn = some key ∧ CtxFrame s t {} ∧ SameMemory s t ∧ SameElse s t)) ∧
      (∀ w, c.flow.waitWord = some w → gives (.waitc rd ra level) w) ∧
      (s.object key ≠ none →
        ∃ t : State, exec (.cancel ra level) s = .next t ∧ GoesOn s t 4 ∧ CtxFrame s t { eng := true } ∧
          SameMemory s t ∧
          (∀ k ∈ s.tasksOf key, (∀ x ∈ s.dev.sched.tasks, x.job = k.job → x.id = k.id → x = k) →
            ∃ k' : Task, t.findTask k.job k.id = some k' ∧
              (k.state = .created ∨ k.state = .ready ∨ k.state = .filling →
                k'.cancelled = true ∧ k'.count = 0 ∧ k'.state = .completing) ∧
              (k.state = .filling → k'.err = true ∧ k'.transfers = []) ∧
              (k.state = .running → k'.cancelled = true ∧ k'.nextUnit = k.record.units ∧
                ∀ x ∈ t.contexts, x.live = true → x.origin.job = k.job → x.origin.task = k.id →
                  x.flow.cancelPending = true)) ∧
          (∀ j, t.findJob key.job = some j →
            (level = 1 → ∀ g ∈ j.graphs, g.id = key.id → g.cancelled = true) ∧
            (level = 2 → ∀ p ∈ j.phases, p.num = key.id → p.cancelled = true) ∧ (level = 3 → j.cancelled = true)) ∧
          (level = 3 → s.tasksOf key = [] → t.findJob key.job = none))) ∧
    (c.user = false → (∀ o ∈ s.others, o.num = c.num → o.flow.status = .ended) →
      let id := if ra = 0 then c.origin.job else a.toNat
      (s.findJob id = none → Completes (.jobKill ra) s 4 {} fun _ => True) ∧
      (s.findJob id ≠ none →
        ∃ t : State, exec (.jobKill ra) s = .next t ∧ t.findJob id = none ∧ (∀ k ∈ t.dev.sched.tasks, k.job ≠ id) ∧
          (c.origin.job ≠ id → GoesOn s t 4))) ∧
    (c.user = false → s.probe .read 64 a = .ok h → s.poisonedHere h.loc 64 = false → s.freshNames h.loc 64 →
      (∀ i < 64, ¬ h.marks (h.loc + i)) →
      let s1 := ((s.touch .read h).sendFor h).readFor c.origin.job c.origin.task [(h.loc, 64)]
      let desc := parseDescriptor (s.mem.bytes h.loc 64)
      let busy := fun d : Descriptor => s.controlRuns = false ∨ ∃ j ∈ s.dev.sched.jobs, j.reach &&& d.reach ≠ 0
      (desc = none ∨ (∃ d, desc = some d ∧ busy d) →
        ∃ t : State, exec (.job rd ra) s = .next t ∧ GoesOn s t 4 ∧ CtxFrame s t { regs := [rd] } ∧ SameButTransit s t ∧
          MemoryOutside s t h.marks ∧ t.reg rd = written rd 0) ∧
      let asked := s.granuleSpans a
      (∀ (d : Descriptor) (e : Stop), desc = some d → ¬ busy d → e ≠ .stall →
        (s1.inSpace d).granule (BitVec.ofNat 64 d.jprog) = .error e →
        exec (.job rd ra) s = .next ((s.readTraffic asked).stop e)) ∧
      ∀ (d : Descriptor) (s2 : State) (loc : Nat) (rb : List Byte), desc = some d → ¬ busy d →
        (s1.inSpace d).granule (BitVec.ofNat 64 d.jprog) = .ok (s2, loc, rb) →
        let record := parseRecord (BitVec.ofNat 64 d.jprog) loc rb
        ((∀ r, record = some r → r.units ≠ 1) →
          ∃ t : State, exec (.job rd ra) s = .next t ∧ GoesOn s t 4 ∧ CtxFrame s t { regs := [rd] } ∧
            t.reg rd = written rd 0 ∧ t.dev.sched = s.dev.sched) ∧
        (∀ r, record = some r → r.units = 1 → s.jobSlot = none →
          let spans := asked ++ (s1.inSpace d).granuleSpans (BitVec.ofNat 64 d.jprog)
          exec (.job rd ra) s = .next ((s.readTraffic spans).takeTrap .schedFull 0)) ∧
        ∀ (r : LaunchRec) (slot : Nat), record = some r → r.units = 1 → s.jobSlot = some slot →
        ∃ (t : State) (j : Job) (k : Task), exec (.job rd ra) s = .next t ∧ GoesOn s t 4 ∧ CtxFrame s t { regs := [rd] } ∧
          t.reg rd = written rd (BitVec.ofNat 64 (s.dev.sched.jobSerial * 64 + slot)) ∧
          t.dev.sched.jobs = s.dev.sched.jobs ++ [j] ∧ j.id = s.dev.sched.jobSerial * 64 + slot ∧ j.slot = slot ∧
          j.prio = d.prio ∧ j.reach = d.reach ∧ j.asid = BitVec.ofNat 64 d.asid ∧ j.ptb = BitVec.ofNat 64 d.ptb ∧
          j.phases = [⟨0, 1, true, false, false⟩] ∧ j.progDone = false ∧
          t.dev.sched.tasks = s.dev.sched.tasks ++ [k] ∧ k.job = j.id ∧ k.id = 0 ∧ k.record = r ∧ k.state = .ready ∧
          k.graph = none ∧ t.dev.sched.jobSerial = if s.dev.sched.jobSerial = 2 ^ 26 - 1 then 1
            else s.dev.sched.jobSerial + 1) ∧
    (c.place.isle.toNat < s.dev.fabric.straits.length →
      let x := s.strait c.place.isle
      let now := s.dev.clock.cycles * 10 / 19
      let open' := x.lastHonour = none ∨ ∃ t0, x.lastHonour = some t0 ∧ t0 + 20000 ≤ now
      ∃ t : State, exec (.tide rd split) s = .next t ∧ GoesOn s t 4 ∧ CtxFrame s t { regs := [rd] } ∧ SameMemory s t ∧
        t.reg rd = written rd (x.split.setWidth 64) ∧
        (split = x.split ∧ x.request = none → SameElse s t) ∧
        (¬ (split = x.split ∧ x.request = none) → open' →
          ∃ drain : Nat, t.strait c.place.isle = ⟨x.split, some (split, now + drain + 40), some now, none⟩) ∧
        (¬ (split = x.split ∧ x.request = none) → ¬ open' →
          t.strait c.place.isle = { x with request := some split })) ∧
    (a.toNat % 64 ≠ 0 → exec (.rddig rd ra) s = .next (s.takeTrap .misalign a)) ∧
    (a.toNat % 64 = 0 →
      let inUse := ∃ k ∈ s.dev.sched.tasks, (k.job = c.origin.job ∧ k.record.va = a) ∨
        ∃ x, s.resolve c.space .read a = .ok x ∧ k.record.loc = x.loc
      (inUse → exec (.rddig rd ra) s = .next s.wait) ∧
      (¬ inUse → s.probe .read 8 (a + 48) = .ok h →
        let host := h.loc / 2 ^ 52 = 3
        let b := if host ∨ ∃ e ∈ c.flow.storeBuf, e.stream = 0 ∨ e.seen = true then s.drain else s
        host ∨ (∃ i < 8, bufferedByte c.flow.storeBuf 0 (h.loc + i) = none) →
        s.slotless h = false → b.slotless h = false → b.poisonedHere h.loc 8 = false → (∀ i < 8, ¬ h.marks (h.loc + i)) →
        ∃ t : State, exec (.rddig rd ra) s = .next t ∧ GoesOn s t 4 ∧ CtxFrame s t { regs := [rd] } ∧
          MemoryOutside b t h.marks ∧ SameButTransit b t ∧
          (s.freshNames h.loc 8 → t.reg rd = written rd (BitVec.ofNat 64 (b.mem.number h.loc 8)))))

/-! ### Operations and events of the contexts -/

/-- What comes to a context from outside (R29, R33, R227, R289, R295, R315, R317): its oldest buffered store is
released, unless an instruction of its vector queue stands before it; PREEMPT and CANCEL are delivered at its oldest
instruction that is not complete, and what stands behind that is discarded (R32, R33); a stalled context writes its record and is parked, or goes on after an
asynchronous failure; a parked one goes on once the consumer word has passed its record; a waiting WAITL, at the vector
commit pointer with every store before it released (R31, R255), returns on a change or at its limit; a held VST, which stands
at the head of the vector queue with every store before it released, proceeds (R204, R255): it completes when its accesses
are permitted, no command holds it up, and its headers find their slots, with the bytes of R170 to R173 in memory, its scalar
thread where it stood and the queue behind it as it was; the device polls the consumer word. That the pc drops bits 63:56 of
TVEC is the model's choice (notes/assumptions/28.md). -/
def Obligations.ContextEventsTakeEffect : Prop :=
  ∀ (s : State) (who : CtxNo),
    (∀ b rest, s.ctx.flow.storeBuf = b :: rest → b.after ≠ 0 → exec .storeRelease s = .next s) ∧
    (∀ b rest, s.mem.wf → s.ctx.flow.storeBuf = b :: rest → b.after = 0 →
      ∃ t : State, exec .storeRelease s = .next t ∧ t.ctx.pc = s.ctx.pc ∧ CtxFrame s t {} ∧ t.ctx.flow.storeBuf = rest ∧
        MemoryOutside s t (fun a => ∃ p ∈ b.puts, a = p.loc) ∧
        ∀ p ∈ b.puts, (∀ q ∈ b.puts, q.loc = p.loc → q.byte = p.byte) → s.dev.fencedAt p.loc = false →
          t.mem.read p.loc = p.byte) ∧
    (s.ctx.flow.storeBuf = [] → exec .storeRelease s = .next s) ∧
    (∀ c, s.findCtx who = some c →
      let oldest := c.flow.queue.head?
      let pc := (oldest.map (·.pc)).getD c.pc
      let vl := (oldest.map (·.vl)).getD c.vec.vl
      (∀ p ∈ [(Instr.preempt who, c.flow.preemptPending && !c.flow.cancelPending, 0x0B), (.cancelDelivery who, c.flow.cancelPending, 0x0C)],
        (p.2.1 = false → exec p.1 s = .next s) ∧
        (p.2.1 = true → ∃ (t : State) (d : Ctx), exec p.1 s = .next t ∧ t.findCtx who = some d ∧
          d.pc = (s.core c.place.coreNo).tvec.setWidth 56 ∧ d.trap.tcause = BitVec.ofNat 64 p.2.2 ∧ d.trap.tval = 0 ∧
          d.trap.tepc = pc.setWidth 64 ∧ d.trap.tstat.getLsbD 0 = true ∧
          d.trap.tstat.getLsbD 1 = c.trap.tstat.getLsbD 0 ∧ d.trap.tstat.getLsbD 2 = true ∧
          d.trap.hvl = BitVec.ofNat 64 vl ∧ d.front = (oldest.map (·.front)).getD c.front ∧
          d.trap.hvcount = BitVec.ofNat 64 d.front.vcount ∧ d.regs = (oldest.map (·.regs)).getD c.regs ∧
          d.vec = { c.vec with vl := vl, mspace := (oldest.map (·.mspace)).getD c.vec.mspace } ∧ d.eng = c.eng ∧
          d.flow.status = .running ∧ d.flow.storeBuf = [] ∧ d.flow.queue = [] ∧
          d.flow.evicting = (if p.2.2 = 0x0B then true else c.flow.evicting) ∧
          d.flow.cancelTaken = (if p.2.2 = 0x0C then true else c.flow.cancelTaken) ∧
          d.flow.preemptPending = (if p.2.2 = 0x0B then false else c.flow.preemptPending) ∧
          d.flow.cancelPending = (if p.2.2 = 0x0C then false else c.flow.cancelPending))) ∧
      (∀ r, c.flow.status = .stalled [r] → s.observe.dev.ring.room = true →
        ∃ (t : State) (d : Ctx), exec (.faultRingRoom who) s = .next t ∧ t.findCtx who = some d ∧ d.pc = c.pc ∧ d.regs = c.regs ∧
          d.flow.status = (if r.cause = 7 then .parked s.observe.dev.ring.prod.toNat else .running) ∧
          t.dev.ring.prod = s.observe.dev.ring.prod + 1) ∧
      (∀ seq, c.flow.status = .parked seq →
        ∃ (t : State) (d : Ctx), exec (.parkResume who) s = .next t ∧ t.findCtx who = some d ∧ d.pc = c.pc ∧ d.regs = c.regs ∧
          t.dev.ring = s.observe.dev.ring ∧ SameMemory s t ∧
          d.flow.status = if seq < s.observe.dev.ring.cons.toNat then .running else .parked seq)) ∧
    (∀ (f : State) (rd ra : Reg) (limit : BitVec 12) (n : Nat) (v : Word),
      s.focus who = some f → f.ctx.flow.status = .waiting → (f.fetch f.ctx).1 = .ok (.waitl rd ra limit) n →
      let u := f.toPointer
      u.waitlSees ra = some v →
      ∀ p ∈ [(Instr.waitlChange who, decide (v ≠ f.reg rd)), (.waitlLimit who, u.limitPassed limit)],
        (p.2 = false → exec p.1 s = .next s) ∧
        (p.2 = true → ∃ t : State, exec p.1 s = .next t ∧ t.ctx.num = who ∧ t.ctx.pc = f.ctx.pc + 4 ∧
          t.reg rd = written rd v ∧ t.ctx.flow.status = .running)) ∧
    (∀ (f : State) (q : Queued) (behind : List Queued) (vt vx : VecNo) (rb rs : Reg) (mk : MaskNo) (st : Stream),
      s.focus who = some f → f.ctx.flow.queue = q :: behind → f.ctx.flow.engine = none →
      let u := f.atHead q
      let release := exec (.heldStoreRelease who) s
      ∀ p ∈ vstForms u vt vx rb rs mk st, p.instr = q.instr →
        (∀ h : Nat → Hit, q.early = none → p.Ready u vt vx rb mk h → ¬ u.headersWait (p.packets u vt mk h) →
          ∃ t : State, release = .next t ∧ p.Done u t vt mk h ∧ HeadDone f.ctx u.ctx t.ctx q ∧
            t.ctx.flow.status = f.ctx.flow.status ∧ t.ctx.flow.queue = behind) ∧
        ∀ t : State, exec q.instr u = .next t →
          let comes := fun c : Ctx => release = .next { t with tick := f.tick, ctx := c }
          (t.ran → comes (f.ctx.completeHead t.ctx q)) ∧
          (t.ctx.flow.status = .waiting →
            if t.ctx.flow.sent = f.ctx.flow.sent then release = .next s else comes (f.ctx.behind t.ctx)) ∧
          (¬ t.ran → t.ctx.flow.status ≠ .waiting → (∀ id, t.ctx.flow.status ≠ .atEngine id) → comes t.ctx)) ∧
    (s.ringOn = false → exec .consumerWordPoll s = .next s) ∧
    (s.ringOn = true → ∃ t : State, exec .consumerWordPoll s = .next t ∧ t.ctx = s.ctx ∧ t.others = s.others ∧
      SameMemory s t ∧ ({ t.dev.settled s.dev with ring := s.dev.ring } : Dev) = s.dev ∧
      t.dev.ring = { s.dev.ring with
        cons := BitVec.ofNat 64 (s.mem.number s.dev.ring.consumerLoc 8), polled := s.dev.clock.cycles * 10 / 19 })

/-- An encoding that no instruction has raises ILLEGAL_INSTR, and a fetch from a pool block POOL_EXEC with its address
(R45, R46). At the first instruction of a handler, while a record can be written, the context is killed instead
(R303). That the pc drops bits 63:56 of TVEC is the model's choice (notes/assumptions/28.md). -/
def Obligations.BadFetchesTrapOrKill : Prop :=
  ∀ (s : State) (w : BitVec 32) (va : Pc), s.ctx.flow.status = .running →
    ∀ p ∈ [(Instr.unassignedEncoding w, 0x01, (0 : Word)), (.poolBlockFetch va, 0x02, va.setWidth 64)],
      (s.ctx.flow.handlerFirst = false →
        ∃ t : State, exec p.1 s = .next t ∧ t.ctx.pc = (s.core s.ctx.place.coreNo).tvec.setWidth 56 ∧
          t.ctx.trap.tcause = BitVec.ofNat 64 p.2.1 ∧ t.ctx.trap.tval = p.2.2 ∧ t.ctx.trap.tepc = s.ctx.pc.setWidth 64 ∧
          t.ctx.regs = s.ctx.regs ∧ t.ctx.vec = s.ctx.vec ∧ t.others = s.others) ∧
      (s.ctx.flow.handlerFirst = true → s.canReport 1 = true →
        ∃ t : State, exec p.1 s = .next t ∧ t.ctx.flow.status = .ended ∧ t.ctx.eng.grant = 0)

/-! ### Operations and events of the engines -/

/-- The range checker and the abacus (R194, R196, R216-R218, R242, R339): the command that has waited longest takes a
free entry, with which a copy is accepted and its issuer goes on, or, where the command is the head of the issuer's vector
queue, that is complete (R28); an abacus accepts the MXM that has waited longest in
an open cycle of its window, at the step that is in effect, and the address registers advance; an accepted MXM writes
its accumulator: the canonical NaN for a poisoned row, and else the exact sum of the old element and the products of its
row and column (R86, R87), rounded once; a cancelled one aborts, and leaves what it does not write. That the wait
of an MXM counts from its issue is the model's choice (notes/assumptions/26.md). -/
def Obligations.EngineCommandsAreAcceptedAndApplied : Prop :=
  ∀ (s : State) (m : Cmd),
    let e := s.dev.engines
    let k := m.abacusNo
    let now := s.dev.clock.cycles
    let step := if now < (s.abacus k).since then (s.abacus k).before else (s.abacus k).ramp
    let accepted := fun (i : Instr) (ws : List (Reg × Word)) => ∃ t : State, exec i s = .next t ∧
      t.findCmd m.id = some { m with state := .accepted, order := e.nextOrder } ∧
      t.dev.engines.nextOrder = e.nextOrder + 1 ∧ SameMemory s t ∧
      ∀ c, s.findCtx m.who = some c → ∃ d : Ctx, t.findCtx m.who = some d ∧
        (c.flow.engine ≠ some m.id → d.pc = c.pc + 8 ∧ d.flow.status = .running ∧ d.flow.queue = c.flow.queue) ∧
        (c.flow.engine = some m.id → d.pc = c.pc ∧ d.flow.status = c.flow.status ∧ d.flow.engine = none ∧
          d.flow.queue = c.flow.queue.tail.map fun q => { q with regs := putRegs ws q.regs }) ∧
        (∀ r : Reg, r = 0 ∨ (∀ w ∈ ws, w.1 ≠ r) → d.regs[r.toNat]'r.isLt = c.regs[r.toNat]'r.isLt) ∧
        (∀ w ∈ ws, w.1 ≠ 0 → (∀ x ∈ ws, x.1 = w.1 → x.2 = w.2) → d.regs[w.1.toNat]'w.1.isLt = w.2) ∧
        d.vec = c.vec ∧ d.front = c.front ∧ d.trap = c.trap ∧
        (m.tag = none → d.eng = c.eng) ∧
        ∀ g, m.tag = some g → d.eng.tagBusy.getLsbD g.toNat = true ∧ d.eng.tagErr.getLsbD g.toNat = false
    s.findCmd m.id = some m →
    (m.state = .waiting → ((e.cmds.filter fun n => n.coreNo == m.coreNo).filter Cmd.entered).length < 32 →
      (e.cmds.filter fun n => n.coreNo == m.coreNo).find? (fun n => !n.entered) = some m →
      match m.kind with
      | .mxm .. => ∃ t : State, exec (.rangeCheckerEntry m.id) s = .next t ∧ t.findCmd m.id = some { m with state := .entered } ∧
          t.ctx = s.ctx ∧ t.others = s.others ∧ SameMemory s t
      | _ => m.kind.idle = false → accepted (.rangeCheckerEntry m.id) []) ∧
    (∀ (vacc : VecNo) (g : Nat) (ty : MxType) (a b : MxSource) (kv : Nat) (z : Bool) (ws : List (Reg × Word)), m.kind = .mxm vacc g ty a b kv z ws →
      (m.state = .entered → now % 8 < 8 - step → (s.abacus k).lastAccept ≠ some now →
        e.cmds.find? (fun n => n.state == .entered && n.abacusNo == k) = some m →
        accepted (.mxmAccept k) ws) ∧
      (8 - step ≤ now % 8 ∨ (s.abacus k).lastAccept = some now → exec (.mxmAccept k) s = .next s) ∧
      (s.nextMxm k = some m → m.isOf s.ctx = true →
        s.ctx.live = true → s.ctx.vec.wf →
        MatrixRows ty a g → MatrixRows ty b 64 → 0 < kv → kv ≤ mxStep ty →
        let bad := fun (o : MxSource) (r : Nat) => ∃ os, o = .offsets os ∧ s.poisoned (spadLoc m.coreNo (os.getD r 0)) 64 = true
        let clean := (∀ r < g, ¬ bad a r) ∧ ∀ r < 64, ¬ bad b r
        ∃ t : State, exec (.mxmAccumulate k) s = .next t ∧ t.ctx.pc = s.ctx.pc ∧ CtxFrame s t { vecs := [vacc] } ∧
          (clean → SameMemory s t ∧ ∀ n ∈ t.dev.engines.cmds, n.id ≠ m.id) ∧
          (∀ i j, i < g → j < 64 → ∃ bits, (t.ctx.vreg vacc).get (64 * i + j) = BitVec.ofNat 64 bits ∧
            (bad a i ∨ bad b j → bits = fp32.nanBits) ∧
            (¬ bad a i → ¬ bad b j →
              CellOf (if z then .num false 0 0 else fp32.decode (s.ctx.elem vacc (64 * i + j)))
                ((List.range kv).map fun x => (s.rowValue m.coreNo ty a i x, s.rowValue m.coreNo ty b j x)) bits)) ∧
          ∀ i, g * 64 ≤ i → (t.ctx.vreg vacc).get i = (s.ctx.vreg vacc).get i) ∧
      (m.cancelled = true → m.state = .accepted → m.isOf s.ctx = true → s.ctx.live = true → s.ctx.vec.wf →
        ∃ t : State, exec (.engineFault m.id) s = .next t ∧ t.ctx.pc = s.ctx.pc ∧
          CtxFrame s t { vecs := [vacc], eng := true } ∧ SameMemory s t ∧ (∀ n ∈ t.dev.engines.cmds, n.id ≠ m.id) ∧
          ∀ i, g * 64 ≤ i → (t.ctx.vreg vacc).get i = (s.ctx.vreg vacc).get i))

/-- What an accepted copy comes to (R193, R196, R199, R202, R242, R312, R315). Without a failure every byte is
written, and its tag is ready without error; a byte that an ACOPY both writes and reads is left open, as is one that is
read by a stale skerry name (R191, notes/assumptions/4.md), and one whose source is the flag byte of a page-table entry
that the copy uses is not stated. A translation fault pauses it behind
its record while the ring is enabled, and it goes on when the consumer word has passed that; a refused access and
CANCEL end it with the error bit of its tag. -/
def Obligations.CopiesFinishPauseOrAbort : Prop :=
  ∀ (s : State) (m : Cmd) (tag : BitVec 6), s.findCmd m.id = some m → m.tag = some tag → m.isOf s.ctx = true →
    s.ctx.live = true →
    let ends := fun (i : Instr) (err : Bool) (q : State → Prop) => ∃ t : State, exec i s = .next t ∧ q t ∧
      (∀ n ∈ t.dev.engines.cmds, n.id ≠ m.id) ∧ t.ctx.pc = s.ctx.pc ∧ CtxFrame s t { eng := true } ∧
      t.ctx.eng.tagBusy.getLsbD tag.toNat = false ∧ t.ctx.eng.tagReady.getLsbD tag.toNat = true ∧
      t.ctx.eng.tagErr.getLsbD tag.toNat = err
    (s.served m = true → m.cancelled = false →
      (∀ hits, s.course m [] m.kind.moves = .done hits → s.poisonedMoves m.job hits = [] → s.mem.wf →
        let written' := fun a => ∃ x ∈ hits, ∃ d ∈ x.2.2, within d.loc x.1.width a
        let marked := fun a => ∃ x ∈ hits, x.2.1.marks a ∨ ∃ d ∈ x.2.2, d.marks a
        ends (.copyFinish m.id) m.err fun t =>
          MemoryOutside s t (fun a => written' a ∨ marked a) ∧
          ∀ x ∈ hits, ∀ d ∈ x.2.2, ∀ i < x.1.width,
            (m.kind.isCopy = true → ∀ y ∈ hits, ¬ within y.2.1.loc y.1.width (d.loc + i)) →
            (∀ y ∈ hits, ∀ z ∈ y.2.2, within z.loc y.1.width (d.loc + i) → y = x ∧ z = d) →
            ¬ marked (x.2.1.loc + i) → s.dev.fencedAt (d.loc + i) = false → s.stale m.job (x.2.1.loc + i) = false →
            t.mem.read (d.loc + i) = s.mem.read (x.2.1.loc + i)) ∧
      (∀ r, s.course m [] m.kind.moves = .fault r → s.ringOn = true → s.canReport 1 = true →
        ∃ t : State, exec (.engineFault m.id) s = .next t ∧ t.ctx = s.ctx ∧
          t.findCmd m.id = some { m with state := .paused s.observe.dev.ring.prod.toNat } ∧
          t.dev.ring.prod = s.observe.dev.ring.prod + 1) ∧
      (∀ r, s.course m [] m.kind.moves = .abort r → s.canReport 1 = true →
        ends (.engineFault m.id) true fun _ => True)) ∧
    (m.cancelled = true → m.accepted = true → m.kind.isMxm = false → ends (.engineFault m.id) true fun _ => True) ∧
    (∀ seq, m.state = .paused seq → ∃ t : State, exec (.engineRetry m.id) s = .next t ∧ t.ctx = s.ctx ∧ SameMemory s t ∧
      t.findCmd m.id = some (if seq < s.observe.dev.ring.cons.toNat then { m with state := .accepted } else m))

/-! ### Operations and events of the schedulers -/

/-- Placement, stream transfers, units and completion (R40, R195, R233, R240, R248, R266, R268, R283-R288, R293,
R294). The task that is placed gets its cores, cleared where they served another job; a head task that lacks cores
pre-empts; a transfer fills the scratchpad of its core with bytes that it reads by no stale skerry name (R191,
notes/assumptions/4.md); a unit starts with its root context on the lowest free slot, its vector registers zero where it is
the first on its lanes of a cleared core, or resumes on the core it vacated
with PREEMPT; and a launch that completes leaves the tables, with its digest and final counter word in its record, which
is stated where it has no spill area that becomes undefined (R248). The model's choices: a transfer and the completion of
a launch translate in the scratchpad window of the isle of the first core of the launch (notes/assumptions/26.md); a unit
that resumes takes PTBASE and ASID of its job (notes/assumptions/22.md), and its pc drops bits 63:56 of TVEC
(notes/assumptions/28.md); and it takes no core on which a task of higher
priority has a claim (notes/assumptions/6.md). -/
def Obligations.TasksArePlacedRunAndCompleted : Prop :=
  ∀ (s : State) (t : Task) (j : Job),
    s.findTask t.job t.id = some t → s.findJob t.job = some j →
    let cores := s.dev.cores.length
    (∀ (p : Nat) (gs : List Nat), s.winner = some (p, j, t, gs) → gs.Nodup → (∀ g ∈ gs, g < cores) →
      (s.place p j t gs).allHeads = [] →
      ∃ (u : State) (k : Task), exec .placementCycle s = .next u ∧ u.ctx = s.ctx ∧ u.others = s.others ∧
        u.findTask t.job t.id = some k ∧ k.cores = gs ∧
        k.state = (if t.transfers = [] then .running else .filling) ∧ k.record = t.record ∧
        (∀ g ∈ gs, (u.core g).host = some (t.job, t.id) ∧ (u.core g).part = t.record.part ∧
          (u.core g).lastJob = t.job ∧ (u.core g).evict = false ∧
          (u.core g).cleared = decide ((s.core g).lastJob ≠ t.job)) ∧
        (∀ g ∈ gs, (s.core g).lastJob ≠ t.job → ∀ off < 2 ^ 24, u.mem.read (spadLoc g off) = 0) ∧
        (∀ a, a < spadBase → u.mem.read a = s.mem.read a) ∧
        u.dev.sched.pointers = s.dev.sched.pointers.set p ((j.slot + 1) % 64)) ∧
    (∀ (p : Nat) (gs : List Nat), s.winner = none → s.allHeads = [(p, j, t)] → gs ≠ [] → s.victimCores j p t = gs →
      s.reserve j.reach p (s.coresFor j.reach t.record) = none →
      ∃ u : State, exec .placementCycle s = .next u ∧ u.ctx.pc = s.ctx.pc ∧ CtxFrame s u {} ∧ SameMemory s u ∧
        ∀ c ∈ u.contexts, c.live = true → c.place.coreNo ∈ gs → c.flow.preemptPending = true) ∧
    (∀ (x : Transfer) (rest : List Transfer) (g : Nat) (hs : List (Hit × Nat)),
      t.state = .filling → t.transfers = x :: rest → x.paused = none → s.mem.wf →
      s.transferHits (t.space j) (x.parts t.cores) = .ok [(g, hs)] →
      (∀ h ∈ hs, s.poisonedFor t.job h.1.loc h.2 = false ∧ ∀ i < h.2, s.stale t.job (h.1.loc + i) = false) →
      (∀ h ∈ hs, ∀ k ∈ hs, ∀ i < k.2, ¬ h.1.marks (k.1.loc + i)) →
      let bytes := hs.flatMap fun h => s.mem.bytes h.1.loc h.2
      ∃ (u : State) (k : Task), exec (.streamTransferEnd t.job t.id) s = .next u ∧ u.ctx = s.ctx ∧
        u.others = s.others ∧ u.findTask t.job t.id = some k ∧ k.transfers = rest ∧
        k.state = (if rest = [] then .running else .filling) ∧
        (∀ (i : Nat) (b : Byte), bytes[i]? = some b → u.mem.read (spadLoc g (x.off + i)) = b) ∧
        MemoryOutside s u fun a => (∃ h ∈ hs, h.1.marks a) ∨ within (spadLoc g x.off) bytes.length a) ∧
    (∀ (g base : Nat) (slot : BitVec 4), t.state = .running → t.nextUnit < t.record.units →
      s.unitPlace t = some (g, base) → s.freeSlot (BitVec.ofNat 4 (g / 8)) (BitVec.ofNat 3 (g % 8)) = some slot →
      ∃ (u : State) (c : Ctx) (k : Task), exec (.unitStart t.job t.id) s = .next u ∧ u.ctx = s.ctx ∧ SameMemory s u ∧
        u.others = s.others ++ [c] ∧ u.findTask t.job t.id = some k ∧ k.nextUnit = t.nextUnit + 1 ∧
        c.place = ⟨BitVec.ofNat 4 (g / 8), BitVec.ofNat 3 (g % 8), slot, base, t.record.lanes, 0⟩ ∧
        c.pc = t.record.entry.setWidth 56 ∧ c.user = true ∧ c.reg 1 = t.record.param ∧
        c.reg 2 = BitVec.ofNat 64 t.nextUnit ∧ c.reg 3 = BitVec.ofNat 64 t.record.units ∧
        (∀ r : Reg, r = 0 ∨ 4 ≤ r.toNat → c.reg r = 0) ∧ c.vec.vl = 0 ∧ c.vec.mspace = 2 ∧ c.vec.devpol = 0 ∧
        c.vec.devstat = 0 ∧ c.vec.vcount = 8 * 2 ^ (t.record.part.toNat / 2 ^ 16 % 4) ∧ (∀ v, c.tag v = 0) ∧
        c.front = ⟨c.vec.vcount, c.vec.tags⟩ ∧
        (∀ m, c.mask m = 0) ∧ c.trap.ptbase = j.ptb ∧ c.trap.asid = j.asid ∧ c.ownsVector = true ∧
        c.eng = ⟨0, 0, 0, 0, 0⟩ ∧ c.flow.status = .running ∧
        ((s.core g).cleared = true → t.nextUnit < t.cores.length * t.record.perCore → ∀ v i, (c.vreg v).get i = 0) ∧
        c.origin = ⟨t.job, t.id, t.nextUnit, t.record.units, t.record.param, t.record.det, t.record.part⟩) ∧
    (∀ (unit : Nat) (c : Ctx), s.parkedUnit t.job t.id unit = [c] → s.canResume t.job t.id unit = true →
      ∃ (u : State) (d : Ctx), exec (.unitResume t.job t.id unit) s = .next u ∧ u.ctx = s.ctx ∧
        u.others = s.others ++ [d] ∧ u.parkedUnit t.job t.id unit = [] ∧ d.place = c.place ∧ d.origin = c.origin ∧
        d.pc = (s.core c.place.coreNo).tvec.setWidth 56 ∧ d.trap.tcause = 0x0B ∧ d.trap.tval = 0 ∧
        d.trap.tepc = c.pc.setWidth 64 ∧ d.trap.tstat.getLsbD 0 = true ∧
        d.trap.tstat.getLsbD 1 = c.trap.tstat.getLsbD 0 ∧ d.trap.tstat.getLsbD 2 = true ∧ d.ownsVector = false ∧
        d.trap.ptbase = j.ptb ∧ d.trap.asid = j.asid ∧ d.trap.vsaveptr = c.trap.vsaveptr ∧
        d.trap.tscratch = c.trap.tscratch ∧ d.regs = c.regs ∧ d.eng = c.eng ∧ d.front.vcount = c.front.vcount ∧
        d.front = ⟨d.vec.vcount, d.vec.tags⟩ ∧ d.trap.hvcount = BitVec.ofNat 64 d.front.vcount ∧
        d.vec.mspace = c.vec.mspace ∧ d.vec.devpol = c.vec.devpol ∧ d.vec.devstat = c.vec.devstat ∧
        d.flow.status = .running ∧ d.flow.handlerFirst = true) ∧
    ∀ h : Hit, t.state = .completing → t.paused = none → s.canReport 1 = true → s.heldBy t = [] → s.mem.wf →
      s.resolve (t.space j) .write (t.record.va + 48) = .ok h → (∀ i < 16, s.dev.fencedAt (h.loc + i) = false) →
      ∃ u : State, exec (.launchComplete t.job t.id) s = .next u ∧ u.ctx.pc = s.ctx.pc ∧ CtxFrame s u {} ∧
        u.findTask t.job t.id = none ∧
        (t.record.det = false → u.mem.number h.loc 8 = t.digest.toNat ∧
          u.mem.number (h.loc + 8) 8 = (if t.err then 2 ^ 62 else 0) + (if t.cancelled then 2 ^ 63 else 0) ∧
          MemoryOutside s u fun a => h.marks a ∨ within h.loc 16 a)

/-! ### Operations and events of the memory system -/

/-- The memory-side units (R185, R271, R275-R280, R296). A held update joins its word, or takes a target slot or a spill
record, which is written where its page translates. An MSU performs an access in its turn, whose DRAM transfer (none for
an elided line that is read or for zeros that only set an elision bit, and the whole line where one is cleared) is served
while the byte budget affords it, and else waits for the next interval, or while it is held; on a fenced channel there is
none. A row to which no request came for 100 ns closes; a scrub marks the unit of an uncorrectable error, or counts a
correctable one for its stack; a row is remapped, and its requests are held, as those of a channel are whose remap table
is read again; a remap table or free map whose backing copy is bad too costs the channel, with a fatal event. Register
poison ends the contexts of the unit, resident and parked. How an access is charged and queued under a byte budget, that
it is performed before its transfer is served, how long a hold lasts, and that a bad backing copy fences at once, is the
model's choice (notes/assumptions/16.md); so is that a held word keeps the address, the pc and the context of its first
update, and what a spill record that cannot be written leaves (notes/assumptions/25.md). -/
def Obligations.MemoryUnitsTakeEffect : Prop :=
  ∀ s : State,
    let mem := s.dev.msu
    let mem0 := s.mem
    let now := s.dev.clock.cycles * 10 / 19
    let only := fun (t : State) => t.ctx = s.ctx ∧ t.others = s.others ∧ ({ t.dev with msu := s.dev.msu } : Dev) = s.dev
    (∀ u : HeldUpdate,
      let isFor := fun h : HeldWord => h.job = u.job ∧ h.task = u.task ∧ h.loc = u.loc
      let used := (mem.held.filter fun h => h.slot && msuOf h.loc == msuOf u.loc).length
      (∃ t : State, exec (.heldUpdateAccept u) s = .next t ∧ t.ctx = s.ctx ∧ t.others = s.others ∧
        ((∃ h ∈ mem.held, isFor h) → SameMemory s t ∧ t.dev.msu.held.length = mem.held.length ∧
          ∀ (i : Nat) (h : HeldWord), mem.held[i]? = some h →
            ∃ h' : HeldWord, t.dev.msu.held[i]? = some h' ∧ h'.slot = h.slot ∧ h'.loc = h.loc ∧
              h'.updates = (if isFor h then h.updates ++ [(u.key, u.bits)] else h.updates) ∧
              (isFor h → h.slot = true → 16 ≤ h.updates.length → h'.fallback = true)) ∧
        ((∀ h ∈ mem.held, ¬ isFor h) → used < 256 → SameMemory s t ∧
          t.dev.msu.held = mem.held ++ [⟨u.job, u.task, u.loc, u.va, u.pc, u.who, true, false, [(u.key, u.bits)]⟩]) ∧
        (∀ k : Task, (∀ h ∈ mem.held, ¬ isFor h) → 256 ≤ used → s.findTask u.job u.task = some k →
          k.spilled < k.record.spsize / 64 →
          t.dev.msu.held = mem.held ++ [⟨u.job, u.task, u.loc, u.va, u.pc, u.who, false, false, [(u.key, u.bits)]⟩] ∧
          ∀ j : Job, s.findJob k.job = some j →
            let at' := s.resolve (k.space j) .write (k.record.spbase + BitVec.ofNat 64 (64 * k.spilled))
            (∀ h : Hit, at' = .ok h → MemoryOutside s t (within h.loc 64) ∧
              (s.dev.fencedAt h.loc = true → (∀ a, t.mem.read a = s.mem.read a) ∧ unitOf h.loc ∈ t.mem.poison) ∧
              (s.dev.fencedAt h.loc = false → h.loc / 256 ∉ t.mem.elided)) ∧
            (∀ x : Miss, at' = .error x → SameMemory s t))) ∧
      ((∀ h ∈ mem.held, ¬ isFor h) → 256 ≤ used →
        (∀ k : Task, s.findTask u.job u.task = some k → k.record.spsize / 64 ≤ k.spilled) →
        exec (.heldUpdateAccept u) s = .next s)) ∧
    (∀ (acc : LineAccess) (ch : Nat), channelOf acc.loc = some ch → inLine acc = true →
      s.mem.wf →
      let elided := acc.loc / 256 ∈ mem0.elided
      let n := if acc.write = true then
          (if acc.zel = true ∧ acc.data = List.replicate 256 0 then 0 else if elided then 256 else acc.data.length)
        else if elided then 0 else acc.data.length
      let row := s.dev.rowOf acc.loc
      let isHeld := ∃ x ∈ mem.holds, x.channel = ch ∧ (x.row = none ∨ x.row = some row)
      ∃ t : State, exec (.msuAccess acc) s = .next t ∧ only t ∧
        MemoryOutside s t (fun a => acc.write = true ∧ within acc.loc acc.data.length a) ∧
        (acc.write = true → ch ∉ mem.fenced → ∀ (i : Nat) (b : Byte), acc.data[i]? = some b →
          t.mem.read (acc.loc + i) = b) ∧
        (n = 0 ∨ ch ∈ mem.fenced → t.dev.msu = mem) ∧
        (n ≠ 0 → ch ∉ mem.fenced → s.outstanding ch = 0 → ¬ isHeld → n ≤ mem.budgets.getD ch 0 →
          t.dev.msu = { mem with
            budgets := mem.budgets.modify ch (· - n)
            openRows := (ch, row, now) :: mem.openRows.filter fun r => !(r.1 == ch && r.2.1 == row) }) ∧
        (n ≠ 0 → ch ∉ mem.fenced → isHeld ∨ mem.budgets.getD ch 0 < n ∨
            ((∀ x ∈ mem.holds, x.channel ≠ ch) ∧ s.outstanding ch ≠ 0) →
          ∃ a : LineAccess, a.loc = acc.loc ∧ a.data.length = n ∧ t.dev.msu = { mem with queue := mem.queue ++ [a] })) ∧
    (∀ ch row spare : Nat,
      (∃ t : State, exec (.rowClose ch row) s = .next t ∧ only t ∧ SameMemory s t ∧
        let kept := mem.openRows.filter fun r => !(r.1 == ch && r.2.1 == row && decide (r.2.2 + 100 ≤ now))
        t.dev.msu = { mem with openRows := kept }) ∧
      ∃ t : State, exec (.rowRetire ch row spare) s = .next t ∧ only t ∧ SameMemory s t ∧
        (∃ ends : Nat, now ≤ ends ∧ t.dev.msu.holds = mem.holds ++ [⟨ch, some row, ends⟩]) ∧
        (ch, row, spare) ∈ t.dev.msu.remaps ∧ ∀ sp : Nat, (ch, row, sp) ∈ t.dev.msu.remaps → sp = spare) ∧
    (∀ loc : Nat,
      (∃ t : State, exec (.scrub loc true) s = .next t ∧ t.ctx = s.ctx ∧ t.others = s.others ∧ t.dev = s.dev ∧
        (∀ a, t.mem.read a = s.mem.read a) ∧ (loc / 256 ∉ s.mem.elided → loc - loc % unitSize loc ∈ t.mem.poison) ∧
        (loc / 256 ∈ s.mem.elided → t.mem = s.mem)) ∧
      ∀ (ch : Nat) (h : List Nat), channelOf loc = some ch → s.dev.power.stackErrors[ch / 32]? = some h →
        ∃ t : State, exec (.scrub loc false) s = .next t ∧ t.ctx = s.ctx ∧ SameMemory s t ∧
          t.dev.power.stackErrors[ch / 32]? = some ((h.headD 0 + 1) :: h.tail)) ∧
    (∀ ch : Nat,
      (509 ≤ ch ∨ ch ∈ mem.fenced → ∀ bad : Bool, exec (.remapReload ch bad) s = .next s) ∧
      (ch < 509 → ch ∉ mem.fenced → ∃ t : State, exec (.remapReload ch false) s = .next t ∧ only t ∧ SameMemory s t ∧
        ∃ ends : Nat, now ≤ ends ∧ t.dev.msu = { mem with holds := mem.holds ++ [⟨ch, none, ends⟩] }) ∧
      exec (.freeMapRepair ch false) s = .next s ∧
      (ch < 509 → s.canReport 1 = true →
        (ch ∉ mem.fenced → ∃ t : State, exec (.remapReload ch true) s = .next t ∧ t.ctx = s.ctx ∧
          t.dev.msu.fenced = ch :: mem.fenced ∧ (∀ x ∈ t.dev.msu.holds, x.channel ≠ ch) ∧
          (∀ a ∈ t.dev.msu.queue, channelOf a.loc ≠ some ch) ∧
          t.dev.host.jevstat.getLsbD 1 = true ∧
          ∀ j ∈ t.dev.sched.jobs, j.err = true) ∧
        (ch ∉ mem.lostMaps → ∃ t : State, exec (.freeMapRepair ch true) s = .next t ∧ t.ctx = s.ctx ∧
          t.dev.msu.lostMaps = ch :: mem.lostMaps ∧ t.dev.host.jevstat.getLsbD 1 = true ∧
          (∀ j ∈ t.dev.sched.jobs, j.err = true) ∧ ∀ p slot : Nat, t.freeSkerries p slot ch = []))) ∧
    ∀ (who : CtxNo) (c : Ctx), s.findCtx who = some c → s.canReport 1 = true →
      ∃ t : State, exec (.registerPoisonKill who) s = .next t ∧ t.findCtx who = none ∧
        let apart := fun x : Ctx => x.origin.job = c.origin.job → x.origin.task = c.origin.task →
          x.origin.unit ≠ c.origin.unit
        (∀ x ∈ t.contexts, x.live = true → apart x) ∧ ∀ p ∈ t.dev.sched.parked, apart p

/-! ### Power, health and the fabric -/

/-- The marks of TIME (R245, R280, R329, R337-R343) and the fabric's headers and responses (R320-R324). Each comes
about once for each of its instants. Once the start is over, the arbiter applies the limit with its plan; each abacus
steps toward its target, no more of them than STAGGER allows, and every one that is due where it allows them all, and
a step is in effect from the next aligned window of 8 cycles; energies never shrink, a launch that did nothing uses none, a job uses at least what its launches do, and shows whole
millijoules; the hourly health figures cover each unit's rates; a waiting TIDE request is honoured 20 µs after the
last, and takes effect 40 ns after a drain of some length, and so does a split that the plan sets; the oldest header of its queue goes on and gives its slot back. The model's
choices: the instants, ten nanoseconds for nineteen cycles (notes/assumptions/5.md); that the plan is given from
outside, and that its bounds are forced (notes/assumptions/16.md); that counts of energy saturate, and what
the activity model looks at: cores that hosted a launch, its MXMs, the bytes that it moved and its null operations
(notes/assumptions/14.md); and that a response only leaves its list (notes/assumptions/9.md). -/
def Obligations.TimeAndFabricTakeEffect : Prop :=
  ∀ s : State,
    let p := s.dev.power
    let now := s.dev.clock.cycles * 10 / 19
    let runs := fun (i : Instr) (q : State → Prop) => ∃ t : State, exec i s = .next t ∧ t.ctx = s.ctx ∧
      t.others = s.others ∧ q t
    (∀ plan : ArbiterPlan,
      let at' := (p.lastInterval + 1) * 1000000
      (now < at' → exec (.arbiterInterval plan) s = .next s) ∧
      (at' ≤ now → s.dev.start.memoryActive = false → runs (.arbiterInterval plan) fun t => t.mem = s.mem ∧
        t.dev.power = { p with lastInterval := p.lastInterval + 1 } ∧ t.dev.msu = s.dev.msu ∧
        t.dev.fabric = s.dev.fabric) ∧
      (at' ≤ now → s.dev.start.memoryActive = true → s.dev.msu.queue = [] → runs (.arbiterInterval plan) fun t =>
        t.mem = s.mem ∧ t.dev.power.lastInterval = p.lastInterval + 1 ∧ t.dev.power.applied = p.pwrcap ∧
        (∀ (i : Nat) (x : BitVec 3), p.steps[i]? = some x → t.dev.power.steps[i]? = some (plan.steps.getD i x)) ∧
        (∀ i n : Nat, s.dev.msu.budgets[i]? = some n → ∃ k : Nat, t.dev.msu.budgets[i]? = some k ∧ 12800000 ≤ k ∧
          k ≤ 102500000 ∧ ∀ b : Nat, plan.budgets[i]? = some b → 12800000 ≤ b → b ≤ 102500000 → k = b) ∧
        ∀ (i : Nat) (r : Strait) (n : BitVec 3), s.dev.fabric.rings[i]? = some r → plan.ringSplits[i]? = some n → n ≠ 0 →
          n ≠ r.split → ∃ drain : Nat, t.dev.fabric.rings[i]? = some { r with turning := some (n, at' + drain + 40) })) ∧
    (let per := p.rampcfg.toNat % 256 * 100
     let stagger := p.rampcfg.toNat / 256
     let at' := (p.lastRamp / per + 1) * per
     let due := fun i => (s.abacus i).ramp ≠ s.rampTarget i
     (now < at' → exec .rampBoundary s = .next s) ∧
     (at' ≤ now → runs .rampBoundary fun t => t.mem = s.mem ∧ t.dev.power.lastRamp = at' ∧
        t.dev.power.abaci.length = p.abaci.length ∧
        (∀ i, (t.abacus i).ramp = (s.abacus i).ramp ∨
          ((s.abacus i).ramp < s.rampTarget i ∧ (t.abacus i).ramp = (s.abacus i).ramp + 1) ∨
          (s.rampTarget i < (s.abacus i).ramp ∧ (t.abacus i).ramp + 1 = (s.abacus i).ramp)) ∧
        (∀ i, (t.abacus i).ramp ≠ (s.abacus i).ramp →
          (t.abacus i).since = (at' * 19 / 10 / 8 + 1) * 8 ∧
          (t.abacus i).before = if at' * 19 / 10 < (s.abacus i).since then (s.abacus i).before else (s.abacus i).ramp) ∧
        (List.range p.abaci.length).countP (fun i => (t.abacus i).ramp != (s.abacus i).ramp) ≤ stagger ∧
        ((List.range p.abaci.length).countP (fun i => (s.abacus i).ramp != s.rampTarget i) ≤ stagger →
          ∀ i < p.abaci.length, due i → (t.abacus i).ramp ≠ (s.abacus i).ramp))) ∧
    (now < (p.lastEnergy + 1) * 10000 → exec .energyUpdate s = .next s) ∧
    ((p.lastEnergy + 1) * 10000 ≤ now → runs .energyUpdate fun t => t.mem = s.mem ∧
      t.dev.power.lastEnergy = p.lastEnergy + 1 ∧
      t.dev.msu.moved = [] ∧
      ∃ (f : Nat × Nat → Nat) (g : Job → Nat),
        (t.dev.sched.tasks = s.dev.sched.tasks.map fun k =>
          { k with energy := BitVec.ofNat 64 (min (2 ^ 64 - 1) (k.energy.toNat + f (k.job, k.id))) }) ∧
        (t.dev.sched.jobs = s.dev.sched.jobs.map fun j =>
          { j with used := j.used + g j, energy := BitVec.ofNat 64 (min (2 ^ 64 - 1) ((j.used + g j) / 1000)) }) ∧
        (∀ (j : Job) (k : Nat), f (j.id, k) ≤ g j) ∧
        ∀ l : Nat × Nat, (∀ c ∈ s.dev.cores, l ∉ c.served) → (∀ a ∈ p.abaci, l ∉ a.ran ∧ l ∉ a.spun) →
          (∀ m ∈ s.dev.msu.moved, (m.job, m.task) = l → m.bytes = 0) → f l = 0) ∧
    (now < (p.lastHealth + 1) * 3600000000000 → exec .healthUpdate s = .next s) ∧
    ((p.lastHealth + 1) * 3600000000000 ≤ now → runs .healthUpdate fun t => t.mem = s.mem ∧
      t.dev.power.lastHealth = p.lastHealth + 1 ∧ t.dev.power.eolmonths.toNat < 2 ^ 16 ∧
      t.dev.power.guardbands.length = 16 ∧ (∀ g ∈ t.dev.power.guardbands, g ≤ 100) ∧
      t.dev.power.ageind.toNat % 256 ≤ 100 ∧ (∀ g ∈ t.dev.power.guardbands, g ≤ t.dev.power.ageind.toNat % 256) ∧
      (∀ h ∈ p.straitRetries, min 255 ((h.take 24).sum / max 1 (h.take 24).length) ≤
        t.dev.power.ageind.toNat / 2 ^ 32 % 256) ∧
      (∀ h ∈ p.stackErrors, min 255 ((h.take 24).sum / max 1 (h.take 24).length) ≤
        t.dev.power.ageind.toNat / 2 ^ 16 % 256) ∧
      t.dev.power.straitRetries = (p.straitRetries.map fun h => 0 :: h.take 24) ∧
      t.dev.power.stackErrors = p.stackErrors.map fun h => 0 :: h.take 24) ∧
    (∀ (k : Nat) (h : List Nat), p.straitRetries[k]? = some h → runs (.straitLaneRetry k) fun t => t.mem = s.mem ∧
      t.dev.power.straitRetries = p.straitRetries.set k ((h.headD 0 + 1) :: h.tail)) ∧
    (∀ (isle : BitVec 4), isle.toNat < s.dev.fabric.straits.length →
      let x := s.strait isle
      let open' := x.lastHonour = none ∨ ∃ t0 : Nat, x.lastHonour = some t0 ∧ t0 + 20000 ≤ now
      let at' := match x.lastHonour with
        | none => now
        | some t0 => t0 + 20000
      (x.request = none ∨ ¬ open' → exec (.tideHonour isle) s = .next s) ∧
      (∀ n : BitVec 3, x.request = some n → open' → runs (.tideHonour isle) fun t => t.mem = s.mem ∧
        ∃ drain : Nat, t.strait isle =
          if n = x.split then { x with request := none } else ⟨x.split, some (n, at' + drain + 40), some at', none⟩) ∧
      (x.turning = none → exec (.tideSplitEffect isle) s = .next s) ∧
      ∀ (n : BitVec 3) (t0 : Nat), x.turning = some (n, t0) →
        (now < t0 → exec (.tideSplitEffect isle) s = .next s) ∧
        (t0 ≤ now → runs (.tideSplitEffect isle) fun t => t.mem = s.mem ∧
          t.strait isle = { x with split := n, turning := none })) ∧
    (∀ (isle : BitVec 4) (dest : Nat),
      let queue := s.dev.fabric.headers.filter fun h => h.isle == isle && h.packet.dest == dest
      (queue = [] → exec (.headerForward ⟨isle, dest⟩) s = .next s) ∧
      ∀ h : Header, queue.head? = some h →
        ∃ t : State, exec (.headerForward ⟨isle, dest⟩) s = .next t ∧ CtxFrame s t {} ∧ t.ctx.pc = s.ctx.pc ∧ t.mem = s.mem ∧
          (∀ (who : CtxNo) (c : Ctx), h.src = .context who → s.findCtx who = some c →
            let next := c.flow.owed.take (8 - (c.flow.slots - 1))
            ∃ d : Ctx, t.findCtx who = some d ∧ d.flow.slots = c.flow.slots - 1 + next.length ∧
              d.flow.owed = c.flow.owed.drop next.length ∧
              t.dev.fabric.headers = s.dev.fabric.headers.erase h ++ next.map fun x => ⟨c.place.isle, x, .context who⟩) ∧
          ∀ (core : Nat) (x : Streamer), h.src = .streamer core → s.dev.fabric.streamers[core]? = some x → x.owed = [] →
            t.dev.fabric.headers = s.dev.fabric.headers.erase h ∧
              t.dev.fabric.streamers[core]? = some ⟨x.slots - 1, []⟩) ∧
    ∀ who : CtxNo, runs (.responseLanding who) fun t => t.mem = s.mem ∧
      t.dev.fabric.responses = s.dev.fabric.responses.erase who

/-! ### The host, peers, the board and starts -/

/-- What reaches the device from outside (R330-R334, R336, R346, R348, R349, R352): reads and writes of the exposed
region, of the host while Memory_Active and of a peer through its trained port, each with its completion; the host's
writes of its own memory, and its accesses to the register space; JEVSTAT, PEERBASE and the MSI-X table; the DOE
mailbox, with its signature; the sideband's telemetry, and the request for a self-test. The model's choices: how a failure
report is laid out in the mailbox (notes/assumptions/18.md); that the completion of a request is held as data of the host
side, that a write of the host to its own memory changes what the device reads as kind 11, that the signature on a
measurement is some function of the response, and that a piece of firmware is acknowledged with the report of the last
failed start (notes/assumptions/17.md). -/
def Obligations.OutsideRequestsAreServed : Prop :=
  ∀ s : State,
    let h := s.dev.host
    let runs := fun (i : Instr) (q : State → Prop) => ∃ t : State, exec i s = .next t ∧ t.ctx = s.ctx ∧
      t.others = s.others ∧ q t
    (∀ (req : OutsideAccess) (port : BitVec 2),
      let x := h.ports.getD port.toNat ⟨0, false, 0⟩
      let n := req.data.length
      let inside := s.dev.start.memoryActive = true ∧ n ≠ 0 ∧ req.addr + n < 2 ^ 52 ∧
        s.dev.inRange (req.addr + (n - 1)) = true
      let trained := x.mode = 2 ∧ x.up = true
      let ended := fun (t : State) (c : Completion) => t.dev.settled s.dev = { s.dev with host := { h with completion := some c } }
      let wrote := fun (t : State) (at' : Nat) => MemoryOutside s t (within at' n) ∧
        ∀ (k : Nat) (b : Byte), req.data[k]? = some b → s.dev.fencedAt (at' + k) = false → t.mem.read (at' + k) = b
      (¬ trained ∨ req.space ≠ .hbm → exec (.peerMemRequest port req) s = .next s) ∧
      (req.space = .hbm → ∀ i ∈ [Instr.hostMemRequest req, .peerMemRequest port req],
        i = .hostMemRequest req ∨ trained →
        (¬ inside → runs i fun t => t.mem = s.mem ∧ ended t .unsupported) ∧
        (inside → req.write = true → s.mem.wf → runs i fun t => ended t .done ∧ wrote t req.addr) ∧
        (inside → req.write = false → runs i fun t => t.mem = s.mem ∧
          ended t (.data (s.mem.bytes req.addr n) (s.poisoned req.addr n)))) ∧
      (req.space = .host → req.write = true → req.addr + n ≤ 2 ^ 52 → s.mem.wf →
        runs (.hostMemRequest req) fun t => t.dev = s.dev ∧ wrote t (3 * 2 ^ 52 + req.addr)) ∧
      (req.space = .registers → req.write = false → n = 8 → req.addr % 8 = 0 → ∃ v : Word,
        (runs (.hostMemRequest req) fun t => t.mem = s.mem ∧ ended t (.data (leBytes 8 v.toNat) false)) ∧
        (req.addr = 0x000 → v.toNat / 2 ^ 16 = 0x9160 ∧ v.toNat % 2 ^ 8 = 0) ∧
        (req.addr = 0x008 → s.dev.msu.fenced.length < 2 ^ 16 →
          v.toNat = h.clsCode.toNat * 2 ^ 32 + s.dev.msu.fenced.length * 2 ^ 16 + 1024) ∧
        (req.addr = 0x010 → v = h.jevstat) ∧
        (∀ (k : Nat) (y : Port), req.addr = 0x020 + 8 * k → k < 4 → h.ports[k]? = some y →
          v.toNat = y.cap.toNat * 2 ^ 8 + (if y.up then 8 else 0) + y.mode.toNat) ∧
        (∀ (k : Nat) (w : Word), req.addr = 0x040 + 8 * k → k < 4 → h.peerbase[k]? = some w → v = w) ∧
        (req.addr = 0x018 ∨ 0x060 ≤ req.addr → v = 0)) ∧
      (req.space = .registers → req.write = true → n = 8 →
        let v := BitVec.ofNat 64 (leNat req.data)
        let set := fun new : HostSide => runs (.hostMemRequest req) fun t => t.mem = s.mem ∧ t.dev = { s.dev with host := new }
        (req.addr = 0x010 → set { h with jevstat := h.jevstat &&& ~~~v }) ∧
        (∀ k : Nat, req.addr = 0x040 + 8 * k → k < 4 →
          set { h with peerbase := h.peerbase.set k (v &&& 0x000FFF0000000001) }) ∧
        (req.addr < 0x010 ∨ (0x018 ≤ req.addr ∧ req.addr < 0x040) ∨ 0x060 ≤ req.addr → set h))) ∧
    (∀ v : BitVec 64, runs (.jevstatWrite v) fun t => t.mem = s.mem ∧ t.dev.host = { h with jevstat := h.jevstat &&& ~~~v }) ∧
    (∀ (port : BitVec 2) (v : BitVec 64), runs (.peerbaseWrite port v) fun t => t.mem = s.mem ∧
      t.dev.host = { h with peerbase := h.peerbase.set port.toNat (v &&& 0x000FFF0000000001) }) ∧
    (∀ (n : Nat) (w : BitVec 384), s.dev.start.log[n]? = some w → runs (.doeRequest (.spdm n)) fun t => t.mem = s.mem ∧
      t.dev.host.doeResponse = some [w] ∧ t.dev.host.doeSignature = some (Config.spdmSignature [w]) ∧
      (h.masked[2]? = some false → t.dev.host.raised = h.raised.modify 2 (· + 1)) ∧
      (h.masked[2]? = some true → t.dev.host.pending = h.pending.set 2 true)) ∧
    (runs (.doeRequest .firmware) fun t => t.mem = s.mem ∧ t.dev.start = s.dev.start ∧ t.dev.host.doeSignature = none ∧
      (s.dev.start.report = none → t.dev.host.doeResponse = some []) ∧
      ∀ r : FailureReport, s.dev.start.report = some r → ∃ w : BitVec 384,
        t.dev.host.doeResponse = some [BitVec.ofNat 384 r.step, w]) ∧
    (∀ (v : BitVec 2) (masked : Bool), runs (.msixTableWrite v masked) fun t => t.mem = s.mem ∧
      t.dev.host.masked = h.masked.set v.toNat masked ∧
      (masked = false → h.pending[v.toNat]? = some true → t.dev.host.pending = h.pending.set v.toNat false ∧
        t.dev.host.raised = h.raised.modify v.toNat (· + 1)) ∧
      (masked = true ∨ h.pending[v.toNat]? ≠ some true →
        t.dev.host.pending = h.pending ∧ t.dev.host.raised = h.raised)) ∧
    (runs .sidebandRead fun t => t.mem = s.mem ∧ ({ t.dev with start := s.dev.start } : Dev) = s.dev ∧
      ∃ y : Telemetry, t.dev.start = { s.dev.start with
          sidebandReads := s.dev.start.sidebandReads + 1, telemetry := some y } ∧
        y.guardbands = s.dev.power.guardbands ∧ y.failed = s.dev.start.failed ∧ y.report = s.dev.start.report ∧
        (∀ (k : Nat) (l : List Nat), s.dev.power.straitRetries[k]? = some l →
          y.straitRates[k]? = some (min 255 (l.tail.sum / max 1 l.tail.length))) ∧
        ∀ (k : Nat) (l : List Nat), s.dev.power.stackErrors[k]? = some l →
          y.stackRates[k]? = some (min 255 (l.tail.sum / max 1 l.tail.length))) ∧
    runs .bistRequest fun t => t.mem = s.mem ∧ t.dev.start = { s.dev.start with bist := true }

/-- Starts (R344-R351). A start without a failure leaves the resident control program alone on its context at the
entry of its image, whose bytes stand in device memory, the device reset and Memory_Active; with its training
retained, a warm start keeps HBM. A step that fails ends every context and is reported with its cause; a key, a
signature or a used leaf that is refused fails step 4; three failures in a row make the device wait for a pushed
image, which begins at step 4; while it waits it makes no attempt of its own. The model's choices: that at other times a
push is ignored (notes/assumptions/15.md); and that the entry address drops its upper bits and bits 1:0, that PTBASE has
only bits 51:12, how a failure report is laid out, where the bytes of an image go, which bytes the body of an image that
is signed, the image that is measured and the fuse values are made of, which bits of measurement 2 say the kind of start
and the skipped steps, and that a time-out
event is that of a warm start of the device's own (notes/assumptions/18.md). -/
def Obligations.StartsRunOrReportTheirFailure : Prop :=
  ∀ (s : State) (img : FirmwareImage) (found : StartFindings),
    let st := s.dev.start
    let starts := [(Instr.coldStart img found, StartKind.cold, true),
      (.warmStart img found, .warm, !(found.own && st.awaitingPush)), (.firmwarePush img found, .push, st.awaitingPush)]
    let failed := fun (i : Instr) (n : Nat) (p : StartCause → Prop) => ∃ (t : State) (c : StartCause) (w : BitVec 384),
      exec i s = .next t ∧ t.ctx.flow.status = .ended ∧ p c ∧
      t.others = [] ∧ t.dev.sched.jobs = [] ∧ t.dev.sched.tasks = [] ∧ t.dev.engines.cmds = [] ∧
      t.dev.start.failed = st.failed + 1 ∧ t.dev.start.report = some ⟨n, c⟩ ∧ t.dev.start.memoryActive = false ∧
      t.dev.start.awaitingPush = decide (3 ≤ st.failed + 1) ∧ t.dev.host.doeResponse = some [BitVec.ofNat 384 n, w]
    let fuses := fun k : StartKind => if k = .push then st.fuses else found.fuses
    let digest := sha384 (imageBody img)
    let trusted := fun f : Fuses => sha384 img.lmsKey = f.lmsHash ∧ lmsLeaf img.lmsSignature ∉ f.usedLeaves ∧
      lmsVerifies img.lmsKey (beBytes 48 digest.toNat) img.lmsSignature = true ∧ sha384 img.ecdsaKey = f.ecdsaHash ∧
      ecdsaVerifies img.ecdsaKey digest img.ecdsaSignature = true
    let trained := fun k : StartKind => k = .cold ∨ ¬ ((∀ i < 16, found.coefficients[i]? = some true) ∧
      ∀ i < 512, found.patterns[i]? = some true)
    let performed := fun (k : StartKind) (n : Nat) => (n ≤ 3 → k ≠ .push) ∧ (n = 6 → trained k) ∧
      (n = 7 → k = .cold ∨ ∃ i < 24, found.laneMaps[i]? ≠ some true) ∧ (n = 8 → k = .cold ∨ st.bist = true) ∧
      1 ≤ n ∧ n ≤ 9
    (∀ x ∈ starts, x.2.2 = false → exec x.1 s = .next s) ∧
    (∀ x ∈ starts, x.2.2 = true →
      (∀ (n : Nat) (c : StartCause), found.failedStep = some (n, c) → performed x.2.1 n → n < 4 ∨ trusted (fuses x.2.1) →
        failed x.1 n (· = c)) ∧
      ((∀ (n : Nat) (c : StartCause), found.failedStep = some (n, c) → ¬ (performed x.2.1 n ∧ n < 4)) →
        ¬ trusted (fuses x.2.1) → failed x.1 4 fun _ => True) ∧
      ((∀ (n : Nat) (c : StartCause), found.failedStep = some (n, c) → ¬ performed x.2.1 n) → trusted (fuses x.2.1) →
      ∃ t : State, exec x.1 s = .next t ∧ t.others = [] ∧ t.ctx.place = ⟨0, 0, 0, 0, 1024, 0⟩ ∧ t.ctx.user = false ∧
        t.ctx.pc.toNat = img.entry.toNat % 2 ^ 56 / 4 * 4 ∧ t.reg 1 = img.param ∧ t.reg 2 = 0 ∧ t.reg 3 = 1 ∧
        (∀ r : Reg, 4 ≤ r.toNat → t.reg r = 0) ∧ t.ctx.vec.vl = 0 ∧ t.ctx.vec.mspace = 2 ∧ t.ctx.vec.devpol = 0 ∧
        t.ctx.vec.vcount = 8 * 2 ^ (img.part.toNat / 2 ^ 16 % 4) ∧ (∀ v, t.ctx.tag v = 0) ∧
        t.ctx.front = ⟨t.ctx.vec.vcount, t.ctx.vec.tags⟩ ∧
        t.ctx.trap.ptbase = img.ptbase &&& 0x000FFFFFFFFFF000 ∧ t.ctx.trap.asid = 0 ∧ t.ctx.eng = ⟨0, 0, 0, 0, 0⟩ ∧ t.ctx.ownsVector = true ∧
        t.ctx.flow.status = .running ∧ t.dev.sched.jobs = [] ∧ t.dev.sched.tasks = [] ∧ t.dev.engines.cmds = [] ∧
        t.dev.ring = ⟨0, 0, 0, 0, 0⟩ ∧ (∀ p < 8, (t.pool p).cfg = 0) ∧ t.dev.tlb = [] ∧
        t.dev.power.pwrcap = 1800 ∧ t.dev.power.rampcfg = 0x200A ∧ t.dev.host.jevstat = 0 ∧
        t.dev.start.failed = 0 ∧ t.dev.start.memoryActive = true ∧ t.dev.start.awaitingPush = false ∧
        t.dev.start.log[0]? = some (sha384 (Config.bootRom ++ fuseBytes (fuses x.2.1))) ∧
        t.dev.start.log[1]? = some (sha384 (imageBytes img)) ∧
        (∃ w : BitVec 384, t.dev.start.log[2]? = some w ∧ (w.getLsbD 0 = true ↔ x.2.1 ≠ .cold) ∧
          ∀ n ∈ [6, 7, 8], w.getLsbD n = true ↔ ¬ performed x.2.1 n) ∧
        let placed := fun a => ∃ p ∈ img.program, p.1 = a ∧ a < 2 * 2 ^ 52
        (∀ p ∈ img.program, p.1 < 2 * 2 ^ 52 → s.dev.fencedAt p.1 = false → (∀ q ∈ img.program, q.1 = p.1 → q.2 = p.2) → s.mem.wf →
          t.mem.read p.1 = p.2) ∧
        (¬ trained x.2.1 → ∀ a, a < spadBase → ¬ placed a → t.mem.read a = s.mem.read a) ∧
        ∀ a, 2 * 2 ^ 52 ≤ a → a < spadBase → t.mem.read a = s.mem.read a)) ∧
    (st.awaitingPush = true → exec .firmwareFetchTimeout s = .next s) ∧
    (st.awaitingPush = false → failed .firmwareFetchTimeout 3 (· = .timeout)) ∧
    (found.failedStep = some (3, .timeout) → failed (.coldStart img found) 3 (· = .timeout))

end Statements
end

