-- ==== Sys2Proof/Laws/Memory.lean ====
section
/-! SUPPORT. Memory: what a read gives after a write, a store, a clearing or a forgetting, and that every operation
keeps the canonical form. -/

namespace Sys2Proof.Machine

/-! ### Lists of cells -/

theorem readCell_writeCell_same (z : Byte) (cs : List Host.Cell) (a : Nat) (b : Byte)
    (h : cs.Pairwise fun x y => x.1 < y.1) : readCell z (writeCell z cs a b) a = b := by
  have low : ∀ l : List Host.Cell, (∀ c ∈ l, a < c.1) → readCell z l a = z := by
    intro l hl
    induction l with
    | nil => rfl
    | cons c l ih =>
      have := hl c (by simp)
      simp only [readCell]
      rw [if_neg (by omega)]
      exact ih fun d hd => hl d (by simp [hd])
  induction cs with
  | nil => simp only [writeCell]; split_ifs with hb <;> simp [readCell, hb]
  | cons c cs ih =>
    obtain ⟨k, v⟩ := c
    rw [List.pairwise_cons] at h
    simp only [writeCell]
    split_ifs with h1 hb h2 hb
    · rw [low _ fun d hd => ?_, hb]
      rcases List.mem_cons.1 hd with rfl | hd
      · exact h1
      · exact lt_trans h1 (h.1 d hd)
    · simp [readCell]
    · rw [low _ fun d hd => h2 ▸ h.1 d hd, hb]
    · simp [readCell]
    · simp only [readCell]
      rw [if_neg (Ne.symm h2)]
      exact ih h.2

theorem readCell_writeCell_other (z y : Byte) (cs : List Host.Cell) {a c : Nat} (b : Byte) (h : c ≠ a) :
    readCell y (writeCell z cs a b) c = readCell y cs c := by
  induction cs with
  | nil => simp only [writeCell]; split_ifs <;> simp [readCell, Ne.symm h]
  | cons x cs ih =>
    obtain ⟨k, v⟩ := x
    simp only [writeCell]
    split_ifs with h1 hb h2 hb
    · rfl
    · simp [readCell, Ne.symm h]
    · simp [readCell, ← h2, Ne.symm h]
    · simp [readCell, ← h2, Ne.symm h]
    · simp only [readCell, ih]

/-- The keys of written cells. -/
theorem mem_writeCell {z : Byte} {cs : List Host.Cell} {a : Nat} {b : Byte} {c : Host.Cell}
    (h : c ∈ writeCell z cs a b) : c ∈ cs ∨ (c = (a, b) ∧ b ≠ z) := by
  induction cs with
  | nil =>
    simp only [writeCell] at h
    split_ifs at h with hb
    · simp at h
    · simp at h; exact .inr ⟨h, hb⟩
  | cons x cs ih =>
    obtain ⟨k, v⟩ := x
    simp only [writeCell] at h
    split_ifs at h with h1 hb h2 hb
    · exact .inl h
    · rcases List.mem_cons.1 h with rfl | h
      · exact .inr ⟨rfl, hb⟩
      · exact .inl h
    · exact .inl (List.mem_cons_of_mem _ h)
    · rcases List.mem_cons.1 h with rfl | h
      · exact .inr ⟨rfl, hb⟩
      · exact .inl (List.mem_cons_of_mem _ h)
    · rcases List.mem_cons.1 h with rfl | h
      · exact .inl (by simp)
      · rcases ih h with h | h
        · exact .inl (List.mem_cons_of_mem _ h)
        · exact .inr h

theorem pairwise_writeCell {z : Byte} {cs : List Host.Cell} (a : Nat) (b : Byte)
    (h : cs.Pairwise fun x y => x.1 < y.1) : (writeCell z cs a b).Pairwise fun x y => x.1 < y.1 := by
  induction cs with
  | nil => simp only [writeCell]; split_ifs <;> simp
  | cons x cs ih =>
    obtain ⟨k, v⟩ := x
    have h' := h
    rw [List.pairwise_cons] at h
    simp only [writeCell]
    split_ifs with h1 hb h2 hb
    · exact h'
    · refine List.pairwise_cons.2 ⟨fun d hd => ?_, h'⟩
      rcases List.mem_cons.1 hd with rfl | hd
      · exact h1
      · exact lt_trans h1 (h.1 d hd)
    · exact h.2
    · exact List.pairwise_cons.2 ⟨fun d hd => h2 ▸ h.1 d hd, h.2⟩
    · refine List.pairwise_cons.2 ⟨fun d hd => ?_, ih h.2⟩
      rcases mem_writeCell hd with hd | ⟨rfl, -⟩
      · exact h.1 d hd
      · show k < a
        omega

/-! ### Writing one byte -/

@[simp] theorem Memory.blank_write (m : Memory) (a : Nat) (b : Byte) (c : Nat) :
    (m.write a b).blank c = m.blank c := rfl

@[simp] theorem Memory.poison_write (m : Memory) (a : Nat) (b : Byte) : (m.write a b).poison = m.poison := rfl

@[simp] theorem Memory.elided_write (m : Memory) (a : Nat) (b : Byte) : (m.write a b).elided = m.elided := rfl

theorem Memory.read_write_same {m : Memory} (h : m.wf) (a : Nat) (b : Byte) : (m.write a b).read a = b :=
  readCell_writeCell_same _ _ _ _ h.1

theorem Memory.read_write_other (m : Memory) {a c : Nat} (b : Byte) (h : c ≠ a) :
    (m.write a b).read c = m.read c :=
  readCell_writeCell_other _ _ _ _ h

theorem Memory.wf_write {m : Memory} (h : m.wf) (a : Nat) (b : Byte) : (m.write a b).wf := by
  refine ⟨pairwise_writeCell a b h.1, fun c hc => ?_⟩
  rcases mem_writeCell hc with hc | ⟨rfl, hb⟩
  · exact h.2 c hc
  · exact hb

/-! ### Storing -/

/-- A store writes its bytes one after another. -/
theorem Memory.cells_store (m : Memory) (puts : List Put) :
    (m.store puts).cells = (puts.foldl (fun m p => m.write p.loc p.byte) m).cells ∧
      (puts.foldl (fun m p => m.write p.loc p.byte) m).blanks = m.blanks := by
  have key : ∀ (ps : List Put) (n : Memory), n.blanks = m.blanks →
      ps.foldl (fun cs p => writeCell (m.blank p.loc) cs p.loc p.byte) n.cells =
        (ps.foldl (fun m p => m.write p.loc p.byte) n).cells ∧
      (ps.foldl (fun m p => m.write p.loc p.byte) n).blanks = m.blanks := by
    intro ps
    induction ps with
    | nil => exact fun n hn => ⟨rfl, hn⟩
    | cons p ps ih =>
      intro n hn
      have : n.blank p.loc = m.blank p.loc := by simp [Memory.blank, hn]
      have := ih (n.write p.loc p.byte) hn
      simpa [Memory.write, ‹n.blank p.loc = _›] using this
  exact key puts m rfl

theorem Memory.read_eq {m n : Memory} (hc : m.cells = n.cells) (hb : m.blanks = n.blanks) (a : Nat) :
    m.read a = n.read a := by
  simp [Memory.read, Memory.blank, hc, hb]

theorem Memory.wf_eq {m n : Memory} (hc : m.cells = n.cells) (hb : m.blanks = n.blanks) (h : n.wf) : m.wf := by
  refine ⟨hc ▸ h.1, fun c hm => ?_⟩
  have : m.blank c.1 = n.blank c.1 := by simp [Memory.blank, hb]
  exact this ▸ h.2 c (hc ▸ hm)

theorem Memory.read_store (m : Memory) (puts : List Put) (a : Nat) :
    (m.store puts).read a = (puts.foldl (fun m p => m.write p.loc p.byte) m).read a :=
  Memory.read_eq (m.cells_store puts).1 (m.cells_store puts).2.symm a

/-- Storing keeps the canonical form. -/
theorem Memory.wf_store {m : Memory} (h : m.wf) (puts : List Put) : (m.store puts).wf := by
  refine Memory.wf_eq (m.cells_store puts).1 (m.cells_store puts).2.symm ?_
  induction puts generalizing m with
  | nil => exact h
  | cons p ps ih => exact ih (Memory.wf_write h p.loc p.byte)

/-- A location that no byte of a store names reads as before. -/
theorem Memory.read_store_outside (m : Memory) {puts : List Put} {a : Nat} (h : ∀ p ∈ puts, p.loc ≠ a) :
    (m.store puts).read a = m.read a := by
  rw [Memory.read_store]
  induction puts generalizing m with
  | nil => rfl
  | cons p ps ih =>
    rw [List.foldl_cons, ih _ fun q hq => h q (by simp [hq]), Memory.read_write_other]
    exact Ne.symm (h p (by simp))

/-- A location reads as the last byte of a store that names it. -/
theorem Memory.read_store_last {m : Memory} (h : m.wf) (ps qs : List Put) (p : Put)
    (hq : ∀ q ∈ qs, q.loc ≠ p.loc) : (m.store (ps ++ p :: qs)).read p.loc = p.byte := by
  have out : ∀ (n : Memory), (qs.foldl (fun m p => m.write p.loc p.byte) n).read p.loc = n.read p.loc := fun n => by
    rw [← Memory.read_store]; exact n.read_store_outside hq
  rw [Memory.read_store, List.foldl_append, List.foldl_cons, out]
  refine Memory.read_write_same ?_ _ _
  clear out hq
  induction ps generalizing m with
  | nil => exact h
  | cons q ps ih => exact ih (Memory.wf_write h q.loc q.byte)

/-- Where the bytes of a store that name a location agree, it reads as that byte. -/
theorem Memory.read_store_agree {m : Memory} (h : m.wf) {puts : List Put} {p : Put} (hp : p ∈ puts)
    (ha : ∀ q ∈ puts, q.loc = p.loc → q.byte = p.byte) : (m.store puts).read p.loc = p.byte := by
  rw [Memory.read_store]
  have key : ∀ (ps : List Put) (n : Memory), n.wf → (∀ q ∈ ps, q.loc = p.loc → q.byte = p.byte) →
      (n.read p.loc = p.byte ∨ ∃ q ∈ ps, q.loc = p.loc) →
      (ps.foldl (fun m p => m.write p.loc p.byte) n).read p.loc = p.byte := by
    intro ps
    induction ps with
    | nil =>
      rintro n - - (h | ⟨q, hq, -⟩)
      · exact h
      · simp at hq
    | cons q ps ih =>
      intro n hn ha hor
      refine ih _ (Memory.wf_write hn _ _) (fun r hr => ha r (by simp [hr])) ?_
      by_cases hq : q.loc = p.loc
      · exact .inl (by rw [← hq, Memory.read_write_same hn, ha q (by simp) hq])
      · rcases hor with h | ⟨r, hr, e⟩
        · exact .inl (by rw [Memory.read_write_other _ _ (Ne.symm hq), h])
        · rcases List.mem_cons.1 hr with rfl | hr
          · exact absurd e hq
          · exact .inr ⟨r, hr, e⟩
  exact key puts m h ha (.inr ⟨p, hp, rfl⟩)

/-! ### Clearing, forgetting and marking -/

theorem Memory.wf_mark {m : Memory} (h : m.wf) (loc : Nat) : (m.mark loc).wf := by
  unfold Memory.mark
  split_ifs <;> exact h

@[simp] theorem Memory.read_mark (m : Memory) (loc a : Nat) : (m.mark loc).read a = m.read a := by
  unfold Memory.mark
  split_ifs <;> rfl

theorem Memory.wf_spare {m : Memory} (h : m.wf) (locs : List Nat) : (m.spare locs).wf := h

@[simp] theorem Memory.read_spare (m : Memory) (locs : List Nat) (a : Nat) : (m.spare locs).read a = m.read a := rfl

theorem Memory.wf_foldl_mark {m : Memory} (h : m.wf) {α : Type} (f : α → Nat) (xs : List α) :
    (xs.foldl (fun m x => m.mark (f x)) m).wf := by
  induction xs generalizing m with
  | nil => exact h
  | cons x xs ih => exact ih (Memory.wf_mark h _)

theorem Memory.read_foldl_mark (m : Memory) {α : Type} (f : α → Nat) (xs : List α) (a : Nat) :
    (xs.foldl (fun m x => m.mark (f x)) m).read a = m.read a := by
  induction xs generalizing m with
  | nil => rfl
  | cons x xs ih => rw [List.foldl_cons, ih, Memory.read_mark]

/-- The stretch that holds a location outside `[lo, hi)` is found as before when stretches are cut there. -/
theorem find_outside (bs : List Blank) {lo hi a : Nat} (h : a < lo ∨ hi ≤ a) :
    ((bs.flatMap fun b => b.outside lo hi).find? fun b => b.lo ≤ a && a < b.hi).map (·.tick) =
      (bs.find? fun b => b.lo ≤ a && a < b.hi).map (·.tick) := by
  induction bs with
  | nil => rfl
  | cons b bs ih =>
    rw [List.flatMap_cons, List.find?_append, List.find?_cons]
    have key : (((b.outside lo hi).find? fun b => b.lo ≤ a && a < b.hi).map (·.tick)) =
        if b.lo ≤ a && a < b.hi then some b.tick else none := by
      obtain ⟨l, u, t⟩ := b
      unfold Blank.outside
      by_cases hb : l ≤ a ∧ a < u
      · have hg : (decide (l ≤ a) && decide (a < u)) = true := by simpa using hb
        rw [if_pos hg]
        by_cases h1 : u ≤ lo ∨ hi ≤ l
        · simp [h1, hb.1, hb.2]
        · simp only [if_neg h1]
          rcases h with h | h
          · have : l < lo := by omega
            simp [this, hb.1, h]
          · have : hi < u := by omega
            by_cases h2 : l < lo
            · by_cases h3 : a < lo
              · simp [h2, hb.1, h3]
              · simp [h2, this, hb.2, h3, h]
            · simp [h2, this, hb.2, h]
      · have hg : ¬(decide (l ≤ a) && decide (a < u)) = true := by simpa using hb
        rw [if_neg hg]
        simp only [Option.map_eq_none_iff, List.find?_eq_none]
        intro c hc
        simp only [Bool.and_eq_true, decide_eq_true_eq]
        split_ifs at hc <;> simp at hc <;> (try rcases hc with rfl | rfl) <;> simp at * <;> omega
    by_cases hb : (b.lo ≤ a && a < b.hi) = true
    · rw [if_pos hb] at key
      simp only [hb]
      cases hf : (b.outside lo hi).find? fun b => b.lo ≤ a && a < b.hi with
      | none => simp [hf] at key
      | some c => simpa [hf] using key
    · rw [if_neg hb] at key
      have : ((b.outside lo hi).find? fun b => b.lo ≤ a && a < b.hi) = none := by simpa using key
      rw [this]
      simp only [Bool.not_eq_true] at hb
      simpa [hb] using ih

theorem Memory.blank_eq_tick (m : Memory) (a : Nat) :
    m.blank a = match (m.blanks.find? fun b => b.lo ≤ a && a < b.hi).map (·.tick) with
      | some t => Config.freeByte t a
      | none => 0 := by
  unfold Memory.blank
  cases m.blanks.find? fun b => b.lo ≤ a && a < b.hi <;> rfl

theorem Memory.blank_zero_outside (m : Memory) {lo hi a : Nat} (h : a < lo ∨ hi ≤ a) :
    (m.zero lo hi).blank a = m.blank a := by
  rw [Memory.blank_eq_tick, Memory.blank_eq_tick]
  simp only [Memory.zero, find_outside m.blanks h]

theorem Memory.blank_zero_inside (m : Memory) {lo hi a : Nat} (h : lo ≤ a ∧ a < hi) : (m.zero lo hi).blank a = 0 := by
  have : ((m.blanks.flatMap fun b => b.outside lo hi).find? fun b => b.lo ≤ a && a < b.hi) = none := by
    rw [List.find?_eq_none]
    intro c hc
    obtain ⟨b, -, hb⟩ := List.mem_flatMap.1 hc
    simp only [Bool.and_eq_true, decide_eq_true_eq, not_and, not_lt]
    intro h1
    unfold Blank.outside at hb
    split_ifs at hb <;> simp at hb
    · subst hb; omega
    · rcases hb with rfl | rfl <;> simp at h1 ⊢ <;> omega
    · subst hb; simp at h1 ⊢; omega
    · subst hb; simp at h1 ⊢; omega
  simp only [Memory.blank, Memory.zero, this]

theorem Memory.blank_forget_outside (m : Memory) {lo hi a t : Nat} (h : a < lo ∨ hi ≤ a) :
    (m.forget lo hi t).blank a = m.blank a := by
  have h1 : (decide (lo ≤ a) && decide (a < hi)) = false := by simp; omega
  have h2 : ((m.blanks.filter fun b => !(lo ≤ b.lo && b.hi ≤ hi)).find? fun b => b.lo ≤ a && a < b.hi) =
      m.blanks.find? fun b => b.lo ≤ a && a < b.hi := by
    induction m.blanks with
    | nil => rfl
    | cons b bs ih =>
      by_cases hb : (b.lo ≤ a && a < b.hi) = true
      · have : (!(decide (lo ≤ b.lo) && decide (b.hi ≤ hi))) = true := by simp at hb ⊢; omega
        rw [List.filter_cons, if_pos this, List.find?_cons, List.find?_cons, hb]
      · simp only [Bool.not_eq_true] at hb
        by_cases hc : (!(decide (lo ≤ b.lo) && decide (b.hi ≤ hi))) = true
        · simp only [List.filter_cons, hc, if_true, List.find?_cons, hb]; exact ih
        · simp only [List.filter_cons, hc, Bool.false_eq_true, if_false, List.find?_cons, hb]; exact ih
  simp only [Memory.blank, Memory.forget, List.find?_cons, h1, h2]

theorem readCell_filter (z : Byte) (cs : List Host.Cell) (f : Nat → Bool) (a : Nat) :
    readCell z (cs.filter fun c => f c.1) a = if f a then readCell z cs a else z := by
  induction cs with
  | nil => simp [readCell]
  | cons c cs ih =>
    obtain ⟨k, v⟩ := c
    by_cases hk : k = a
    · subst hk
      by_cases hf : f k = true
      · simp [hf, readCell]
      · simp only [List.filter_cons, hf]; simpa [hf] using ih
    · by_cases hf : f k = true
      · simp only [List.filter_cons, hf, if_true, readCell, if_neg hk]; exact ih
      · simp only [List.filter_cons, hf, Bool.false_eq_true, if_false, readCell, if_neg hk]; exact ih

theorem Memory.read_zero_inside (m : Memory) {lo hi a : Nat} (h : lo ≤ a ∧ a < hi) : (m.zero lo hi).read a = 0 := by
  show readCell ((m.zero lo hi).blank a) (m.cells.filter fun c => !(lo ≤ c.1 && c.1 < hi)) a = 0
  rw [readCell_filter _ _ fun k => !(lo ≤ k && k < hi), Memory.blank_zero_inside m h]
  simp [h.1, h.2]

theorem Memory.read_zero_outside (m : Memory) {lo hi a : Nat} (h : a < lo ∨ hi ≤ a) :
    (m.zero lo hi).read a = m.read a := by
  show readCell ((m.zero lo hi).blank a) (m.cells.filter fun c => !(lo ≤ c.1 && c.1 < hi)) a = m.read a
  rw [readCell_filter _ _ fun k => !(lo ≤ k && k < hi), Memory.blank_zero_outside m h, if_pos (by simp; omega)]
  rfl

theorem Memory.read_forget_outside (m : Memory) {lo hi a t : Nat} (h : a < lo ∨ hi ≤ a) :
    (m.forget lo hi t).read a = m.read a := by
  show readCell ((m.forget lo hi t).blank a) (m.cells.filter fun c => !(lo ≤ c.1 && c.1 < hi)) a = m.read a
  rw [readCell_filter _ _ fun k => !(lo ≤ k && k < hi), Memory.blank_forget_outside m h, if_pos (by simp; omega)]
  rfl

theorem Memory.wf_zero {m : Memory} (h : m.wf) (lo hi : Nat) : (m.zero lo hi).wf := by
  refine ⟨h.1.filter _, fun c hc => ?_⟩
  obtain ⟨hc, ho⟩ := List.mem_filter.1 hc
  rw [Memory.blank_zero_outside m (by simp at ho; omega)]
  exact h.2 c hc

theorem Memory.wf_forget {m : Memory} (h : m.wf) (lo hi t : Nat) : (m.forget lo hi t).wf := by
  refine ⟨h.1.filter _, fun c hc => ?_⟩
  obtain ⟨hc, ho⟩ := List.mem_filter.1 hc
  rw [Memory.blank_forget_outside m (by simp at ho; omega)]
  exact h.2 c hc

/-- Memory after reset is in canonical form. -/
theorem reset_memory_wf : State.reset.mem.wf := ⟨List.Pairwise.nil, by simp [State.reset]⟩

end Sys2Proof.Machine
end

