-- ==== Sys2Proof/Laws/State.lean ====
section
/-! SUPPORT. What each update of the state changes, field by field. -/

namespace Sys2Proof.Machine

/-! #### `State.goto` -/

@[simp] theorem State.goto_others (s : State) (pc : Pc) : (s.goto pc).others = s.others := rfl
@[simp] theorem State.goto_mem (s : State) (pc : Pc) : (s.goto pc).mem = s.mem := rfl
@[simp] theorem State.goto_dev (s : State) (pc : Pc) : (s.goto pc).dev = s.dev := rfl
@[simp] theorem State.goto_agenda (s : State) (pc : Pc) : (s.goto pc).agenda = s.agenda := rfl
@[simp] theorem State.goto_tick (s : State) (pc : Pc) : (s.goto pc).tick = s.tick := rfl
@[simp] theorem State.goto_ctx_place (s : State) (pc : Pc) : (s.goto pc).ctx.place = s.ctx.place := rfl
@[simp] theorem State.goto_ctx_origin (s : State) (pc : Pc) : (s.goto pc).ctx.origin = s.ctx.origin := rfl
@[simp] theorem State.goto_ctx_pc (s : State) (pc : Pc) : (s.goto pc).ctx.pc = pc := rfl
@[simp] theorem State.goto_ctx_regs (s : State) (pc : Pc) : (s.goto pc).ctx.regs = s.ctx.regs := rfl
@[simp] theorem State.goto_ctx_trap (s : State) (pc : Pc) : (s.goto pc).ctx.trap = s.ctx.trap := rfl
@[simp] theorem State.goto_ctx_vec (s : State) (pc : Pc) : (s.goto pc).ctx.vec = s.ctx.vec := rfl
@[simp] theorem State.goto_ctx_front (s : State) (pc : Pc) : (s.goto pc).ctx.front = s.ctx.front := rfl
@[simp] theorem State.goto_ctx_eng (s : State) (pc : Pc) : (s.goto pc).ctx.eng = s.ctx.eng := rfl
@[simp] theorem State.goto_ctx_flow (s : State) (pc : Pc) :
    (s.goto pc).ctx.flow = { s.ctx.flow with status := .running, waitStart := none, waitOn := none, waitWord := none } := rfl

/-! #### `State.retire` -/

@[simp] theorem State.retire_others (s : State) (n : Nat) : (s.retire n).others = s.others := rfl
@[simp] theorem State.retire_mem (s : State) (n : Nat) : (s.retire n).mem = s.mem := rfl
@[simp] theorem State.retire_dev (s : State) (n : Nat) : (s.retire n).dev = s.dev := rfl
@[simp] theorem State.retire_agenda (s : State) (n : Nat) : (s.retire n).agenda = s.agenda := rfl
@[simp] theorem State.retire_tick (s : State) (n : Nat) : (s.retire n).tick = s.tick := rfl
@[simp] theorem State.retire_ctx_place (s : State) (n : Nat) : (s.retire n).ctx.place = s.ctx.place := rfl
@[simp] theorem State.retire_ctx_origin (s : State) (n : Nat) : (s.retire n).ctx.origin = s.ctx.origin := rfl
@[simp] theorem State.retire_ctx_pc (s : State) (n : Nat) : (s.retire n).ctx.pc = s.ctx.pc + BitVec.ofNat 56 n := rfl
@[simp] theorem State.retire_ctx_regs (s : State) (n : Nat) : (s.retire n).ctx.regs = s.ctx.regs := rfl
@[simp] theorem State.retire_ctx_trap (s : State) (n : Nat) : (s.retire n).ctx.trap = s.ctx.trap := rfl
@[simp] theorem State.retire_ctx_vec (s : State) (n : Nat) : (s.retire n).ctx.vec = s.ctx.vec := rfl
@[simp] theorem State.retire_ctx_front (s : State) (n : Nat) : (s.retire n).ctx.front = s.ctx.front := rfl
@[simp] theorem State.retire_ctx_eng (s : State) (n : Nat) : (s.retire n).ctx.eng = s.ctx.eng := rfl
@[simp] theorem State.retire_ctx_flow (s : State) (n : Nat) :
    (s.retire n).ctx.flow = { s.ctx.flow with status := .running, waitStart := none, waitOn := none, waitWord := none } := rfl

/-! #### `State.wait` -/

@[simp] theorem State.wait_others (s : State)  : (s.wait).others = s.others := rfl
@[simp] theorem State.wait_mem (s : State)  : (s.wait).mem = s.mem := rfl
@[simp] theorem State.wait_dev (s : State)  : (s.wait).dev = s.dev := rfl
@[simp] theorem State.wait_agenda (s : State)  : (s.wait).agenda = s.agenda := rfl
@[simp] theorem State.wait_tick (s : State)  : (s.wait).tick = s.tick := rfl
@[simp] theorem State.wait_ctx_place (s : State)  : (s.wait).ctx.place = s.ctx.place := rfl
@[simp] theorem State.wait_ctx_origin (s : State)  : (s.wait).ctx.origin = s.ctx.origin := rfl
@[simp] theorem State.wait_ctx_pc (s : State)  : (s.wait).ctx.pc = s.ctx.pc := rfl
@[simp] theorem State.wait_ctx_regs (s : State)  : (s.wait).ctx.regs = s.ctx.regs := rfl
@[simp] theorem State.wait_ctx_trap (s : State)  : (s.wait).ctx.trap = s.ctx.trap := rfl
@[simp] theorem State.wait_ctx_vec (s : State)  : (s.wait).ctx.vec = s.ctx.vec := rfl
@[simp] theorem State.wait_ctx_front (s : State)  : (s.wait).ctx.front = s.ctx.front := rfl
@[simp] theorem State.wait_ctx_eng (s : State)  : (s.wait).ctx.eng = s.ctx.eng := rfl
@[simp] theorem State.wait_ctx_flow (s : State)  : (s.wait).ctx.flow = { s.ctx.flow with status := .waiting } := rfl

/-! #### `State.setVec` -/

@[simp] theorem State.setVec_others (s : State) (f : VecState → VecState) : (s.setVec f).others = s.others := rfl
@[simp] theorem State.setVec_mem (s : State) (f : VecState → VecState) : (s.setVec f).mem = s.mem := rfl
@[simp] theorem State.setVec_dev (s : State) (f : VecState → VecState) : (s.setVec f).dev = s.dev := rfl
@[simp] theorem State.setVec_agenda (s : State) (f : VecState → VecState) : (s.setVec f).agenda = s.agenda := rfl
@[simp] theorem State.setVec_tick (s : State) (f : VecState → VecState) : (s.setVec f).tick = s.tick := rfl
@[simp] theorem State.setVec_ctx_place (s : State) (f : VecState → VecState) :
    (s.setVec f).ctx.place = s.ctx.place := rfl
@[simp] theorem State.setVec_ctx_origin (s : State) (f : VecState → VecState) :
    (s.setVec f).ctx.origin = s.ctx.origin := rfl
@[simp] theorem State.setVec_ctx_pc (s : State) (f : VecState → VecState) : (s.setVec f).ctx.pc = s.ctx.pc := rfl
@[simp] theorem State.setVec_ctx_regs (s : State) (f : VecState → VecState) :
    (s.setVec f).ctx.regs = s.ctx.regs := rfl
@[simp] theorem State.setVec_ctx_trap (s : State) (f : VecState → VecState) :
    (s.setVec f).ctx.trap = s.ctx.trap := rfl
@[simp] theorem State.setVec_ctx_vec (s : State) (f : VecState → VecState) : (s.setVec f).ctx.vec = f s.ctx.vec := rfl
@[simp] theorem State.setVec_ctx_front (s : State) (f : VecState → VecState) : (s.setVec f).ctx.front = s.ctx.front := rfl
@[simp] theorem State.setVec_ctx_eng (s : State) (f : VecState → VecState) : (s.setVec f).ctx.eng = s.ctx.eng := rfl
@[simp] theorem State.setVec_ctx_flow (s : State) (f : VecState → VecState) :
    (s.setVec f).ctx.flow = s.ctx.flow := rfl

/-! #### `State.setFlow` -/

@[simp] theorem State.setFlow_others (s : State) (f : Flow → Flow) : (s.setFlow f).others = s.others := rfl
@[simp] theorem State.setFlow_mem (s : State) (f : Flow → Flow) : (s.setFlow f).mem = s.mem := rfl
@[simp] theorem State.setFlow_dev (s : State) (f : Flow → Flow) : (s.setFlow f).dev = s.dev := rfl
@[simp] theorem State.setFlow_agenda (s : State) (f : Flow → Flow) : (s.setFlow f).agenda = s.agenda := rfl
@[simp] theorem State.setFlow_tick (s : State) (f : Flow → Flow) : (s.setFlow f).tick = s.tick := rfl
@[simp] theorem State.setFlow_ctx_place (s : State) (f : Flow → Flow) : (s.setFlow f).ctx.place = s.ctx.place := rfl
@[simp] theorem State.setFlow_ctx_origin (s : State) (f : Flow → Flow) :
    (s.setFlow f).ctx.origin = s.ctx.origin := rfl
@[simp] theorem State.setFlow_ctx_pc (s : State) (f : Flow → Flow) : (s.setFlow f).ctx.pc = s.ctx.pc := rfl
@[simp] theorem State.setFlow_ctx_regs (s : State) (f : Flow → Flow) : (s.setFlow f).ctx.regs = s.ctx.regs := rfl
@[simp] theorem State.setFlow_ctx_trap (s : State) (f : Flow → Flow) : (s.setFlow f).ctx.trap = s.ctx.trap := rfl
@[simp] theorem State.setFlow_ctx_vec (s : State) (f : Flow → Flow) : (s.setFlow f).ctx.vec = s.ctx.vec := rfl
@[simp] theorem State.setFlow_ctx_front (s : State) (f : Flow → Flow) : (s.setFlow f).ctx.front = s.ctx.front := rfl
@[simp] theorem State.setFlow_ctx_eng (s : State) (f : Flow → Flow) : (s.setFlow f).ctx.eng = s.ctx.eng := rfl
@[simp] theorem State.setFlow_ctx_flow (s : State) (f : Flow → Flow) : (s.setFlow f).ctx.flow = f s.ctx.flow := rfl

/-! #### `State.setTrapRegs` -/

@[simp] theorem State.setTrapRegs_others (s : State) (f : TrapRegs → TrapRegs) :
    (s.setTrapRegs f).others = s.others := rfl
@[simp] theorem State.setTrapRegs_mem (s : State) (f : TrapRegs → TrapRegs) : (s.setTrapRegs f).mem = s.mem := rfl
@[simp] theorem State.setTrapRegs_dev (s : State) (f : TrapRegs → TrapRegs) : (s.setTrapRegs f).dev = s.dev := rfl
@[simp] theorem State.setTrapRegs_agenda (s : State) (f : TrapRegs → TrapRegs) :
    (s.setTrapRegs f).agenda = s.agenda := rfl
@[simp] theorem State.setTrapRegs_tick (s : State) (f : TrapRegs → TrapRegs) : (s.setTrapRegs f).tick = s.tick := rfl
@[simp] theorem State.setTrapRegs_ctx_place (s : State) (f : TrapRegs → TrapRegs) :
    (s.setTrapRegs f).ctx.place = s.ctx.place := rfl
@[simp] theorem State.setTrapRegs_ctx_origin (s : State) (f : TrapRegs → TrapRegs) :
    (s.setTrapRegs f).ctx.origin = s.ctx.origin := rfl
@[simp] theorem State.setTrapRegs_ctx_pc (s : State) (f : TrapRegs → TrapRegs) :
    (s.setTrapRegs f).ctx.pc = s.ctx.pc := rfl
@[simp] theorem State.setTrapRegs_ctx_regs (s : State) (f : TrapRegs → TrapRegs) :
    (s.setTrapRegs f).ctx.regs = s.ctx.regs := rfl
@[simp] theorem State.setTrapRegs_ctx_trap (s : State) (f : TrapRegs → TrapRegs) :
    (s.setTrapRegs f).ctx.trap = f s.ctx.trap := rfl
@[simp] theorem State.setTrapRegs_ctx_vec (s : State) (f : TrapRegs → TrapRegs) :
    (s.setTrapRegs f).ctx.vec = s.ctx.vec := rfl
@[simp] theorem State.setTrapRegs_ctx_front (s : State) (f : TrapRegs → TrapRegs) :
    (s.setTrapRegs f).ctx.front = s.ctx.front := rfl
@[simp] theorem State.setTrapRegs_ctx_eng (s : State) (f : TrapRegs → TrapRegs) :
    (s.setTrapRegs f).ctx.eng = s.ctx.eng := rfl
@[simp] theorem State.setTrapRegs_ctx_flow (s : State) (f : TrapRegs → TrapRegs) :
    (s.setTrapRegs f).ctx.flow = s.ctx.flow := rfl

/-! #### `State.setReg` -/

@[simp] theorem State.setReg_others (s : State) (r : Reg) (v : Word) :
    (s.setReg r v).others = s.others := by unfold State.setReg; split <;> rfl
@[simp] theorem State.setReg_mem (s : State) (r : Reg) (v : Word) :
    (s.setReg r v).mem = s.mem := by unfold State.setReg; split <;> rfl
@[simp] theorem State.setReg_dev (s : State) (r : Reg) (v : Word) :
    (s.setReg r v).dev = s.dev := by unfold State.setReg; split <;> rfl
@[simp] theorem State.setReg_agenda (s : State) (r : Reg) (v : Word) :
    (s.setReg r v).agenda = s.agenda := by unfold State.setReg; split <;> rfl
@[simp] theorem State.setReg_tick (s : State) (r : Reg) (v : Word) :
    (s.setReg r v).tick = s.tick := by unfold State.setReg; split <;> rfl
@[simp] theorem State.setReg_ctx_place (s : State) (r : Reg) (v : Word) :
    (s.setReg r v).ctx.place = s.ctx.place := by unfold State.setReg; split <;> rfl
@[simp] theorem State.setReg_ctx_origin (s : State) (r : Reg) (v : Word) :
    (s.setReg r v).ctx.origin = s.ctx.origin := by unfold State.setReg; split <;> rfl
@[simp] theorem State.setReg_ctx_pc (s : State) (r : Reg) (v : Word) :
    (s.setReg r v).ctx.pc = s.ctx.pc := by unfold State.setReg; split <;> rfl
@[simp] theorem State.setReg_ctx_trap (s : State) (r : Reg) (v : Word) :
    (s.setReg r v).ctx.trap = s.ctx.trap := by unfold State.setReg; split <;> rfl
@[simp] theorem State.setReg_ctx_vec (s : State) (r : Reg) (v : Word) :
    (s.setReg r v).ctx.vec = s.ctx.vec := by unfold State.setReg; split <;> rfl
@[simp] theorem State.setReg_ctx_front (s : State) (r : Reg) (v : Word) :
    (s.setReg r v).ctx.front = s.ctx.front := by unfold State.setReg; split <;> rfl
@[simp] theorem State.setReg_ctx_eng (s : State) (r : Reg) (v : Word) :
    (s.setReg r v).ctx.eng = s.ctx.eng := by unfold State.setReg; split <;> rfl
@[simp] theorem State.setReg_ctx_flow (s : State) (r : Reg) (v : Word) :
    (s.setReg r v).ctx.flow = s.ctx.flow := by unfold State.setReg; split <;> rfl

/-! #### `State.setSched` -/

@[simp] theorem State.setSched_ctx (s : State) (f : Sched → Sched) : (s.setSched f).ctx = s.ctx := rfl
@[simp] theorem State.setSched_others (s : State) (f : Sched → Sched) : (s.setSched f).others = s.others := rfl
@[simp] theorem State.setSched_mem (s : State) (f : Sched → Sched) : (s.setSched f).mem = s.mem := rfl
@[simp] theorem State.setSched_agenda (s : State) (f : Sched → Sched) : (s.setSched f).agenda = s.agenda := rfl
@[simp] theorem State.setSched_tick (s : State) (f : Sched → Sched) : (s.setSched f).tick = s.tick := rfl
@[simp] theorem State.setSched_dev_clock (s : State) (f : Sched → Sched) :
    (s.setSched f).dev.clock = s.dev.clock := rfl
@[simp] theorem State.setSched_dev_cores (s : State) (f : Sched → Sched) :
    (s.setSched f).dev.cores = s.dev.cores := rfl
@[simp] theorem State.setSched_dev_msu (s : State) (f : Sched → Sched) : (s.setSched f).dev.msu = s.dev.msu := rfl
@[simp] theorem State.setSched_dev_ring (s : State) (f : Sched → Sched) : (s.setSched f).dev.ring = s.dev.ring := rfl
@[simp] theorem State.setSched_dev_tlb (s : State) (f : Sched → Sched) : (s.setSched f).dev.tlb = s.dev.tlb := rfl
@[simp] theorem State.setSched_dev_sched (s : State) (f : Sched → Sched) :
    (s.setSched f).dev.sched = f s.dev.sched := rfl
@[simp] theorem State.setSched_dev_engines (s : State) (f : Sched → Sched) :
    (s.setSched f).dev.engines = s.dev.engines := rfl
@[simp] theorem State.setSched_dev_power (s : State) (f : Sched → Sched) :
    (s.setSched f).dev.power = s.dev.power := rfl
@[simp] theorem State.setSched_dev_fabric (s : State) (f : Sched → Sched) :
    (s.setSched f).dev.fabric = s.dev.fabric := rfl
@[simp] theorem State.setSched_dev_host (s : State) (f : Sched → Sched) : (s.setSched f).dev.host = s.dev.host := rfl
@[simp] theorem State.setSched_dev_start (s : State) (f : Sched → Sched) :
    (s.setSched f).dev.start = s.dev.start := rfl

/-! #### `State.setRing` -/

@[simp] theorem State.setRing_ctx (s : State) (f : Ring → Ring) : (s.setRing f).ctx = s.ctx := rfl
@[simp] theorem State.setRing_others (s : State) (f : Ring → Ring) : (s.setRing f).others = s.others := rfl
@[simp] theorem State.setRing_mem (s : State) (f : Ring → Ring) : (s.setRing f).mem = s.mem := rfl
@[simp] theorem State.setRing_agenda (s : State) (f : Ring → Ring) : (s.setRing f).agenda = s.agenda := rfl
@[simp] theorem State.setRing_tick (s : State) (f : Ring → Ring) : (s.setRing f).tick = s.tick := rfl
@[simp] theorem State.setRing_dev_clock (s : State) (f : Ring → Ring) : (s.setRing f).dev.clock = s.dev.clock := rfl
@[simp] theorem State.setRing_dev_cores (s : State) (f : Ring → Ring) : (s.setRing f).dev.cores = s.dev.cores := rfl
@[simp] theorem State.setRing_dev_msu (s : State) (f : Ring → Ring) : (s.setRing f).dev.msu = s.dev.msu := rfl
@[simp] theorem State.setRing_dev_ring (s : State) (f : Ring → Ring) : (s.setRing f).dev.ring = f s.dev.ring := rfl
@[simp] theorem State.setRing_dev_tlb (s : State) (f : Ring → Ring) : (s.setRing f).dev.tlb = s.dev.tlb := rfl
@[simp] theorem State.setRing_dev_sched (s : State) (f : Ring → Ring) : (s.setRing f).dev.sched = s.dev.sched := rfl
@[simp] theorem State.setRing_dev_engines (s : State) (f : Ring → Ring) :
    (s.setRing f).dev.engines = s.dev.engines := rfl
@[simp] theorem State.setRing_dev_power (s : State) (f : Ring → Ring) : (s.setRing f).dev.power = s.dev.power := rfl
@[simp] theorem State.setRing_dev_fabric (s : State) (f : Ring → Ring) :
    (s.setRing f).dev.fabric = s.dev.fabric := rfl
@[simp] theorem State.setRing_dev_host (s : State) (f : Ring → Ring) : (s.setRing f).dev.host = s.dev.host := rfl
@[simp] theorem State.setRing_dev_start (s : State) (f : Ring → Ring) : (s.setRing f).dev.start = s.dev.start := rfl

/-! #### `State.setPower` -/

@[simp] theorem State.setPower_ctx (s : State) (f : Power → Power) : (s.setPower f).ctx = s.ctx := rfl
@[simp] theorem State.setPower_others (s : State) (f : Power → Power) : (s.setPower f).others = s.others := rfl
@[simp] theorem State.setPower_mem (s : State) (f : Power → Power) : (s.setPower f).mem = s.mem := rfl
@[simp] theorem State.setPower_agenda (s : State) (f : Power → Power) : (s.setPower f).agenda = s.agenda := rfl
@[simp] theorem State.setPower_tick (s : State) (f : Power → Power) : (s.setPower f).tick = s.tick := rfl
@[simp] theorem State.setPower_dev_clock (s : State) (f : Power → Power) :
    (s.setPower f).dev.clock = s.dev.clock := rfl
@[simp] theorem State.setPower_dev_cores (s : State) (f : Power → Power) :
    (s.setPower f).dev.cores = s.dev.cores := rfl
@[simp] theorem State.setPower_dev_msu (s : State) (f : Power → Power) : (s.setPower f).dev.msu = s.dev.msu := rfl
@[simp] theorem State.setPower_dev_ring (s : State) (f : Power → Power) : (s.setPower f).dev.ring = s.dev.ring := rfl
@[simp] theorem State.setPower_dev_tlb (s : State) (f : Power → Power) : (s.setPower f).dev.tlb = s.dev.tlb := rfl
@[simp] theorem State.setPower_dev_sched (s : State) (f : Power → Power) :
    (s.setPower f).dev.sched = s.dev.sched := rfl
@[simp] theorem State.setPower_dev_engines (s : State) (f : Power → Power) :
    (s.setPower f).dev.engines = s.dev.engines := rfl
@[simp] theorem State.setPower_dev_power (s : State) (f : Power → Power) :
    (s.setPower f).dev.power = f s.dev.power := rfl
@[simp] theorem State.setPower_dev_fabric (s : State) (f : Power → Power) :
    (s.setPower f).dev.fabric = s.dev.fabric := rfl
@[simp] theorem State.setPower_dev_host (s : State) (f : Power → Power) : (s.setPower f).dev.host = s.dev.host := rfl
@[simp] theorem State.setPower_dev_start (s : State) (f : Power → Power) :
    (s.setPower f).dev.start = s.dev.start := rfl

/-! #### `State.hold` -/

@[simp] theorem State.hold_ctx (s : State) (ch : Nat) (r : Option Nat) : (s.hold ch r).ctx = s.ctx := rfl
@[simp] theorem State.hold_others (s : State) (ch : Nat) (r : Option Nat) : (s.hold ch r).others = s.others := rfl
@[simp] theorem State.hold_mem (s : State) (ch : Nat) (r : Option Nat) : (s.hold ch r).mem = s.mem := rfl
@[simp] theorem State.hold_agenda (s : State) (ch : Nat) (r : Option Nat) : (s.hold ch r).agenda = s.agenda := rfl
@[simp] theorem State.hold_tick (s : State) (ch : Nat) (r : Option Nat) : (s.hold ch r).tick = s.tick := rfl
@[simp] theorem State.hold_msu (s : State) (ch : Nat) (r : Option Nat) : (s.hold ch r).dev.msu = { s.dev.msu with
    holds := s.dev.msu.holds ++ [⟨ch, r, s.nowNs + Config.freeHold s.tick ch⟩] } := rfl

/-! #### `State.setMsu` -/

@[simp] theorem State.setMsu_ctx (s : State) (f : Msu → Msu) : (s.setMsu f).ctx = s.ctx := rfl
@[simp] theorem State.setMsu_others (s : State) (f : Msu → Msu) : (s.setMsu f).others = s.others := rfl
@[simp] theorem State.setMsu_mem (s : State) (f : Msu → Msu) : (s.setMsu f).mem = s.mem := rfl
@[simp] theorem State.setMsu_agenda (s : State) (f : Msu → Msu) : (s.setMsu f).agenda = s.agenda := rfl
@[simp] theorem State.setMsu_tick (s : State) (f : Msu → Msu) : (s.setMsu f).tick = s.tick := rfl
@[simp] theorem State.setMsu_dev_clock (s : State) (f : Msu → Msu) : (s.setMsu f).dev.clock = s.dev.clock := rfl
@[simp] theorem State.setMsu_dev_cores (s : State) (f : Msu → Msu) : (s.setMsu f).dev.cores = s.dev.cores := rfl
@[simp] theorem State.setMsu_dev_msu (s : State) (f : Msu → Msu) : (s.setMsu f).dev.msu = f s.dev.msu := rfl
@[simp] theorem State.setMsu_dev_ring (s : State) (f : Msu → Msu) : (s.setMsu f).dev.ring = s.dev.ring := rfl
@[simp] theorem State.setMsu_dev_tlb (s : State) (f : Msu → Msu) : (s.setMsu f).dev.tlb = s.dev.tlb := rfl
@[simp] theorem State.setMsu_dev_sched (s : State) (f : Msu → Msu) : (s.setMsu f).dev.sched = s.dev.sched := rfl
@[simp] theorem State.setMsu_dev_engines (s : State) (f : Msu → Msu) : (s.setMsu f).dev.engines = s.dev.engines := rfl
@[simp] theorem State.setMsu_dev_power (s : State) (f : Msu → Msu) : (s.setMsu f).dev.power = s.dev.power := rfl
@[simp] theorem State.setMsu_dev_fabric (s : State) (f : Msu → Msu) : (s.setMsu f).dev.fabric = s.dev.fabric := rfl
@[simp] theorem State.setMsu_dev_host (s : State) (f : Msu → Msu) : (s.setMsu f).dev.host = s.dev.host := rfl
@[simp] theorem State.setMsu_dev_start (s : State) (f : Msu → Msu) : (s.setMsu f).dev.start = s.dev.start := rfl

/-! #### `State.setFabric` -/

@[simp] theorem State.setFabric_ctx (s : State) (f : Fabric → Fabric) : (s.setFabric f).ctx = s.ctx := rfl
@[simp] theorem State.setFabric_others (s : State) (f : Fabric → Fabric) : (s.setFabric f).others = s.others := rfl
@[simp] theorem State.setFabric_mem (s : State) (f : Fabric → Fabric) : (s.setFabric f).mem = s.mem := rfl
@[simp] theorem State.setFabric_agenda (s : State) (f : Fabric → Fabric) : (s.setFabric f).agenda = s.agenda := rfl
@[simp] theorem State.setFabric_tick (s : State) (f : Fabric → Fabric) : (s.setFabric f).tick = s.tick := rfl
@[simp] theorem State.setFabric_dev_clock (s : State) (f : Fabric → Fabric) :
    (s.setFabric f).dev.clock = s.dev.clock := rfl
@[simp] theorem State.setFabric_dev_cores (s : State) (f : Fabric → Fabric) :
    (s.setFabric f).dev.cores = s.dev.cores := rfl
@[simp] theorem State.setFabric_dev_msu (s : State) (f : Fabric → Fabric) : (s.setFabric f).dev.msu = s.dev.msu := rfl
@[simp] theorem State.setFabric_dev_ring (s : State) (f : Fabric → Fabric) :
    (s.setFabric f).dev.ring = s.dev.ring := rfl
@[simp] theorem State.setFabric_dev_tlb (s : State) (f : Fabric → Fabric) : (s.setFabric f).dev.tlb = s.dev.tlb := rfl
@[simp] theorem State.setFabric_dev_sched (s : State) (f : Fabric → Fabric) :
    (s.setFabric f).dev.sched = s.dev.sched := rfl
@[simp] theorem State.setFabric_dev_engines (s : State) (f : Fabric → Fabric) :
    (s.setFabric f).dev.engines = s.dev.engines := rfl
@[simp] theorem State.setFabric_dev_power (s : State) (f : Fabric → Fabric) :
    (s.setFabric f).dev.power = s.dev.power := rfl
@[simp] theorem State.setFabric_dev_fabric (s : State) (f : Fabric → Fabric) :
    (s.setFabric f).dev.fabric = f s.dev.fabric := rfl
@[simp] theorem State.setFabric_dev_host (s : State) (f : Fabric → Fabric) :
    (s.setFabric f).dev.host = s.dev.host := rfl
@[simp] theorem State.setFabric_dev_start (s : State) (f : Fabric → Fabric) :
    (s.setFabric f).dev.start = s.dev.start := rfl

/-! #### `State.setHost` -/

@[simp] theorem State.setHost_ctx (s : State) (f : HostSide → HostSide) : (s.setHost f).ctx = s.ctx := rfl
@[simp] theorem State.setHost_others (s : State) (f : HostSide → HostSide) : (s.setHost f).others = s.others := rfl
@[simp] theorem State.setHost_mem (s : State) (f : HostSide → HostSide) : (s.setHost f).mem = s.mem := rfl
@[simp] theorem State.setHost_agenda (s : State) (f : HostSide → HostSide) : (s.setHost f).agenda = s.agenda := rfl
@[simp] theorem State.setHost_tick (s : State) (f : HostSide → HostSide) : (s.setHost f).tick = s.tick := rfl
@[simp] theorem State.setHost_dev_clock (s : State) (f : HostSide → HostSide) :
    (s.setHost f).dev.clock = s.dev.clock := rfl
@[simp] theorem State.setHost_dev_cores (s : State) (f : HostSide → HostSide) :
    (s.setHost f).dev.cores = s.dev.cores := rfl
@[simp] theorem State.setHost_dev_msu (s : State) (f : HostSide → HostSide) : (s.setHost f).dev.msu = s.dev.msu := rfl
@[simp] theorem State.setHost_dev_ring (s : State) (f : HostSide → HostSide) :
    (s.setHost f).dev.ring = s.dev.ring := rfl
@[simp] theorem State.setHost_dev_tlb (s : State) (f : HostSide → HostSide) : (s.setHost f).dev.tlb = s.dev.tlb := rfl
@[simp] theorem State.setHost_dev_sched (s : State) (f : HostSide → HostSide) :
    (s.setHost f).dev.sched = s.dev.sched := rfl
@[simp] theorem State.setHost_dev_engines (s : State) (f : HostSide → HostSide) :
    (s.setHost f).dev.engines = s.dev.engines := rfl
@[simp] theorem State.setHost_dev_power (s : State) (f : HostSide → HostSide) :
    (s.setHost f).dev.power = s.dev.power := rfl
@[simp] theorem State.setHost_dev_fabric (s : State) (f : HostSide → HostSide) :
    (s.setHost f).dev.fabric = s.dev.fabric := rfl
@[simp] theorem State.setHost_dev_host (s : State) (f : HostSide → HostSide) :
    (s.setHost f).dev.host = f s.dev.host := rfl
@[simp] theorem State.setHost_dev_start (s : State) (f : HostSide → HostSide) :
    (s.setHost f).dev.start = s.dev.start := rfl

end Sys2Proof.Machine
end

