-- ==== Sys2Proof/Laws/Traffic.lean ====
section
/-! SUPPORT. What the requests of an access at the MSUs and its headers change: nothing but what is under way. -/

namespace Sys2Proof.Machine

/-- `t` is `s` but for requests, open rows and budgets of the MSUs and the count of the bytes that launches have moved. -/
def Traffic (s t : State) : Prop :=
  ∃ rows queue budgets moved, t = { s with dev := { s.dev with msu :=
    { s.dev.msu with openRows := rows, queue := queue, budgets := budgets, moved := moved } } }

theorem Traffic.refl (s : State) : Traffic s s := ⟨_, _, _, _, rfl⟩

theorem Traffic.trans {s t u : State} (h : Traffic s t) (k : Traffic t u) : Traffic s u := by
  obtain ⟨_, _, _, _, rfl⟩ := h
  obtain ⟨_, _, _, _, rfl⟩ := k
  exact ⟨_, _, _, _, rfl⟩

theorem Traffic.foldl {α : Type} {f : State → α → State} (h : ∀ s a, Traffic s (f s a)) (xs : List α) (s : State) :
    Traffic s (xs.foldl f s) := by
  induction xs generalizing s with
  | nil => exact .refl s
  | cons x xs ih => exact (h s x).trans (ih _)

theorem State.request_traffic (s : State) (loc n : Nat) : Traffic s (s.request loc n) := by
  unfold State.request
  split
  · exact .refl s
  · dsimp only
    split
    · exact .refl s
    · split <;> exact ⟨_, _, _, _, rfl⟩

theorem State.readTraffic_traffic (s : State) (spans : List (Nat × Nat)) : Traffic s (s.readTraffic spans) :=
  .foldl (fun s p => by split; exacts [.refl s, s.request_traffic _ _]) _ s

theorem State.writeTraffic_traffic (s : State) (puts : List Put) : Traffic s (s.writeTraffic puts) :=
  .foldl (fun s p => by split; exacts [.refl s, s.request_traffic _ _]) _ s

theorem State.credit_traffic (s : State) (j t n : Nat) : Traffic s (s.credit j t n) := by
  unfold State.credit
  split
  · exact .refl s
  · exact ⟨_, _, _, _, rfl⟩

theorem State.readFor_traffic (s : State) (j t : Nat) (ps : List (Nat × Nat)) : Traffic s (s.readFor j t ps) :=
  (s.readTraffic_traffic ps).trans (State.credit_traffic ..)

theorem State.walkTraffic_traffic (s : State) (sp : Space) (va : Word) : Traffic s (s.walkTraffic sp va) :=
  s.readTraffic_traffic _

namespace Traffic

variable {s t : State} (h : Traffic s t)
include h

theorem ctx : t.ctx = s.ctx := by obtain ⟨_, _, _, _, rfl⟩ := h; rfl
theorem others : t.others = s.others := by obtain ⟨_, _, _, _, rfl⟩ := h; rfl
theorem mem : t.mem = s.mem := by obtain ⟨_, _, _, _, rfl⟩ := h; rfl
theorem agenda : t.agenda = s.agenda := by obtain ⟨_, _, _, _, rfl⟩ := h; rfl
theorem tick : t.tick = s.tick := by obtain ⟨_, _, _, _, rfl⟩ := h; rfl
theorem dev : t.dev = { s.dev with msu := { s.dev.msu with
    openRows := t.dev.msu.openRows, queue := t.dev.msu.queue, budgets := t.dev.msu.budgets
    moved := t.dev.msu.moved } } := by
  obtain ⟨_, _, _, _, rfl⟩ := h; rfl
theorem settled : t.dev.settled s.dev = s.dev := by obtain ⟨_, _, _, _, rfl⟩ := h; rfl
theorem sched : t.dev.sched = s.dev.sched := by obtain ⟨_, _, _, _, rfl⟩ := h; rfl
theorem cores : t.dev.cores = s.dev.cores := by obtain ⟨_, _, _, _, rfl⟩ := h; rfl
theorem fenced : t.dev.msu.fenced = s.dev.msu.fenced := by obtain ⟨_, _, _, _, rfl⟩ := h; rfl

end Traffic

@[simp] theorem State.readTraffic_ctx (s : State) (ps : List (Nat × Nat)) : (s.readTraffic ps).ctx = s.ctx :=
  (s.readTraffic_traffic ps).ctx
@[simp] theorem State.readTraffic_others (s : State) (ps : List (Nat × Nat)) : (s.readTraffic ps).others = s.others :=
  (s.readTraffic_traffic ps).others
@[simp] theorem State.readTraffic_mem (s : State) (ps : List (Nat × Nat)) : (s.readTraffic ps).mem = s.mem :=
  (s.readTraffic_traffic ps).mem
@[simp] theorem State.readTraffic_agenda (s : State) (ps : List (Nat × Nat)) : (s.readTraffic ps).agenda = s.agenda :=
  (s.readTraffic_traffic ps).agenda
@[simp] theorem State.readTraffic_tick (s : State) (ps : List (Nat × Nat)) : (s.readTraffic ps).tick = s.tick :=
  (s.readTraffic_traffic ps).tick

@[simp] theorem State.readFor_ctx (s : State) (j t : Nat) (ps : List (Nat × Nat)) : (s.readFor j t ps).ctx = s.ctx :=
  (s.readFor_traffic j t ps).ctx
@[simp] theorem State.readFor_others (s : State) (j t : Nat) (ps : List (Nat × Nat)) :
    (s.readFor j t ps).others = s.others := (s.readFor_traffic j t ps).others
@[simp] theorem State.readFor_mem (s : State) (j t : Nat) (ps : List (Nat × Nat)) : (s.readFor j t ps).mem = s.mem :=
  (s.readFor_traffic j t ps).mem
@[simp] theorem State.readFor_agenda (s : State) (j t : Nat) (ps : List (Nat × Nat)) :
    (s.readFor j t ps).agenda = s.agenda := (s.readFor_traffic j t ps).agenda
@[simp] theorem State.readFor_tick (s : State) (j t : Nat) (ps : List (Nat × Nat)) : (s.readFor j t ps).tick = s.tick :=
  (s.readFor_traffic j t ps).tick

/-! ### Headers (R320-R324) -/

@[simp] theorem State.send_others (s : State) (ds : List Packet) : (s.send ds).others = s.others := rfl
@[simp] theorem State.send_mem (s : State) (ds : List Packet) : (s.send ds).mem = s.mem := rfl
@[simp] theorem State.send_agenda (s : State) (ds : List Packet) : (s.send ds).agenda = s.agenda := rfl
@[simp] theorem State.send_tick (s : State) (ds : List Packet) : (s.send ds).tick = s.tick := rfl

/-- Headers take of the context request slots, or wait for one, and change nothing else of it. -/
theorem State.send_ctx (s : State) (ds : List Packet) : (s.send ds).ctx = { s.ctx with flow := { s.ctx.flow with
    slots := (s.send ds).ctx.flow.slots, owed := (s.send ds).ctx.flow.owed } } := rfl

/-- Headers change of the device the fabric, and nothing else. -/
theorem State.send_dev (s : State) (ds : List Packet) :
    (s.send ds).dev = { s.dev with fabric := (s.send ds).dev.fabric } := rfl

/-- The last headers of an access take of the context request slots, and change nothing else of it. -/
theorem State.sendRest_ctx (s : State) (ds : List Packet) : (s.sendRest ds).ctx = { s.ctx with flow := { s.ctx.flow with
    slots := (s.sendRest ds).ctx.flow.slots, owed := (s.sendRest ds).ctx.flow.owed, sent := 0 } } := rfl

@[simp] theorem State.sendRest_others (s : State) (ds : List Packet) : (s.sendRest ds).others = s.others := rfl
@[simp] theorem State.sendRest_mem (s : State) (ds : List Packet) : (s.sendRest ds).mem = s.mem := rfl
@[simp] theorem State.sendRest_agenda (s : State) (ds : List Packet) : (s.sendRest ds).agenda = s.agenda := rfl
@[simp] theorem State.sendRest_tick (s : State) (ds : List Packet) : (s.sendRest ds).tick = s.tick := rfl

/-- So do the first headers of one that goes on waiting. -/
theorem State.sendSome_ctx (s : State) (ds : List Packet) : (s.sendSome ds).ctx = { s.ctx with flow := { s.ctx.flow with
    slots := (s.sendSome ds).ctx.flow.slots, owed := (s.sendSome ds).ctx.flow.owed
    sent := (s.sendSome ds).ctx.flow.sent } } := rfl

@[simp] theorem State.sendSome_others (s : State) (ds : List Packet) : (s.sendSome ds).others = s.others := rfl
@[simp] theorem State.sendSome_mem (s : State) (ds : List Packet) : (s.sendSome ds).mem = s.mem := rfl

/-- An access waits in the memory pipe exactly while fewer request slots are free than headers of it are left (R324). -/
theorem State.pipeWaits_iff (s : State) (ds : List Packet) : s.pipeWaits ds = true ↔ s.headersWait ds := by
  simp [State.pipeWaits, State.headersWait, State.unsent]

theorem State.inPipe_of_wait {s : State} {ds : List Packet} (h : s.headersWait ds) (k : Except Stop State) :
    s.inPipe ds k = .error (.headers ds) := if_pos ((s.pipeWaits_iff ds).2 h)

theorem State.inPipe_of_room {s : State} {ds : List Packet} (h : ¬ s.headersWait ds) (k : Except Stop State) :
    s.inPipe ds k = k := if_neg fun e => h ((s.pipeWaits_iff ds).1 e)

end Sys2Proof.Machine
end

