-- ==== Sys2Proof/Laws/Traps.lean ====
section
/-! SUPPORT. What a store, the release of the store buffer, taking a trap and parking change. -/

namespace Sys2Proof.Machine

/-! ### Changes of one task -/

@[simp] theorem State.onTask_ctx (s : State) (j t : Nat) (f : Task → Task) : (s.onTask j t f).ctx = s.ctx := rfl
@[simp] theorem State.onTask_others (s : State) (j t : Nat) (f : Task → Task) : (s.onTask j t f).others = s.others := rfl
@[simp] theorem State.onTask_mem (s : State) (j t : Nat) (f : Task → Task) : (s.onTask j t f).mem = s.mem := rfl
@[simp] theorem State.onTask_agenda (s : State) (j t : Nat) (f : Task → Task) : (s.onTask j t f).agenda = s.agenda := rfl
@[simp] theorem State.onTask_tick (s : State) (j t : Nat) (f : Task → Task) : (s.onTask j t f).tick = s.tick := rfl

/-! ### A store (R29, R246, R278) -/

@[simp] theorem State.store_ctx (s : State) (j t : Nat) (ps : List Put) : (s.store j t ps).ctx = s.ctx := by
  unfold State.store; dsimp only; split <;> rfl
@[simp] theorem State.store_others (s : State) (j t : Nat) (ps : List Put) : (s.store j t ps).others = s.others := by
  unfold State.store; dsimp only; split <;> rfl
@[simp] theorem State.store_agenda (s : State) (j t : Nat) (ps : List Put) : (s.store j t ps).agenda = s.agenda := by
  unfold State.store; dsimp only; split <;> rfl
@[simp] theorem State.store_tick (s : State) (j t : Nat) (ps : List Put) : (s.store j t ps).tick = s.tick := by
  unfold State.store; dsimp only; split <;> rfl

/-- The memory after a store: the bytes that go to no fenced channel, and the marks that the others leave. -/
theorem State.store_mem (s : State) (j t : Nat) (ps : List Put) :
    (s.store j t ps).mem = (ps.filter fun p => s.dev.fencedAt p.loc).foldl (fun m p => m.mark p.loc)
      (s.mem.store (ps.filter fun p => !s.dev.fencedAt p.loc)) := by
  have hk : (if (ps.filter fun p => s.dev.fencedAt p.loc) = [] then ps else ps.filter fun p => !s.dev.fencedAt p.loc) =
      ps.filter fun p => !s.dev.fencedAt p.loc := by
    split
    · rename_i h
      rw [List.filter_eq_nil_iff] at h
      exact (List.filter_eq_self.2 fun p hp => by simpa using h p hp).symm
    · rfl
  unfold State.store
  dsimp only
  rw [hk]
  split <;> rfl

/-- A store changes of the device the digest of its launch, and nothing else. -/
theorem State.store_dev (s : State) (j t : Nat) (ps : List Put) :
    (s.store j t ps).dev = { s.dev with sched := { s.dev.sched with tasks := s.digested j t ps } } := by
  unfold State.store State.digested
  dsimp only
  split
  · next h => simp [h]
  · next h => simp [h, State.onTask]

theorem State.store_wf {s : State} (h : s.mem.wf) (j t : Nat) (ps : List Put) : (s.store j t ps).mem.wf := by
  rw [State.store_mem]
  exact Memory.wf_foldl_mark (Memory.wf_store h _) _ _

/-- A store leaves every location alone that it does not name. -/
theorem State.read_store_outside (s : State) (j t : Nat) {ps : List Put} {a : Nat} (h : ∀ p ∈ ps, p.loc ≠ a) :
    (s.store j t ps).mem.read a = s.mem.read a := by
  rw [State.store_mem, Memory.read_foldl_mark]
  exact Memory.read_store_outside _ fun p hp => h p (List.mem_of_mem_filter hp)

/-- A location that a store names, always with the same byte and on no fenced channel, holds that byte. -/
theorem State.read_store_agree {s : State} (h : s.mem.wf) (j t : Nat) {ps : List Put} {p : Put} (hp : p ∈ ps)
    (hf : s.dev.fencedAt p.loc = false) (ha : ∀ q ∈ ps, q.loc = p.loc → q.byte = p.byte) :
    (s.store j t ps).mem.read p.loc = p.byte := by
  rw [State.store_mem, Memory.read_foldl_mark]
  exact Memory.read_store_agree h (List.mem_filter.2 ⟨hp, by simp [hf]⟩)
    fun q hq => ha q (List.mem_of_mem_filter hq)

/-- A location on a fenced channel keeps its byte (R278). -/
theorem State.read_store_fenced (s : State) (j t : Nat) {ps : List Put} {a : Nat} (hf : s.dev.fencedAt a = true) :
    (s.store j t ps).mem.read a = s.mem.read a := by
  rw [State.store_mem, Memory.read_foldl_mark]
  refine Memory.read_store_outside _ fun p hp e => ?_
  have := List.of_mem_filter hp
  simp_all

/-- The memory after a store rests on memory and on which channels are fenced. -/
theorem State.store_mem_congr {s t : State} (hm : t.mem = s.mem) (hf : t.dev.msu.fenced = s.dev.msu.fenced)
    (j k j' k' : Nat) (ps : List Put) : (t.store j k ps).mem = (s.store j' k' ps).mem := by
  have he : t.dev.fencedAt = s.dev.fencedAt := by funext a; unfold Dev.fencedAt; rw [hf]
  rw [State.store_mem, State.store_mem, hm, he]

@[simp] theorem State.store_fenced (s : State) (j t : Nat) (ps : List Put) :
    (s.store j t ps).dev.msu.fenced = s.dev.msu.fenced := by rw [State.store_dev]

/-! ### A store with its requests (R276, R280) -/

@[simp] theorem State.perform_ctx (s : State) (j t : Nat) (ps : List Put) : (s.perform j t ps).ctx = s.ctx := by
  unfold State.perform; rw [(State.credit_traffic ..).ctx, State.store_ctx, (s.writeTraffic_traffic ps).ctx]
@[simp] theorem State.perform_others (s : State) (j t : Nat) (ps : List Put) : (s.perform j t ps).others = s.others := by
  unfold State.perform; rw [(State.credit_traffic ..).others, State.store_others, (s.writeTraffic_traffic ps).others]
@[simp] theorem State.perform_agenda (s : State) (j t : Nat) (ps : List Put) : (s.perform j t ps).agenda = s.agenda := by
  unfold State.perform; rw [(State.credit_traffic ..).agenda, State.store_agenda, (s.writeTraffic_traffic ps).agenda]
@[simp] theorem State.perform_tick (s : State) (j t : Nat) (ps : List Put) : (s.perform j t ps).tick = s.tick := by
  unfold State.perform; rw [(State.credit_traffic ..).tick, State.store_tick, (s.writeTraffic_traffic ps).tick]

/-- The requests of a store change no byte. -/
theorem State.perform_mem (s : State) (j t : Nat) (ps : List Put) : (s.perform j t ps).mem = (s.store j t ps).mem :=
  (State.credit_traffic ..).mem.trans <| State.store_mem_congr (s.writeTraffic_traffic ps).mem (s.writeTraffic_traffic ps).fenced ..

/-- A store changes of the device the digest of its launch and what is under way at the MSUs, and nothing else. -/
theorem State.perform_dev (s : State) (j t : Nat) (ps : List Put) : ∃ rows queue budgets moved, (s.perform j t ps).dev =
    { s.dev with
      msu := { s.dev.msu with openRows := rows, queue := queue, budgets := budgets, moved := moved }
      sched := { s.dev.sched with tasks := s.digested j t ps } } := by
  obtain ⟨r, q, b, m, h⟩ := s.writeTraffic_traffic ps
  obtain ⟨r', q', b', m', h'⟩ := State.credit_traffic ((s.writeTraffic ps).store j t ps) j t
    (ps.filter fun p => p.loc < spadBase).length
  exact ⟨r', q', b', m', by unfold State.perform; rw [h', State.store_dev, h]; rfl⟩

theorem State.perform_wf {s : State} (h : s.mem.wf) (j t : Nat) (ps : List Put) : (s.perform j t ps).mem.wf := by
  rw [State.perform_mem]; exact State.store_wf h j t ps

/-- A store that the digest does not count changes of the device only what is under way at the MSUs, and of memory what a store
of no launch does. -/
theorem State.performPlain_traffic (s : State) (j t : Nat) (ps : List Put) :
    Traffic (s.perform 0 0 ps) (s.performPlain j t ps) := State.credit_traffic ..

@[simp] theorem State.performPlain_ctx (s : State) (j t : Nat) (ps : List Put) : (s.performPlain j t ps).ctx = s.ctx := by
  rw [(s.performPlain_traffic j t ps).ctx, State.perform_ctx]
@[simp] theorem State.performPlain_others (s : State) (j t : Nat) (ps : List Put) :
    (s.performPlain j t ps).others = s.others := by
  rw [(s.performPlain_traffic j t ps).others, State.perform_others]
@[simp] theorem State.performPlain_agenda (s : State) (j t : Nat) (ps : List Put) :
    (s.performPlain j t ps).agenda = s.agenda := by
  rw [(s.performPlain_traffic j t ps).agenda, State.perform_agenda]
@[simp] theorem State.performPlain_tick (s : State) (j t : Nat) (ps : List Put) : (s.performPlain j t ps).tick = s.tick := by
  rw [(s.performPlain_traffic j t ps).tick, State.perform_tick]
theorem State.performPlain_mem (s : State) (j t : Nat) (ps : List Put) : (s.performPlain j t ps).mem = (s.store 0 0 ps).mem := by
  rw [(s.performPlain_traffic j t ps).mem, State.perform_mem]

/-! ### A spill record (R185) -/

theorem State.spillAt_mem (s : State) (loc : Nat) : (s.spillAt loc).mem =
    if s.dev.fencedAt loc then s.mem.mark loc else s.mem.forget loc (loc + 64) s.tick := by
  unfold State.spillAt
  split
  · rfl
  · dsimp only
    rw [(s.request_traffic ..).mem, (s.request_traffic ..).tick]

/-- A spill record leaves every location outside its 64 bytes alone. -/
theorem State.read_spillAt_outside (s : State) {loc a : Nat} (h : a < loc ∨ loc + 64 ≤ a) :
    (s.spillAt loc).mem.read a = s.mem.read a := by
  rw [State.spillAt_mem]
  split
  · exact Memory.read_mark _ _ _
  · exact Memory.read_forget_outside _ h

theorem State.spillAt_wf {s : State} (h : s.mem.wf) (loc : Nat) : (s.spillAt loc).mem.wf := by
  rw [State.spillAt_mem]
  split
  · exact Memory.wf_mark h _
  · exact Memory.wf_forget h ..

/-! ### The release of the store buffer (R29) -/

/-- What releases change: of the context its request slots and what waits for them, and of the device the digest of the
launch and what is under way. -/
structure Released (s t : State) : Prop where
  ctx : t.ctx = { s.ctx with flow := { s.ctx.flow with slots := t.ctx.flow.slots, owed := t.ctx.flow.owed } }
  others : t.others = s.others
  agenda : t.agenda = s.agenda
  tick : t.tick = s.tick
  dev : ({ t.dev.settled s.dev with sched := { t.dev.sched with tasks := s.dev.sched.tasks } } : Dev) = s.dev

theorem Released.refl (s : State) : Released s s := ⟨rfl, rfl, rfl, rfl, rfl⟩

theorem Released.trans {s t u : State} (h : Released s t) (k : Released t u) : Released s u where
  ctx := by rw [k.ctx, h.ctx]
  others := k.others.trans h.others
  agenda := k.agenda.trans h.agenda
  tick := k.tick.trans h.tick
  dev := (congrArg (fun d : Dev =>
    ({ d.settled s.dev with sched := { d.sched with tasks := s.dev.sched.tasks } } : Dev)) k.dev).trans h.dev

theorem State.release_released (s : State) (b : Buffered) : Released s (s.release b) := by
  obtain ⟨r, q, bu, mo, h⟩ := s.perform_dev s.ctx.origin.job s.ctx.origin.task b.puts
  refine ⟨?_, ?_, ?_, ?_, ?_⟩ <;> unfold State.release
  · rw [State.send_ctx, State.perform_ctx]
  · simp
  · simp
  · simp
  · rw [State.send_dev, h]; rfl

theorem State.foldl_release_released (bs : List Buffered) (s : State) : Released s (bs.foldl State.release s) := by
  induction bs generalizing s with
  | nil => exact .refl s
  | cons b bs ih => exact (s.release_released b).trans (ih _)

/-- Stores of one launch, one after another. -/
def State.stores (s : State) (j t : Nat) (bs : List Buffered) : State :=
  bs.foldl (fun s b => s.store j t b.puts) s

theorem State.foldl_release_mem (j t : Nat) (bs : List Buffered) : ∀ {s u : State}, u.mem = s.mem →
    u.dev.msu.fenced = s.dev.msu.fenced → (bs.foldl State.release u).mem = (s.stores j t bs).mem := by
  induction bs with
  | nil => exact fun h _ => h
  | cons b bs ih =>
    intro s u hm hf
    refine ih (s := s.store j t b.puts) (u := u.release b) ?_ ?_
    · exact (State.perform_mem ..).trans (State.store_mem_congr hm hf ..)
    · have := congrArg (fun d : Dev => d.msu.fenced) (u.release_released b).dev
      rw [State.store_fenced, ← hf]
      exact this

/-- Releasing the buffer performs its stores in order. -/
theorem State.drain_mem (s : State) :
    s.drain.mem = (s.stores s.ctx.origin.job s.ctx.origin.task s.ctx.flow.storeBuf).mem :=
  State.foldl_release_mem _ _ _ rfl rfl

/-- What the release changes of the context: its buffer, its request slots, and what waits for them. -/
theorem State.drain_ctx (s : State) : s.drain.ctx = { s.ctx with flow := { s.ctx.flow with
    storeBuf := [], slots := s.drain.ctx.flow.slots, owed := s.drain.ctx.flow.owed } } := by
  unfold State.drain
  dsimp only
  rw [(State.foldl_release_released s.ctx.flow.storeBuf s).ctx]

@[simp] theorem State.drain_storeBuf (s : State) : s.drain.ctx.flow.storeBuf = [] := rfl
@[simp] theorem State.drain_ctx_place (s : State) : s.drain.ctx.place = s.ctx.place := by rw [State.drain_ctx]
@[simp] theorem State.drain_ctx_origin (s : State) : s.drain.ctx.origin = s.ctx.origin := by rw [State.drain_ctx]
@[simp] theorem State.drain_ctx_pc (s : State) : s.drain.ctx.pc = s.ctx.pc := by rw [State.drain_ctx]
@[simp] theorem State.drain_ctx_regs (s : State) : s.drain.ctx.regs = s.ctx.regs := by rw [State.drain_ctx]
@[simp] theorem State.drain_ctx_trap (s : State) : s.drain.ctx.trap = s.ctx.trap := by rw [State.drain_ctx]
@[simp] theorem State.drain_ctx_vec (s : State) : s.drain.ctx.vec = s.ctx.vec := by rw [State.drain_ctx]
@[simp] theorem State.drain_ctx_front (s : State) : s.drain.ctx.front = s.ctx.front := by rw [State.drain_ctx]
@[simp] theorem State.drain_ctx_eng (s : State) : s.drain.ctx.eng = s.ctx.eng := by rw [State.drain_ctx]

@[simp] theorem State.drain_queue (s : State) : s.drain.ctx.flow.queue = s.ctx.flow.queue := by rw [State.drain_ctx]

/-- A context that comes to the vector commit pointer keeps all but what the release of its stores changes, and two marks. -/
@[simp] theorem State.toPointer_queue (s : State) : s.toPointer.ctx.flow.queue = s.ctx.flow.queue := by
  unfold State.toPointer; simp

/-- The lane group takes the VCOUNT of program order, and nothing of a context but its vector state changes (R112). -/
theorem Ctx.adopt_eq (c : Ctx) (tick : Nat) : c.adopt tick = { c with vec := (c.adopt tick).vec } := by
  unfold Ctx.adopt
  split
  · rfl
  · unfold Ctx.reshape; dsimp only; split <;> rfl

@[simp] theorem Ctx.adopt_flow (c : Ctx) (tick : Nat) : (c.adopt tick).flow = c.flow := by rw [Ctx.adopt_eq]
@[simp] theorem Ctx.adopt_pc (c : Ctx) (tick : Nat) : (c.adopt tick).pc = c.pc := by rw [Ctx.adopt_eq]
@[simp] theorem Ctx.adopt_regs (c : Ctx) (tick : Nat) : (c.adopt tick).regs = c.regs := by rw [Ctx.adopt_eq]
@[simp] theorem Ctx.adopt_front (c : Ctx) (tick : Nat) : (c.adopt tick).front = c.front := by rw [Ctx.adopt_eq]
@[simp] theorem Ctx.adopt_trap (c : Ctx) (tick : Nat) : (c.adopt tick).trap = c.trap := by rw [Ctx.adopt_eq]

/-- A lane group that holds the VCOUNT of program order has nothing to take. -/
theorem Ctx.adopt_of_eq {c : Ctx} (h : c.vec.vcount = c.front.vcount) (tick : Nat) : c.adopt tick = c := if_pos (.inr h)

/-- An instruction that is about to run stands where it was fetched, with the vector queue before it. -/
@[simp] theorem State.begin_queue (s : State) (i : Instr) (ahead : Bool) :
    (s.begin i ahead).ctx.flow.queue = s.ctx.flow.queue := by
  unfold State.begin
  split
  · rfl
  · dsimp only; split <;> simp

@[simp] theorem State.drain_others (s : State) : s.drain.others = s.others :=
  (State.foldl_release_released s.ctx.flow.storeBuf s).others
@[simp] theorem State.drain_agenda (s : State) : s.drain.agenda = s.agenda :=
  (State.foldl_release_released s.ctx.flow.storeBuf s).agenda
@[simp] theorem State.drain_tick (s : State) : s.drain.tick = s.tick :=
  (State.foldl_release_released s.ctx.flow.storeBuf s).tick

/-- The release changes of the device the digest of the launch and what is under way, and nothing else. -/
theorem State.drain_dev (s : State) :
    ({ s.drain.dev.settled s.dev with sched := { s.drain.dev.sched with tasks := s.dev.sched.tasks } } : Dev) = s.dev :=
  (State.foldl_release_released s.ctx.flow.storeBuf s).dev

@[simp] theorem State.drain_core (s : State) (g : Nat) : s.drain.core g = s.core g := by
  have := congrArg Dev.cores s.drain_dev
  unfold State.core
  exact congrArg (fun cs : List Core => cs.getD g .idle) this

@[simp] theorem State.drain_reg (s : State) (r : Reg) : s.drain.reg r = s.reg r := by
  unfold State.reg; simp

/-- A buffer that holds nothing changes nothing. -/
theorem State.drain_of_empty {s : State} (h : s.ctx.flow.storeBuf = []) : s.drain = s := by
  obtain ⟨⟨_, _, _, _, _, _, _, _, f⟩, _, _, _, _, _⟩ := s
  obtain ⟨⟩ := f
  simp only at h
  subst h
  rfl

theorem State.stores_wf (j t : Nat) (bs : List Buffered) : ∀ {s : State}, s.mem.wf → (s.stores j t bs).mem.wf := by
  induction bs with
  | nil => exact fun h => h
  | cons b bs ih => exact fun h => ih (State.store_wf h j t b.puts)

theorem State.drain_wf {s : State} (h : s.mem.wf) : s.drain.mem.wf := by
  rw [State.drain_mem]
  exact State.stores_wf _ _ _ h

/-! ### Taking a trap (R301) -/

@[simp] theorem State.takeTrap_ctx (s : State) (c : Cause) (v : Word) :
    (s.takeTrap c v).ctx = s.drain.ctx.enterTrap c v (s.core s.ctx.place.coreNo).tvec := by
  unfold State.takeTrap; simp
@[simp] theorem State.takeTrap_others (s : State) (c : Cause) (v : Word) : (s.takeTrap c v).others = s.others := by
  unfold State.takeTrap; simp
@[simp] theorem State.takeTrap_mem (s : State) (c : Cause) (v : Word) : (s.takeTrap c v).mem = s.drain.mem := rfl
@[simp] theorem State.takeTrap_dev (s : State) (c : Cause) (v : Word) : (s.takeTrap c v).dev = s.drain.dev := rfl
@[simp] theorem State.takeTrap_agenda (s : State) (c : Cause) (v : Word) : (s.takeTrap c v).agenda = s.agenda := by
  unfold State.takeTrap; simp
@[simp] theorem State.takeTrap_tick (s : State) (c : Cause) (v : Word) : (s.takeTrap c v).tick = s.tick := by
  unfold State.takeTrap; simp

/-- The bits of a TSTAT word (R38). -/
theorem tstatWord_bit (m p v l : Bool) : (tstatWord m p v l).getLsbD 0 = m ∧ (tstatWord m p v l).getLsbD 1 = p ∧
    (tstatWord m p v l).getLsbD 2 = v ∧ (tstatWord m p v l).getLsbD 3 = l ∧ (tstatWord m p v l).toNat < 16 := by
  revert m p v l; decide

end Sys2Proof.Machine
end

