-- ==== Sys2Proof/Laws/Access.lean ====
section
/-! SUPPORT. What an access does besides moving its data: the walker's update, and the header it sends; and what a read by
the name of a skerry, and one from the store buffer, come to. -/

namespace Sys2Proof.Machine

/-! ### The walker's update (R312, R313) -/

/-- What the update is: the requests of the walk and of the write, and at most the byte with the accessed and dirty bits
and the cached translations. -/
theorem State.touch_eq (s : State) (n : Need) (h : Hit) : ∃ asked, Traffic s asked ∧
    s.touch n h = { asked with mem := (s.touch n h).mem, dev := { asked.dev with tlb := (s.touch n h).dev.tlb } } := by
  unfold State.touch
  split
  · exact ⟨s, .refl s, rfl⟩
  · exact ⟨_, Traffic.trans (by split; exacts [.refl s, s.walkTraffic_traffic _ _]) (State.writeTraffic_traffic _ _), rfl⟩

@[simp] theorem State.touch_ctx (s : State) (n : Need) (h : Hit) : (s.touch n h).ctx = s.ctx := by
  obtain ⟨_, k, e⟩ := s.touch_eq n h; rw [e]; exact k.ctx
@[simp] theorem State.touch_others (s : State) (n : Need) (h : Hit) : (s.touch n h).others = s.others := by
  obtain ⟨_, k, e⟩ := s.touch_eq n h; rw [e]; exact k.others
@[simp] theorem State.touch_agenda (s : State) (n : Need) (h : Hit) : (s.touch n h).agenda = s.agenda := by
  obtain ⟨_, k, e⟩ := s.touch_eq n h; rw [e]; exact k.agenda
@[simp] theorem State.touch_tick (s : State) (n : Need) (h : Hit) : (s.touch n h).tick = s.tick := by
  obtain ⟨_, k, e⟩ := s.touch_eq n h; rw [e]; exact k.tick

/-- The update changes of the device the cached translations, and of the MSUs what is under way. -/
theorem State.touch_dev (s : State) (n : Need) (h : Hit) :
    (s.touch n h).dev = { s.dev with
      tlb := (s.touch n h).dev.tlb
      msu := { s.dev.msu with
        openRows := (s.touch n h).dev.msu.openRows, queue := (s.touch n h).dev.msu.queue
        moved := (s.touch n h).dev.msu.moved
        budgets := (s.touch n h).dev.msu.budgets } } := by
  obtain ⟨a, k, e⟩ := s.touch_eq n h
  rw [e]
  dsimp only
  rw [k.dev]

/-- The update writes at most the byte with the accessed and dirty bits. -/
theorem State.touch_mem (s : State) (n : Need) (h : Hit) : (s.touch n h).mem = s.mem ∨
    ∃ l b, h.leaf = some l ∧ (s.touch n h).mem = s.mem.store [⟨l.pteLoc + 1, 0, b, false, false⟩] := by
  unfold State.touch
  split
  · exact .inl rfl
  · rename_i l hl
    by_cases e : s.mem.read (l.pteLoc + 1) ||| (if n.writes then 3 else 1) = s.mem.read (l.pteLoc + 1)
    · exact .inl (if_pos e)
    · exact .inr ⟨l, _, hl, by dsimp only; rw [if_neg e, if_neg e]⟩

/-- The update changes no byte of memory but that with the accessed and dirty bits. -/
theorem State.read_touch_outside (s : State) (n : Need) {h : Hit} {a : Nat} (ha : ¬ h.marks a) :
    (s.touch n h).mem.read a = s.mem.read a := by
  obtain e | ⟨l, b, hl, e⟩ := s.touch_mem n h
  · rw [e]
  · rw [e, Memory.read_store_outside _ fun p hp e' => ha ⟨l, hl, ?_⟩]
    simp only [List.mem_singleton] at hp
    rw [← e', hp]

theorem State.touch_wf {s : State} (hw : s.mem.wf) (n : Need) (h : Hit) : (s.touch n h).mem.wf := by
  obtain e | ⟨l, b, -, e⟩ := s.touch_mem n h
  · exact e ▸ hw
  · exact e ▸ Memory.wf_store hw _

/-! ### Headers (R320-R324) -/

@[simp] theorem State.sendFor_others (s : State) (h : Hit) : (s.sendFor h).others = s.others := by
  unfold State.sendFor; split <;> rfl
@[simp] theorem State.sendFor_mem (s : State) (h : Hit) : (s.sendFor h).mem = s.mem := by
  unfold State.sendFor; split <;> rfl
@[simp] theorem State.sendFor_agenda (s : State) (h : Hit) : (s.sendFor h).agenda = s.agenda := by
  unfold State.sendFor; split <;> rfl
@[simp] theorem State.sendFor_tick (s : State) (h : Hit) : (s.sendFor h).tick = s.tick := by
  unfold State.sendFor; split <;> rfl

/-- A header takes of the context a request slot, or waits for one, and changes nothing else of it. -/
theorem State.sendFor_ctx (s : State) (h : Hit) : (s.sendFor h).ctx = { s.ctx with flow := { s.ctx.flow with
    slots := (s.sendFor h).ctx.flow.slots, owed := (s.sendFor h).ctx.flow.owed } } := by
  unfold State.sendFor; split <;> rfl

@[simp] theorem State.sendFor_ctx_place (s : State) (h : Hit) : (s.sendFor h).ctx.place = s.ctx.place := by
  rw [State.sendFor_ctx]
@[simp] theorem State.sendFor_ctx_origin (s : State) (h : Hit) : (s.sendFor h).ctx.origin = s.ctx.origin := by
  rw [State.sendFor_ctx]
@[simp] theorem State.sendFor_ctx_pc (s : State) (h : Hit) : (s.sendFor h).ctx.pc = s.ctx.pc := by
  rw [State.sendFor_ctx]
@[simp] theorem State.sendFor_ctx_regs (s : State) (h : Hit) : (s.sendFor h).ctx.regs = s.ctx.regs := by
  rw [State.sendFor_ctx]
@[simp] theorem State.sendFor_ctx_trap (s : State) (h : Hit) : (s.sendFor h).ctx.trap = s.ctx.trap := by
  rw [State.sendFor_ctx]
@[simp] theorem State.sendFor_ctx_vec (s : State) (h : Hit) : (s.sendFor h).ctx.vec = s.ctx.vec := by
  rw [State.sendFor_ctx]
@[simp] theorem State.sendFor_ctx_front (s : State) (h : Hit) : (s.sendFor h).ctx.front = s.ctx.front := by
  rw [State.sendFor_ctx]
@[simp] theorem State.sendFor_ctx_eng (s : State) (h : Hit) : (s.sendFor h).ctx.eng = s.ctx.eng := by
  rw [State.sendFor_ctx]

/-- A header changes of the device the fabric, and nothing else. -/
theorem State.sendFor_dev (s : State) (h : Hit) :
    (s.sendFor h).dev = { s.dev with fabric := (s.sendFor h).dev.fabric } := by
  unfold State.sendFor; split <;> rfl

/-! ### Scalar accesses that stop (R102) -/

theorem State.locate_of_misaligned {s : State} {need : Need} {w : Nat} {va : Word} (h : va.toNat % w ≠ 0) :
    s.locate need w va = .error (.trap .misalign va) := if_pos h

theorem State.probe_of_stop {s : State} {need : Need} {w : Nat} {va : Word} {e : Stop}
    (h : s.locate need w va = .error e) : s.probe need w va = .error e := by
  unfold State.probe; rw [h]

theorem State.probe_of_misaligned {s : State} {need : Need} {w : Nat} {va : Word} (h : va.toNat % w ≠ 0) :
    s.probe need w va = .error (.trap .misalign va) := State.probe_of_stop (State.locate_of_misaligned h)

theorem State.loadScalar_of_stop {s : State} {st : Stream} {w : Nat} {va : Word} {e : Stop}
    (h : s.locate .read w va = .error e) : s.loadScalar st w va = .error e := by
  unfold State.loadScalar; rw [h]

theorem State.storeScalar_of_stop {s : State} {st : Stream} {w : Nat} {va v : Word} {e : Stop}
    (h : s.locate .write w va = .error e) : s.storeScalar st w va v = .error e := by
  unfold State.storeScalar; rw [h]

theorem State.amo_of_stop {s : State} {rd ra rb : Reg} {w : Nat} {sg : Bool} {f : Nat → Nat → Option Nat} {e : Stop}
    (h : s.probe .atomic w (s.reg ra) = .error e) : s.amo rd ra rb w sg f = .error e := by
  unfold State.amo; rw [h]

theorem State.amoInt_of_stop {s : State} {op : VOp} {sg : Bool} {rd ra rb : Reg} {z : Bool} {e : Stop}
    (h : s.probe .atomic (if z then 8 else 4) (s.reg ra) = .error e) :
    s.amoInt op sg rd ra rb z = .next (s.stop e) := by
  unfold State.amoInt; dsimp only; rw [State.amo_of_stop h]; rfl

/-! ### Extension of a loaded value (R101) -/

theorem ofInt_signedOf {w : Nat} (hw : 0 < w) (v : Nat) (n : Nat) :
    BitVec.ofInt n (signedOf w v) = (BitVec.ofNat w v).signExtend n := by
  unfold signedOf
  rw [BitVec.signExtend]
  congr 1
  rw [BitVec.toInt_eq_toNat_cond, BitVec.toNat_ofNat]
  have : 2 ^ w = 2 * 2 ^ (w - 1) := by rw [← Nat.pow_succ']; congr 1; omega
  dsimp only
  split <;> split <;> first | rfl | omega

theorem loadExtend_eq (sz : BitVec 3) (v : Nat) : loadExtend sz v =
    if sz.getLsbD 0 then BitVec.ofNat 64 v else (BitVec.ofNat (8 * 2 ^ (sz.toNat / 2)) v).signExtend 64 := by
  unfold loadExtend sizeBytes
  rw [ofInt_signedOf (by positivity)]

/-! ### Reads by the name of a skerry (R6, R191) -/

/-- Nothing is read by a stale name before a skerry was given to a job. -/
theorem State.stale_of_none_given {s : State} (h : s.dev.msu.given = []) (job a : Nat) : s.stale job a = false := by
  simp [State.stale, h]

theorem State.byteFor_of_fresh {s : State} {job a : Nat} (h : s.stale job a = false) : s.byteFor job a = s.mem.read a := by
  simp [State.byteFor, h]

/-- Without a stale name a job reads what stands in memory. -/
theorem State.bytesFor_of_fresh {s : State} {job a n : Nat} (h : ∀ i < n, s.stale job (a + i) = false) :
    s.bytesFor job a n = s.mem.bytes a n :=
  List.map_congr_left fun i hi => State.byteFor_of_fresh (h i (List.mem_range.1 hi))

theorem State.numberFor_of_fresh {s : State} {job a n : Nat} (h : ∀ i < n, s.stale job (a + i) = false) :
    s.numberFor job a n = s.mem.number a n := congrArg leNat (State.bytesFor_of_fresh h)

/-- A read of a job consumes no poison where memory holds none (R6, R277). -/
theorem State.poisonedFor_of_clean {s : State} {job a n : Nat} (h : s.poisoned a n = false) :
    s.poisonedFor job a n = false := by
  simp [State.poisonedFor, h]

/-- Before a skerry was given to a job, its poison is that of memory. -/
theorem State.poisonedFor_of_none_given {s : State} (h : s.dev.msu.given = []) (job a n : Nat) :
    s.poisonedFor job a n = s.poisoned a n := by
  simp [State.poisonedFor, h]

/-! ### Loads from the store buffer (R29, R103, R255) -/

@[simp] theorem Flow.mark_of_empty (f : Flow) (st : Stream) (h : f.storeBuf = []) : f.mark st = f := by
  cases f; simp_all [Flow.mark]

@[simp] theorem Flow.mark_slots (f : Flow) (st : Stream) : (f.mark st).slots = f.slots := rfl
@[simp] theorem Flow.mark_status (f : Flow) (st : Stream) : (f.mark st).status = f.status := rfl

/-- After a load from the buffer, a load of any stream that is performed at memory follows the entries of its stream. -/
theorem Flow.holdsBack_mark {f : Flow} {st : Stream} (h : ∃ b ∈ f.storeBuf, b.stream = st) (st' : Stream) :
    (f.mark st).holdsBack st' = true := by
  obtain ⟨b, hb, rfl⟩ := h
  simp only [Flow.holdsBack, Flow.mark, List.any_map, List.any_eq_true]
  exact ⟨b, hb, by simp⟩

theorem Flow.holdsBack_of_empty {f : Flow} (h : f.storeBuf = []) (st : Stream) : f.holdsBack st = false := by
  simp [Flow.holdsBack, h]

end Sys2Proof.Machine
end

