-- ==== Sys2Proof/Laws/Crypto.lean ====
section
/-! SUPPORT. How long the results of the hash functions and of the LMS tree are. -/

namespace Sys2Proof.Machine

theorem leBytes_length (n v : Nat) : (leBytes n v).length = n := by
  induction n generalizing v with
  | zero => rfl
  | succ n ih => simp [leBytes]

theorem Sha2.round_length {w : Nat} (h : Sha2 w) (v : List (BitVec w)) (k : BitVec w × BitVec w) :
    (h.round v k).length = v.length := by
  unfold Sha2.round
  split <;> rfl

theorem Sha2.rounds_length {w : Nat} (h : Sha2 w) (ks : List (BitVec w × BitVec w)) (v : List (BitVec w)) :
    (ks.foldl h.round v).length = v.length := by
  induction ks generalizing v with
  | nil => rfl
  | cons k ks ih => rw [List.foldl_cons, ih, round_length]

theorem Sha2.hash_length {w : Nat} (h : Sha2 w) (start : List (BitVec w)) (msg : List Byte) :
    (h.hash start msg).length = start.length := by
  have blocks : ∀ (bs : List (List Byte)) (v : List (BitVec w)), (bs.foldl (h.block h.constants) v).length = v.length := by
    intro bs
    induction bs with
    | nil => exact fun _ => rfl
    | cons b bs ih => exact fun v => by simp [ih, block, rounds_length]
  exact blocks _ _

theorem sha256_length (msg : List Byte) : (sha256 msg).length = 32 := by
  have h : (sha256Of.hash ((shaPrimes.take 8).map fun p => BitVec.ofNat 32 (rootFraction 2 32 p)) msg).length = 8 := by
    rw [Sha2.hash_length, List.length_map]
    decide +kernel
  simp only [sha256, List.length_flatMap, beBytes, List.length_reverse, leBytes_length, List.map_const', List.sum_replicate, h]
  rfl

theorem lmsRoot_length (ident : List Byte) (ps : List (List Byte)) (node : Nat) {x : List Byte} (h : x.length = 32) :
    (lmsRoot ident node ps x).length = 32 := by
  induction ps generalizing node x with
  | nil => exact h
  | cons p ps ih => exact ih _ (sha256_length _)

end Sys2Proof.Machine
end

