-- ==== Sys2Proof/Laws/Scalar.lean ====
section
/-! SUPPORT. Registers, and what an instruction that writes one scalar register does. -/

namespace Sys2Proof.Machine

/-- A register after a write: S0 reads zero, and no other register changes (R12). -/
theorem State.reg_setReg (s : State) (r q : Reg) (v : Word) :
    (s.setReg r v).reg q = if q = r then written r v else s.reg q := by
  unfold State.setReg State.reg written
  split_ifs with hq hr h h <;> simp_all
  rw [Vector.getElem_set]
  exact if_congr ⟨fun e => (BitVec.eq_of_toNat_eq e).symm, fun e => congrArg _ e.symm⟩ rfl rfl

theorem State.reg_retire (s : State) (n : Nat) (q : Reg) : (s.retire n).reg q = s.reg q := rfl

theorem State.reg_goto (s : State) (pc : Pc) (q : Reg) : (s.goto pc).reg q = s.reg q := rfl

/-- Whatever leaves the parts of the context alone leaves what a frame names alone. -/
theorem CtxFrame.of_eq {s t : State} (w : Touched) (hr : t.ctx.regs = s.ctx.regs) (hv : t.ctx.vec = s.ctx.vec)
    (ht : t.ctx.trap = s.ctx.trap) (he : t.ctx.eng = s.ctx.eng) (hp : t.ctx.place = s.ctx.place)
    (ho : t.ctx.origin = s.ctx.origin) (hf : t.ctx.front = s.ctx.front) : CtxFrame s t w := by
  constructor <;> simp [State.reg, Ctx.vreg, Ctx.mask, *]

/-- A frame up to the write of one scalar register. -/
theorem CtxFrame.setReg {s t : State} (h : CtxFrame s t {}) (rd : Reg) (v : Word) (n : Nat) :
    CtxFrame s ((t.setReg rd v).retire n) { regs := [rd] } := by
  constructor
  · intro r hr
    rw [State.reg_retire, State.reg_setReg, if_neg (by simpa using hr), h.regs r (by simp)]
  · simpa [Ctx.vreg] using fun v => h.vecs v (by simp)
  · simpa using fun k => h.anchors k (by simp)
  · simpa [Ctx.mask] using fun m => h.masks m (by simp)
  · simpa using h.devstat rfl
  · simpa using h.tags
  · simpa using h.vcount
  · simpa using h.vl rfl
  · simpa using h.mspace rfl
  · simpa using h.devpol rfl
  · simpa using h.trap rfl
  · simpa using h.eng rfl
  · simpa using h.place
  · simpa using h.origin
  · simpa using h.front

/-- An instruction that writes `v` to `rd` and goes on completes, and changes nothing else. -/
theorem completes_of_setReg {i : Instr} {s : State} {rd : Reg} {v : Word} {n : Nat} {P : State → Prop}
    (h : exec i s = .next ((s.setReg rd v).retire n)) (hP : ∀ t : State, t.reg rd = written rd v → P t) :
    Completes i s n { regs := [rd] } P := by
  refine ⟨_, h, ⟨by simp, by simp⟩, (CtxFrame.of_eq {} rfl rfl rfl rfl rfl rfl rfl).setReg rd v n, ?_, ?_, hP _ ?_⟩
  · constructor <;> simp
  · constructor <;> simp
  · simp [State.reg_retire, State.reg_setReg]

end Sys2Proof.Machine
end

