-- ==== Sys2Proof/Laws/Registers.lean ====
section
/-! SUPPORT. The contents of vector and anchor registers: reading the first elements, and reading what was written. -/

namespace Sys2Proof.Machine

/-- What a list of elements in ascending order gives for an index, with `fill` behind it. -/
def cellAt (fill : Nat → BitVec 64) (cs : List (Nat × BitVec 64)) (i : Nat) : BitVec 64 :=
  match cs.find? (fun c => c.1 == i) with
  | some c => c.2
  | none => fill i

theorem VReg.get_eq_cellAt (r : VReg) (i : Nat) : r.get i = cellAt r.fill r.cells i := rfl

@[simp] theorem cellAt_nil (fill : Nat → BitVec 64) (i : Nat) : cellAt fill [] i = fill i := rfl

theorem cellAt_cons (fill : Nat → BitVec 64) (c : Nat × BitVec 64) (cs : List (Nat × BitVec 64)) (i : Nat) :
    cellAt fill (c :: cs) i = if c.1 = i then c.2 else cellAt fill cs i := by
  unfold cellAt
  by_cases h : c.1 = i
  · rw [List.find?_cons_of_pos (by simpa using h), if_pos h]
  · rw [List.find?_cons_of_neg (by simpa using h), if_neg h]

theorem cellAt_of_lt {fill : Nat → BitVec 64} {cs : List (Nat × BitVec 64)} {i : Nat} (h : ∀ c ∈ cs, i < c.1) :
    cellAt fill cs i = fill i := by
  unfold cellAt
  rw [List.find?_eq_none.2 fun c hc => by simpa using (h c hc).ne']

theorem listed_cons {α : Type} (p : Nat × α) (new : List (Nat × α)) (i : Nat) (old : α) :
    listed (p :: new) i old = if p.1 = i then p.2 else listed new i old := by
  unfold listed
  by_cases h : p.1 = i
  · rw [List.find?_cons_of_pos (by simpa using h), if_pos h]; rfl
  · rw [List.find?_cons_of_neg (by simpa using h), if_neg h]

/-! ### The first elements -/

@[simp] theorem length_elemsFrom (fill : Nat → BitVec 64) (n : Nat) : ∀ (i : Nat) (cs : List (Nat × BitVec 64)),
    (elemsFrom fill n i cs).length = n := by
  induction n with
  | zero => intro i cs; cases cs <;> rfl
  | succ n ih =>
    intro i cs
    match cs with
    | [] => simp [elemsFrom, ih]
    | (k, v) :: rest => simp only [elemsFrom]; split <;> simp [ih]

theorem getElem_elemsFrom (fill : Nat → BitVec 64) (n : Nat) : ∀ (i : Nat) {cs : List (Nat × BitVec 64)},
    cs.Pairwise (fun a b => a.1 < b.1) → (∀ c ∈ cs, i ≤ c.1) → ∀ (k : Nat) (h : k < (elemsFrom fill n i cs).length),
      (elemsFrom fill n i cs)[k] = cellAt fill cs (i + k) := by
  induction n with
  | zero => intro i cs _ _ k h; simp at h
  | succ n ih =>
    intro i cs hp hle k h
    match cs with
    | [] =>
      simp only [elemsFrom]
      cases k with
      | zero => rfl
      | succ k =>
        rw [List.getElem_cons_succ, ih (i + 1) List.Pairwise.nil (by simp), cellAt_nil, cellAt_nil]
        congr 1; omega
    | (j, v) :: rest =>
      have hj : i ≤ j := hle _ (List.mem_cons_self ..)
      obtain ⟨hlt, hp'⟩ := List.pairwise_cons.1 hp
      simp only [elemsFrom]
      split
      · next e =>
        subst e
        cases k with
        | zero => simp [cellAt_cons]
        | succ k =>
          rw [List.getElem_cons_succ, ih (j + 1) hp' (fun c hc => hlt c hc), cellAt_cons, if_neg (by simp)]
          congr 1; omega
      · next e =>
        cases k with
        | zero =>
          rw [List.getElem_cons_zero, cellAt_of_lt]
          · rfl
          · intro c hc
            rcases List.mem_cons.1 hc with rfl | hc
            · simp; omega
            · have := hlt c hc; simp at this; omega
        | succ k =>
          rw [List.getElem_cons_succ, ih (i + 1) hp ?_]
          · congr 1; omega
          · intro c hc
            rcases List.mem_cons.1 hc with rfl | hc
            · simp; omega
            · have := hlt c hc; simp at this; omega

@[simp] theorem VReg.length_first (r : VReg) (n : Nat) : (r.first n).length = n := length_elemsFrom ..

theorem VReg.getElem_first {r : VReg} (h : r.wf) {n k : Nat} (hk : k < (r.first n).length) : (r.first n)[k] = r.get k := by
  have := getElem_elemsFrom r.fill n 0 h (by simp) k hk
  rwa [Nat.zero_add] at this

theorem VReg.first_eq {r : VReg} (h : r.wf) (n : Nat) : r.first n = (List.range n).map r.get := by
  refine List.ext_getElem (by simp) fun k hk _ => ?_
  rw [VReg.getElem_first h hk]
  simp

/-! ### Writing -/

theorem cellAt_takeWhile_append (fill : Nat → BitVec 64) (cs ds : List (Nat × BitVec 64)) (j i : Nat) :
    cellAt fill (cs.takeWhile (fun c => c.1 < j) ++ ds) i =
      if (cs.takeWhile (fun c => c.1 < j)).any (fun c => c.1 == i) then cellAt fill cs i else cellAt fill ds i := by
  induction cs with
  | nil => simp
  | cons c cs ih =>
    by_cases h : c.1 < j
    · simp only [List.takeWhile_cons, h, decide_true, if_true, List.cons_append, cellAt_cons, List.any_cons]
      by_cases e : c.1 = i
      · simp [e]
      · simp [e, ih]
    · simp [h]

theorem cellAt_putCell (fill : Nat → BitVec 64) (cs : List (Nat × BitVec 64)) (i j : Nat) (v : BitVec 64) :
    cellAt fill (putCell i v cs) j = if i = j then v else cellAt fill cs j := by
  induction cs with
  | nil => simp [putCell, cellAt_cons]
  | cons c cs ih =>
    simp only [putCell]
    split
    · next h =>
      rw [cellAt_cons, cellAt_cons, ih]
      split_ifs <;> first | rfl | omega
    · split
      · next h e =>
        rw [cellAt_cons, cellAt_cons]
        simp only
        split_ifs <;> first | rfl | omega
      · rw [cellAt_cons]

theorem mem_putCell {i : Nat} {v : BitVec 64} {cs : List (Nat × BitVec 64)} {c : Nat × BitVec 64} :
    c ∈ putCell i v cs → c = (i, v) ∨ c ∈ cs := by
  induction cs with
  | nil => simp [putCell]
  | cons d cs ih =>
    simp only [putCell]
    split
    · intro h
      rcases List.mem_cons.1 h with rfl | h
      · simp
      · rcases ih h with h | h <;> simp [h]
    · split <;> (intro h; simp at h ⊢; tauto)

theorem pairwise_putCell (i : Nat) (v : BitVec 64) {cs : List (Nat × BitVec 64)}
    (hp : cs.Pairwise fun a b => a.1 < b.1) : (putCell i v cs).Pairwise fun a b => a.1 < b.1 := by
  induction cs with
  | nil => simp [putCell]
  | cons c cs ih =>
    obtain ⟨hlt, hp'⟩ := List.pairwise_cons.1 hp
    simp only [putCell]
    split
    · next h =>
      refine List.pairwise_cons.2 ⟨fun d hd => ?_, ih hp'⟩
      rcases mem_putCell hd with rfl | hd
      · exact h
      · exact hlt d hd
    · split
      · next h e =>
        exact List.pairwise_cons.2 ⟨fun d hd => by have := hlt d hd; simp; omega, hp'⟩
      · next h e =>
        refine List.pairwise_cons.2 ⟨fun d hd => ?_, hp⟩
        rcases List.mem_cons.1 hd with rfl | hd
        · simp; omega
        · have := hlt d hd; simp; omega

theorem ascending_iff {l : List (Nat × BitVec 64)} : ascending l = true ↔ l.Pairwise fun a b => a.1 < b.1 := by
  induction l with
  | nil => simp [ascending]
  | cons a l ih =>
    match l with
    | [] => simp [ascending]
    | b :: l =>
      obtain ⟨i, v⟩ := a
      obtain ⟨j, w⟩ := b
      simp only [ascending, Bool.and_eq_true, decide_eq_true_eq, ih, List.pairwise_cons]
      constructor
      · rintro ⟨h, h1, h2⟩
        refine ⟨fun c hc => ?_, h1, h2⟩
        rcases List.mem_cons.1 hc with rfl | hc
        · exact h
        · exact lt_trans h (h1 c hc)
      · rintro ⟨h, h1, h2⟩
        exact ⟨h _ (List.mem_cons_self ..), h1, h2⟩

theorem cellAt_dropAt (fill : Nat → BitVec 64) (cs : List (Nat × BitVec 64)) {i j : Nat} (h : i ≠ j) :
    cellAt fill (dropAt j cs) i = cellAt fill cs i := by
  match cs with
  | [] => rfl
  | c :: cs =>
    simp only [dropAt]
    split
    · next e => rw [cellAt_cons, if_neg (by omega)]
    · rfl

/-- Merging ascending elements writes each of them. -/
theorem cellAt_mergeCells (fill : Nat → BitVec 64) {new : List (Nat × BitVec 64)}
    (hn : new.Pairwise fun a b => a.1 < b.1) : ∀ (old : List (Nat × BitVec 64)) (i : Nat),
      cellAt fill (mergeCells new old) i = listed new i (cellAt fill old i) := by
  induction new with
  | nil => exact fun _ _ => rfl
  | cons p new ih =>
    obtain ⟨j, v⟩ := p
    intro old i
    obtain ⟨hlt, hn'⟩ := List.pairwise_cons.1 hn
    rw [mergeCells, cellAt_takeWhile_append, listed_cons]
    split
    · next h =>
      obtain ⟨c, hc, e⟩ := List.any_eq_true.1 h
      have hc' : c.1 < j := by simpa using List.mem_takeWhile_imp hc
      have e' : c.1 = i := by simpa using e
      rw [if_neg (by simp only; omega)]
      unfold listed
      rw [List.find?_eq_none.2]
      · rfl
      · intro d hd; have := hlt d hd; simp at this ⊢; omega
    · next h =>
      rw [cellAt_cons]
      simp only
      split
      · rfl
      · next e =>
        rw [ih hn', cellAt_dropAt _ _ (Ne.symm e)]
        congr 1
        have := cellAt_takeWhile_append fill old (old.dropWhile fun c => c.1 < j) j i
        rw [if_neg h] at this
        rw [← this, List.takeWhile_append_dropWhile]

theorem dropAt_sublist (j : Nat) (cs : List (Nat × BitVec 64)) : (dropAt j cs).Sublist cs := by
  match cs with
  | [] => exact List.Sublist.refl _
  | c :: cs =>
    simp only [dropAt]
    split
    · exact List.sublist_cons_self ..
    · exact List.Sublist.refl _

theorem lt_of_mem_dropAt {j : Nat} {cs : List (Nat × BitVec 64)} (hp : cs.Pairwise fun a b => a.1 < b.1)
    (hh : ∀ d, cs.head? = some d → j ≤ d.1) : ∀ c ∈ dropAt j cs, j < c.1 := by
  match cs with
  | [] => simp [dropAt]
  | d :: ds =>
    have h0 := hh d rfl
    have hds := (List.pairwise_cons.1 hp).1
    intro c hc
    simp only [dropAt] at hc
    split at hc
    · have := hds c hc; omega
    · rcases List.mem_cons.1 hc with rfl | hc
      · omega
      · have := hds c hc; omega

/-- Merging ascending elements keeps the order. -/
theorem pairwise_mergeCells {new : List (Nat × BitVec 64)} (hn : new.Pairwise fun a b => a.1 < b.1) :
    ∀ {old : List (Nat × BitVec 64)}, old.Pairwise (fun a b => a.1 < b.1) →
      (mergeCells new old).Pairwise (fun a b => a.1 < b.1) ∧ ∀ c ∈ mergeCells new old, c ∈ new ∨ c ∈ old := by
  induction new with
  | nil => exact fun ho => ⟨ho, fun c hc => .inr hc⟩
  | cons p new ih =>
    obtain ⟨j, v⟩ := p
    intro old ho
    obtain ⟨hlt, hn'⟩ := List.pairwise_cons.1 hn
    have hd : (old.dropWhile fun c => c.1 < j).Pairwise fun a b => a.1 < b.1 := ho.sublist (List.dropWhile_sublist _)
    have hgt' : ∀ c ∈ dropAt j (old.dropWhile fun c => c.1 < j), j < c.1 := lt_of_mem_dropAt hd fun d hh => by
      have := List.head?_dropWhile_not (fun c : Nat × BitVec 64 => decide (c.1 < j)) old
      rw [hh] at this
      simpa using this
    obtain ⟨h2, h3⟩ := ih hn' (hd.sublist (dropAt_sublist j _))
    have hgt : ∀ c ∈ mergeCells new (dropAt j (old.dropWhile fun c => c.1 < j)), j < c.1 := fun c hc =>
      (h3 c hc).elim (hlt c) (hgt' c)
    rw [mergeCells]
    refine ⟨List.pairwise_append.2 ⟨ho.sublist (List.takeWhile_sublist _), List.pairwise_cons.2 ⟨hgt, h2⟩, ?_⟩, ?_⟩
    · intro a ha b hb
      have : a.1 < j := by simpa using List.mem_takeWhile_imp ha
      rcases List.mem_cons.1 hb with rfl | hb
      · exact this
      · have := hgt b hb; omega
    · intro c hc
      rcases List.mem_append.1 hc with hc | hc
      · exact .inr ((List.takeWhile_sublist _).subset hc)
      · rcases List.mem_cons.1 hc with rfl | hc
        · exact .inl (List.mem_cons_self ..)
        · rcases h3 c hc with hc | hc
          · exact .inl (List.mem_cons_of_mem _ hc)
          · exact .inr ((List.dropWhile_sublist _).subset ((dropAt_sublist j _).subset hc))

@[simp] theorem VReg.fill_write (r : VReg) (new : List (Nat × BitVec 64)) : (r.write new).fill = r.fill := rfl

theorem cellAt_foldl_putCell (fill : Nat → BitVec 64) {new : List (Nat × BitVec 64)}
    (hn : new.Pairwise fun a b => a.1 ≠ b.1) : ∀ (old : List (Nat × BitVec 64)) (i : Nat),
      cellAt fill (new.foldl (fun cs p => putCell p.1 p.2 cs) old) i = listed new i (cellAt fill old i) := by
  induction new with
  | nil => exact fun _ _ => rfl
  | cons p new ih =>
    intro old i
    obtain ⟨hne, hn'⟩ := List.pairwise_cons.1 hn
    rw [List.foldl_cons, ih hn', cellAt_putCell, listed_cons]
    by_cases e : p.1 = i
    · rw [if_pos e, if_pos e]
      unfold listed
      rw [List.find?_eq_none.2]
      · rfl
      · intro d hd; have := hne d hd; simp; omega
    · rw [if_neg e, if_neg e]

theorem pairwise_foldl_putCell (new : List (Nat × BitVec 64)) : ∀ {old : List (Nat × BitVec 64)},
    old.Pairwise (fun a b => a.1 < b.1) →
      (new.foldl (fun cs p => putCell p.1 p.2 cs) old).Pairwise fun a b => a.1 < b.1 := by
  induction new with
  | nil => exact fun h => h
  | cons p new ih => exact fun h => ih (pairwise_putCell _ _ h)

/-- A register after a write of elements with different indices. -/
theorem VReg.get_write (r : VReg) {new : List (Nat × BitVec 64)} (hn : new.Pairwise fun a b => a.1 ≠ b.1) (i : Nat) :
    (r.write new).get i = listed new i (r.get i) := by
  rw [VReg.get_eq_cellAt, VReg.fill_write]
  unfold VReg.write
  dsimp only
  split
  · next ha => exact cellAt_mergeCells _ (ascending_iff.1 ha) _ i
  · exact cellAt_foldl_putCell _ hn _ i

theorem VReg.wf_write {r : VReg} (h : r.wf) (new : List (Nat × BitVec 64)) : (r.write new).wf := by
  unfold VReg.wf VReg.write
  dsimp only
  split
  · next ha => exact (pairwise_mergeCells (ascending_iff.1 ha) h).1
  · exact pairwise_foldl_putCell new h

end Sys2Proof.Machine
end

