-- ==== Sys2Proof/Laws/Queue.lean ====
section
/-! SUPPORT. Queued instructions: when they run, and what delivering a vector result changes. -/

namespace Sys2Proof.Machine

theorem mem_allVecs (v : VecNo) : v ∈ allVecs :=
  List.mem_map.2 ⟨v.toNat, List.mem_range.2 v.isLt, by simp⟩

/-- No accumulator among fewer registers is still to be written. -/
theorem State.mxmPending_of_subset {s : State} {regs some' : List VecNo} (h : s.mxmPending regs = false)
    (hs : ∀ v ∈ some', v ∈ regs) : s.mxmPending some' = false := by
  unfold State.mxmPending at h ⊢
  rw [List.any_eq_false] at h ⊢
  intro m hm hk
  refine h m hm ?_
  revert hk
  split
  · simp only [Bool.and_eq_true, List.contains_iff_mem]
    exact fun ⟨h1, h2⟩ => ⟨h1, hs _ h2⟩
  · exact id

/-- A queued instruction whose registers are ready runs whole. -/
theorem QueueReady.queuedAs {s : State} {regs some' : List VecNo} (h : QueueReady s regs) (hs : ∀ v ∈ some', v ∈ regs)
    (body : State → Except Stop State) : s.queuedAs some' body = s.settle (body s) := by
  unfold State.queuedAs
  rw [if_neg, h.owns, State.mxmPending_of_subset h.free hs]
  · rfl
  · simp only [List.any_eq_true, decide_eq_true_eq, not_exists, not_and, not_le]
    exact fun v hv => h.inside v (hs v hv)

theorem QueueReady.queued {s : State} {regs some' : List VecNo} (h : QueueReady s regs) (hs : ∀ v ∈ some', v ∈ regs)
    (len : Nat) (body : State → Except Stop State) :
    s.queued some' len body = s.settle ((body s).map fun s' => s'.retire len) := h.queuedAs hs _

/-! ### The vector queue (R26-R32, R324) -/

/-- What a lane group comes to with the head of a vector queue: what `State.headOutcome` says of the head's own execution
at `State.atHead`. -/
theorem State.runHead_eq {s f t : State} {who : CtxNo} {q : Queued} {rest : List Queued} {run : Instr → State → Out}
    (hf : s.focus who = some f) (hq : f.ctx.flow.queue = q :: rest) (he : f.ctx.flow.engine = none)
    (hr : run q.instr (f.atHead q) = .next t) :
    s.runHead run who = (State.headOutcome f.ctx q { t with tick := f.tick }).map .next := by
  unfold State.runHead
  rw [hf]
  dsimp only
  rw [hq, he]
  dsimp only
  rw [hr]

/-- A lane group whose context has nothing in its queue does nothing. -/
theorem State.runHead_of_empty {s f : State} {who : CtxNo} (run : Instr → State → Out)
    (hf : s.focus who = some f) (hq : f.ctx.flow.queue = []) : s.runHead run who = none := by
  unfold State.runHead
  rw [hf]
  dsimp only
  rw [hq]

/-- The head is complete: it leaves the queue, and what it wrote reaches the instructions behind it and the scalar thread. -/
theorem State.headOutcome_ran (front : Ctx) (q : Queued) {t : State}
    (h : t.ctx.flow.status = .running ∧ t.ctx.flow.handlerFirst = false) :
    State.headOutcome front q t = some { t with ctx := front.completeHead t.ctx q } := by
  simp [State.headOutcome, h.1, h.2]

/-- A head that waits and has sent no header leaves no trace. -/
theorem State.headOutcome_waits (front : Ctx) (q : Queued) {t : State}
    (h : t.ctx.flow.status = .waiting) (hs : t.ctx.flow.sent = front.flow.sent) : State.headOutcome front q t = none := by
  simp [State.headOutcome, h, hs]

/-- A head that waits and has sent headers stays at the head. -/
theorem State.headOutcome_sends (front : Ctx) (q : Queued) {t : State}
    (h : t.ctx.flow.status = .waiting) (hs : t.ctx.flow.sent ≠ front.flow.sent) :
    State.headOutcome front q t = some { t with ctx := front.behind t.ctx } := by
  simp [State.headOutcome, h, hs]

/-- A head that traps takes everything behind it back (R32). -/
theorem State.headOutcome_traps (front : Ctx) (q : Queued) {t : State}
    (h : t.ctx.flow.status = .running) (ht : t.ctx.flow.handlerFirst = true) :
    State.headOutcome front q t = some t := by
  simp [State.headOutcome, h, ht]

@[simp] theorem Ctx.atHead_queue (c : Ctx) (q : Queued) : (c.atHead q).flow.queue = [] := rfl
@[simp] theorem Ctx.atHead_pc (c : Ctx) (q : Queued) : (c.atHead q).pc = q.pc := rfl
@[simp] theorem Ctx.atHead_front (c : Ctx) (q : Queued) : (c.atHead q).front = q.front := rfl
@[simp] theorem Ctx.behind_pc (c t : Ctx) : (c.behind t).pc = c.pc := rfl
@[simp] theorem Ctx.behind_regs (c t : Ctx) : (c.behind t).regs = c.regs := rfl
@[simp] theorem Ctx.behind_front (c t : Ctx) : (c.behind t).front = c.front := rfl
@[simp] theorem Ctx.behind_queue (c t : Ctx) : (c.behind t).flow.queue = c.flow.queue := rfl
@[simp] theorem Ctx.popHead_pc (c : Ctx) (ws : List (Reg × Word)) : (c.popHead ws).pc = c.pc := rfl
@[simp] theorem Ctx.popHead_vec (c : Ctx) (ws : List (Reg × Word)) : (c.popHead ws).vec = c.vec := rfl
@[simp] theorem Ctx.popHead_front (c : Ctx) (ws : List (Reg × Word)) : (c.popHead ws).front = c.front := rfl
@[simp] theorem Ctx.popHead_queue (c : Ctx) (ws : List (Reg × Word)) :
    (c.popHead ws).flow.queue = c.flow.queue.tail.map (·.take ws) := rfl
@[simp] theorem Queued.take_instr (q : Queued) (ws : List (Reg × Word)) : (q.take ws).instr = q.instr := rfl
@[simp] theorem Queued.take_nil (q : Queued) : q.take [] = q := rfl

/-- A register after results are written: the last of those to it; S0 takes none (R12, R30). -/
theorem getElem_putRegs (ws : List (Reg × Word)) (v : Vector Word 32) (r : Reg) :
    (putRegs ws v)[r.toNat]'r.isLt =
      if r = 0 then v[r.toNat]'r.isLt else ((ws.reverse.find? fun w => w.1 == r).map (·.2)).getD (v[r.toNat]'r.isLt) := by
  induction ws generalizing v with
  | nil => simp [putRegs]
  | cons w ws ih =>
    have e : putRegs (w :: ws) v = putRegs ws (if w.1 = 0 then v else v.set w.1.toNat w.2 w.1.isLt) := rfl
    rw [e, ih, List.reverse_cons, List.find?_append]
    by_cases hr : r = 0
    · subst hr
      rw [if_pos rfl, if_pos rfl]
      split
      · rfl
      · next h => rw [Vector.getElem_set_ne]; exact fun e => h (BitVec.eq_of_toNat_eq e)
    · rw [if_neg hr, if_neg hr]
      cases ws.reverse.find? fun w => w.1 == r with
      | some x => rfl
      | none =>
        by_cases hw : w.1 = r
        · subst hw
          simp only [Option.map_none, Option.getD_none, Option.none_or, List.find?_cons, beq_self_eq_true,
            Option.map_some, Option.getD_some]
          split
          · contradiction
          · exact Vector.getElem_set_self ..
        · have hn : w.1.toNat ≠ r.toNat := fun e => hw (BitVec.eq_of_toNat_eq e)
          simp only [Option.map_none, Option.getD_none, Option.none_or]
          rw [List.find?_cons_of_neg (by simpa using hw)]
          simp only [List.find?_nil, Option.map_none, Option.getD_none]
          split
          · rfl
          · rw [Vector.getElem_set_ne _ _ hn]

theorem Ctx.squash_of_empty {c : Ctx} (h : c.flow.queue = []) : c.squash = c := by
  unfold Ctx.squash; rw [h]

/-- A squash leaves nothing in the queue (R32). -/
@[simp] theorem Ctx.squash_queue (c : Ctx) : c.squash.flow.queue = [] := by
  unfold Ctx.squash
  split
  · assumption
  · rfl

/-- VL cuts no rod exactly where it is a whole number of rods (R125, R154). -/
theorem Ctx.vlFits_iff (c : Ctx) (types : List ElemType) : c.vlFits types = true ↔ c.rodsFit types := by
  unfold Ctx.vlFits Ctx.rodsFit
  simp only [List.contains_iff_mem]
  split_ifs with h4 h8 <;> simp [*]
  omega

theorem State.withRods_of_fit {s : State} {types : List ElemType} (h : s.ctx.rodsFit types) (k : Except Stop State) :
    s.withRods types k = k := if_pos ((Ctx.vlFits_iff ..).2 h)

theorem State.withRods_of_cut {s : State} {types : List ElemType} (h : ¬ s.ctx.rodsFit types) (k : Except Stop State) :
    s.withRods types k = .error (.trap .illegalVl (BitVec.ofNat 64 s.ctx.vec.vl)) :=
  if_neg fun e => h ((Ctx.vlFits_iff ..).1 e)

/-! ### DEVSTAT (R22) -/

/-- The count of resolved overflow events. -/
theorem VecState.counted (v : VecState) (sat inl : Nat) : Counted v.devstat (v.countEvents sat inl).devstat sat inl := by
  unfold VecState.countEvents countUp
  split
  · next h =>
    obtain ⟨rfl, rfl⟩ := h
    exact ⟨fun _ _ => rfl, fun h => by simp at h, by omega, by omega⟩
  · next h =>
    have hlt : 2 ^ 63 + min (2 ^ 31 - 1) (v.devstat.toNat / 2 ^ 32 % 2 ^ 31 + inl) * 2 ^ 32 +
        min (2 ^ 32 - 1) (v.devstat.toNat % 2 ^ 32 + sat) < 2 ^ 64 := by omega
    refine ⟨fun h1 h2 => absurd ⟨h1, h2⟩ h, fun _ => ?_, ?_, ?_⟩
    · dsimp only
      rw [BitVec.getLsbD_ofNat, Nat.testBit_eq_decide_div_mod_eq]
      simp only [Nat.reduceLT, decide_true, Bool.true_and, decide_eq_true_eq]
      omega
    · dsimp only; rw [BitVec.toNat_ofNat, Nat.mod_eq_of_lt hlt]; omega
    · dsimp only; rw [BitVec.toNat_ofNat, Nat.mod_eq_of_lt hlt]; omega

/-! ### Delivering a result (R68, R81) -/

theorem map_listed {α β : Type} (f : α → β) (new : List (Nat × α)) (i : Nat) (old : α) :
    listed (new.map fun p => (p.1, f p.2)) i (f old) = f (listed new i old) := by
  induction new with
  | nil => rfl
  | cons p new ih => rw [List.map_cons, listed_cons, listed_cons, ih]; simp only [apply_ite f]

/-- What a write of vector register `vd` changes of the vector registers. -/
theorem VecState.vecs_writeElems (v : VecState) (vd : VecNo) (new : List (Nat × Nat)) (w : VecNo) :
    (v.writeElems vd new).vecs[w.toNat]'w.isLt = if w = vd then
      (v.vecs[w.toNat]'w.isLt).write (new.map fun p => (p.1, BitVec.ofNat 64 p.2)) else v.vecs[w.toNat]'w.isLt := by
  unfold VecState.writeElems
  split
  · next h => subst h; split <;> rfl
  · dsimp only
    rw [Vector.getElem_set]
    by_cases e : w = vd
    · subst e; simp
    · rw [if_neg e, if_neg fun h => e (BitVec.eq_of_toNat_eq h.symm)]

theorem VecState.writeElems_eq (v : VecState) (vd : VecNo) (new : List (Nat × Nat)) :
    v.writeElems vd new = { v with vecs := (v.writeElems vd new).vecs } := by
  unfold VecState.writeElems; split <;> rfl

theorem VecState.anchors_writeAnchors (v : VecState) (k : Nat) (new : List (Nat × Word)) (j : Nat) (hj : j < 16) :
    (v.writeAnchors k new).anchors[j] = if j = k then v.anchors[j].write new else v.anchors[j] := by
  unfold VecState.writeAnchors
  split
  · next h => subst h; split <;> rfl
  · simp

theorem VecState.writeAnchors_eq (v : VecState) (k : Nat) (new : List (Nat × Word)) :
    v.writeAnchors k new = { v with anchors := (v.writeAnchors k new).anchors } := by
  unfold VecState.writeAnchors; split <;> rfl

theorem VecState.countEvents_eq (v : VecState) (sat inl : Nat) :
    v.countEvents sat inl = { v with devstat := (v.countEvents sat inl).devstat } := by
  unfold VecState.countEvents; split <;> rfl

/-- The vector state after a delivery. -/
def VecState.deliver (v : VecState) (vd : VecNo) (o : VecOut) : VecState :=
  ((v.writeElems vd o.elems).writeAnchors (tagAnchor (v.tags[vd.toNat]'vd.isLt)) o.anchors).countEvents o.sat o.inl

theorem State.deliver_eq {s : State} {vd : VecNo} {o : VecOut} (h : o.event = none ∨ s.ctx.vec.devpol ≠ 0) :
    s.deliver vd o = .ok (s.setVec fun v => v.deliver vd o) := by
  unfold State.deliver
  have : s.ctx.vec.devpol ≠ 0 → (s.ctx.vec.devpol == 0) = false := fun h => by simpa using h
  rcases h with h | h
  · rw [h]; rfl
  · rw [this h]
    cases o.event <;> rfl

theorem State.deliver_event {s : State} {vd : VecNo} {o : VecOut} {e : Nat} (he : o.event = some e)
    (h : s.ctx.vec.devpol = 0) : s.deliver vd o = .error (.trap .devOvf (BitVec.ofNat 64 e)) := by
  unfold State.deliver
  rw [he, h]
  rfl

theorem VecState.deliver_vecs (v : VecState) (vd : VecNo) (o : VecOut) :
    (v.deliver vd o).vecs = (v.writeElems vd o.elems).vecs := by
  unfold VecState.deliver; rw [VecState.countEvents_eq, VecState.writeAnchors_eq]

theorem VecState.deliver_anchors (v : VecState) (vd : VecNo) (o : VecOut) :
    (v.deliver vd o).anchors = (v.writeAnchors (tagAnchor (v.tags[vd.toNat]'vd.isLt)) o.anchors).anchors := by
  unfold VecState.deliver
  rw [VecState.countEvents_eq]
  dsimp only
  unfold VecState.writeAnchors
  rw [VecState.writeElems_eq]
  split <;> rfl

/-- A delivery changes of the vector state the contents and DEVSTAT. -/
theorem VecState.deliver_rest (v : VecState) (vd : VecNo) (o : VecOut) : v.deliver vd o =
    { v with
      vecs := (v.deliver vd o).vecs, anchors := (v.deliver vd o).anchors, devstat := (v.deliver vd o).devstat } := by
  unfold VecState.deliver
  rw [VecState.countEvents_eq, VecState.writeAnchors_eq, VecState.writeElems_eq]

theorem VecState.deliver_devstat (v : VecState) (vd : VecNo) (o : VecOut) :
    Counted v.devstat (v.deliver vd o).devstat o.sat o.inl := by
  have := VecState.counted ((v.writeElems vd o.elems).writeAnchors (tagAnchor (v.tags[vd.toNat]'vd.isLt)) o.anchors) o.sat o.inl
  rw [VecState.writeAnchors_eq, VecState.writeElems_eq] at this
  dsimp only at this
  unfold VecState.deliver
  rw [VecState.writeAnchors_eq, VecState.writeElems_eq]
  exact this

/-- An instruction that delivers `o`, whose indices differ, once it runs. -/
theorem delivers_of_deliver {i : Instr} {s : State} {vd : VecNo} {o : VecOut}
    (h : exec i s = s.settle ((s.deliver vd o).map fun s' => s'.retire 4))
    (he : o.elems.Pairwise fun a b => a.1 ≠ b.1) (ha : o.anchors.Pairwise fun a b => a.1 ≠ b.1) : Delivers i s vd o := by
  constructor
  · intro e he hp
    rw [h, State.deliver_event he hp]
    rfl
  · intro hp
    rw [State.deliver_eq hp] at h
    have rest := s.ctx.vec.deliver_rest vd o
    refine ⟨_, h, ⟨by simp, by simp⟩, ⟨fun _ _ => rfl, ?_, ?_, ?_, by simp, ?_, ?_, ?_, ?_, ?_, by simp, by simp,
      by simp, by simp, by simp⟩, ⟨by simp, by simp, by simp, by simp⟩, ⟨by simp, by simp, by simp, by simp⟩, ⟨?_, ?_, ?_⟩⟩
    · intro v hv
      simp only [Ctx.vreg, State.retire_ctx_vec, State.setVec_ctx_vec]
      have e := s.ctx.vec.vecs_writeElems vd o.elems v
      rw [← VecState.deliver_vecs, if_neg (by simpa using hv)] at e
      exact e
    · intro k hk
      simp only [State.retire_ctx_vec, State.setVec_ctx_vec]
      have e := s.ctx.vec.anchors_writeAnchors (tagAnchor (s.ctx.tag vd)) o.anchors k.val k.isLt
      rw [if_neg (by simpa using hk)] at e
      have := s.ctx.vec.deliver_anchors vd o
      simp only [Fin.getElem_fin, this]
      exact e
    · intro m _
      have hm : (s.ctx.vec.deliver vd o).masks = s.ctx.vec.masks := by rw [rest]
      simp only [Ctx.mask, State.retire_ctx_vec, State.setVec_ctx_vec, hm]
    · simp only [State.retire_ctx_vec, State.setVec_ctx_vec]; rw [rest]
    · simp only [State.retire_ctx_vec, State.setVec_ctx_vec]; rw [rest]
    · intro _; simp only [State.retire_ctx_vec, State.setVec_ctx_vec]; rw [rest]
    · intro _; simp only [State.retire_ctx_vec, State.setVec_ctx_vec]; rw [rest]
    · intro _; simp only [State.retire_ctx_vec, State.setVec_ctx_vec]; rw [rest]
    · intro j
      simp only [Ctx.vreg, State.retire_ctx_vec, State.setVec_ctx_vec]
      have e := s.ctx.vec.vecs_writeElems vd o.elems vd
      rw [← VecState.deliver_vecs, if_pos rfl] at e
      rw [e, VReg.get_write]
      exact List.pairwise_map.2 he
    · intro j
      have htag : (s.ctx.vec.deliver vd o).tags = s.ctx.vec.tags := by rw [rest]
      simp only [Ctx.anchorReg, Ctx.tag, State.retire_ctx_vec, State.setVec_ctx_vec]
      have e := s.ctx.vec.anchors_writeAnchors (tagAnchor (s.ctx.tag vd)) o.anchors (tagAnchor (s.ctx.tag vd))
        (Nat.mod_lt _ (by decide))
      rw [if_pos rfl] at e
      have := s.ctx.vec.deliver_anchors vd o
      simp only [htag, this]
      rw [← VReg.get_write _ ha]
      exact congrArg (fun r : VReg => r.get j) e
    · exact s.ctx.vec.deliver_devstat vd o

end Sys2Proof.Machine
end

