-- ==== Sys2Proof/Tests/Slice0.lean ====
section
/-! SUPPORT. Tests: ill-formed terms that `Instr.wellFormed` refuses; the words that the spec's instruction entries give
as examples; the spec's worked results; and for every statement with hypotheses a state that meets them. -/

namespace Sys2Proof.Tests

open Sys2Proof Sys2Proof.Machine

set_option maxRecDepth 100000

/-! ### Terms without an encoding -/

/-- One ill-formed term for each check of `Instr.wellFormed` (R45, R51-R53). -/
theorem test_illFormed_terms_are_refused :
    [Instr.lds 1 2 7 0 0, .ldsa 1 2 7 0 0, .ldsa 1 2 0 5 0, .stsl 1 2 0 6 0, .amoAdd 1 2 3 7 true 0, .amoAnd 1 2 3 5 true 0,
      .amoOr 1 2 3 5 true 0, .amoXor 1 2 3 5 true 0, .amoMin 1 2 3 5 true 0, .amoMax 1 2 3 5 true 0,
      .amoMinn 1 2 3 5 true 0, .amoMaxn 1 2 3 5 true 0, .amoSwap 1 2 3 5 true 0, .amoCas 1 2 3 5 true 0,
      .amoFadd 1 2 3 5 0, .wrc 1 0x005, .wrc 1 0x80D, .wrc 1 0x810, .wrc 1 0x811, .wrc 1 0x820, .wrc 1 0x821,
      .wrc 1 0x830, .wrc 1 0x837, .fence 3 0, .fence 0 5, .setms 3, .vsel 1 2 3 0, .agetc 1 16 2, .agete 1 63 2,
      .aput 1 16 2, .tide 1 0].map Instr.wellFormed = List.replicate 31 false := rfl

def noImage : FirmwareImage := ⟨0, 0, 0, 0, [], [], [], [], [], []⟩

def noFindings : StartFindings := ⟨none, ⟨0, 0, 0, []⟩, 0, [], [], [], [], false⟩

/-- No event has an encoding. -/
theorem test_events_are_refused :
    [Instr.storeRelease, .preempt 0, .cancelDelivery 0, .faultRingRoom 0, .parkResume 0, .consumerWordPoll,
      .rangeCheckerEntry 0, .mxmAccept 0, .mxmAccumulate 0, .copyFinish 0, .engineFault 0, .engineRetry 0,
      .heldStoreRelease 0, .waitlChange 0, .waitlLimit 0, .placementCycle, .streamTransferEnd 0 0, .unitStart 0 0,
      .unitResume 0 0 0, .launchComplete 0 0, .heldUpdateAccept ⟨0, 0, 0, 0, 0, 0, 0, 0⟩, .registerPoisonKill 0,
      .msuAccess ⟨0, [], false, false⟩, .rowClose 0 0, .scrub 0 false, .rowRetire 0 0 0, .remapReload 0 false,
      .freeMapRepair 0 false, .arbiterInterval ⟨[], [], []⟩, .rampBoundary, .energyUpdate, .healthUpdate, .tideHonour 0,
      .tideSplitEffect 0, .headerForward ⟨0, 0⟩, .responseLanding 0, .hostMemRequest ⟨.hbm, 0, false, [], false⟩,
      .peerMemRequest 0 ⟨.hbm, 0, false, [], false⟩, .jevstatWrite 0, .peerbaseWrite 0 0, .doeRequest .firmware,
      .firmwarePush noImage noFindings, .coldStart noImage noFindings, .warmStart noImage noFindings,
      .firmwareFetchTimeout, .bistRequest, .sidebandRead, .unassignedEncoding 0, .poolBlockFetch 0, .msixTableWrite 0 false,
      .straitLaneRetry 0].map Instr.wellFormed = List.replicate 51 false := rfl

/-- The same fields at the last values that the tables allow. -/
theorem test_boundary_terms_are_wellFormed :
    [Instr.lds 1 2 6 0 0, .ldsa 1 2 6 4 0, .stsl 1 2 3 4 0, .amoCas 1 2 3 4 true 3, .amoFadd 1 2 3 4 0, .wrc 1 0x004,
      .wrc 1 0x838, .fence 2 4, .setms 2, .vsel 1 2 3 1, .agetc 1 15 2, .aput 1 15 2, .tide 1 1,
      .tide 1 7].map Instr.wellFormed = List.replicate 14 true := rfl

/-! ### The encodings that the spec writes out, family by family -/

/-- R92-R95 (spec/04). -/
theorem test_decode_integer :
    [0x04811000, 0x0885FFFF, 0x188500BF, 0x08000000].map decodeShort =
      [some (.add 4 1 2), some (.addi 4 5 0xFFFF), some (.srai 4 5 63), some (.addi 0 0 0)] := rfl

theorem test_decode_li :
    decodeWords 0x20A00200 1 = some (.liHi 5 0 1) ∧ decodeWords 0x20A00000 0x12345678 = some (.li 5 0x12345678) :=
  ⟨rfl, rfl⟩

/-- R96-R98, R100 (spec/02, spec/04). -/
theorem test_decode_branch_float :
    [0x40850003, 0x3C60FFFB, 0x50000010, 0x541F0000, 0x58C42800].map decodeShort =
      [some (.blt 4 5 3), some (.bne 3 0 0xFFFB), some (.jal 16), some (.jalr 0 31 0), some (.fadds 6 4 5)] := rfl

/-- R101, R105, R106, R109 (spec/04). -/
theorem test_decode_scalar_memory :
    [0x24E5C810, 0x28E58408, 0x2C85CC00, 0x30C5CC00, 0x34853308, 0x3485339A].map decodeShort =
      [some (.lds 7 5 6 2 16), some (.sts 7 5 2 1 8), some (.ldsa 4 5 6 3 0), some (.stsl 6 5 3 3 0),
        some (.amoAdd 4 5 6 3 true 0), some (.amoCas 4 5 6 3 true 1)] := rfl

/-- The entries of spec/10 for SYS. -/
theorem test_decode_system :
    [0x5C800001, 0x5C051004, 0x5C051832, 0x5C800813, 0x5C002013, 0x5C003005, 0x5C004000, 0x5C005007, 0x5C006000,
      0x5C007000, 0x5C858010, 0x5C009000, 0x5C00A000, 0x5C05B000, 0x5C05C000].map decodeShort =
      [some (.rdc 4 1), some (.wrc 5 4), some (.wrcPoolcfg 5 2), some (.rdc 4 0x813), some (.fence 2 3), some (.sbar 5),
        some .isync, some (.trap 7), some .rett, some .exit, some (.waitl 4 5 16), some .cnvy, some .yield,
        some (.vsave 5), some (.vrstr 5)] := rfl

/-- R114-R119 (spec/05). -/
theorem test_decode_configuration :
    [0x60850001, 0x60000101, 0x60800202, 0x64529000, 0x6880000C, 0x6C000000].map decodeShort =
      [some (.setvl 4 5 0 true), some (.setms 1), some (.vcfg 4 2), some (.vtag 5 2 9), some (.forkl 4 12),
        some .joinl] := rfl

/-- R126-R129, R143-R148, R163 (spec/02, spec/05, spec/06, spec/07). -/
theorem test_decode_vector_arithmetic :
    [0x70404260, 0x7080830C, 0x70108032, 0x74404E00, 0x74404E84, 0x7492460C, 0x7051800E, 0x7051800F, 0x70404277,
      0x70504718, 0x70608039, 0x7060803A, 0x74400E0D, 0x7450860E, 0x7450860F, 0x7030801B, 0x7430CE10].map decodeShort =
      [some (.vadd 4 1 2 3), some (.vfma 8 2 3 0), some (.vsqrt 1 2 1), some (.vadds 4 1 7 0), some (.vfmas 4 1 7 2),
        some (.vsras 9 9 3 0), some (.vmov 5 6 0), some (.vcvt 5 6 0), some (.vsel 4 1 2 3), some (.vgathr 5 1 7 0),
        some (.vcomp 6 2 1), some (.vexpd 6 2 1), some (.vsplat 4 7 0), some (.vslup 5 2 3 0), some (.vsldn 5 2 3 0),
        some (.vscan 3 2 0), some (.vaddc 3 3 7 0)] := rfl

/-- R133, R135, R138-R141, R149 (spec/06). -/
theorem test_decode_masks_and_reductions :
    [0x78C08380, 0x7CC08A00, 0x80053000, 0x80840700, 0x80A80800, 0x84810000, 0x84813100, 0x88811400, 0x88C19410,
      0x880201A0, 0x88030130, 0x88030040, 0x88020150].map decodeShort =
      [some (.vcmpGt 1 2 3 4), some (.vcmpsGt 1 2 5 0), some (.mand 3 1 2), some (.mpopc 4 1), some (.mffs 5 2),
        some (.vredSum 4 2 0), some (.vredMax 4 2 3), some (.vext 4 2 5), some (.vins 6 3 5), some (.vtom 4 3),
        some (.vmtov 6 2), some (.viota 6), some (.vconfl 4 2)] := rfl

/-- R156-R162 (spec/07). -/
theorem test_decode_beads :
    [0x8C504000, 0x8C518041, 0x8C300002, 0x8C808A03, 0x8C808A04, 0x8CC08A05, 0x8C70C006, 0x8C31C007].map decodeShort =
      [some (.vanch 5 1 0), some (.vanchz 5 6 2), some (.vranc 3 0), some (.agetc 4 2 5), some (.agete 4 2 5),
        some (.aput 6 2 5), some (.vdevs 7 3 0), some (.vbead 3 7 0)] := rfl

/-- The tables of spec/08. -/
theorem test_decode_vector_memory :
    [0x90328008, 0x90329809, 0x90328E82, 0x90328003, 0x90328004, 0x94428010, 0x94429801, 0x94428E05, 0x98428EAA,
      0x98428E01, 0x9C800D10, 0x9C040111, 0x9CA00102].map decodeShort =
      [some (.vld 3 5 0 1), some (.vldStrided 3 5 6 0 1), some (.vldIndexed 3 5 7 2 0), some (.vldFirstFault 3 5 0 0),
        some (.vldSc 3 5 0 0), some (.vst 4 5 0 2), some (.vstStrided 4 5 6 0 0), some (.vstScIndexed 4 5 7 0 0),
        some (.vamoFadd 4 5 7 2 2), some (.vamoAdd 4 5 7 0 1), some (.stnl 4 3 2 1), some (.rlq 4 2 1),
        some (.nlfree 5 2)] := rfl

/-- The tables of spec/09. -/
theorem test_decode_engines :
    [0xA8850000, 0xA8851000, 0xA8852000, 0xA8053000, 0xA8854000, 0xAC850000, 0xAC851000, 0xAC002000].map decodeShort =
      [some (.waitany 4 5), some (.waitall 4 5), some (.ffrt 4 5), some (.tagclr 5), some (.tagerr 4 5),
        some (.mxatt 4 5), some (.mxattw 4 5), some .mxdet] ∧
    decodeWords 0xA0E53060 0x00040002 = some (.acopyG2s 7 5 6 3 4 2) ∧
    decodeWords 0xA0E53024 0x0001FF03 = some (.acopyMcast 7 5 6 1 1 0xFF 3) ∧
    decodeWords 0xB0808300 0 = some (.mxm 8 (.vec 2) (.vec 3) 0 false) ∧
    decodeWords 0xB0808040 0x0006B000 = some (.mxm 8 (.vec 2) (.spad 12 13 .d8) 0 false) ∧
    decodeWords 0xB08000C0 0x5806B16A = some (.mxm 8 (.spad 10 11 .d8) (.spad 12 13 .d8) 44 false) ∧
    decodeWords 0xB08000C0 0x0106B16A = some (.mxm 8 (.spad 10 11 .d8) (.spad 12 13 .d8) 0 true) :=
  ⟨rfl, rfl, rfl, rfl, rfl, rfl, rfl⟩

/-- The example of R201. -/
theorem test_decode_agath : decodeWords 0xA472A128 4 = some (.agath 7 5 8 9 2 4) := rfl

/-- The tables of spec/10 for TASK, XFER and SCHD. -/
theorem test_decode_scheduler :
    [0xBD040000, 0xBD401000, 0xBC001001, 0xBC802000, 0xBC853000, 0xBD6A4001, 0xBC055001, 0xBC055007, 0xBC856000,
      0xBC807007, 0xBC858000].map decodeShort =
      [some (.tdep 8 4), some (.graphOpen 10), some .graphClose, some (.phase 4), some (.cnt 4 5 0),
        some (.waitc 11 10 1), some (.cancel 5 1), some (.jobKill 5), some (.job 4 5), some (.tide 4 7),
        some (.rddig 4 5)] ∧
    decodeWords 0xB4850000 1 = some (.task 4 5 1) ∧ decodeWords 0xB8863A00 0x1000 = some (.xferSplit 4 6 7 4096) :=
  ⟨rfl, rfl, rfl⟩

/-- Words that R45, R51 and R52 name as illegal. -/
theorem test_decode_refuses :
    [0x00000000, 0xC0000000, 0xFC000000, 0x04811018, 0x18850040 ||| 0x80, 0x2400E000, 0x3485350A, 0x5C00201B,
      0x60000103, 0x6C000001, 0x78F08380, 0x80053001, 0x90328006, 0x94428003, 0xBC807000, 0xBC055004].map decodeShort =
      List.replicate 16 none := rfl

/-! ### Small states -/

/-- The state after reset with scalar registers set. -/
def machine (rs : List (Reg × Word)) : State := rs.foldl (fun s p => s.setReg p.1 p.2) .reset

/-- The context that moves, changed. -/
def onCtx (s : State) (f : Ctx → Ctx) : State := { s with ctx := f s.ctx }

def userMode (s : State) : State := onCtx s fun c => { c with trap := { c.trap with tstat := 0 } }

/-- VL, tags and register contents. -/
def vectors (s : State) (vl : Nat) (tags : List (VecNo × BitVec 8)) (elems : List (VecNo × List Nat)) : State :=
  onCtx s fun c =>
    let tags := tags.foldl (fun t p => t.set p.1.toNat p.2 p.1.isLt) c.vec.tags
    { c with
      front := ⟨c.vec.vcount, tags⟩
      vec := { c.vec with
        vl := vl, tags := tags
        vecs := elems.foldl (fun t p =>
          t.set p.1.toNat (VReg.zero.write (p.2.mapIdx fun i x => (i, BitVec.ofNat 64 x))) p.1.isLt) c.vec.vecs } }

/-- An instruction that was pushed at 0xFFC. -/
def queuedOf (c : Ctx) (i : Instr) : Queued := ⟨i, 0xFFC, 0, c.regs, c.vec.vl, c.vec.mspace, c.front, 0, none⟩

/-- The vector queue of the context that moves. -/
def queueing (s : State) (is : List Instr) : State :=
  onCtx s fun c => { c with flow := { c.flow with queue := is.map (queuedOf c) } }

def masks (s : State) (ms : List Nat) : State :=
  onCtx s fun c => { c with vec := { c.vec with masks := Vector.ofFn fun i => ms.getD i 0 } }

def anchor (s : State) (k : Fin 16) (w : Word) : State :=
  onCtx s fun c => { c with vec := { c.vec with anchors := c.vec.anchors.set k (VReg.zero.write [(0, w)]) } }

def devpol (s : State) (p : BitVec 2) : State := onCtx s fun c => { c with vec := { c.vec with devpol := p } }

/-- The scratchpad window of the core (R53, R102). -/
def window (off : Nat) : Word := BitVec.ofNat 64 (0xFF * 2 ^ 48 + off)

/-- Memory with a little-endian number stored at a location. -/
def holding (s : State) (loc n v : Nat) : State :=
  { s with mem := s.mem.store ((List.range n).map fun i => ⟨loc + i, 0, BitVec.ofNat 8 (v / 256 ^ i), false, false⟩) }

/-- The 1 GiB page at virtual address 0, mapped with a leaf entry (R311). -/
def mapped (s : State) (leaf : Nat) : State :=
  holding (holding (holding s 0x100000 8 0x101001) 0x101000 8 0x102001) 0x102000 8 leaf

def after {α : Type} (f : State → α) : Out → Option α
  | .next t => some (f t)
  | _ => none

/-- The values of -8 + 5 elements of I8 (R149). -/
def i8s : State := vectors (machine []) 4 [(2, 7), (3, 7)] [(2, [100, 100, 206, 7])]

/-! ### The spec's worked results -/

/-- The division table of R92. -/
theorem test_division :
    let s := machine [(1, -7), (2, 2), (3, 5), (4, 0x8000000000000000), (5, -1), (6, 7), (7, -2)]
    [exec (.div 8 1 2) s, exec (.rem 8 1 2) s, exec (.div 8 6 7) s, exec (.rem 8 6 7) s, exec (.div 8 3 0) s,
      exec (.rem 8 3 0) s, exec (.divn 8 3 0) s, exec (.remn 8 3 0) s, exec (.div 8 4 5) s, exec (.rem 8 4 5) s].map
        (after fun t => t.reg 8) =
      [some (-3), some (-1), some (-3), some 1, some (-1), some 5, some (-1), some 5, some 0x8000000000000000,
        some 0] := by decide

/-- FCVTSI and FCVTIS of R100. -/
theorem test_float_conversion :
    let s := machine [(1, 0x7F800000), (2, 0x40200000), (3, 16777217)]
    [exec (.fcvtsi 4 1) s, exec (.fcvtsi 4 2) s, exec (.fcvtis 4 3) s].map (after fun t => t.reg 4) =
      [some 0x7FFFFFFFFFFFFFFF, some 2, some 0x4B800000] := by decide

/-- VREDSUM and VREDMAX of the I8 table of R149. -/
theorem test_reduction :
    after (fun t => t.reg 4) (exec (.vredSum 4 2 0) i8s) = some 0xFFFFFFFFFFFFFF9D ∧
    after (fun t => t.reg 4) (exec (.vredMax 4 2 3) (masks i8s [0, 0, 0, 12])) = some 7 := by decide

/-- VSCAN of the I8 table of R149. -/
theorem test_scan :
    after (fun t => (List.range 4).map (t.ctx.elem 3)) (exec (.vscan 3 2 0) i8s) =
      some [100, 200, 150, 157] := by decide

/-- The VLMAX of R62: 96 of REGS and 64 lanes give 3,024 with 32 FP32 registers. -/
theorem test_vlmax : vlmaxOf 0x26060 64 32 (List.replicate 64 0) = 3024 := by decide

/-- The check value of the CRC and the record of R246. -/
theorem test_digest :
    crc64 [0x31, 0x32, 0x33, 0x34, 0x35, 0x36, 0x37, 0x38, 0x39] = 0x6C40DF5F0B497347 ∧
    digestOf (Hit.puts ⟨0x4004, 0x0000004000001004, some ⟨0, 0, 4096, []⟩, ⟨0, false, 0, 0⟩⟩ 4 0x12345678) =
      crc64 [0x00, 0x10, 0x00, 0x00, 0x40, 0x00, 0x00, 0x00, 0xF0, 0, 0, 0, 0, 0x78, 0x56, 0x34, 0x12] := by decide

/-- The rod of R60: its anchor word is its first eight bytes. -/
theorem test_rod_bytes :
    (rodBytes .d8 0x000700FD3FC00000 [0, 1, 255, 127, 129, 128]).take 14 =
      [0x00, 0x00, 0xC0, 0x3F, 0xFD, 0x00, 0x07, 0x00, 0x00, 0x01, 0xFF, 0x7F, 0x81, 0x80] := by decide

/-- V1 of the fresh and stale scale of spec/07: the FP32 values 0.25 j + k. -/
def ramp (k : Int) : List Nat := (List.range 56).map fun j => fp32.round ((Exact.ofInt (j + 4 * k)).mul (.num false 1 (-2)))

def beads (k : Int) : State := vectors (machine []) 56 [(5, 0x29)] [(1, ramp k)]

/-- VANCH of the first strip gives the anchor word of spec/07, and VCVT against it 4 j - 110. -/
theorem test_fresh_scale :
    after (fun t => (t.ctx.anchorReg 5).get 0) (exec (.vanch 5 1 0) (beads (-3))) = some 0x000100FC40780000 ∧
    after (fun t => [t.ctx.elem 5 0, t.ctx.elem 5 55, ((t.ctx.anchorReg 5).get 0).toNat])
      (exec (.vcvt 5 1 0) (anchor (beads (-3)) 2 0x000100FC40780000)) = some [256 - 110, 110, 0x000100FC40780000] := by
  decide

/-- The stale scale of spec/07: DEVPOL 0 traps at element 52, DEVPOL 1 saturates, DEVPOL 2 forms the rod anew. -/
theorem test_stale_scale :
    let s := anchor (beads (-1)) 2 0x000100FC40780000
    let seen := fun t : State => [t.ctx.elem 5 0, t.ctx.elem 5 51, t.ctx.elem 5 52, ((t.ctx.anchorReg 5).get 0).toNat,
      t.ctx.vec.devstat.toNat]
    after (fun t => (t.ctx.trap.tcause, t.ctx.trap.tval)) (exec (.vcvt 5 1 0) s) = some (9, 52) ∧
    after seen (exec (.vcvt 5 1 0) (devpol s 1)) = some [256 - 78, 126, 127, 0x000101FC40780000, 2 ^ 63 + 4] ∧
    after seen (exec (.vcvt 5 1 0) (devpol s 2)) =
      some [256 - 110, 94, 98, 0x000200FC40BC0000, 2 ^ 63 + 2 ^ 32] := by decide

/-! ### States that meet the hypotheses of the statements -/

/-- The word of ADD S4, S1, S2, fetched by the control program. -/
def fetchAdd : State := (machine []).withFetchWord 32 0x04811000

theorem witness_DecodeReadsEveryEncodedInstruction : (Instr.vsel 4 1 2 3).wellFormed = true := rfl

theorem witness_DecodedBytesAreTheEncoding :
    decode [0x00, 0x10, 0x81, 0x04, 0xFF] = .ok (.add 4 1 2, [0xFF]) := rfl

/-- The turn of the agenda, and the machine's own. -/
theorem issues_fetchAdd :
    let own : State := { fetchAdd with agenda := [] }
    IssueTurn fetchAdd own false ∧ IssueTurn own own false :=
  ⟨⟨by decide, by decide, by decide, by decide, .inl ⟨0, [], fetchAdd.ctx, by decide, by decide, by decide⟩⟩,
    ⟨by decide, by decide, by decide, by decide, .inr ⟨rfl, rfl, by decide, fetchAdd.ctx, by decide, by decide⟩⟩⟩

theorem witness_StepRunsTheFetchedInstruction_next :
    (let f : State := { fetchAdd with agenda := [] }
     IssueTurn fetchAdd f false ∧ (f.issued.fetch f.issued.ctx).1 = .ok (.add 4 1 2) 4 ∧ f.ctx.flow.queue = []) ∧
    after (fun t => (t.ctx.pc, t.tick)) (step fetchAdd) = some (0x1004, 1) :=
  ⟨⟨issues_fetchAdd.1, by decide, rfl⟩, by decide⟩

theorem witness_StepRunsTheFetchedInstruction_words :
    ((fetchAdd.fetchWord fetchAdd.ctx 0x1000).map (·.1)).toOption = some 0x04811000 ∧
      isLongMajor (majorOf 0x04811000) = false ∧ decodeShort 0x04811000 = some (.add 4 1 2) ∧
      (let s := (machine []).withFetchWord 64 0x0000000120A00200
       ((s.fetchWord s.ctx 0x1000).map (·.1)).toOption = some 0x20A00200 ∧
         isLongMajor (majorOf 0x20A00200) = true ∧ ((s.fetchWord s.ctx 0x1004).map (·.1)).toOption = some 1 ∧
         decodeWords 0x20A00200 1 = some (.liHi 5 0 1)) := by decide

theorem witness_StepRunsTheFetchedInstruction_bad :
    (let s := (machine []).withFetchWord 32 0; (s.fetch s.ctx).1 = .illegal 0 ∧ s.ctx.flow.handlerFirst = false) ∧
    (let s := (machine []).withFetchWord 32 0xFC000000; (s.fetch s.ctx).1 = .pool 0x1000) := by decide

/-- A mark of TIME; an event of the agenda; a core of which no context takes a turn; no context that does; PREEMPT before an
issue turn and before the turn of a lane group; and an event that is due. -/
theorem witness_StepRunsTheFetchedInstruction_turns :
    (({ fetchAdd with dev := { fetchAdd.dev with clock := ⟨1900, 0⟩ } } : State).dueMark = some .ramp) ∧
    Instr.storeRelease.isEvent = true ∧
    (let s := onCtx { fetchAdd with agenda := [] } fun c => { c with flow := { c.flow with status := .parked 0 } }
     s.onCore 0 ≠ [] ∧ s.firstOf (s.onCore 0) = none ∧ s.firstOf s.contexts = none ∧ (∀ x ∈ s.chances, s.due x = false)) ∧
    (let s := onCtx { fetchAdd with agenda := [] } fun c => { c with flow := { c.flow with preemptPending := true } }
     (s.firstOf (s.onCore 0)).map (·.num) = some 0 ∧ (s.focus 0).isSome = true ∧ (s.summons 0).isSome = true ∧
       (s.findCtx 0).map (·.flow.cancelPending) = some false ∧ (s.chances.find? s.due).isSome = true) := by decide

/-- The context that has waited longest goes first, and of two the one of the lower number. -/
theorem witness_StepRunsTheFetchedInstruction_first :
    let at' := fun (slot : BitVec 4) (n : Option Nat) =>
      { fetchAdd.ctx with
        place := { fetchAdd.ctx.place with slot := slot }, flow := { fetchAdd.ctx.flow with eligible := n } }
    let first := fun (a b : Ctx) =>
      let s : State := { fetchAdd with ctx := a, others := [b], agenda := [] }
      (s.firstOf (s.onCore 0)).map (·.num)
    first (at' 0 none) (at' 1 (some 0)) = some 0 ∧ first (at' 1 none) (at' 0 (some 0)) = some 0 := by decide

/-- The instruction of a word behind one in the vector queue. -/
def behind (w : Nat) (i : Instr) : State := queueing ((machine []).withFetchWord 32 w) [i]

def queueSeen (t : State) : Pc × List Nat := (t.ctx.pc, t.ctx.flow.queue.map (·.undo))

/-- Behind a VADD, which its lane group takes: an ADD; a VST, which is pushed; a FENCE, which is no instruction of the scalar
thread, and waits; a VTAG, whose push makes an entry of the undo log. -/
theorem witness_StepRunsTheFetchedInstruction_queue :
    [step (behind 0x04811000 (.vadd 4 1 2 0)), step { behind 0x04811000 (.vadd 4 1 2 0) with agenda := [.lanes 0] },
      step (behind 0x94208000 (.vadd 4 1 2 0)), step (behind 0x5C002013 (.vadd 4 1 2 0)),
      step (behind 0x64529000 (.vadd 4 1 2 0))].map (after queueSeen) =
      [some (0x1004, [1]), some (0x1000, []), some (0x1004, [0, 0]), some (0x1000, [0]), some (0x1004, [0, 1])] := by decide

/-- An ADD that reads S1 waits behind a VEXT to S1, and a SETVL behind a first-fault load. -/
theorem witness_StepRunsTheFetchedInstruction_held :
    [step (behind 0x04811000 (.vext 1 2 3)), step (behind 0x60850001 (.vldFirstFault 2 1 0 0))].map (after queueSeen) =
      [some (0x1000, [0]), some (0x1000, [0])] := by decide

theorem witness_heldUp :
    (queueing (machine []) [.vext 1 2 3]).ctx.flow.heldUp (.add 4 1 2) ∧
    (queueing (machine []) [.vldFirstFault 2 1 0 0]).ctx.flow.heldUp (.setvl 4 1 2 false) ∧
    ¬ (queueing (machine []) [.vadd 4 1 2 0]).ctx.flow.heldUp (.add 4 1 2) := by
  refine ⟨.inl ⟨rfl, 1, by decide, by decide, _, List.mem_cons_self, rfl, by decide⟩,
    .inr ⟨⟨_, List.mem_cons_self, rfl⟩, .inr ⟨_, _, _, _, rfl⟩⟩, ?_⟩
  simp [Flow.heldUp, queueing, queuedOf, onCtx, resultRegs, firstFaultLoad]

/-- A VST that waits for a slot is pushed; at the head of the queue it waits there, and the VEXT behind it starts, and gives S4
before its turn. -/
theorem witness_StepRunsTheFetchedInstruction_pipes :
    let owes := fun s : State => onCtx s fun c => { c with flow := { c.flow with owed := [⟨0, 0, 0⟩] } }
    let s := owes (queueing (vectors (machine [(1, window 0)]) 4 [] [(2, [7])]) [.vst 3 1 0 0, .vext 4 2 0])
    let turn : State := { s with agenda := [.lanes 0] }
    after (fun t => (t.ctx.pc, t.ctx.flow.queue.length)) (step (owes ((machine [(1, window 0)]).withFetchWord 32 0x94208000))) =
      some (0x1004, 1) ∧
    (s.startEarly exec 0).isSome = true ∧
    after (fun t => (t.reg 4, t.ctx.flow.queue.map (·.early), t.ctx.pc == s.ctx.pc)) (step turn) =
      some (7, [none, some 0], true) := by decide

theorem witness_StepKeepsMemoryCanonical : fetchAdd.mem.wf ∧ (after (·.tick) (step fetchAdd)).isSome = true := by decide

theorem reset_vec_wf : State.reset.ctx.vec.wf := ⟨by decide, by decide⟩

theorem witness_StepKeepsContextsLegal : State.reset.legal ∧ (after (·.tick) (step State.reset)).isSome = true :=
  ⟨⟨fun c hc => by
      rw [State.contexts, show State.reset.others = [] from rfl, List.mem_singleton] at hc
      subst hc
      have h : ∀ i : Fin 64, (tagType State.reset.ctx.vec.tags[i]).isBead = false := by decide
      have f : Front.wf ⟨State.reset.ctx.vec.vcount, State.reset.ctx.vec.tags⟩ :=
        ⟨by decide, fun i _ _ hi => absurd (hi.symm.trans (h i)) (by decide)⟩
      exact ⟨reset_vec_wf, by decide, f, f, by decide, by decide, by decide, Nat.zero_le _, by decide, by decide,
        fun _ hq => nomatch (show _ ∈ ([] : List Queued) from hq)⟩,
    fun p hp => by simp [State.reset, Dev.started] at hp, List.pairwise_singleton _ _, by decide, by decide, by decide⟩,
    by decide⟩

/-- JALR: the last target, one that is not aligned, and the first beyond 56 bits. -/
theorem witness_BranchesAndJumpsGoToTheirTargets :
    let target := fun v : Word => (machine [(1, v)]).reg 1 + 4 * (0 : BitVec 16).signExtend 64
    ((target 0xFFFFFFFFFFFFFC).toNat % 4 = 0 ∧ (target 0xFFFFFFFFFFFFFC).toNat < 2 ^ 56) ∧ (target 2).toNat % 4 ≠ 0 ∧
      ((target 0x100000000000000).toNat % 4 = 0 ∧ 2 ^ 56 ≤ (target 0x100000000000000).toNat) := by decide

/-! #### Scalar accesses -/

/-- S1 names the last word of the scratchpad of the core. -/
def lastWord : State := machine [(1, window 0x3FFFF8), (2, 0x1122334455667788)]

def lastHit : Hit := ⟨spadLoc 0 0x3FFFF8, window 0x3FFFF8, none, lastWord.ctx.space⟩

def buffered (s : State) (bs : List (Nat × Byte)) : State :=
  onCtx s fun c => { c with flow := { c.flow with storeBuf := [⟨0, bs.map fun p => ⟨p.1, 0, p.2, false, false⟩, false, 0⟩] } }

theorem lastHit_marks (a : Nat) : ¬ lastHit.marks a := fun ⟨_, h, _⟩ => nomatch h

/-- What a translation gives is a hit with the property `p`. -/
def hits {ε : Type} (e : Except ε Hit) (p : Hit → Bool) : Bool :=
  match e with
  | .ok h => p h
  | .error _ => false

theorem of_hits {ε : Type} {e : Except ε Hit} {p : Hit → Bool} (h : hits e p = true) : ∃ x, e = .ok x ∧ p x = true := by
  cases e with
  | error _ => cases h
  | ok x => exact ⟨x, rfl, h⟩

/-- No byte of the `n` that an access names is the flag byte of its page-table entry. -/
def unmarked (n : Nat) (h : Hit) : Bool := (List.range n).all fun i => h.leaf.all fun l => l.pteLoc + 1 != h.loc + i

theorem of_unmarked {n : Nat} {h : Hit} (u : unmarked n h = true) : ∀ i < n, ¬ h.marks (h.loc + i) := by
  rintro i hi ⟨l, hl, e⟩
  have := List.all_eq_true.mp u i (List.mem_range.mpr hi)
  simp [hl, e] at this

/-- A load from memory, from the buffer, and across both; poisoned data; one in whose way stands an entry of another stream
that a load was answered from; and one that the write buffer of the core answers. -/
theorem witness_LoadsReturnTheStoredBytes :
    (let s := lastWord
     s.locate .read 8 (s.reg 1 + (0 : BitVec 10).signExtend 64) = .ok lastHit ∧
      (∀ i < 8, bufferedByte s.ctx.flow.storeBuf 0 (lastHit.loc + i) = none) ∧ lastHit.loc / 2 ^ 52 ≠ 3 ∧
      s.slotless lastHit = false ∧ s.poisonedHere lastHit.loc 8 = false) ∧
    (let s : State := { lastWord with mem := lastWord.mem.mark lastHit.loc }
     s.locate .read 8 (s.reg 1 + (0 : BitVec 10).signExtend 64) = .ok lastHit ∧ s.poisonedHere lastHit.loc 8 = true) ∧
    (let s := onCtx lastWord fun c => { c with flow := { c.flow with storeBuf := [⟨1, [], true, 0⟩] } }
     ∃ e ∈ s.ctx.flow.storeBuf, e.stream ≠ 0 ∧ e.seen = true) ∧
    ((machine []).send [⟨0, 8, 8⟩]).bufferAnswers 0 8 8 = true ∧
    (let s := buffered lastWord ((List.range 8).map fun i => (lastHit.loc + i, 7))
     s.locate .read 8 (s.reg 1 + (0 : BitVec 10).signExtend 64) = .ok lastHit ∧
      ∀ i < 8, bufferedByte s.ctx.flow.storeBuf 0 (lastHit.loc + i) = (List.replicate 8 (7 : Byte))[i]?) ∧
    (let s := buffered lastWord [(lastHit.loc, 7)]
     s.locate .read 8 (s.reg 1 + (0 : BitVec 10).signExtend 64) = .ok lastHit ∧
      bufferedByte s.ctx.flow.storeBuf 0 lastHit.loc ≠ none ∧
      bufferedByte s.ctx.flow.storeBuf 0 (lastHit.loc + 1) = none ∧ (∃ e ∈ s.ctx.flow.storeBuf, e.stream = 0) ∧
      s.drain.poisonedHere lastHit.loc 8 = false ∧ s.drain.slotless lastHit = false) := by
  decide

/-- A name is fresh where no skerry was ever given; one that was given twice is stale for every job but the last owner. -/
theorem witness_freshNames :
    lastWord.freshNames lastHit.loc 8 ∧
    (let s := lastWord
     let given : State := { s with dev := { s.dev with msu := { s.dev.msu with given := [⟨0, 512, 7⟩, ⟨0, 512, 0⟩] } } }
     given.stale 0 8 = true ∧ given.stale 7 8 = false ∧ given.stale 9 8 = true) :=
  ⟨by unfold State.freshNames; decide, by decide⟩

/-- A load from host memory, with a request slot free and with none: the page of kind 11 at virtual address 0. -/
theorem witness_LoadsReturnTheStoredBytes_host :
    let s := mapped (machine []) 0xC0B
    let full := onCtx s fun c => { c with flow := { c.flow with slots := 8 } }
    ∃ h : Hit, s.locate .read 8 (s.reg 0 + (0 : BitVec 10).signExtend 64) = .ok h ∧
      (h.loc / 2 ^ 52 = 3 ∧ s.drain.poisonedHere h.loc 8 = false ∧ s.slotless h = false ∧ full.slotless h = true) ∧
      ∀ i < 8, ¬ h.marks (h.loc + i) := by
  intro s full
  obtain ⟨h, e, p⟩ := of_hits (e := s.locate .read 8 (s.reg 0 + (0 : BitVec 10).signExtend 64))
    (p := fun h => decide (h.loc / 2 ^ 52 = 3 ∧ s.drain.poisonedHere h.loc 8 = false ∧ s.slotless h = false ∧
      full.slotless h = true) && unmarked 8 h) (by decide)
  rw [Bool.and_eq_true, decide_eq_true_eq] at p
  exact ⟨h, e, p.1, of_unmarked p.2⟩

theorem witness_StoresWriteTheirBytes :
    lastWord.mem.wf ∧ lastWord.locate .write 8 (lastWord.reg 1 + (0 : BitVec 10).signExtend 64) = .ok lastHit ∧
      lastWord.slotless lastHit = false ∧ lastWord.ctx.flow.ahead = false ∧ ∀ i < 8, lastWord.dev.fencedAt (lastHit.loc + i) = false :=
  by decide

/-- A store on a fenced channel, and one ahead of the vector commit pointer. -/
theorem witness_StoresWriteTheirBytes_fenced_ahead :
    (let s0 := mapped (machine []) 0xB
     let s : State := { s0 with dev := { s0.dev with msu := { s0.dev.msu with fenced := [0] } } }
     s.mem.wf ∧ hits (s0.locate .write 8 (s0.reg 0 + (0 : BitVec 10).signExtend 64))
       (fun h => (List.range 8).all fun i => s.dev.fencedAt (h.loc + i)) = true) ∧
    (onCtx lastWord fun c => { c with flow := { c.flow with ahead := true } }).ctx.flow.ahead = true := by
  decide

theorem witness_AtomicsReadModifyWrite :
    lastWord.mem.wf ∧ lastWord.probe .atomic 8 (lastWord.reg 1) = .ok lastHit ∧
      lastWord.probe .atomic 4 (lastWord.reg 1) = .ok lastHit ∧ lastWord.poisonedHere lastHit.loc 8 = false ∧
      ({ lastWord with mem := lastWord.mem.mark lastHit.loc } : State).poisonedHere lastHit.loc 8 = true :=
  by decide

/-- Every way a scalar access stops, with the ring enabled and disabled. -/
theorem witness_ScalarAccessesStopInOrder :
    (window 1).toNat % 8 ≠ 0 ∧
    (machine []).resolve State.reset.ctx.space .read (window 0x400000) = .error .access ∧
    ({ machine [] with mem := (machine []).mem.mark 0x100000 } : State).resolve State.reset.ctx.space .read 0 =
      .error .poison ∧
    (machine []).resolve State.reset.ctx.space .read 0 = .error (.fault 1) ∧ (machine []).ringOn = false ∧
    (let s := mapped (machine []) 0xB
     hits (s.resolve s.ctx.space .read 0)
       (fun h => h.leaves s.ctx.place.coreNo && decide (h.loc / 2 ^ 52 ≠ 3)) = true) ∧
    (window 0x3FFFFF).toNat = 0xFF * 2 ^ 48 + 0 * 2 ^ 24 + 0x3FFFFF ∧
    0x3FFFFF < ((machine []).core 0).spadBytes ∧ ¬ 0x400000 < ((machine []).core 0).spadBytes :=
  ⟨by decide, by decide, by decide, by decide, by decide, by decide, by decide, by decide, by decide⟩

/-! #### Traps and control registers -/

theorem witness_RettReturnsFromATrap :
    (machine []).ctx.user = false ∧ (machine []).mxmPending allVecs = false ∧ (machine []).ctx.flow.evicting = false ∧
      (machine []).ctx.trap.tstat.getLsbD 2 = false ∧
      (onCtx (machine []) fun c => { c with flow := { c.flow with evicting := true } }).ctx.flow.evicting = true ∧
      ((machine []).takeTrap .soft 0).ctx.trap.tstat.getLsbD 2 = true := by decide

theorem witness_PrivilegedInstructionsTrapInUserMode :
    (userMode (machine [])).ctx.user = true ∧ 0x800 ≤ (0x800 : BitVec 12).toNat := by decide

/-- The fault ring of 64 slots at location 0. -/
def ringOn : State := { machine [] with dev := { State.reset.dev with ring := ⟨0, 6, 0, 0, 0⟩ } }

theorem witness_ParkingWritesARecord :
    ringOn.mem.wf ∧ ringOn.ringOn = true ∧ ringOn.observe.dev.ring.room = true ∧
      ringOn.observe.dev.ring.prod = ringOn.observe.dev.ring.cons := by decide

theorem witness_control_registers :
    ((machine []).ctx.user = true → (0x80C : BitVec 12).toNat < 0x800) ∧ (0x014 : BitVec 12) ∉ controlRegisters ∧
      ((userMode (machine [])).ctx.user = true → (0x013 : BitVec 12).toNat < 0x800) := by decide

/-- WRC of the device's registers: the values at the ends of their ranges. -/
theorem witness_WrcWritesTheDevicesRegister :
    (machine []).ctx.user = false ∧
      [0, 5, 6, 20, 21].map (fun n : Nat => decide (n ≠ 0 ∧ (n < 6 ∨ 20 < n))) = [false, true, false, false, true] ∧
      poolGroups 0x0F00000000000001 ≠ 0 ∧ poolMask 0xFF00000000000001 ≠ 0 := by decide

/-! #### Configuration, lane groups, waiting and saving -/

def next (i : Instr) (s : State) : State := (after id (exec i s)).getD s

theorem ready (s : State) (vs : List VecNo) (h : (∀ v ∈ vs, v.toNat < s.ctx.front.vcount) ∧ s.ctx.ownsVector = true ∧
    s.mxmPending vs = false) : QueueReady s vs := ⟨h.1, h.2.1, h.2.2⟩

/-- V31 is the last register of the 32 of reset. -/
theorem witness_QueueReady : QueueReady (machine []) [31, 0, 1] := ready _ _ (by decide)

/-- A D4 register, a D8 register and neither, for SETVL on demand. -/
theorem witness_SetvlSetmsAndVcfgConfigure :
    (let s := vectors (machine []) 0 [(31, 10)] []; (31 : VecNo).toNat < s.ctx.front.vcount ∧ tagType (s.ctx.front.tags[31]) = .d4) ∧
    (let s := vectors (machine []) 0 [(31, 9)] []
     (31 : VecNo).toNat < s.ctx.front.vcount ∧ tagType (s.ctx.front.tags[31]) = .d8 ∧
       ∀ i : Fin 64, tagType s.ctx.front.tags[i] ≠ .d4) ∧
    (∀ i : Fin 64, tagType (machine []).ctx.front.tags[i] ≠ .d4 ∧ tagType (machine []).ctx.front.tags[i] ≠ .d8) ∧
    (2 : BitVec 2) ≠ 3 ∧ (machine []).ctx.ownsVector = true ∧ (machine []).mxmPending allVecs = false := by decide

/-- A reserved type, an anchor without a bead type, the tag that stands, and another. -/
theorem witness_VtagGivesATag :
    ¬ ((11 : BitVec 4).toNat ≤ 10) ∧ ¬ ((1 : BitVec 4) = 0 ∨ 9 ≤ (8 : BitVec 4).toNat) ∧
      ((10 : BitVec 4).toNat ≤ 10 ∧ ((15 : BitVec 4) = 0 ∨ 9 ≤ (10 : BitVec 4).toNat)) ∧
      (machine []).ctx.tag 31 = (0 : BitVec 4) ++ (0 : BitVec 4) ∧
      (machine []).ctx.tag 31 ≠ (15 : BitVec 4) ++ (10 : BitVec 4) ∧
      (∀ v : VecNo, ((machine []).ctx.tag v).toNat % 16 < 9) ∧ (machine []).ctx.front.tags = (machine []).ctx.vec.tags := by
  decide

def fork : State := next (.forkl 4 12) (machine [])

theorem witness_ForklSplitsTheLaneGroup :
    (let c := (machine []).ctx
     128 ≤ c.place.lanes ∧ c.flow.child = none ∧ (machine []).freeSlot c.place.isle c.place.core = some 1) ∧
    fork.ctx.flow.child ≠ none ∧ fork.ctx.place.lanes = 512 ∧
    (onCtx (machine []) fun c => { c with place := { c.place with lanes := 64 } }).ctx.place.lanes < 128 := by decide

def childEnded : State := onCtx fork fun c => { c with flow := { c.flow with childEnded := true } }

theorem witness_ContextsJoinAndEnd :
    (childEnded.mxmPending allVecs = false ∧ childEnded.ctx.flow.child ≠ none ∧ childEnded.ctx.flow.childEnded = true ∧
      childEnded.childBusy childEnded.ctx = false ∧ ({ childEnded with others := [] } : State).childLanes fork.ctx = false ∧
      childEnded.childLanes fork.ctx = true) ∧
    (fork.ctx.flow.child ≠ none ∧ fork.ctx.flow.childEnded = false) ∧
    (let c := fork.others.headD fork.ctx; c.flow.child = none ∧ c.flow.parent ≠ none ∧ c.flow.status = .running) ∧
    ((machine []).ctx.flow.child = none ∧ (machine []).ctx.flow.parent = none ∧
      (machine []).ctx.flow.status = .running) := by decide

/-- WAITL at once, at its limit, and while neither has come. -/
theorem witness_WaitlReturnsAChangedValue :
    (lastWord.probe .read 8 (lastWord.reg 1) = .ok lastHit ∧ lastWord.poisonedHere lastHit.loc 8 = false ∧
      BitVec.ofNat 64 (lastWord.mem.number lastHit.loc 8) ≠ lastWord.reg 2 ∧
      BitVec.ofNat 64 (lastWord.mem.number lastHit.loc 8) = lastWord.reg 4) ∧
    (let s0 := onCtx lastWord fun c => { c with flow := { c.flow with waitStart := some 0 } }
     let s : State := { s0 with dev := { s0.dev with clock := ⟨1024, 0⟩ } }
     s.ctx.flow.waitStart = some 0 ∧ 0 + 1024 * (1 : BitVec 12).toNat ≤ s.dev.clock.cycles) := by decide

/-- The smallest vector configuration: 8 FP32 registers over 64 lanes of one unit of REGS. -/
def small : State := onCtx (machine [(1, window 0), (2, window 32)]) fun c =>
  { c with place := { c.place with lanes := 64 }, origin := { c.origin with part := 0x00FF01 }
           vec := { c.vec with vcount := 64 }, front := { c.front with vcount := 64 } }

/-- Where the parts of an area lie that can be accessed; they lie in no translated page where `clear` holds. -/
def areaOf (s : State) (need : Need) (a : Word) (n : Nat) : List (Hit × Nat) :=
  ((s.areaHits need (areaParts a n)).toOption).getD []

def stops (s : State) (need : Need) (a : Word) (n : Nat) : Bool := !(s.areaHits need (areaParts a n)).isOk

def untranslated (hs : List (Hit × Nat)) : Bool := hs.all fun h => h.1.leaf.isNone

theorem witness_VsaveWritesTheSaveArea :
    small.ctx.user = false ∧ small.mxmPending allVecs = false ∧ small.mem.wf ∧ (small.reg 1).toNat % 64 = 0 ∧
      (small.reg 2).toNat % 64 ≠ 0 ∧ small.ctx.vlmax = 0 ∧ small.ctx.eng.grant < 2 ^ 64 ∧
      (let n := areaSize small.ctx.vlmax small.ctx.vec.vcount (widest small.ctx.vec.tags.toList small.ctx.vec.vcount)
       stops small .write (small.reg 1) n = false ∧ stops small .write (window 0x400000) n = true) ∧
      small.dev.fencedAt (spadLoc 0 0) = false := by decide

/-- A header with 64 registers and VLMAX 0, one with an illegal tag, one that does not fit, and an area that stops. -/
theorem witness_VrstrLoadsTheSaveArea :
    (let s := holding small (spadLoc 0 8) 8 64
     let head := areaOf s .read (s.reg 1) 128
     let hb := s.areaBytes 0 head
     let n := areaSize 0 64 (widest ((hb.drop 64).take 64) 64)
     stops s .read (s.reg 1) 128 = false ∧ untranslated head = true ∧ fieldAt hb 8 8 = 64 ∧
       (∀ g ∈ (hb.drop 64).take 64, tagValid g = true) ∧
       vlmaxOf s.ctx.origin.part s.ctx.place.lanes 64 ((hb.drop 64).take 64) = fieldAt hb 48 8 ∧
       stops s .read (s.reg 1) n = false ∧ untranslated (areaOf s .read (s.reg 1) n) = true ∧
       stops s .read (window (0x400000 - 128)) n = true) ∧
    (let s := holding small (spadLoc 0 64) 1 11
     ∃ g ∈ ((s.areaBytes 0 (areaOf s .read (s.reg 1) 128)).drop 64).take 64, tagValid g = false) ∧
    (let hb := small.areaBytes 0 (areaOf small .read (small.reg 1) 128)
     (∀ g ∈ (hb.drop 64).take 64, tagValid g = true) ∧ fieldAt hb 8 8 = 0) ∧
    stops small .read (window 0x400000) 128 = true := by decide +kernel

/-! #### Vector arithmetic -/

/-- D8 registers V1 and V2 over anchors A1 and A2, with a whole rod and with part of one. -/
def rods (vl : Nat) : State := vectors (machine []) vl [(1, 0x19), (2, 0x29), (3, 0x39)] []

theorem rodsFit_of_vlFits {c : Ctx} {ts : List ElemType} (h : c.vlFits ts = true) : c.rodsFit ts := by
  unfold Ctx.vlFits at h
  constructor
  · intro h4
    rw [if_pos (by simpa using h4)] at h
    simpa using h
  · intro h8
    split_ifs at h with h4 h8'
    · have : c.vec.vl % 112 = 0 := by simpa using h
      omega
    · simpa using h
    · exact absurd (by simpa using h8) h8'

theorem witness_VectorResultsAreDelivered :
    QueueReady (rods 56) [3, 1, 2] ∧
    (vectors (machine []) 1 [(1, 2)] []).ctx.opType .add 3 1 (.vec 2) = none ∧
    ((machine []).ctx.opType .and 3 1 (.vec 2) = some .fp32 ∧ VOp.and.allows .fp32 = false) ∧
    ((rods 55).ctx.opType .add 3 1 (.vec 2) = some .d8 ∧ VOp.add.allows .d8 = true ∧ ¬ (rods 55).ctx.rodsFit [.d8]) ∧
    ((rods 56).ctx.opType .add 3 1 (.vec 2) = some .d8 ∧ (rods 56).ctx.rodsFit [.d8]) :=
  ⟨ready _ _ (by decide), by decide, by decide, ⟨by decide, by decide, fun h => absurd (h.2 (by decide)) (by decide)⟩,
    by decide, rodsFit_of_vlFits (by decide)⟩

/-- The operation type of two bead registers, of two floating types, and of two integers of different widths. -/
theorem witness_VectorResultsAreDelivered_types :
    OpTypeIs (rods 56).ctx .add 3 1 (.vec 2) .d8 ∧ DispatchIs .bf16 .fp32 .fp32 ∧ DispatchIs .i8 .i32 .i32 ∧
      DispatchIs .d4 .fp32 .fp32 :=
  ⟨.inl ⟨by decide, by decide⟩, by unfold DispatchIs; decide, by unfold DispatchIs; decide, by unfold DispatchIs; decide⟩

/-- Each condition of the moves, conversions and bead instructions, met and not met; VINS below and at VL. -/
theorem witness_VectorResultsAreDelivered_moves :
    ((machine []).ctx.typ 3 = (machine []).ctx.typ 1 ∧ (rods 56).ctx.typ 3 ≠ (machine []).ctx.typ 1) ∧
    ((rods 56).ctx.typ 3).isBead = true ∧ ((machine []).ctx.typ 3).isBead = false ∧
    (let s := vectors (machine []) 56 [(3, 0x39), (1, 7)] []
     (s.ctx.typ 3).isBead = true ∧ (s.ctx.typ 1).isInt = true) ∧
    (let s := vectors (machine [(5, 55), (6, 56)]) 56 [(3, 0x39)] []
     s.ctx.vlFits [.d8] = true ∧ s.ctx.vec.vl ≤ (s.reg 6).toNat ∧ (s.reg 5).toNat < s.ctx.vec.vl) := by decide

/-- An overflow event under DEVPOL 0 and under DEVPOL 1. -/
theorem witness_Delivers :
    (let s := anchor (beads (-1)) 2 0x000100FC40780000
     (s.ctx.convertOut 5 1 0).event = some 52 ∧ s.ctx.vec.devpol = 0 ∧ (devpol s 1).ctx.vec.devpol ≠ 0) ∧
    ((beads (-1)).ctx.anchorOut false 5 1 0).event = none := by decide

theorem witness_IntegerVectorResults :
    (let s := vectors (machine []) 4 [(1, 7), (2, 7), (3, 7)] []
     s.ctx.typ 3 = .i8 ∧ s.ctx.typ 1 = .i8 ∧ s.ctx.typ 2 = .i8 ∧ ElemType.i8.isInt = true) ∧
    (let s := vectors (machine []) 4 [(1, 5), (2, 5), (3, 5)] []
     s.ctx.typ 3 = .n64 ∧ s.ctx.typ 1 = .n64 ∧ s.ctx.typ 2 = .n64 ∧ ElemType.n64.isInt = true) := by decide

theorem witness_vec_wf : i8s.ctx.vec.wf ∧ (machine []).ctx.vec.wf := ⟨⟨by decide, by decide⟩, by decide, by decide⟩

/-- An element below VL takes part, one at VL does not, nor one whose mask bit is 0. -/
theorem witness_acts :
    i8s.ctx.acts 0 3 ∧ ¬ i8s.ctx.acts 0 4 ∧ ¬ i8s.ctx.acts 1 0 ∧ (masks i8s [0, 8]).ctx.acts 1 3 :=
  ⟨⟨by decide, .inl rfl⟩, fun h => absurd h.1 (by decide),
    fun h => h.2.elim (fun h => absurd h (by decide)) fun h => absurd h (by decide), by decide, .inr (by decide)⟩

theorem witness_FloatVectorResults :
    ((machine []).ctx.typ 3 = .fp32 ∧ (machine []).ctx.typ 1 = .fp32) ∧
    (let s := vectors (machine []) 4 [(1, 1), (2, 1), (3, 1)] []
     s.ctx.typ 3 = .bf16 ∧ s.ctx.typ 1 = .bf16 ∧ s.ctx.typ 2 = .bf16) := by decide

/-- The conditions of the permutes: one type, an integer index, an integer destination, a bead source. -/
theorem witness_PermutesPlaceTheirElements :
    (i8s.ctx.typ 2 = i8s.ctx.typ 3 ∧ (i8s.ctx.typ 2).isBead = false ∧ (i8s.ctx.typ 2).isInt = true ∧
      (i8s.ctx.typ 2).isSigned = true) ∧
    (machine []).ctx.typ 3 = .fp32 ∧
    (let s := vectors (machine []) 56 [(1, 0x19), (3, 7)] []
     (s.ctx.typ 3).isSigned = true ∧ (s.ctx.typ 1).isBead = true ∧ s.ctx.vlFits [s.ctx.typ 1] = true) := by decide

/-! #### Masks, reductions and anchors -/

theorem witness_ComparesWriteTheirMask :
    joinTypes (i8s.ctx.typ 2) (i8s.ctx.typ 1) = none ∧
    (joinTypes ((rods 55).ctx.typ 1) ((rods 55).ctx.typ 2) ≠ none ∧ ¬ (rods 55).ctx.rodsFit [.d8]) ∧
    (joinTypes (i8s.ctx.typ 2) (i8s.ctx.typ 3) ≠ none ∧ i8s.ctx.rodsFit [i8s.ctx.typ 2, i8s.ctx.typ 3]) :=
  ⟨by decide, ⟨by decide, fun h => absurd (h.2 (by decide)) (by decide)⟩, by decide, rodsFit_of_vlFits (by decide)⟩

/-- MFFS: the first bit at 0 and at VL − 1, and none below VL. -/
theorem witness_MaskInstructionsWriteTheirBits :
    (let a := ((masks i8s [1]).ctx.mask 0).testBit; 0 < i8s.ctx.vec.vl ∧ a 0 = true ∧ ∀ j < 0, a j = false) ∧
    (let a := ((masks i8s [8]).ctx.mask 0).testBit; a 3 = true ∧ ∀ j < 3, a j = false) ∧
    (let a := ((masks i8s [16]).ctx.mask 0).testBit; ∀ j < 4, a j = false) ∧
    (i8s.ctx.typ 2).isInt = true ∧ (i8s.ctx.typ 1).isInt = false ∧ i8s.ctx.vlFits [i8s.ctx.typ 2] = true := by decide

theorem witness_ReductionsFollowTheFixedTree :
    (i8s.ctx.vec.vl ≤ 2 ^ 2 ∧ 2 ^ (2 - 1) < i8s.ctx.vec.vl ∧ (i8s.ctx.typ 2).isInt = true) ∧
    ((machine []).ctx.vec.vl ≤ 2 ^ 0 ∧ ((machine []).ctx.typ 2).isInt = false ∧
      (machine []).ctx.vlFits [(machine []).ctx.typ 2] = true) ∧
    ((rods 55).ctx.vec.vl ≤ 2 ^ 6 ∧ 2 ^ (6 - 1) < (rods 55).ctx.vec.vl ∧ ((rods 55).ctx.typ 1).isInt = false ∧
      (rods 55).ctx.vlFits [(rods 55).ctx.typ 1] = false) := by decide

/-- Every kind of element that VEXT reads, and the last anchor entry and the one after it. -/
theorem witness_ElementsAndAnchorsAreReadAndWritten :
    (i8s.ctx.typ 2).isSigned = true ∧
    (let s := vectors (machine []) 4 [(1, 8), (2, 1), (3, 0x39)] []
     (s.ctx.typ 1).isInt = true ∧ (s.ctx.typ 1).isSigned = false ∧ s.ctx.typ 4 = .fp32 ∧ s.ctx.typ 2 = .bf16 ∧
       (s.ctx.typ 3).isBead = true ∧ s.ctx.vlFits [s.ctx.typ 3] = false) ∧
    (rods 56).ctx.vlFits [(rods 56).ctx.typ 3] = true ∧
    ((machine [(1, 4681), (2, 4682)]).reg 1).toNat < 4682 ∧ 4682 ≤ ((machine [(1, 4681), (2, 4682)]).reg 2).toNat := by
  decide

/-! #### Vector accesses to memory -/

/-- Four I8 elements of V2 at the end of the scratchpad of the core (MSPACE 2), with an index register V3. -/
def vmem : State :=
  vectors (machine [(1, window 0x3FFFFC), (2, 1), (5, window 0x3FFFFD), (6, window 0)]) 4 [(2, 7), (3, 7)] [(3, [0, 1, 2, 3])]

def vhit (s : State) (a : Word) : Hit := ⟨spadLoc 0 (a.toNat % 2 ^ 24), a, none, s.ctx.space⟩

theorem vmem_acts {i : Nat} (h : vmem.ctx.acts 0 (i * 1)) : i < 4 := by
  have := h.1
  rw [Nat.mul_one] at this
  exact this

/-- Every active element of a unit-stride access is aligned, resolved and not poisoned. -/
theorem witness_VectorLoadsTakeTheBytesOfMemory :
    (vmem.ctx.vec.wf ∧ QueueReady vmem [2, 3] ∧ ¬ vmem.headersWait [] ∧ vmem.ctx.rodsFit [vmem.ctx.typ 2] ∧
      (vmem.ctx.typ 2).isBead = false ∧ (vmem.ctx.typ 3).isInt = true ∧
      (onCtx vmem fun c => { c with flow := { c.flow with slots := 8 } }).headersWait [⟨0, 0, 0⟩]) ∧
    ∀ i, vmem.ctx.acts 0 (i * 1) →
      let a := vmem.reg 1 + BitVec.ofNat 64 (i * 1)
      a.toNat % 1 = 0 ∧ vmem.reach .read a = .ok (vhit vmem a) ∧ vmem.poisonedHere (vhit vmem a).loc 1 = false := by
  refine ⟨⟨⟨by decide, by decide⟩, ready _ _ (by decide), by unfold State.headersWait; decide,
    rodsFit_of_vlFits (by decide), by decide, by decide, .inr (by decide)⟩, fun i hi => ?_⟩
  have h : ∀ i < 4, let a := vmem.reg 1 + BitVec.ofNat 64 (i * 1)
      a.toNat % 1 = 0 ∧ vmem.reach .read a = .ok (vhit vmem a) ∧ vmem.poisonedHere (vhit vmem a).loc 1 = false := by decide
  exact h i (vmem_acts hi)

/-- A first-fault load from S5: the last element lies beyond the scratchpad. -/
theorem witness_VectorLoadsTakeTheBytesOfMemory_firstFault :
    vmem.ctx.acts 0 (3 * 1) ∧ vmem.reach .read (vmem.reg 5 + BitVec.ofNat 64 (3 * 1)) = .error .access ∧
      ∀ i < 3, vmem.reach .read (vmem.reg 5 + BitVec.ofNat 64 (i * 1)) =
        .ok (vhit vmem (vmem.reg 5 + BitVec.ofNat 64 (i * 1))) :=
  ⟨⟨by decide, .inl rfl⟩, by decide, by decide⟩

/-- A bead load of one rod at a 64-byte boundary. -/
theorem witness_VectorLoadsTakeTheBytesOfMemory_bead :
    (let s := vectors (machine [(1, window 0x3FFFC0)]) 56 [(2, 0x29)] []
     (s.ctx.typ 2).isBead = true ∧ (s.reg 1).toNat % 64 = 0 ∧ s.ctx.vlFits [s.ctx.typ 2] = true ∧
       s.reach .read (s.reg 1) = .ok (vhit s (s.reg 1))) := by decide

/-- In the scratchpad window there is no page: each element goes where its own translation puts it. -/
theorem reachOf_window {s : State} {need : Need} {act : Nat → Prop} {a : Nat → Word} {r : Nat → Except Miss Hit}
    (below : ∀ i, act i → 0xFF ≤ (a i).toNat / 2 ^ 48) (hr : ∀ i, act i → r i = s.reach need (a i)) :
    ReachOf s need false act a r := by
  refine ⟨fun _ => hr, fun _ _ => ⟨id, fun i hi => ⟨le_refl i, hi, rfl, ?_, fun _ => hr i hi, fun h => absurd rfl h⟩⟩⟩
  rintro j - hj - ⟨l, -⟩
  exact absurd (below j hj) (Nat.not_le_of_lt l)

/-- The elements of a unit-stride access in the scratchpad window, and one of them is refused in the second access. -/
theorem witness_VectorLoadsTakeTheBytesOfMemory_reach (need : Need) :
    ReachOf vmem need false (vmem.ctx.acts 0) (fun i => vmem.reg 1 + BitVec.ofNat 64 (i * 1))
      (fun i => vmem.reach need (vmem.reg 1 + BitVec.ofNat 64 (i * 1))) ∧
    ReachOf vmem need false (vmem.ctx.acts 0) (fun i => vmem.reg 5 + BitVec.ofNat 64 (i * 1))
      (fun i => vmem.reach need (vmem.reg 5 + BitVec.ofNat 64 (i * 1))) := by
  have below : ∀ r ∈ [(1 : Reg), 5], ∀ i < 4, 0xFF ≤ (vmem.reg r + BitVec.ofNat 64 (i * 1)).toNat / 2 ^ 48 := by decide
  exact ⟨reachOf_window (fun i hi => below 1 (by decide) i hi.1) fun _ _ => rfl,
    reachOf_window (fun i hi => below 5 (by decide) i hi.1) fun _ _ => rfl⟩

/-- Whether the translation of an address serves another. -/
def samePage (s : State) (a b : Word) : Bool :=
  a.toNat / 2 ^ 48 < 0xFF && match s.leaf s.ctx.space a.toNat with
    | .ok l => a.toNat / l.size == b.toNat / l.size
    | .error _ => a.toNat / 2 ^ 12 == b.toNat / 2 ^ 12

theorem of_samePage {s : State} {a b : Word} (h : samePage s a b = true) : s.servesPage a b := by
  unfold samePage at h
  unfold State.servesPage
  split at h <;> simp_all

/-- An access within one page, and one within a page whose walk fails: the lowest element is translated, and the others take
its translation (R169). -/
theorem witness_VectorLoadsTakeTheBytesOfMemory_page :
    ∀ s ∈ [vectors (mapped (machine []) 0xB) 4 [(2, 7)] [], vectors (machine []) 4 [(2, 7)] []],
    ReachOf s .read false (s.ctx.acts 0) (fun i => s.reg 0 + BitVec.ofNat 64 (i * 1)) fun i =>
      if i = 0 then s.reach .read (s.reg 0 + BitVec.ofNat 64 (0 * 1))
      else s.servedBy .read (s.reg 0 + BitVec.ofNat 64 (0 * 1)) (s.reg 0 + BitVec.ofNat 64 (i * 1)) := by
  intro s hs
  have facts : ∀ s ∈ [vectors (mapped (machine []) 0xB) 4 [(2, 7)] [], vectors (machine []) 4 [(2, 7)] []],
      s.ctx.vec.vl = 4 ∧ s.ctx.vec.mspace = 2 ∧ ∀ i < 4, samePage s (s.reg 0 + BitVec.ofNat 64 (0 * 1))
        (s.reg 0 + BitVec.ofNat 64 (i * 1)) = true := by decide
  obtain ⟨hvl, hsp, same⟩ := facts s hs
  have act0 : s.ctx.acts 0 0 := ⟨by rw [hvl]; decide, .inl rfl⟩
  refine ⟨fun hx => hx.elim (fun hx => nomatch hx) fun hx => absurd hsp hx, fun _ _ => ⟨fun _ => 0, fun i hi =>
    ⟨Nat.zero_le i, act0, rfl, fun j hj => absurd hj (Nat.not_lt_zero j), ?_, fun hi0 => ⟨?_, if_neg (Ne.symm hi0)⟩⟩⟩⟩
  · intro h0
    change 0 = i at h0
    subst h0
    rfl
  · exact of_samePage (same i (hvl ▸ hi.1))

/-- A VST at the head of the vector queue, and the state in which its lane group executes it. -/
def heldVst : State := queueing vmem [.vst 2 1 0 0]

def heldHead : State := heldVst.atHead (queuedOf vmem.ctx (.vst 2 1 0 0))

/-- A VST of four elements in the scratchpad, at the pc and at the head of the queue. -/
theorem witness_VectorStoresWriteTheirBytes : ∀ s ∈ [vmem, heldHead], ∃ p ∈ vstForms s 2 3 1 2 0 0,
    let h := fun i => vhit s (s.reg 1 + BitVec.ofNat 64 (i * s.ctx.accessWidth 2))
    p.instr = .vst 2 1 0 0 ∧ p.Ready s 2 3 1 0 h ∧ ¬ s.headersWait (p.packets s 2 0 h) := by
  have facts : ∀ s ∈ [vmem, heldHead], s.mem.wf ∧ (∀ r ∈ s.ctx.vec.vecs.toList, r.wf) ∧
      (∀ r ∈ s.ctx.vec.anchors.toList, r.wf) ∧ ((∀ v ∈ [(2 : VecNo), 3], v.toNat < s.ctx.front.vcount) ∧
        s.ctx.ownsVector = true ∧ s.mxmPending [2, 3] = false) ∧ s.ctx.vlFits [s.ctx.typ 2] = true ∧
      (s.ctx.typ 2).isBead = false ∧ s.ctx.vec.mspace = 2 ∧ s.ctx.vec.vl = 4 ∧ s.ctx.flow.owed = [] ∧ s.ctx.flow.slots = 0 ∧
      s.ctx.accessWidth 2 = 1 ∧ s.ctx.perAccess 2 = 1 ∧
      ∀ i < 4, let a := s.reg 1 + BitVec.ofNat 64 (i * s.ctx.accessWidth 2)
        0xFF ≤ a.toNat / 2 ^ 48 ∧ s.reach .write a = .ok (vhit s a) ∧ True := by decide
  have none : ∀ s ∈ [vmem, heldHead], s.headers ⟨.write, s.ctx.typ 2, false, 1⟩ (s.ctx.accessHits 2 0 fun i =>
      vhit s (s.reg 1 + BitVec.ofNat 64 (i * s.ctx.accessWidth 2))) = [] := by decide
  intro s hs
  obtain ⟨hm, hv, ha, hq, hr, hb, hsp, hvl, ho, hsl, hw, hp, hi⟩ := facts s hs
  have act : ∀ i, s.ctx.accesses 2 0 i → i < 4 := fun i h => by
    have := h.1
    rwa [hp, Nat.mul_one, hvl] at this
  refine ⟨_, List.mem_cons_self, rfl, ⟨hm, ⟨hv, ha⟩, ready _ _ hq, rodsFit_of_vlFits hr, fun h => ?_, .inl hsp, trivial, ?_, ?_⟩, ?_⟩
  · exact absurd (hb.symm.trans h) (by decide)
  · exact fun i _ => by rw [hw]; exact Nat.mod_one _
  · exact reachOf_window (fun i h => (hi i (act i h)).1) fun i h => (hi i (act i h)).2.1.symm
  · rintro (h | h)
    · exact h ho
    · rw [VstForm.packets, none s hs, hsl] at h
      simp at h

/-- A fenced channel takes nothing; no command that still reads holds a store of `vmem` up. -/
theorem witness_VectorStoresWriteTheirBytes_free :
    (∀ i < 4, vmem.dev.fencedAt (vhit vmem (vmem.reg 1 + BitVec.ofNat 64 (i * 1))).loc = false) ∧
    ∀ m ∈ vmem.dev.engines.cmds, m.reading = false := by decide

/-- The stops of a vector access: wrong types, an address that is not aligned, one beyond the scratchpad, one without a
translation. -/
theorem witness_VectorAccessesStopInOrder :
    ((rods 56).ctx.typ 1).isBead = true ∧ ((machine []).ctx.typ 1).isInt = false ∧
    (let s := vectors (machine [(1, window 2)]) 1 [] []
     s.ctx.acts 0 0 ∧ (s.reg 1 + BitVec.ofNat 64 (0 * 4)).toNat % 4 ≠ 0) ∧
    (let s := vectors (machine [(1, window 0x400000)]) 1 [] []
     (s.reg 1 + BitVec.ofNat 64 (0 * 4)).toNat % 4 = 0 ∧ s.reach .read (s.reg 1 + BitVec.ofNat 64 (0 * 4)) = .error .access) ∧
    (let s := vectors (machine []) 1 [] []
     s.reach .read (s.reg 1 * 0 + BitVec.ofNat 64 (0 * 4)) = .error (.fault 1) ∧ s.ringOn = false ∧ ringOn.ringOn = true) :=
  ⟨by decide, by decide, ⟨⟨by decide, .inl rfl⟩, by decide⟩, by decide, by decide⟩

/-- Poison under element 0 of a load, and none under element 1, which lies in the next protected unit. -/
theorem witness_VectorAccessesStopInOrder_poison :
    let s := { vectors (machine [(1, window 4)]) 2 [] [] with mem := { (machine []).mem with poison := [spadLoc 0 0] } }
    s.ctx.acts 0 0 ∧ s.poisonedHere (vhit s (s.reg 1 + BitVec.ofNat 64 (0 * 4))).loc 4 = true ∧
      s.poisonedHere (vhit s (s.reg 1 + BitVec.ofNat 64 (1 * 4))).loc 4 = false :=
  ⟨⟨by decide, .inl rfl⟩, by decide, by decide⟩

/-- Accesses of rods: two rods with a base, and with a stride, that is no multiple of 64; one rod alone. -/
theorem witness_VectorAccessesStopInOrder_bead :
    let s := vectors (machine [(1, window 2), (2, window 64), (3, 8)]) 112 [(2, 0x29)] []
    let one := vectors (machine [(2, window 64), (3, 8)]) 56 [(2, 0x29)] []
    ((s.ctx.typ 2).isBead = true ∧ (s.ctx.typ 2).rod = 56 ∧ s.ctx.vlFits [s.ctx.typ 2] = true ∧ s.ctx.acts 0 (1 * 56) ∧
      (s.reg 1).toNat % 64 ≠ 0 ∧ (s.reg 2).toNat % 64 = 0 ∧ (s.reg 3).toNat % 64 ≠ 0) ∧
    one.ctx.acts 0 (0 * 56) ∧ ∀ k, 0 < k → ¬ one.ctx.acts 0 (k * 56) := by
  refine ⟨⟨by decide, by decide, by decide, ⟨by decide, .inl rfl⟩, by decide, by decide, by decide⟩,
    ⟨by decide, .inl rfl⟩, fun k hk h => ?_⟩
  have : k * 56 < 56 := h.1
  omega

/-- A held update in a deterministic launch for which its MSU has no slot left and its launch no spill area. -/
theorem witness_VectorAccessesStopInOrder_spill :
    let s0 := onCtx (vectors (mapped (machine []) 0xB) 1 [(3, 2)] []) fun c => { c with origin := { c.origin with det := true } }
    let s : State := { s0 with dev := { s0.dev with msu :=
      { s0.dev.msu with held := List.replicate 256 ⟨9, 9, 0, 0, 0, 0, true, false, []⟩ } } }
    let a := s.reg 0 + BitVec.ofInt 64 ((s.ctx.typ 3).int (s.ctx.elem 3 0))
    s.ctx.typ 2 = .fp32 ∧ s.ctx.origin.det = true ∧ (s.ctx.typ 3).isInt = true ∧ a.toNat % 4 = 0 ∧
      hits (s.reach .atomic a) (fun h => h.leaf.isSome &&
        decide (256 ≤ s.dev.msu.held.countP fun u => u.slot && msuOf u.loc == msuOf h.loc)) = true ∧
      (∀ u ∈ s.dev.msu.held, ¬ u.job = s.ctx.origin.job) ∧ s.findTask s.ctx.origin.job s.ctx.origin.task = none := by
  decide

/-- Two updates of VAMO on two words, and the types of both kinds of VAMO. -/
def vamos : State := vectors (machine [(1, window 0)]) 2 [(2, 2), (3, 2)] [(2, [5, 7]), (3, [0, 4])]

theorem witness_VectorAtomicsUpdateTheirWords :
    (vamos.mem.wf ∧ (vamos.ctx.typ 3).isInt = true ∧ vamos.ctx.typ 2 ∈ [ElemType.i32, .n32, .i64, .n64] ∧
      ∀ i < 2, let a := vamos.reg 1 + BitVec.ofInt 64 ((vamos.ctx.typ 3).int (vamos.ctx.elem 3 i))
        a.toNat % 4 = 0 ∧ vamos.reach .atomic a = .ok (vhit vamos a) ∧ vamos.poisonedHere (vhit vamos a).loc 4 = false ∧ vamos.dev.msu.given = [] ∧
          ∀ j < 2, (vhit vamos a).loc + 4 ≤ spadLoc 0 (4 * j) ∨ (vhit vamos a).loc = spadLoc 0 (4 * j) ∨
            spadLoc 0 (4 * j) + 4 ≤ (vhit vamos a).loc) ∧
    ((machine []).ctx.typ 2 = .fp32 ∧ (machine []).ctx.origin.det = false) ∧
    (let c := { vamos.ctx with origin := { vamos.ctx.origin with det := true } }; c.origin.det = true) ∧
    ¬ (machine []).ctx.typ 2 ∈ [ElemType.i32, .n32, .i64, .n64] := by decide

/-- A word of a deterministic launch that is held at an MSU: the access goes to global memory. -/
theorem witness_VectorAtomicsUpdateTheirWords_held :
    let s0 := vectors (mapped (machine []) 0xB) 1 [(3, 2)] []
    let s : State := { s0 with dev := { s0.dev with msu := { s0.dev.msu with held := [⟨0, 0, 0, 0, 0, 0, true, false, []⟩] } } }
    hits (s.reach .atomic (s.reg 0 + BitVec.ofInt 64 ((s.ctx.typ 3).int (s.ctx.elem 3 0)))) (fun h => h.leaf.isSome &&
      s.dev.msu.held.any fun u => u.job == s.ctx.origin.job && u.task == s.ctx.origin.task && u.loc == h.loc) = true := by
  decide

/-! #### Nameless stores -/

/-- Pool 0 of two skerries of 512 bytes on the channels 0 and 1 (R272). -/
def poolWord : Word := 0x0400000000001103

def pooled (taken : List (Nat × Nat)) : State :=
  let s := machine [(1, 0x1000), (2, 0x1200), (3, 0x1201)]
  { s with dev := { s.dev with msu := { s.dev.msu with pools := s.dev.msu.pools.set 0 ⟨poolWord, 0, taken⟩ } } }

theorem witness_NamelessStoresTakeAndFreeSkerries :
    (0 : BitVec 3).toNat < (pooled []).dev.msu.pools.length ∧ ((machine []).pool 0).cfg = 0 ∧
      ((pooled []).pool 0).cfg ≠ 0 ∧ (pooled []).allocation 0 = some (0, 0, 0) ∧
      (pooled [(0, 0), (0, 1), (1, 0), (1, 1)]).allocation 0 = none ∧ poolSize poolWord = 512 ∧
      (∀ b < 512, (pooled []).dev.fencedAt ((pooled []).skerryLoc 0 poolWord 0 0 + b) = false) := by decide

/-- The name of the second skerry of slot 0, free and taken; and what is no name. -/
theorem witness_NamelessStoresTakeAndFreeSkerries_names :
    ((pooled []).reg 2).toNat = poolBase poolWord + 0 * poolSpan poolWord + 1 * poolSize poolWord ∧
      1 < poolCap poolWord ∧ (poolOrder poolWord).length = 2 ∧ ((0, 1) : Nat × Nat) ∉ ((pooled []).pool 0).taken ∧
      ((0, 1) : Nat × Nat) ∈ ((pooled [(0, 1)]).pool 0).taken ∧
      (∀ slot < 2, ∀ k < 2, ((pooled []).reg 3).toNat ≠ poolBase poolWord + slot * poolSpan poolWord + k * poolSize poolWord) ∧
      ((mapped (pooled []) 0xB).resolve State.reset.ctx.space .write 0x1200).toOption.isSome = true := by decide

/-! #### Engines -/

/-- Operands of a copy of one FP32 element from global address 0 to scratchpad offset 64. -/
def copying : State := vectors (machine [(1, 0), (2, 0), (3, 64), (4, 0x0000000800000008)]) 1 [(7, 2)] []

def copyKind : CmdKind := .copy 0 0 64 0 0 1 0 4 1

/-- The checks of a copy and of a gather pass, and no command is there; a busy tag; an operand that is not aligned; the last
element inside the region of the core and the first beyond it; and the first address beyond 56 bits. -/
theorem witness_CopiesAreIssuedAndAccepted :
    ((∀ m ∈ copying.dev.engines.cmds, m.id ≠ copying.dev.engines.nextId) ∧
    (∀ o ∈ copying.others, o.num = copying.ctx.num → o.flow.status = .ended) ∧
    copying.ctx.eng.tagBusy.getLsbD 63 = false ∧
    (onCtx copying fun c => { c with eng := { c.eng with tagBusy := 1 } }).ctx.eng.tagBusy.getLsbD 0 = true ∧
    copyKind.idle = false ∧ 0 < copying.ctx.vec.vl ∧
    ([1, 64, 0, 0].find? (fun a : Word => a.toNat % 4 ≠ 0) = some 1) ∧
    ¬ ((copying.core 0).spadBytes < (copying.reg 3).toNat + 4) ∧ (copying.core 0).spadBytes < (0x400000 : Word).toNat + 4 ∧
    ¬ (2 ^ 56 ≤ (copying.reg 1).toNat) ∧ 2 ^ 56 ≤ (2 ^ 56 : Word).toNat ∧
    (copying.ctx.typ 7).isInt = true ∧ (copying.ctx.typ 6).isInt = false ∧ (copying.reg 4).toNat % 2 ^ 32 % 8 = 0 ∧
    ([64, 0, 8, 4].find? (fun a : Word => a.toNat % 8 ≠ 0) = some 4) ∧
    (copying.reg 3).toNat + 1 * 8 ≤ copying.ctx.spadBytes ∧ ¬ (0x600000 + 1 * 8 ≤ copying.ctx.spadBytes) ∧
    ([(0, 2 ^ 56)] : List (Nat × Word)).find? (fun r => decide (2 ^ 56 ≤ r.2.toNat)) = some (0, 2 ^ 56) ∧
    (copying.dev.engines.cmds.filter fun m => m.coreNo == 0).length < 32) ∧
    ∀ regs ∈ [[], [(7 : VecNo)]], QueueReady copying regs :=
  ⟨by decide, fun regs h => ready _ _ (by revert regs; decide)⟩

/-- A command of the context that waits for its entry. -/
def waitingCmd (n : Nat) (k : CmdKind) (st : CmdState) : Cmd :=
  ⟨n, 0, 0, 0, 0, 0, 0, 0, false, 0x100000, 0, 0x1000, some 0, k, st, n, false, false⟩

def withCmds (s : State) (ms : List Cmd) : State :=
  { s with dev := { s.dev with engines := ⟨ms, ms.length, ms.length⟩ } }

/-- Every entry of the range checker of core 0 is in use. -/
theorem witness_CopiesAreIssuedAndAccepted_full :
    let s := withCmds copying ((List.range 32).map fun n => waitingCmd n copyKind .accepted)
    32 ≤ ((s.dev.engines.cmds.filter fun m => m.coreNo == s.ctx.place.coreNo).filter Cmd.entered).length ∧
      ∀ m ∈ s.dev.engines.cmds, m.id ≠ s.dev.engines.nextId := by decide

/-- Two D8 operands with an accumulator; with a grant of 8 rows, without one, and without room for one. -/
def mx (grant : Nat) : State :=
  onCtx (vectors (machine [(10, 0), (11, 0x40000000000040)]) 0 [(2, 0x29), (3, 0x39)] []) fun c =>
    { c with eng := { c.eng with grant := grant } }

theorem witness_MxmIsIssued :
    QueueReady (mx 8) [8, 2, 3] ∧
    ((mx 8).ctx.typ 8 = .fp32 ∧ (mx 8).ctx.mxType (.vec 2) = some .d8 ∧ (mx 8).ctx.mxType (.vec 3) = some .d8 ∧
      (mx 8).ctx.mxType (.vec 1) = none ∧ (mx 8).ctx.mxType (.spad 10 11 .bf16) ≠ some .d8) ∧
    ((mx 8).ctx.eng.grant * 64 ≤ (mx 8).ctx.vlmax ∧ 8 * mxStep .d8 ≤ (mx 8).ctx.vlmax ∧ 64 * mxStep .d8 ≤ (mx 8).ctx.vlmax) ∧
    (mx 0).ctx.eng.grant = 0 ∧
    (¬ 8 * 64 ≤ (onCtx (mx 8) fun c => { c with place := { c.place with lanes := 0 } }).ctx.vlmax) ∧
    (let row := fun (x y : Word) (r : Nat) =>
      x.toNat % 2 ^ 24 + r * (y.toNat % 2 ^ 24) + 64 * (r * (y.toNat / 2 ^ 48 % 64) % 64)
     ((mx 8).reg 10).toNat % 64 = 0 ∧ ((mx 8).reg 11).toNat % 64 = 0 ∧ ((mx 8).reg 10).toNat < 2 ^ 24 ∧
       (∀ r < 64, ¬ (mx 8).ctx.spadBytes < row ((mx 8).reg 10) ((mx 8).reg 11) r + 64) ∧
       (mx 8).ctx.spadBytes < row 0x3FFFC0 0x40 63 + 64 ∧ (1 : Word).toNat % 64 ≠ 0 ∧ 2 ^ 24 ≤ (2 ^ 24 : Word).toNat) :=
  ⟨ready _ _ (by decide), by decide, by decide, by decide, by decide, by decide⟩

def tags (busy ready : BitVec 64) : State :=
  onCtx (machine [(1, 1)]) fun c => { c with eng := { c.eng with tagBusy := busy, tagReady := ready } }

/-- A ready tag, none and none busy, one busy. -/
theorem witness_TagInstructionsFollowTheirTable :
    (tags 0 1).ctx.eng.tagReady &&& (tags 0 1).reg 1 ≠ 0 ∧ (tags 0 0).ctx.eng.tagReady &&& (tags 0 0).reg 1 = 0 ∧
      (tags 0 0).ctx.eng.tagBusy &&& (tags 0 0).reg 1 = 0 ∧ (tags 1 0).ctx.eng.tagBusy &&& (tags 1 0).reg 1 ≠ 0 ∧
      ((tags 0 1).ctx.eng.tagReady &&& (tags 0 1).reg 1).getLsbD 0 = true ∧
      ((tags 1 0).ctx.eng.tagBusy &&& (tags 1 0).reg 1).getLsbD 0 = true := by decide

def waitingRows (n : Nat) : State :=
  let s := machine [(1, 7), (2, 8), (3, 64)]
  { s with dev := { s.dev with power := { s.dev.power with waiters := if n = 0 then [] else [⟨0, 1, n, 4⟩] } } }

/-- No grant and one; no waiter and one; requests of 7 and 8 rows; rows free and none. -/
theorem witness_GrantsAreTakenAndGivenBack :
    (waitingRows 0).ctx.eng.grant = 0 ∧ (mx 8).ctx.eng.grant ≠ 0 ∧ (∃ w ∈ (waitingRows 8).dev.power.waiters, w.abacus = 0) ∧
      (¬ ∃ w ∈ (waitingRows 0).dev.power.waiters, w.abacus = 0) ∧ ((waitingRows 0).reg 1).toNat < 8 ∧
      8 ≤ ((waitingRows 0).reg 2).toNat ∧ 8 ≤ (waitingRows 0).freeRows 0 ∧ (mx 64).freeRows 0 < 8 ∧
      (waitingRows 0).mxmPending allVecs = false ∧
      (∀ w ∈ (waitingRows 8).dev.power.waiters, w.who ≠ (waitingRows 8).ctx.num) := by decide

/-! #### Jobs, graphs and tasks -/

/-- A launch record of one unit of 64 lanes in the scratchpad (R231): entry 0x1000, 96 of REGS and of SPAD. -/
def record : LaunchRec := ⟨window 0, spadLoc 0 0, 0x1000, 0, 0x6060, 1, 64, 0, false, 0, 0⟩

def job0 : Job :=
  ⟨64, 0, 1, 1, 1, 0x100000, 1, 1, none, [⟨1, 0, 1, false, false⟩], [⟨0, 2, true, false, false⟩], 0, false, false, false, 0, 0⟩

def task0 : Task := Task.new 64 1 0 (some 1) record 0 0

/-- A machine whose context belongs to job 64, with that job and these tasks. -/
def inJob (j : Job) (ts : List Task) (rs : List (Reg × Word)) : State :=
  let s := onCtx (machine rs) fun c => { c with origin := { c.origin with job := 64 } }
  { s with dev := { s.dev with sched := { s.dev.sched with jobs := [j], tasks := ts } } }

/-- Memory that holds the record. -/
def withRecord (s : State) : State :=
  holding (holding (holding s (spadLoc 0 0) 8 0x1000) (spadLoc 0 16) 8 0x6060) (spadLoc 0 24) 8 1

theorem witness_RdcReadsTheControlRegister_launch :
    (let s := onCtx (inJob job0 [task0] []) fun c => { c with origin := { c.origin with task := 1 } }
     s.launch = some task0 ∧ s.findJob s.ctx.origin.job = some job0) := by decide

theorem witness_TasksAreCreatedAndLinked_task :
    let s := withRecord (inJob job0 [] [(1, window 0)])
    let h : Hit := ⟨spadLoc 0 0, window 0, none, s.ctx.space⟩
    s.findJob s.ctx.origin.job = some job0 ∧ s.probe .read 64 (s.reg 1) = .ok h ∧ s.poisonedHere h.loc 64 = false ∧
      parseRecord (s.reg 1) h.loc (s.mem.bytes h.loc 64) = some record ∧ s.tableIsle job0.reach = some 0 ∧
      s.freshNames h.loc 64 ∧
      s.tableIsle 0 = none ∧ parseRecord (window 0) (spadLoc 0 0) ((machine []).mem.bytes (spadLoc 0 0) 64) = none :=
  ⟨by decide, by decide, by decide, by decide, by decide, by unfold State.freshNames; decide, by decide, by decide⟩

/-- XFER: 64 bytes, 32, an offset that is not aligned; a task that is there, and none. -/
theorem witness_TasksAreCreatedAndLinked_xfer :
    let t := { task0 with state := .created, deps := 2 }
    let s := inJob job0 [t] [(1, 1), (2, 0), (3, 0), (4, 32), (5, 9)]
    (64 : BitVec 32).toNat % 64 = 0 ∧ (32 : BitVec 32).toNat % 64 ≠ 0 ∧ (s.reg 3).toNat % 64 = 0 ∧
      (s.reg 4).toNat % 64 ≠ 0 ∧ (s.reg 2).toNat < 2 ^ 56 ∧ s.reg 1 ≠ 0 ∧
      s.findTask s.ctx.origin.job (s.reg 1).toNat = some t ∧ s.findTask s.ctx.origin.job (s.reg 5).toNat = none ∧
      (s.reg 3).toNat + 64 ≤ t.record.part.toNat / 2 ^ 8 % 256 * 65536 ∧ t.transfers.length < 8 ∧ t.state = .created ∧
      1 < t.deps ∧ t.deps < 65535 := by decide

/-- XFER: a source beyond 56 bits, an offset beyond the region, a ninth transfer, a task that is ready; and TASK of a
context of no job. -/
theorem witness_TasksAreCreatedAndLinked_errors :
    let x : Transfer := ⟨false, 0, 0, 64, 0, 0, 0, none⟩
    let t := { task0 with transfers := List.replicate 8 x }
    let s := inJob job0 [t, { task0 with id := 2 }] [(1, 1), (2, 2), (3, 0x600000), (4, 2 ^ 56)]
    let u := withRecord (machine [(1, window 0)])
    let size := t.record.part.toNat / 2 ^ 8 % 256 * 65536
    2 ^ 56 ≤ (s.reg 4).toNat ∧ (s.reg 3).toNat % 64 = 0 ∧ size < (s.reg 3).toNat + 64 ∧ (s.reg 3).toNat + 0 ≤ size ∧
      8 ≤ t.transfers.length ∧ s.findTask 64 (s.reg 1).toNat = some t ∧
      (s.findTask 64 (s.reg 2).toNat).map (·.state) = some .ready ∧
      u.findJob u.ctx.origin.job = none ∧
      u.probe .read 64 (u.reg 1) = .ok ⟨spadLoc 0 0, window 0, none, u.ctx.space⟩ ∧ u.poisonedHere (spadLoc 0 0) 64 = false := by
  decide

/-- TDEP: a predecessor with room for an edge, one without, and a count of 1. -/
theorem witness_TasksAreCreatedAndLinked_tdep :
    let t := { task0 with state := .created, deps := 1 }
    let p := { task0 with id := 2 }
    let full := { task0 with id := 3, succs := List.replicate 32 1 }
    let s := inJob job0 [t, p, full] [(1, 1), (2, 2), (3, 3)]
    s.findTask 64 (s.reg 1).toNat = some t ∧ s.findTask 64 (s.reg 2).toNat = some p ∧
      s.findTask 64 (s.reg 3).toNat = some full ∧ p.succs.length < 32 ∧ 32 ≤ full.succs.length ∧ t.deps = 1 := by decide

/-- No job; no open graph; an open graph with two launches. -/
theorem witness_GraphsAndPhasesAreOpened :
    (machine []).findJob (machine []).ctx.origin.job = none ∧
    (let s := inJob job0 [] []; s.findJob s.ctx.origin.job = some job0 ∧ job0.openGraph = none) ∧
    (let j := { job0 with openGraph := some (1, 1), graphs := [⟨1, 0, 2, false, false⟩] }
     let s := inJob j [] []
     s.findJob s.ctx.origin.job = some j ∧ j.openGraph = some (1, 1) ∧
       j.graphs.find? (fun x => x.id == 1) = some ⟨1, 0, 2, false, false⟩) := by decide

/-- A foreign job in user mode; an object that is not live, one with launches, a cancelled one; a task in each state. -/
theorem witness_CountersJobsAndTidesAreServed_counters :
    (let s := userMode (machine []); s.ctx.user = true ∧ (3 : BitVec 2) = 3 ∧ (1 : Reg) ≠ 0) ∧
    (let s := inJob job0 [task0] [(1, 1)]
     s.object ⟨64, 0, 9⟩ = none ∧ s.object ⟨64, 1, 1⟩ = some (1, false, false) ∧ s.ctx.flow.waitWord = none ∧
       s.object ⟨64, 0, 1⟩ ≠ none ∧ s.tasksOf ⟨64, 0, 1⟩ = [task0] ∧ task0.state = .ready) ∧
    (let s := inJob { job0 with graphs := [⟨1, 0, 1, false, true⟩] } [] []
     s.object ⟨64, 1, 1⟩ = some (0, false, true)) ∧
    (let t := { task0 with state := .running }; (inJob job0 [t] []).tasksOf ⟨64, 0, 1⟩ = [t]) ∧
    (let s := onCtx (machine []) fun c => { c with flow := { c.flow with waitWord := some 0 } }
     s.ctx.flow.waitWord = some 0) := by decide

/-- CANCEL of a launch that is filling, of a job without launches; JOB once the control program has exited, and with
every slot of the job table taken. -/
theorem witness_CountersJobsAndTidesAreServed_cancel :
    let t := { task0 with state := .filling }
    let s := inJob job0 [t] []
    s.tasksOf ⟨64, 0, 1⟩ = [t] ∧ s.object ⟨64, 0, 1⟩ ≠ none ∧ (∀ x ∈ s.dev.sched.tasks, x.id = t.id → x = t) ∧
      (inJob job0 [] []).tasksOf ⟨64, 3, 64⟩ = [] ∧ (inJob job0 [] []).object ⟨64, 3, 64⟩ ≠ none ∧
      s.controlRuns = false ∧ (machine []).controlRuns = true ∧
      ({ s with dev := { s.dev with sched := { s.dev.sched with
        jobs := (List.range 64).map fun k => { job0 with slot := k } } } } : State).jobSlot = none := by decide

/-- JOB: a descriptor whose job can start, one that meets a job, none. -/
def withDescriptor (s : State) : State :=
  let s := holding (holding (withRecord s) (spadLoc 0 64) 8 0x100000) (spadLoc 0 72) 8 0x10001
  holding s (spadLoc 0 80) 8 (0xFF * 2 ^ 48)

theorem witness_CountersJobsAndTidesAreServed_job :
    let s := withDescriptor (machine [(1, window 64)])
    let h : Hit := ⟨spadLoc 0 64, window 64, none, s.ctx.space⟩
    s.ctx.user = false ∧ s.probe .read 64 (s.reg 1) = .ok h ∧ s.poisonedHere h.loc 64 = false ∧ s.dev.msu.given = [] ∧
      parseDescriptor (s.mem.bytes h.loc 64) = some ⟨0x100000, 1, 1, 0, 0xFF * 2 ^ 48⟩ ∧ s.dev.sched.jobs = [] ∧
      (((((s.touch .read h).sendFor h).inSpace ⟨0x100000, 1, 1, 0, 0xFF * 2 ^ 48⟩).granule (window 0)).map fun p =>
        parseRecord (window 0) p.2.1 p.2.2).toOption = some (some record) ∧
      record.units = 1 ∧ s.jobSlot = some 0 ∧ parseDescriptor ((machine []).mem.bytes (spadLoc 0 64) 64) = none ∧
      ((s.inSpace ⟨0x100000, 1, 1, 0, 1⟩).granule 1).map (fun p => p.2.1) = .error (.trap .misalign 1) ∧
      job0.reach &&& 1 ≠ 0 ∧ (machine []).findJob 9 = none ∧ (inJob job0 [] []).findJob 64 ≠ none := by decide

/-- TIDE: the split in effect, a window that is over, one that is not; RDDIG: aligned and not, with a live launch. -/
theorem witness_CountersJobsAndTidesAreServed_tide :
    (let s := machine [(1, window 0), (2, window 8)]
     s.ctx.place.isle.toNat < s.dev.fabric.straits.length ∧ (s.strait 0).split = 4 ∧ (s.strait 0).request = none ∧
       (s.strait 0).lastHonour = none ∧ (s.reg 1).toNat % 64 = 0 ∧ (s.reg 2).toNat % 64 ≠ 0 ∧
       s.probe .read 8 (s.reg 1 + 48) = .ok ⟨spadLoc 0 48, window 48, none, s.ctx.space⟩ ∧
       s.dev.sched.tasks = [] ∧ s.slotless ⟨spadLoc 0 48, window 48, none, s.ctx.space⟩ = false ∧
       s.poisonedHere (spadLoc 0 48) 8 = false) ∧
    (¬ (∃ t0, (some 1 : Option Nat) = some t0 ∧ t0 + 20000 ≤ 20000)) ∧
    (let s := inJob job0 [task0] [(1, window 0)]
     ∃ k ∈ s.dev.sched.tasks, k.job = s.ctx.origin.job ∧ k.record.va = s.reg 1) ∧
    (let s := inJob job0 [{ task0 with job := 128 }] [(1, window 0)]
     (s.dev.sched.tasks.any fun k => k.job != s.ctx.origin.job && match s.resolve s.ctx.space .read (s.reg 1) with
       | .ok x => k.record.loc == x.loc
       | .error _ => false) = true) := by
  refine ⟨by decide, ?_, by decide, by decide⟩
  rintro ⟨t0, h, h'⟩
  cases h
  omega

/-! #### Events of contexts and engines -/

def flowed (s : State) (f : Flow → Flow) : State := onCtx s fun c => { c with flow := f c.flow }

theorem witness_ContextEventsTakeEffect :
    (buffered lastWord [(lastHit.loc, 7)]).ctx.flow.storeBuf ≠ [] ∧ lastWord.ctx.flow.storeBuf = [] ∧
    (machine []).findCtx 0 = some (machine []).ctx ∧
    ((flowed (machine []) fun f => { f with preemptPending := true }).findCtx 0).map (·.flow.preemptPending) = some true ∧
    ((flowed (machine []) fun f => { f with cancelPending := true }).findCtx 0).map (·.flow.cancelPending) = some true ∧
    (let s := flowed ringOn fun f => { f with status := .stalled [ringOn.ctx.faultRec 0 1 false 0 0] }
     ((s.findCtx 0).map fun c => decide (c.flow.status = .stalled [ringOn.ctx.faultRec 0 1 false 0 0])) = some true ∧
       s.observe.dev.ring.room = true) ∧
    ((flowed ringOn fun f => { f with status := .parked 0 }).findCtx 0).map (·.flow.status) = some (.parked 0) := by decide

/-- WAITL S4, [S1] wait=1 and VST V2, [S1] waiting at the pc of the control program. -/
def atPc (s : State) (w : Nat) : State := flowed (s.withFetchWord 32 w) fun f => { f with status := .waiting }

theorem witness_ContextEventsTakeEffect_waiting :
    (let s := atPc lastWord 0x5C818001
     (s.focus 0).isSome = true ∧ s.ctx.flow.status = .waiting ∧ (s.fetch s.ctx).1 = .ok (.waitl 4 1 1) 4 ∧
       s.toPointer.waitlSees 1 = some 0 ∧ (0 : Word) ≠ (s.setReg 4 1).reg 4) ∧
    (heldVst.focus 0 = some heldVst ∧ heldVst.ctx.flow.engine = none ∧
      after (fun t => (t.ctx.flow.queue, t.ctx.vec.vl)) (exec (.heldStoreRelease 0) heldVst) = some ([], 4)) ∧
    (let s := flowed vmem fun f => { f with storeBuf := [⟨0, [], false, 1⟩] }
     ∃ b ∈ s.ctx.flow.storeBuf, b.after ≠ 0) := by decide

theorem witness_BadFetchesTrapOrKill :
    (machine []).ctx.flow.status = .running ∧ (machine []).ctx.flow.handlerFirst = false ∧
      ((machine []).takeTrap .soft 0).ctx.flow.handlerFirst = true ∧ (machine []).canReport 1 = true := by decide

/-- A copy and an MXM that wait for their entries, and an MXM at its abacus, whose window is open. -/
def mxKind : CmdKind := .mxm 8 1 .bf16 (.rows [⟨0, [0x3F80]⟩]) (.rows (List.replicate 64 ⟨0, [0x3F80]⟩)) 1 true []

def openWindow (s : State) : State :=
  { s with dev := { s.dev with power := { s.dev.power with abaci := s.dev.power.abaci.set 0 ⟨7, 7, 0, none, none, none, [], []⟩ } } }

theorem witness_EngineCommandsAreAcceptedAndApplied_entry :
    ∀ k ∈ [copyKind, mxKind],
      let m := waitingCmd 0 k .waiting
      let s := withCmds (machine []) [m]
      s.findCmd m.id = some m ∧ m.state = .waiting ∧
        ((s.dev.engines.cmds.filter fun n => n.coreNo == m.coreNo).filter Cmd.entered).length < 32 ∧
        (s.dev.engines.cmds.filter fun n => n.coreNo == m.coreNo).find? (fun n => !n.entered) = some m ∧
        k.idle = false := by decide

theorem witness_EngineCommandsAreAcceptedAndApplied_abacus :
    (let m := { waitingCmd 0 mxKind .entered with tag := none }
     let s := openWindow (withCmds (machine []) [m])
     m.state = .entered ∧ ¬ s.dev.clock.cycles < (s.abacus m.abacusNo).since ∧
       s.dev.clock.cycles % 8 < 8 - (s.abacus m.abacusNo).ramp ∧
       (s.abacus m.abacusNo).lastAccept ≠ some s.dev.clock.cycles ∧
       s.dev.engines.cmds.find? (fun n => n.state == .entered && n.abacusNo == m.abacusNo) = some m ∧
       ¬ 1 < 8 - (s.abacus m.abacusNo).ramp) ∧
    (let m := { waitingCmd 0 mxKind .accepted with tag := none }
     let s := withCmds (machine []) [m]
     let off := withCmds (machine []) [{ m with cancelled := true }]
     (off.findCmd 0).map (fun n => n.cancelled && n.state == .accepted && n.isOf off.ctx) = some true ∧
     s.nextMxm 0 = some m ∧ m.isOf s.ctx = true ∧ s.ctx.live = true) := by decide

/-- A command that is the head of its issuer's vector queue, and one whose issuer waits at it. -/
theorem witness_EngineCommandsAreAcceptedAndApplied_head :
    let m := waitingCmd 0 copyKind .waiting
    let s := withCmds (machine []) [m]
    ((flowed s fun f => { f with engine := some m.id }).findCtx m.who).map (·.flow.engine) = some (some m.id) ∧
      (s.findCtx m.who).map (·.flow.engine) = some none := by decide

/-- A row of a register and 64 columns; rows in the scratchpad, one of them poisoned; and a finite, an infinite and an
invalid sum. -/
theorem witness_EngineCommandsAreAcceptedAndApplied_rows :
    MatrixRows .bf16 (.rows (List.replicate 64 ⟨0, List.replicate 32 0x3F80⟩)) 64 ∧
    MatrixRows .d8 (.offsets [0, 64]) 2 ∧
    (let s : State := { machine [] with mem := (machine []).mem.mark (spadLoc 0 64) }
     s.poisoned (spadLoc 0 ([0, 64].getD 1 0)) 64 = true ∧ s.poisoned (spadLoc 0 ([0, 64].getD 0 0)) 64 = false) ∧
    (¬ invalidTerm (.num false 0 0) [(.num false 1 0, .num true 1 0)] ∧
      ∀ n, ¬ infiniteTerm (.num false 0 0) [(.num false 1 0, .num true 1 0)] n) ∧
    infiniteTerm (.num false 0 0) [(.inf false, .num true 1 0)] true ∧ invalidTerm (.num false 0 0) [(.inf false, .num true 0 0)] := by
  refine ⟨⟨by decide, by decide⟩, rfl, by decide, ⟨?_, fun n => ?_⟩, ?_, ?_⟩ <;>
    simp [invalidTerm, infiniteTerm, Exact.isInf, Exact.isZero, Exact.isNeg]

/-- An accepted copy that meets nothing, a translation fault, and a refused address; one that is cancelled or paused. -/
theorem witness_CopiesFinishPauseOrAbort :
    let m := waitingCmd 0 copyKind .accepted
    let done := withCmds (mapped (machine []) 0xB) [m]
    (done.findCmd m.id = some m ∧ m.tag = some 0 ∧ m.isOf done.ctx = true ∧ done.ctx.live = true ∧ done.served m = true ∧
      m.cancelled = false ∧ done.mem.wf ∧
      (match done.course m [] m.kind.moves with
        | .done hits => decide (hits.length = 1 ∧ done.poisonedMoves m.job hits = [])
        | _ => false) = true) ∧
    (match (withCmds ringOn [m]).course m [] m.kind.moves with | .fault _ => true | _ => false) = true ∧
    (withCmds ringOn [m]).ringOn = true ∧ (withCmds ringOn [m]).canReport 1 = true ∧
    (let away := waitingCmd 0 (.copy 0 (window 0x400000) 64 0 0 1 0 4 1) .accepted
     (match (withCmds (machine []) [away]).course away [] away.kind.moves with | .abort _ => true | _ => false) = true) ∧
    ({ m with cancelled := true } : Cmd).accepted = true ∧ (waitingCmd 0 copyKind (.paused 0)).state = .paused 0 := by
  decide

/-! #### Events of the schedulers -/

theorem witness_TasksArePlacedRunAndCompleted_place :
    let s := inJob job0 [task0] []
    s.findTask 64 1 = some task0 ∧ s.findJob 64 = some job0 ∧ s.winner = some (1, job0, task0, [1]) ∧ [1].Nodup ∧
      1 < s.dev.cores.length ∧ (s.place 1 job0 task0 [1]).allHeads = [] ∧ (s.core 1).lastJob ≠ 64 := by decide

/-- Seven units of 1024 lanes of another job, at a lower priority, hold every core of isle 0 that can host. -/
def crowded : State :=
  let low : Job := { job0 with id := 128, slot := 1, prio := 0, reach := 1 }
  let v : Task :=
    { task0 with
      job := 128, id := 1, state := .running, cores := [1, 2, 3, 4, 5, 6, 7]
      record := { record with lanes := 1024, units := 7 }, nextUnit := 0 }
  let s := inJob job0 [v, task0] []
  { s with dev := { s.dev with
    cores := s.dev.cores.mapIdx fun g c => if 1 ≤ g ∧ g < 8 then { c with host := some (128, 1), lastJob := 128 } else c
    sched := { s.dev.sched with jobs := [job0, low] } } }

theorem witness_TasksArePlacedRunAndCompleted_preempt :
    crowded.winner = none ∧ crowded.allHeads = [(1, job0, task0)] ∧ crowded.victimCores job0 1 task0 = [7] ∧
      crowded.reserve job0.reach 1 (crowded.coresFor job0.reach task0.record) = none := by decide

theorem witness_TasksArePlacedRunAndCompleted_transfer :
    let x : Transfer := ⟨false, window 0, 0, 64, 0, 0, 0x1000, none⟩
    let t := { task0 with state := .filling, transfers := [x], cores := [1] }
    let s := inJob job0 [t] []
    s.findTask t.job t.id = some t ∧ x.paused = none ∧
      s.transferHits (t.space job0) (x.parts t.cores) =
        .ok [(1, [(⟨spadLoc 0 0, window 0, none, t.space job0⟩, 64)])] ∧ s.poisonedFor t.job (spadLoc 0 0) 64 = false ∧
      ∀ i < 64, s.stale t.job (spadLoc 0 0 + i) = false := by decide

theorem witness_TasksArePlacedRunAndCompleted_start :
    let t := { task0 with state := .running, cores := [1] }
    let s0 := inJob job0 [t] []
    let s : State := { s0 with dev := { s0.dev with
      cores := s0.dev.cores.set 1 ⟨0, some (64, 1), 0x6060, 64, false, true, []⟩ } }
    s.findTask t.job t.id = some t ∧ t.nextUnit < t.record.units ∧ s.unitPlace t = some (1, 0) ∧
      s.freeSlot (BitVec.ofNat 4 (1 / 8)) (BitVec.ofNat 3 (1 % 8)) = some 0 ∧ (s.core 1).cleared = true ∧
      t.nextUnit < t.cores.length * t.record.perCore := by decide

theorem witness_TasksArePlacedRunAndCompleted_resume :
    let t := { task0 with state := .running, cores := [1], nextUnit := 1, live := [⟨0, 1, 0, none⟩] }
    let c := Ctx.root t job0 0 1 0 0 0 0 0 false false
    let s0 := inJob job0 [t] []
    let s : State := { s0 with dev := { s0.dev with sched := { s0.dev.sched with parked := [c] } } }
    s.parkedUnit t.job t.id 0 = [c] ∧ s.canResume t.job t.id 0 = true := by decide

theorem witness_TasksArePlacedRunAndCompleted_complete :
    let t := { task0 with state := .completing, count := 0, cores := [1] }
    let s := inJob job0 [t] []
    s.findTask t.job t.id = some t ∧ t.paused = none ∧ s.canReport 1 = true ∧ s.heldBy t = [] ∧ s.mem.wf ∧
      s.resolve (t.space job0) .write (t.record.va + 48) = .ok ⟨spadLoc 0 48, window 48, none, t.space job0⟩ ∧
      ∀ i < 16, s.dev.fencedAt (spadLoc 0 48 + i) = false := by decide

/-! #### The memory system, time, the fabric and the outside -/

def oneHeld : HeldUpdate := ⟨64, 1, 0, 0, 0, 0, 0, 0⟩

/-- A word that is held, one with a slot free, and one with 256 slots in use and room in the spill area, and none. -/
theorem witness_MemoryUnitsTakeEffect_held :
    let full := (List.range 256).map fun k => (⟨1, 1, 256 * 509 * (k + 1), 0, 0, 0, true, false, []⟩ : HeldWord)
    (∃ h ∈ [(⟨64, 1, 0, 0, 0, 0, true, false, []⟩ : HeldWord)], h.job = oneHeld.job ∧ h.task = oneHeld.task ∧ h.loc = oneHeld.loc) ∧
    (∀ h ∈ full, ¬ (h.job = oneHeld.job ∧ h.task = oneHeld.task ∧ h.loc = oneHeld.loc)) ∧
    256 ≤ (full.filter fun h => h.slot && msuOf h.loc == msuOf oneHeld.loc).length ∧
    (let t := { task0 with record := { record with spsize := 64 } }
     (inJob job0 [t] []).findTask oneHeld.job oneHeld.task = some t ∧ t.spilled < t.record.spsize / 64) ∧
    task0.record.spsize / 64 ≤ task0.spilled := by decide

/-- A spill record whose page does not translate, one in memory, and one on a channel that is fenced. -/
theorem witness_MemoryUnitsTakeEffect_spill :
    let t := { task0 with record := { record with spsize := 64 } }
    let s := inJob job0 [t] []
    let paged : State := { mapped s 0x2B with dev := s.dev }
    let at' := fun s : State => s.resolve (t.space job0) .write (t.record.spbase + BitVec.ofNat 64 (64 * t.spilled))
    s.findJob t.job = some job0 ∧ (at' s).isOk = false ∧ hits (at' paged) (fun h => h.loc == 0) = true ∧
      paged.dev.fencedAt 0 = false ∧
      ({ paged.dev with msu := { paged.dev.msu with fenced := [0] } } : Dev).fencedAt 0 = true := by decide

/-- A channel that is held, one with a request that waits and none held, and one that is fenced. -/
theorem witness_MemoryUnitsTakeEffect_waits :
    let s := machine []
    let waiting : Msu := { s.dev.msu with queue := [⟨0, [7], false, false⟩] }
    (∃ x ∈ ([⟨0, none, 9⟩, ⟨0, some 0, 9⟩] : List Hold), x.channel = 0 ∧ (x.row = none ∨ x.row = some (s.dev.rowOf 0))) ∧
      (∀ x ∈ waiting.holds, x.channel ≠ 0) ∧ ({ s with dev := { s.dev with msu := waiting } } : State).outstanding 0 ≠ 0 ∧
      0 ∈ ({ s.dev.msu with fenced := [0] } : Msu).fenced ∧ 509 ≤ 509 := by decide

theorem witness_MemoryUnitsTakeEffect_access :
    let acc : LineAccess := ⟨0, [7], true, false⟩
    let s := machine []
    channelOf acc.loc = some 0 ∧ inLine acc = true ∧ s.outstanding 0 = 0 ∧ acc.data.length ≤ s.dev.msu.budgets.getD 0 0 ∧
      s.mem.wf ∧ (¬ acc.loc / 256 ∈ s.mem.elided) ∧ 0 ∉ s.dev.msu.fenced ∧ acc.zel = false ∧
      ({ s with dev := { s.dev with msu := { s.dev.msu with budgets := [0] } } } : State).dev.msu.budgets.getD 0 0 <
        acc.data.length ∧
      s.dev.power.stackErrors[0 / 32]? = some [0] ∧ s.canReport 1 = true ∧ 508 < 509 ∧ 508 ∉ s.dev.msu.fenced ∧
      508 ∉ s.dev.msu.lostMaps ∧ (s.findCtx 0).isSome = true := by decide

/-- A row whose last request was 100 ns ago, and one to which it was 99 ns ago. -/
theorem witness_MemoryUnitsTakeEffect_rows :
    let at' := fun n : Nat => ({ State.reset.dev with clock := ⟨n, 0⟩ } : Dev)
    0 + 100 ≤ (at' 190).clock.cycles * 10 / 19 ∧ ¬ 0 + 100 ≤ (at' 189).clock.cycles * 10 / 19 := by decide

/-- The marks of TIME: a mark that has passed and one that has not, at each of their periods. -/
theorem witness_TimeAndFabricTakeEffect :
    let at' := fun n : Nat => ({ machine [] with dev := { State.reset.dev with clock := ⟨n, 0⟩ } } : State)
    let now := fun n : Nat => (at' n).dev.clock.cycles * 10 / 19
    (now 1900000 / 1000000 = 1 ∧ now 1899999 / 1000000 = 0) ∧ (machine []).dev.msu.queue = [] ∧
      (now 1900 / (State.reset.dev.power.rampcfg.toNat % 256 * 100) = 1 ∧
        now 1899 / (State.reset.dev.power.rampcfg.toNat % 256 * 100) = 0) ∧
      (now 19000 / 10000 = 1 ∧ now 18999 / 10000 = 0) ∧
      ((∀ c ∈ (machine []).dev.cores, (64, 1) ∉ c.served) ∧ (∀ a ∈ (machine []).dev.power.abaci, (64, 1) ∉ a.ran ∧ (64, 1) ∉ a.spun) ∧
        ∀ m ∈ (machine []).dev.msu.moved, (m.job, m.task) = (64, 1) → m.bytes = 0) ∧
      (now 6840000000000 / 3600000000000 = 1 ∧ now 6839999999999 / 3600000000000 = 0) ∧
      (machine []).dev.power.straitRetries[19]? = some [0] ∧
      (15 : BitVec 4).toNat < (machine []).dev.fabric.straits.length ∧ ((machine []).strait 15).request = none ∧
      ((machine []).strait 15).turning = none := by decide

/-- A strait with a waiting request and with a turn under way, and a header at an isle port. -/
theorem witness_TimeAndFabricTakeEffect_fabric :
    let s := (machine []).onStrait 0 fun _ => ⟨4, some (5, 40), none, some 6⟩
    (s.strait 0).request = some 6 ∧ (s.strait 0).turning = some (5, 40) ∧ s.dev.clock.cycles * 10 / 19 < 40 ∧
      ((machine []).send [⟨2, 0, 0⟩]).dev.fabric.headers.filter (fun h => h.isle == 0 && h.packet.dest == 2) =
        [⟨0, ⟨2, 0, 0⟩, .context 0⟩] ∧
      ((machine []).send [⟨2, 0, 0⟩]).dev.fabric.headers.filter (fun h => h.isle == 0 && h.packet.dest == 1) = [] ∧
      ((machine []).dev.stream 0 0 [⟨2, 0, 0⟩]).fabric.headers.head? = some ⟨0, ⟨2, 0, 0⟩, .streamer 0⟩ ∧
      ((machine []).dev.stream 0 0 [⟨2, 0, 0⟩]).fabric.streamers[0]? = some ⟨1, []⟩ ∧
      (machine []).dev.fabric.rings[0]? = some ⟨4, none, none, none⟩ := by decide

/-- A request inside the exposed region at its last byte, and one beyond it; a trained peer port. -/
theorem witness_OutsideRequestsAreServed :
    let s := machine []
    let last := 509 * (2 ^ 31 - 2 ^ 25 * 2 ^ 3) - 1
    (s.dev.start.memoryActive = true ∧ last + 1 < 2 ^ 52 ∧ s.dev.inRange (last + (1 - 1)) = true ∧
      s.dev.inRange (last + (2 - 1)) = false) ∧
    s.mem.wf ∧ s.dev.fencedAt last = false ∧ s.dev.start.log.length = 3 ∧ s.dev.start.report = none ∧
    s.dev.host.masked[2]? = some true ∧ (s.dev.host.masked.set 2 false)[2]? = some false ∧
    (⟨2, true, 0⟩ : Port).mode = 2 ∧ s.dev.host.pending[0]? ≠ some true ∧ (s.dev.host.pending.set 0 true)[0]? = some true :=
  by decide

/-- An LMS signature whose parts are zero, the head of a public key, and the root that makes the key one under which the
signature verifies. -/
def lmsSig : List Byte := beBytes 4 0 ++ beBytes 4 3 ++ List.replicate 2176 0 ++ beBytes 4 6 ++ List.replicate 320 0

def lmsHead : List Byte := beBytes 4 6 ++ beBytes 4 3 ++ List.replicate 16 0

def lmsTop (msg : List Byte) : List Byte :=
  lmsRoot (sigPart lmsHead 8 16) (2 ^ 10 + lmsLeaf lmsSig) (chunks 32 10 (sigPart lmsSig 2188 320))
    (sha256 (sigPart lmsHead 8 16 ++ beBytes 4 (2 ^ 10 + lmsLeaf lmsSig) ++ beBytes 2 0x8282 ++
      otsKey (sigPart lmsHead 8 16 ++ beBytes 4 (lmsLeaf lmsSig)) (sigPart lmsSig 4 2180) msg))

theorem test_lms (msg : List Byte) : lmsVerifies (lmsHead ++ lmsTop msg) msg lmsSig = true := by
  have top : (lmsTop msg).length = 32 := lmsRoot_length _ _ _ (sha256_length _)
  have head : ∀ o n, o + n ≤ 24 → sigPart (lmsHead ++ lmsTop msg) o n = sigPart lmsHead o n := by
    intro o n h
    have hl : lmsHead.length = 24 := by decide +kernel
    simp only [sigPart]
    rw [List.drop_append_of_le_length (by omega), List.take_append_of_le_length (by simp; omega)]
  have tail : sigPart (lmsHead ++ lmsTop msg) 24 32 = lmsTop msg := by
    simp only [sigPart]
    rw [List.drop_left' (by decide +kernel), List.take_of_length_le (by omega)]
  have hl : (lmsHead ++ lmsTop msg).length = 56 := by
    rw [List.length_append, top]
    decide +kernel
  have sl : lmsSig.length = 2508 := by decide +kernel
  have q : lmsLeaf lmsSig = 0 := by decide +kernel
  have f0 : beNat (sigPart lmsHead 0 4) = lmsType := by decide +kernel
  have f1 : beNat (sigPart lmsHead 4 4) = otsType := by decide +kernel
  have f2 : beNat (sigPart (sigPart lmsSig 4 2180) 0 4) = otsType := by decide +kernel
  have f3 : beNat (sigPart lmsSig 2184 4) = lmsType := by decide +kernel
  unfold lmsVerifies
  simp only [head 8 16 (by decide), head 0 4 (by decide), head 4 4 (by decide), tail, hl, sl, f0, f1, f2, f3]
  simp [lmsTop, q]

/-- The digest of the image's body, as another implementation of SHA-384 gives it. -/
def imageDigest : BitVec 384 :=
  0x3dc23f406f8c45a83ae6c7bf7419d97f1a597fe66d8556069440525585ff624dbcdf94693ff9fe062f9ab9d9f6fc94f6

/-- A point whose sum with the generator has the digest as its x, so that (digest, digest) is a signature under it. -/
def ecdsaKey : List Byte :=
  beBytes 48 0x24bc51e93daca0f2df1f8fd46b98611b6d177f05d6cd4d038ff103077bb36c5e4c8cb38aafff4caac7c8892e3c7f7265 ++
    beBytes 48 0xb477ef1a63726d8bf336e00281a905ca839aed099e45437de9a8c7da1146d6e0384ed973e7929104c87b638043a54b76

def image : FirmwareImage :=
  ⟨0x1000, 0x100000, 0x24080, 1, [(0x4000, 1)], [], lmsHead ++ lmsTop (beBytes 48 imageDigest.toNat), lmsSig, ecdsaKey,
    beBytes 48 imageDigest.toNat ++ beBytes 48 imageDigest.toNat⟩

theorem test_sha384 : sha384 (imageBody image) = imageDigest := by decide +kernel

theorem test_ecdsa : ecdsaVerifies ecdsaKey imageDigest image.ecdsaSignature = true := by decide +kernel

def fuses : Fuses := ⟨sha384 image.lmsKey, sha384 image.ecdsaKey, 0, []⟩

def findings : StartFindings :=
  ⟨none, fuses, 3, List.replicate 4 .none, List.replicate 16 true, List.replicate 512 true, List.replicate 24 true, false⟩

/-- An image that is trusted, and one whose leaf was used. -/
theorem witness_StartsRunOrReportTheirFailure_image :
    sha384 image.lmsKey = fuses.lmsHash ∧ lmsLeaf image.lmsSignature ∉ fuses.usedLeaves ∧
      lmsVerifies image.lmsKey (beBytes 48 (sha384 (imageBody image)).toNat) image.lmsSignature = true ∧
      sha384 image.ecdsaKey = fuses.ecdsaHash ∧
      ecdsaVerifies image.ecdsaKey (sha384 (imageBody image)) image.ecdsaSignature = true ∧
      lmsLeaf image.lmsSignature ∈ ({ fuses with usedLeaves := [0] } : Fuses).usedLeaves := by
  rw [test_sha384]
  exact ⟨rfl, List.not_mem_nil, test_lms _, rfl, test_ecdsa, by
    rw [show lmsLeaf image.lmsSignature = 0 by decide +kernel]
    exact List.mem_singleton.mpr rfl⟩

/-- A step that is performed and fails, before step 4 and after it, and none; retained training; and a device that waits for
a pushed image. -/
theorem witness_StartsRunOrReportTheirFailure :
    findings.failedStep = none ∧
    ({ findings with failedStep := some (2, .hardware 0) } : StartFindings).failedStep = some (2, .hardware 0) ∧
    ({ findings with failedStep := some (3, .timeout) } : StartFindings).failedStep = some (3, .timeout) ∧
    ((1 ≤ 2 ∧ 2 ≤ 9) ∧ StartKind.warm ≠ .push) ∧
    ({ findings with failedStep := some (9, .hardware 0) } : StartFindings).failedStep = some (9, .hardware 0) ∧
    ((∀ i < 16, findings.coefficients[i]? = some true) ∧ ∀ i < 512, findings.patterns[i]? = some true) ∧
    (∀ i < 24, findings.laneMaps[i]? = some true) ∧ (∃ p ∈ image.program, p.1 < 2 * 2 ^ 52) ∧
    (machine []).dev.start.awaitingPush = false ∧
    ({ State.reset.dev.start with awaitingPush := true } : Startup).awaitingPush = true :=
  ⟨rfl, rfl, rfl, by decide, rfl, by decide +kernel, by decide, ⟨(0x4000, 1), List.mem_singleton.mpr rfl, by decide⟩,
    by decide, rfl⟩

/-! ### What the rules say of one step -/

/-- A store of 8 bytes and the loads of its parts (R1, R101): the byte at the lowest address is the lowest. -/
theorem test_store_then_load :
    let s := next (.sts 2 1 3 0 0) (machine [(1, window 0), (2, 0x8877665544332211)])
    [exec (.lds 4 1 6 0 0) s, exec (.lds 4 1 5 0 4) s, exec (.lds 4 1 4 0 4) s, exec (.lds 4 1 1 0 0) s].map
        (after fun t => t.reg 4) =
      [some 0x8877665544332211, some 0x88776655, some 0xFFFFFFFF88776655, some 0x11] := by decide

/-- AMOCAS that compares equal, and one that does not (R109). -/
theorem test_compare_and_swap :
    let s := holding (machine [(1, window 0), (2, 9), (4, 5)]) (spadLoc 0 0) 8 5
    after (fun t => (t.reg 4, t.mem.number (spadLoc 0 0) 8)) (exec (.amoCas 4 1 2 0 true 0) s) = some (5, 9) ∧
    after (fun t => (t.reg 4, t.mem.number (spadLoc 0 0) 8)) (exec (.amoCas 4 1 2 0 true 0) (s.setReg 4 6)) =
      some (5, 5) := by decide

/-- A load through the page table sets the accessed bit of its leaf, a store the dirty bit too (R312). -/
theorem test_translation :
    let s := mapped (machine [(1, 8)]) 0xB
    after (fun t => t.mem.number 0x102000 8) (exec (.lds 4 1 6 0 0) s) = some 0x10B ∧
    after (fun t => (t.mem.number 0x102000 8, t.mem.number 8 8)) (exec (.sts 3 1 3 0 0) s) = some (0x30B, 1) ∧
    after (fun t => (t.ctx.trap.tcause, t.ctx.trap.tval)) (exec (.sts 3 1 3 0 0) (mapped (machine [(1, 8)]) 0x3)) =
      some (6, 8) := by decide

/-- TRAP and RETT: the mode, the saved pc and the bank (R224, R225, R301). -/
theorem test_trap_and_return :
    let s := next (.trap 7) (vectors (userMode (machine [])) 9 [] [])
    (s.ctx.pc, s.ctx.trap.tepc, s.ctx.trap.tcause, s.ctx.trap.tval, s.ctx.trap.tstat, s.ctx.trap.hvl) =
      (0, 0x1000, 0x0F, 7, 5, 9) ∧
    (let t := next .rett (onCtx s fun c => { c with vec := { c.vec with vl := 0 } })
     (t.ctx.pc, t.ctx.user, t.ctx.trap.tstat, t.ctx.vec.vl) = (0x1000, true, 0, 9)) := by decide

/-- While the remap table of channel 0 is read again its requests wait, in order, and those of channel 1 do not (R278). -/
theorem test_held_channel :
    let s := next (.remapReload 0 false) (machine [])
    after (fun t => t.dev.msu.queue.map (·.loc)) (exec (.msuAccess ⟨64, [7], false, false⟩) (next (.msuAccess ⟨0, [7], true, false⟩) s)) =
      some [0, 64] ∧
    after (fun t => t.dev.msu.queue) (exec (.msuAccess ⟨256, [7], true, false⟩) s) = some [] := by decide

/-- Behind the vector queue an ADD does not issue while the store buffer holds 32 entries, and does while it holds 31 (R29). -/
theorem test_full_store_buffer :
    let with' := fun n => flowed (behind 0x04811000 (.vst 3 1 0 0)) fun f => { f with storeBuf := List.replicate n ⟨0, [], false, 1⟩ }
    ((with' 32).goesBehind (.add 4 1 2)).isSome = false ∧ ((with' 31).goesBehind (.add 4 1 2)).isSome = true := by decide

/-- A load of any stream waits for a nameless store in the vector queue (R255), and for a VST only in its stream (R29). -/
theorem test_load_behind_queue :
    let s := machine [(1, window 0)]
    let waits := fun i => after (fun t => t.ctx.flow.status) (exec (.lds 4 1 6 1 0) (queueing s [i]))
    waits (.stnl 5 1 0 0) = some .waiting ∧ waits (.vst 3 1 0 0) = some .running ∧ waits (.vst 3 1 0 1) = some .waiting := by decide

/-- Two separate bytes of one elided line are one write of the whole line (R271, R280). -/
theorem test_elided_line_once : wholeLines [0] [] [(8, 1), (64, 2), (300, 4)] = [(8, 256), (300, 4)] := by decide

/-- A unit-stride VST, and the VLD of what it wrote into another register (R170). -/
theorem test_vector_memory :
    let s := next (.vst 2 1 0 0) vmem
    after (fun t => (List.range 4).map (t.ctx.elem 4)) (exec (.vld 4 1 0 0) (vectors s 4 [(4, 7)] [])) =
      some [0, 0, 0, 0] ∧
    after (fun t => t.mem.bytes (spadLoc 0 0x3FFFFC) 4) (exec (.vst 3 1 0 0) vmem) = some [0, 1, 2, 3] := by decide

/-- VAMOADD on one word by two elements (R181). -/
theorem test_vector_atomic :
    let s := vectors (machine [(1, window 0)]) 2 [(2, 2), (3, 2)] [(2, [5, 7]), (3, [0, 0])]
    after (fun t => t.mem.number (spadLoc 0 0) 4) (exec (.vamoAdd 2 1 3 0 0) (holding s (spadLoc 0 0) 4 1)) = some 13 := by
  decide

/-- FORKL halves the lanes, and the child begins at the target (R41). -/
theorem test_fork :
    (fork.ctx.place.lanes, fork.reg 4, fork.ctx.pc) = (512, 8, 0x1004) ∧
    fork.others.map (fun c => (c.place.slot, c.place.base, c.place.lanes, c.pc, c.reg 4)) = [(1, 512, 512, 0x1030, 0)] := by
  decide

/-- An ACOPY from its issue to its end: its bytes, and its tag (R193, R199). -/
theorem test_copy :
    let s := next (.acopyG2s 0 1 3 5 1 2) (holding (mapped copying 0xB) 0 4 0xAABBCCDD)
    (s.ctx.eng.tagBusy, s.ctx.eng.tagReady, s.ctx.pc) = (32, 0, 0x1008) ∧
    after (fun t => (t.ctx.eng.tagBusy, t.ctx.eng.tagReady, t.ctx.eng.tagErr, t.mem.number (spadLoc 0 64) 4))
      (exec (.copyFinish 0) s) = some (0, 32, 0, 0xAABBCCDD) := by decide

/-- An MXM of one product per cell: 1.0 × 1.0 into the accumulator (R216). -/
theorem test_mxm :
    after (fun t => [t.ctx.elem 8 0, t.ctx.elem 8 63, t.ctx.elem 8 64])
      (exec (.mxmAccumulate 0) (withCmds (machine []) [{ waitingCmd 0 mxKind .accepted with tag := none }])) =
      some [0x3F800000, 0x3F800000, 0] := by decide

/-- STNL takes the first skerry of slot 0, and RLQ frees it (R188, R191). -/
theorem test_nameless :
    let s := next (.stnl 4 2 0 0) (vectors (mapped (pooled []) 0xB) 1 [] [(2, [0x3F800000])])
    (s.reg 4, (s.pool 0).taken, (s.pool 0).pointer, s.mem.number (2 ^ 52) 4) = (0x1000, [(0, 0)], 1, 0x3F800000) ∧
    after (fun t => (t.pool 0).taken) (exec (.rlq 4 0 0) s) = some [] ∧
    after (fun t => t.ctx.trap.tcause) (exec (.rlq 2 0 0) s) = some 0x12 := by decide +kernel

/-- JOB starts a job with one ready launch (R243). -/
theorem test_job :
    let t := next (.job 4 1) (withDescriptor (machine [(1, window 64)]))
    t.reg 4 = 64 ∧ t.dev.sched.jobs.map (·.id) = [64] ∧ t.dev.sched.tasks.map (fun k => [k.job, k.id]) = [[64, 0]] := by
  decide

/-- TASK creates a launch of its job in a graph of its own (R232). -/
theorem test_task :
    let t := next (.task 4 1 2) (withRecord (inJob job0 [] [(1, window 0)]))
    t.reg 4 = 2 ∧ t.dev.sched.tasks.map (fun k => [k.job, k.id, k.deps]) = [[64, 2, 2]] ∧
      t.dev.sched.tasks.map (·.graph) = [some 2] := by decide

/-- A step from reset with nothing placed: the entry of the image is not mapped, and the first fetch raises PAGE. -/
theorem test_reset_step :
    after (fun t => (t.ctx.trap.tcause, t.ctx.trap.tval, t.ctx.pc)) (step .reset) = some (7, 0x1000, 0) := by decide


end Sys2Proof.Tests
end

section
/-! What the scalar instructions of chapter 4 that access no memory write, and where they go on (R91-R100). -/

namespace Sys2Proof.Machine

/-! ### Values of the integer operations (R67, R92-R95) -/

theorem boolWord_decide (p : Prop) [Decidable p] : boolWord (decide p) = if p then 1 else 0 := by
  simp [boolWord]

theorem boolWord_slt (a b : Word) : boolWord (a.slt b) = if a.toInt < b.toInt then 1 else 0 := by
  rw [BitVec.slt_eq_decide, boolWord_decide]

theorem boolWord_ult (a b : Word) : boolWord (a.ult b) = if a.toNat < b.toNat then 1 else 0 := by
  rw [BitVec.ult_eq_decide, boolWord_decide]

theorem boolWord_slt_signExtend (a : Word) (imm : BitVec 16) :
    boolWord (a.slt (imm.signExtend 64)) = if a.toInt < imm.toInt then 1 else 0 := by
  rw [boolWord_slt, BitVec.toInt_signExtend_of_le (by decide)]

theorem minSigned_eq (a b : Word) : (if a.slt b then a else b) = BitVec.ofInt 64 (min a.toInt b.toInt) := by
  simp [BitVec.slt_eq_decide, min_def_lt, apply_ite (BitVec.ofInt 64)]

theorem maxSigned_eq (a b : Word) : (if a.slt b then b else a) = BitVec.ofInt 64 (max a.toInt b.toInt) := by
  simp [BitVec.slt_eq_decide, max_def_lt, apply_ite (BitVec.ofInt 64)]

theorem minUnsigned_eq (a b : Word) : (if a.ult b then a else b) = BitVec.ofNat 64 (min a.toNat b.toNat) := by
  simp [BitVec.ult_eq_decide, min_def_lt, apply_ite (BitVec.ofNat 64)]

theorem maxUnsigned_eq (a b : Word) : (if a.ult b then b else a) = BitVec.ofNat 64 (max a.toNat b.toNat) := by
  simp [BitVec.ult_eq_decide, max_def_lt, apply_ite (BitVec.ofNat 64)]

theorem mulHigh_natCast (m n : Nat) : mulHigh m n = BitVec.ofNat 64 (m * n / 2 ^ 64) := by
  rw [mulHigh, ← BitVec.ofInt_natCast]
  norm_cast

/-- The signed minimum divided by -1 wraps to itself (R67). -/
theorem divSigned_eq (a b : Word) :
    divSigned a b = if b = 0 then -1 else BitVec.ofInt 64 (a.toInt.tdiv b.toInt) :=
  if_congr Iff.rfl (by decide) <| BitVec.eq_of_toInt_eq <| by rw [BitVec.toInt_sdiv, BitVec.toInt_ofInt]

theorem divUnsigned_eq (a b : Word) :
    divUnsigned a b = if b = 0 then -1 else BitVec.ofNat 64 (a.toNat / b.toNat) :=
  if_congr Iff.rfl (by decide) BitVec.udiv_def

theorem remSigned_eq (a b : Word) :
    remSigned a b = if b = 0 then a else BitVec.ofInt 64 (a.toInt.tmod b.toInt) :=
  if_congr Iff.rfl rfl <| by rw [← BitVec.toInt_srem, BitVec.ofInt_toInt]

theorem remUnsigned_eq (a b : Word) :
    remUnsigned a b = if b = 0 then a else BitVec.ofNat 64 (a.toNat % b.toNat) :=
  if_congr Iff.rfl rfl BitVec.umod_def

/-- The zeros above the highest set bit are counted from the top bit down. -/
theorem leadingZeros_eq_findIdx (n : Nat) (w : Word) :
    leadingZeros n w = (List.range n).findIdx fun k => w.getLsbD (n - 1 - k) := by
  induction n with
  | zero => rfl
  | succ n ih =>
    have shift : ((fun k => w.getLsbD (n + 1 - 1 - k)) ∘ Nat.succ) = fun k => w.getLsbD (n - 1 - k) := by
      funext k
      exact congrArg w.getLsbD (by omega)
    rw [List.range_succ_eq_map, List.findIdx_cons, List.findIdx_map, shift, ← ih]
    cases h : w.getLsbD n <;> simp [leadingZeros, h]

theorem countOnes_eq_countP (n : Nat) (w : Word) : countOnes n w = (List.range n).countP fun k => w.getLsbD k := by
  induction n with
  | zero => rfl
  | succ n ih =>
    rw [countOnes, ih, List.range_succ, List.countP_append]
    cases h : w.getLsbD n <;> simp [h]

/-- The high half in front of the low half is their union at their places (R95). -/
theorem append_setWidth_eq_or (w : BitVec 32) (a : Word) :
    w ++ a.setWidth 32 = ((a.setWidth 32).setWidth 64 ||| (w.setWidth 64 <<< 32) : Word) := by
  rw [BitVec.append_def, BitVec.shiftLeftZeroExtend_eq, BitVec.setWidth'_eq, BitVec.or_comm]

/-! ### Instructions that write a scalar result -/

/-- An instruction of one word that writes `w` to `rd` completes; `v` is `w` as the model computes it. -/
theorem completes_of_result {i : Instr} {s : State} {rd : Reg} {v w : Word} (h : exec i s = s.result rd v)
    (hv : v = w) :
    Completes i s 4 { regs := [rd] } fun t => t.reg rd = written rd w :=
  completes_of_setReg h fun _ ht => hv ▸ ht

/-- Settles O10: each operation writes the value that its lemma above gives; the others write theirs as it stands. -/
theorem integerInstructionsWriteTheirResult : Obligations.IntegerInstructionsWriteTheirResult := by
  unfold Obligations.IntegerInstructionsWriteTheirResult
  refine ⟨fun s rd ra rb => ?_, fun s rd ra imm k w => ⟨?_, ?_⟩⟩ <;> simp only [List.forall_mem_cons]
  · exact ⟨completes_of_result rfl rfl, completes_of_result rfl rfl, completes_of_result rfl rfl,
      completes_of_result rfl rfl, completes_of_result rfl rfl, completes_of_result rfl rfl,
      completes_of_result rfl rfl, completes_of_result rfl rfl, completes_of_result rfl rfl,
      completes_of_result rfl (boolWord_slt _ _), completes_of_result rfl (boolWord_ult _ _),
      completes_of_result rfl (minSigned_eq _ _), completes_of_result rfl (maxSigned_eq _ _),
      completes_of_result rfl (minUnsigned_eq _ _), completes_of_result rfl (maxUnsigned_eq _ _),
      completes_of_result rfl BitVec.mul_def, completes_of_result rfl rfl,
      completes_of_result rfl (mulHigh_natCast _ _),
      completes_of_result rfl (divSigned_eq _ _), completes_of_result rfl (divUnsigned_eq _ _),
      completes_of_result rfl (remSigned_eq _ _), completes_of_result rfl (remUnsigned_eq _ _),
      completes_of_result rfl (congrArg (BitVec.ofNat 64) (leadingZeros_eq_findIdx 64 _)),
      completes_of_result rfl (congrArg (BitVec.ofNat 64) (countOnes_eq_countP 64 _)), List.forall_mem_nil _⟩
  · exact ⟨completes_of_result rfl rfl, completes_of_result rfl (boolWord_slt_signExtend _ _),
      completes_of_result rfl rfl, completes_of_result rfl rfl, completes_of_result rfl rfl,
      completes_of_result rfl rfl, completes_of_result rfl rfl, completes_of_result rfl rfl, List.forall_mem_nil _⟩
  · exact ⟨completes_of_setReg rfl fun _ ht => ht,
      completes_of_setReg rfl fun _ ht => append_setWidth_eq_or w (s.reg ra) ▸ ht, List.forall_mem_nil _⟩

/-! ### Branches and jumps (R96-R98) -/

theorem shiftLeft_two_eq_mul {n : Nat} (x : BitVec n) : x <<< 2 = 4 * x := by
  apply BitVec.eq_of_toNat_eq
  simp [Nat.shiftLeft_eq, Nat.mul_comm]

theorem CtxFrame.goto {s t : State} {w : Touched} (h : CtxFrame s t w) (pc : Pc) : CtxFrame s (t.goto pc) w :=
  ⟨h.regs, h.vecs, h.anchors, h.masks, h.devstat, h.tags, h.vcount, h.vl, h.mspace, h.devpol, h.trap, h.eng, h.place,
    h.origin, h.front⟩

/-- An instruction that only sets the pc. -/
theorem goes_of_goto {i : Instr} {s : State} {pc : Pc} (h : exec i s = .next (s.goto pc)) :
    ∃ t : State, exec i s = .next t ∧ t.ctx.pc = pc ∧ t.ctx.flow.status = .running ∧ CtxFrame s t {} ∧
      SameMemory s t ∧ SameElse s t :=
  ⟨_, h, rfl, rfl, (CtxFrame.of_eq {} rfl rfl rfl rfl rfl rfl rfl).goto pc, ⟨fun _ => rfl, rfl, rfl, rfl⟩,
    ⟨rfl, rfl, rfl, rfl⟩⟩

/-- An instruction that writes `v` to `rd` and sets the pc. -/
theorem goes_of_setReg_goto {i : Instr} {s : State} {rd : Reg} {v : Word} {pc : Pc}
    (h : exec i s = .next ((s.setReg rd v).goto pc)) :
    ∃ t : State, exec i s = .next t ∧ t.ctx.pc = pc ∧ t.reg rd = written rd v ∧ t.ctx.flow.status = .running ∧
      CtxFrame s t { regs := [rd] } ∧ SameMemory s t ∧ SameElse s t := by
  have hreg : ((s.setReg rd v).goto pc).reg rd = written rd v := by rw [State.reg_goto, State.reg_setReg, if_pos rfl]
  have hframe : CtxFrame s ((s.setReg rd v).goto pc) { regs := [rd] } :=
    ((CtxFrame.of_eq {} rfl rfl rfl rfl rfl rfl rfl).setReg rd v 0).goto pc
  exact ⟨_, h, rfl, hreg, rfl, hframe, by constructor <;> simp, by constructor <;> simp⟩

/-- A branch goes to its target exactly when its condition holds (R96). -/
theorem goes_of_branch {i : Instr} {s : State} {c : BranchCond} {ra rb : Reg} {off : BitVec 16} {b : Bool}
    (h : exec i s = s.branch c ra rb off) (hb : c.taken (s.reg ra) (s.reg rb) = b) :
    ∃ t : State, exec i s = .next t ∧
      t.ctx.pc = (if b then s.ctx.pc + 4 * off.signExtend 56 else s.ctx.pc + 4) ∧
      t.ctx.flow.status = .running ∧ CtxFrame s t {} ∧ SameMemory s t ∧ SameElse s t := by
  apply goes_of_goto
  rw [h, State.branch, hb, shiftLeft_two_eq_mul]
  cases b <;> rfl

theorem BranchCond.taken_eq (a b : Word) : BranchCond.eq.taken a b = decide (a = b) := rfl

theorem BranchCond.taken_ne (a b : Word) : BranchCond.ne.taken a b = decide (a ≠ b) := by
  rw [decide_not, ← BranchCond.taken_eq]
  rfl

theorem BranchCond.taken_lt (a b : Word) : BranchCond.lt.taken a b = decide (a.toInt < b.toInt) := rfl

theorem BranchCond.taken_ge (a b : Word) : BranchCond.ge.taken a b = decide (b.toInt ≤ a.toInt) := by
  simp [BranchCond.taken, BitVec.slt_eq_decide, ← decide_not]

theorem BranchCond.taken_ltn (a b : Word) : BranchCond.ltn.taken a b = decide (a.toNat < b.toNat) := rfl

theorem BranchCond.taken_gen (a b : Word) : BranchCond.gen.taken a b = decide (b.toNat ≤ a.toNat) := by
  simp [BranchCond.taken, BitVec.ult_eq_decide, ← decide_not]

/-- What JALR answers, with its target `t` as the spec writes it (R98). -/
theorem exec_jalr (rd ra : Reg) (imm : BitVec 16) {s : State} {t : Word} (ht : s.reg ra + 4 * imm.signExtend 64 = t) :
    exec (.jalr rd ra imm) s =
      if t.toNat % 4 ≠ 0 then .next (s.takeTrap .misalign t)
      else if t.toNat / 2 ^ 56 ≠ 0 then .next (s.takeTrap .access t)
      else .next ((s.setReg rd ((s.ctx.pc + 4).setWidth 64)).goto (t.setWidth 56)) := by
  rw [← ht, ← shiftLeft_two_eq_mul]
  rfl

/-- Settles O11, by the condition of each branch and by the cases of JALR's target. -/
theorem branchesAndJumpsGoToTheirTargets : Obligations.BranchesAndJumpsGoToTheirTargets := by
  unfold Obligations.BranchesAndJumpsGoToTheirTargets
  refine ⟨fun s ra rb off => ?_, fun s rd ra imm off => ⟨?_, ?_, ?_, ?_⟩⟩
  · simp only [List.forall_mem_cons]
    exact ⟨goes_of_branch rfl (BranchCond.taken_eq _ _), goes_of_branch rfl (BranchCond.taken_ne _ _),
      goes_of_branch rfl (BranchCond.taken_lt _ _), goes_of_branch rfl (BranchCond.taken_ge _ _),
      goes_of_branch rfl (BranchCond.taken_ltn _ _), goes_of_branch rfl (BranchCond.taken_gen _ _),
      List.forall_mem_nil _⟩
  · rw [← shiftLeft_two_eq_mul]
    exact goes_of_setReg_goto rfl
  · intro haligned hlow
    apply goes_of_setReg_goto
    rw [exec_jalr rd ra imm rfl, if_neg (not_not.2 haligned), if_neg (not_not.2 (Nat.div_eq_of_lt hlow))]
  · intro hmisaligned
    rw [exec_jalr rd ra imm rfl, if_pos hmisaligned]
  · intro haligned hhigh
    rw [exec_jalr rd ra imm rfl, if_neg (not_not.2 haligned), if_pos (Nat.div_pos hhigh (by decide)).ne']

/-! ### Scalar FP32 (R99, R100) -/

/-- The value of a compare; it is 0 when the operands are unordered, where `o` is `none` (R66, R100). -/
theorem Cond.toNat_holds_lt (o : Option Ordering) : (Cond.lt.holds o).toNat = if o = some .lt then 1 else 0 := by
  simp [Cond.holds, Bool.toNat, Bool.cond_eq_ite]

theorem Cond.toNat_holds_le (o : Option Ordering) :
    (Cond.le.holds o).toNat = if o = some .lt ∨ o = some .eq then 1 else 0 := by
  simp [Cond.holds, Bool.toNat, Bool.cond_eq_ite]

theorem Cond.toNat_holds_eq (o : Option Ordering) : (Cond.eq.holds o).toNat = if o = some .eq then 1 else 0 := by
  simp [Cond.holds, Bool.toNat, Bool.cond_eq_ite]

theorem ofInt_eq_ofNat_wrapTo (w : Nat) (v : Int) : BitVec.ofInt w v = BitVec.ofNat w (wrapTo w v) := by
  have hnonneg : 0 ≤ v % 2 ^ w := Int.emod_nonneg v (by positivity)
  apply BitVec.eq_of_toInt_eq
  rw [wrapTo, ← BitVec.ofInt_natCast, Int.toNat_of_nonneg hnonneg, BitVec.toInt_ofInt, BitVec.toInt_ofInt]
  exact_mod_cast (Int.emod_bmod v (2 ^ w)).symm

/-- Settles O12: every operation rounds the exact result once, and no compare holds of unordered operands. -/
theorem scalarFloatInstructionsWriteTheirResult : Obligations.ScalarFloatInstructionsWriteTheirResult := by
  unfold Obligations.ScalarFloatInstructionsWriteTheirResult
  intro s rd ra rb
  simp only [List.forall_mem_cons]
  exact ⟨completes_of_result rfl rfl, completes_of_result rfl rfl, completes_of_result rfl rfl,
    completes_of_result rfl rfl, completes_of_result rfl rfl, completes_of_result rfl rfl,
    completes_of_result rfl rfl, completes_of_result rfl rfl,
    completes_of_result rfl (ofInt_eq_ofNat_wrapTo _ _), completes_of_result rfl rfl,
    completes_of_result rfl (congrArg (BitVec.ofNat 64) (Cond.toNat_holds_lt _)),
    completes_of_result rfl (congrArg (BitVec.ofNat 64) (Cond.toNat_holds_le _)),
    completes_of_result rfl (congrArg (BitVec.ofNat 64) (Cond.toNat_holds_eq _)), List.forall_mem_nil _⟩

end Sys2Proof.Machine
end

section
/-! What the mask instructions of chapter 6 write: every bit below VLMAX, the bits below VL, or a scalar result
(R135, R136, R140, R141). -/

namespace Sys2Proof.Machine

/-! ### Numbers by their bits -/

theorem ofBits_cons (b : Bool) (bs : List Bool) : ofBits (b :: bs) = Nat.bit b (ofBits bs) := by
  cases b <;> simp [ofBits, Nat.bit, Nat.add_comm]

theorem ofBits_lt (bs : List Bool) : ofBits bs < 2 ^ bs.length := by
  induction bs with
  | nil => simp [ofBits]
  | cons b bs ih => rwa [ofBits_cons, List.length_cons, Nat.bit_lt_two_pow_succ_iff]

theorem testBit_ofBits (bs : List Bool) (i : Nat) : (ofBits bs).testBit i = bs.getD i false := by
  induction bs generalizing i with
  | nil => simp [ofBits]
  | cons b bs ih =>
    rw [ofBits_cons]
    cases i with
    | zero => exact Nat.testBit_bit_zero b _
    | succ i => rw [Nat.testBit_bit_succ, ih, List.getD_cons_succ]

/-- The bits below `n` are replaced, and the others stay. -/
theorem testBit_lowBits (old n : Nat) (f : Nat → Bool) (i : Nat) :
    (lowBits old n f).testBit i = if i < n then f i else old.testBit i := by
  have hlt : ofBits ((List.range n).map f) < 2 ^ n := by simpa using ofBits_lt ((List.range n).map f)
  rw [lowBits, Nat.mul_comm, Nat.testBit_two_pow_mul_add _ hlt]
  split
  · next h => simp [testBit_ofBits, h]
  · next h => rw [Nat.testBit_div_two_pow, Nat.sub_add_cancel (Nat.le_of_not_lt h)]

theorem firstSet_eq_some {m n k : Nat} (hk : k < n) (hset : m.testBit k = true)
    (hbelow : ∀ j < k, m.testBit j = false) : firstSet m n = some k :=
  List.find?_range_eq_some.2 ⟨hset, List.mem_range.2 hk, by simpa using hbelow⟩

theorem firstSet_eq_none {m n : Nat} (h : ∀ j < n, m.testBit j = false) : firstSet m n = none :=
  List.find?_range_eq_none.2 (by simpa using h)

/-- The first set bit, if there is one, lies at or above `i` exactly where no bit below `i` is set. -/
theorem all_le_firstSet_iff {m n i : Nat} (hi : i ≤ n) :
    (firstSet m n).all (fun k => decide (i ≤ k)) = true ↔ ∀ j < i, m.testBit j = false := by
  cases h : firstSet m n with
  | none =>
    have hnone : ∀ j < n, m.testBit j = false := by simpa using List.find?_range_eq_none.1 h
    simpa using fun j hj => hnone j (by omega)
  | some k =>
    obtain ⟨hset, -, hbelow⟩ := List.find?_range_eq_some.1 h
    rw [Option.all_some, decide_eq_true_eq]
    constructor
    · exact fun hik j hj => by simpa using hbelow j (by omega)
    · intro hclear
      by_contra hki
      simp [hclear k (by omega)] at hset

/-! ### The elements of a register -/

/-- The first elements as the model lists them, by the name that the statements give each. -/
theorem Ctx.raw_eq {c : Ctx} (hwf : c.vec.wf) (v : VecNo) (n : Nat) : c.raw v n = (List.range n).map (c.elem v) := by
  obtain ⟨hvecs, -⟩ := hwf
  have hv : (c.vreg v).wf := hvecs _ (by simp [Ctx.vreg])
  rw [Ctx.raw, VReg.first_eq hv, List.map_map]
  rfl

/-- Cutting a list into chunks of `r` and pairing each with its `f` gives element `i` the `f` of chunk `i / r`. -/
theorem flatMap_zip_chunks {α β γ : Type} {r : Nat} (hr : 0 < r) (g : α → β → γ) :
    ∀ (k : Nat) (f : Nat → α) (l : List β), l.length ≤ k * r →
      (((List.range k).map f).zip (chunks r k l)).flatMap (fun p => p.2.map (g p.1)) =
        l.mapIdx fun i x => g (f (i / r)) x := by
  intro k
  induction k with
  | zero =>
    intro f l hl
    rw [List.length_eq_zero_iff.1 (by omega : l.length = 0)]
    rfl
  | succ k ih =>
    intro f l hl
    have htail : (l.drop r).length ≤ k * r := by
      rw [List.length_drop]
      rw [Nat.add_mul] at hl
      omega
    have hsplit : l.mapIdx (fun i x => g (f (i / r)) x) =
        (l.take r).map (g (f 0)) ++ (l.drop r).mapIdx fun i x => g (f (i / r + 1)) x := by
      refine List.ext_getElem (by simp; omega) fun i h1 h2 => ?_
      rw [List.getElem_append]
      split
      · next h =>
        have hir : i < r := by simp at h; omega
        simp [Nat.div_eq_of_lt hir]
      · next h =>
        have hri : r ≤ i := by simp at h h1; omega
        have hrl : r ≤ l.length := by simp at h1; omega
        simp [Nat.min_eq_left hrl, Nat.add_sub_cancel' hri, ← Nat.div_eq_sub_div hr hri]
    rw [List.range_succ_eq_map, List.map_cons, List.map_map, chunks, List.zip_cons_cons, List.flatMap_cons,
      ih (f ∘ Nat.succ) _ htail, hsplit]
    rfl

theorem ElemType.rod_pos (t : ElemType) : 0 < t.rod := by cases t <;> decide

/-- The exact values of the first elements, those of a bead register each by the anchor of its rod (R67, R73). -/
theorem Ctx.values_eq {c : Ctx} (hwf : c.vec.wf) (v : VecNo) (n : Nat) :
    c.values v n = (List.range n).map (c.valueAt v) := by
  cases hbead : (c.typ v).isBead with
  | false => simp [Ctx.values, Ctx.valueAt, Ctx.raw_eq hwf, hbead]
  | true =>
    have hanchor : (c.anchorReg v).wf := hwf.right _ (Vector.mem_toList_iff.2 (Vector.getElem_mem _))
    have hcover : n ≤ (n + (c.typ v).rod - 1) / (c.typ v).rod * (c.typ v).rod := by
      have := Nat.div_add_mod (n + (c.typ v).rod - 1) (c.typ v).rod
      have := Nat.mod_lt (n + (c.typ v).rod - 1) (c.typ v).rod_pos
      rw [Nat.mul_comm]
      omega
    rw [Ctx.values, if_pos hbead, Ctx.rods, VReg.first_eq hanchor,
      flatMap_zip_chunks (c.typ v).rod_pos _ _ _ _ (by simpa [Ctx.raw_eq hwf] using hcover)]
    refine List.ext_getElem (by simp [Ctx.raw_eq hwf]) fun i _ _ => ?_
    simp [Ctx.raw_eq hwf, Ctx.valueAt, hbead]

/-! ### What is written to a mask register -/

theorem State.mask_setMask (s : State) (md m : MaskNo) (x : Nat) :
    (s.setVec fun v => v.setMask md x).ctx.mask m = if m = md then x else s.ctx.mask m := by
  simp only [Ctx.mask, State.setVec_ctx_vec, VecState.setMask, Vector.getElem_set]
  exact if_congr ⟨fun e => (BitVec.eq_of_toNat_eq e).symm, fun e => congrArg _ e.symm⟩ rfl rfl

theorem Completes.imp {i : Instr} {s : State} {n : Nat} {w : Touched} {P Q : State → Prop} (h : Completes i s n w P)
    (hPQ : ∀ t, P t → Q t) : Completes i s n w Q := by
  obtain ⟨t, hexec, hgoes, hframe, hmem, helse, hP⟩ := h
  exact ⟨t, hexec, hgoes, hframe, hmem, helse, hPQ t hP⟩

/-- An instruction that writes `x` to the mask register `md` and goes on completes, and changes nothing else. -/
theorem completes_of_setMask {i : Instr} {s : State} {md : MaskNo} {x n : Nat}
    (h : exec i s = .next ((s.setVec fun v => v.setMask md x).retire n)) :
    Completes i s n { masks := [md] } fun t => t.ctx.mask md = x := by
  have hmask (m : MaskNo) : ((s.setVec fun v => v.setMask md x).retire n).ctx.mask m =
      if m = md then x else s.ctx.mask m := State.mask_setMask s md m x
  refine ⟨_, h, ⟨by simp, by simp⟩, ?_, by constructor <;> simp, by constructor <;> simp, (hmask md).trans (if_pos rfl)⟩
  constructor
  case masks => exact fun m hm => by rw [hmask, if_neg (by simpa using hm)]
  all_goals simp [State.reg, Ctx.vreg, VecState.setMask]

/-- A mask operation below VLMAX writes each bit as its function gives it from the bits of the sources (R136). -/
theorem completes_of_maskOp {i : Instr} {s : State} {md ma mb : MaskNo} {f : Nat → Nat → Nat → Nat} {p : Nat → Bool}
    (h : exec i s = .next ((s.maskOp md ma mb f).retire 4))
    (hf : ∀ k < s.ctx.vlmax, (f (2 ^ s.ctx.vlmax - 1) (s.ctx.mask ma % 2 ^ s.ctx.vlmax)
      (s.ctx.mask mb % 2 ^ s.ctx.vlmax)).testBit k = p k) :
    Completes i s 4 { masks := [md] } fun t => ∀ k < s.ctx.vlmax, (t.ctx.mask md).testBit k = p k :=
  (completes_of_setMask h).imp fun t ht k hk => by rw [ht, hf k hk]

/-- A mask operation below VL writes those bits and keeps the others (R136). -/
theorem completes_of_maskLow {i : Instr} {s : State} {md : MaskNo} {f : Nat → Bool}
    (h : exec i s = .next ((s.maskLow md f).retire 4)) :
    Completes i s 4 { masks := [md] } fun t =>
      (∀ k < s.ctx.vec.vl, (t.ctx.mask md).testBit k = f k) ∧
      ∀ k, s.ctx.vec.vl ≤ k → (t.ctx.mask md).testBit k = (s.ctx.mask md).testBit k :=
  (completes_of_setMask h).imp fun t ht =>
    ⟨fun k hk => by rw [ht, testBit_lowBits, if_pos hk], fun k hk => by rw [ht, testBit_lowBits, if_neg hk.not_gt]⟩

/-- The same, for bits that a condition gives. -/
theorem completes_of_maskLow_iff {i : Instr} {s : State} {md : MaskNo} {f : Nat → Bool} {p : Nat → Prop}
    (h : exec i s = .next ((s.maskLow md f).retire 4)) (hf : ∀ k < s.ctx.vec.vl, f k = true ↔ p k) :
    Completes i s 4 { masks := [md] } fun t =>
      (∀ k < s.ctx.vec.vl, (t.ctx.mask md).testBit k = true ↔ p k) ∧
      ∀ k, s.ctx.vec.vl ≤ k → (t.ctx.mask md).testBit k = (s.ctx.mask md).testBit k :=
  (completes_of_maskLow h).imp fun _ ⟨hlow, hhigh⟩ => ⟨fun k hk => by rw [hlow k hk, hf k hk], hhigh⟩

/-! ### Conflicts (R141) -/

@[simp] theorem length_conflicts (p : Nat) (vs : List Nat) : ∀ (i : Nat) (seen : List Int),
    (conflicts p i seen vs).length = vs.length := by
  induction vs with
  | nil => exact fun _ _ => rfl
  | cons v vs ih =>
    intro i seen
    rw [conflicts]
    split <;> simp [ih]

/-- The first element passes where its bit is set and its value was not seen; behind it that value counts as seen where
its bit is set. -/
theorem conflicts_cons (p i : Nat) (seen : List Int) (v : Nat) (vs : List Nat) :
    ∃ seen', conflicts p i seen (v :: vs) = (p.testBit i && !seen.contains (v : Int)) :: conflicts p (i + 1) seen' vs ∧
      ∀ w, w ∉ seen' ↔ w ∉ seen ∧ (p.testBit i = true → (v : Int) ≠ w) := by
  rw [conflicts]
  split
  · next h =>
    rw [Bool.and_eq_true] at h
    exact ⟨(v : Int) :: seen, by simp_all, fun w => by simp [h.1, and_comm, eq_comm]⟩
  · next h =>
    refine ⟨seen, by simp_all, fun w => ⟨fun hw => ⟨hw, ?_⟩, And.left⟩⟩
    rintro hbit rfl
    simp_all

/-- An element passes where its bit is set, its value was not seen before, and no earlier element of the list whose bit
is set has it. -/
theorem getElem_conflicts (p : Nat) (vs : List Nat) : ∀ (i : Nat) (seen : List Int) (k : Nat) (hk : k < vs.length),
    (conflicts p i seen vs)[k]'(by simpa using hk) = true ↔
      p.testBit (i + k) = true ∧ (vs[k] : Int) ∉ seen ∧
        ∀ (j : Nat) (hj : j < k), p.testBit (i + j) = true → vs[j] ≠ vs[k] := by
  induction vs with
  | nil => exact fun _ _ _ hk => absurd hk (Nat.not_lt_zero _)
  | cons v vs ih =>
    intro i seen k hk
    obtain ⟨seen', hcons, hseen⟩ := conflicts_cons p i seen v vs
    simp only [hcons]
    cases k with
    | zero => simp
    | succ k =>
      have hshift (j : Nat) : i + 1 + j = i + (j + 1) := by omega
      rw [List.getElem_cons_succ, ih _ _ _ (by simpa using hk)]
      simp only [List.getElem_cons_succ, hseen, hshift]
      constructor
      · rintro ⟨hbit, ⟨hnew, hhead⟩, htail⟩
        refine ⟨hbit, hnew, fun j hj hset => ?_⟩
        cases j with
        | zero => exact_mod_cast hhead hset
        | succ j => exact htail j (by omega) hset
      · rintro ⟨hbit, hnew, hbefore⟩
        exact ⟨hbit, ⟨hnew, fun hset => by exact_mod_cast hbefore 0 (by omega) hset⟩,
          fun j hj hset => hbefore (j + 1) (by omega) hset⟩

/-- The bits of VCONFL by element: those that are set and whose value no earlier element with its bit set has. -/
theorem conflicts_range (p : Nat) (n : Nat) (f : Nat → Nat) :
    conflicts p 0 [] ((List.range n).map f) =
      (List.range n).map fun i => decide (p.testBit i = true ∧ ∀ j < i, p.testBit j = true → f j ≠ f i) := by
  refine List.ext_getElem (by simp) fun k h _ => ?_
  rw [Bool.eq_iff_iff, getElem_conflicts _ _ _ _ _ (by simpa using h)]
  simp

/-! ### What the mask instructions come to -/

/-- An instruction that `run` executes, and that is queued and can run, comes to what its body gives. -/
theorem QueueReady.exec_eq {i : Instr} {s t : State} {regs used : List VecNo} {body : State → Except Stop State}
    (h : QueueReady s regs) (run : State → Out) (hi : exec i s = run s) (hrun : run s = s.queued used 4 body)
    (hb : body s = .ok t) (hs : used ⊆ regs := by simp) : exec i s = .next (t.retire 4) := by
  rw [hi, hrun, h.queued hs, hb]
  rfl

/-- MSBF, by the bits that it sets: those before the first set bit. -/
theorem exec_msbf {s : State} {va : VecNo} (h : QueueReady s [va]) (md ma : MaskNo) :
    exec (.msbf md ma) s = .next ((s.maskLow md fun i =>
      (firstSet (s.ctx.mask ma) s.ctx.vec.vl).all fun k => decide (i + 1 ≤ k)).retire 4) :=
  h.exec_eq (execMsbf md ma) rfl rfl (by
    dsimp only
    cases firstSet (s.ctx.mask ma) s.ctx.vec.vl <;> rfl)

/-- MSIF, by the bits that it sets: those up to the first set bit. -/
theorem exec_msif {s : State} {va : VecNo} (h : QueueReady s [va]) (md ma : MaskNo) :
    exec (.msif md ma) s = .next ((s.maskLow md fun i =>
      (firstSet (s.ctx.mask ma) s.ctx.vec.vl).all fun k => decide (i ≤ k)).retire 4) :=
  h.exec_eq (execMsif md ma) rfl rfl (by
    dsimp only
    cases firstSet (s.ctx.mask ma) s.ctx.vec.vl <;> rfl)

/-- MFFS, by the first set bit below VL. -/
theorem exec_mffs {s : State} {va : VecNo} (h : QueueReady s [va]) (rd : Reg) (ma : MaskNo) :
    exec (.mffs rd ma) s = .next ((s.setReg rd
      ((firstSet (s.ctx.mask ma) s.ctx.vec.vl).elim (BitVec.allOnes 64) (BitVec.ofNat 64))).retire 4) :=
  h.exec_eq (execMffs rd ma) rfl rfl (by cases firstSet (s.ctx.mask ma) s.ctx.vec.vl <;> rfl)

/-- VTOM, where VL cuts no rod. -/
theorem exec_vtom {s : State} {va : VecNo} (h : QueueReady s [va]) (hwf : s.ctx.vec.wf)
    (hfit : s.ctx.rodsFit [s.ctx.typ va]) (md : MaskNo) :
    exec (.vtom va md) s = .next ((s.maskLow md fun i => !(s.ctx.valueAt va i).isZero).retire 4) :=
  h.exec_eq (execVtom va md) rfl rfl (by
    rw [State.withRods_of_fit hfit, Ctx.values_eq hwf]
    dsimp only
    rw [List.map_map]
    rfl)

/-- VCONFL of an integer register. -/
theorem exec_vconfl {s : State} {va : VecNo} (h : QueueReady s [va]) (hwf : s.ctx.vec.wf)
    (hint : (s.ctx.typ va).isInt = true) (md : MaskNo) :
    exec (.vconfl va md) s = .next ((s.maskLow md fun i => decide ((s.ctx.mask md).testBit i = true ∧
      ∀ j < i, (s.ctx.mask md).testBit j = true → s.ctx.elem va j ≠ s.ctx.elem va i)).retire 4) :=
  h.exec_eq (execVconfl va md) rfl rfl (by
    dsimp only
    rw [hint, Ctx.raw_eq hwf, conflicts_range]
    rfl)

/-- VCONFL of a register that is no integer register. -/
theorem exec_vconfl_of_not_int {s : State} {va : VecNo} (h : QueueReady s [va]) (hint : (s.ctx.typ va).isInt = false)
    (md : MaskNo) : exec (.vconfl va md) s = .next (s.takeTrap .illegalTag 0) := by
  have hexec : exec (.vconfl va md) s = execVconfl va md s := rfl
  rw [hexec, execVconfl, h.queued (List.Subset.refl _)]
  dsimp only
  rw [hint]
  rfl

/-- Settles O37: the boolean operations bit by bit below VLMAX; the others by the bits that `lowBits` replaces. -/
theorem maskInstructionsWriteTheirBits : Obligations.MaskInstructionsWriteTheirBits := by
  unfold Obligations.MaskInstructionsWriteTheirBits
  intro s md ma mb rd va hwf hq
  simp only [List.forall_mem_cons]
  refine ⟨⟨?_, ?_, ?_, ?_, ?_, ?_, List.forall_mem_nil _⟩, ⟨?_, ?_, ?_, ?_, List.forall_mem_nil _⟩, ?_, ?_, ?_, ?_, ?_,
    fun hint => exec_vconfl_of_not_int hq hint md⟩
  · exact completes_of_maskOp (hq.exec_eq (execMand md ma mb) rfl rfl rfl) fun k hk => by simp [hk]
  · exact completes_of_maskOp (hq.exec_eq (execMor md ma mb) rfl rfl rfl) fun k hk => by simp [hk]
  · exact completes_of_maskOp (hq.exec_eq (execMxor md ma mb) rfl rfl rfl) fun k hk => by simp [hk]
  · exact completes_of_maskOp (hq.exec_eq (execMandn md ma mb) rfl rfl rfl) fun k hk => by simp [hk]
  · exact completes_of_maskOp (hq.exec_eq (execMnot md ma) rfl rfl rfl) fun k hk => by simp [hk]
  · exact completes_of_maskOp (hq.exec_eq (execMmov md ma) rfl rfl rfl) fun k hk => by simp [hk]
  · exact completes_of_maskLow_iff (hq.exec_eq (execMset md) rfl rfl rfl) fun _ _ => by simp
  · exact completes_of_maskLow_iff (hq.exec_eq (execMclr md) rfl rfl rfl) fun _ _ => by simp
  · exact completes_of_maskLow_iff (exec_msbf hq md ma) fun k hk => all_le_firstSet_iff hk
  · exact completes_of_maskLow_iff (exec_msif hq md ma) fun k hk => all_le_firstSet_iff hk.le
  · exact completes_of_setReg (hq.exec_eq (execMpopc rd ma) rfl rfl rfl) fun _ ht => ht
  · intro k hk hset hbelow
    have hexec := exec_mffs hq rd ma
    rw [firstSet_eq_some hk hset hbelow] at hexec
    exact completes_of_setReg hexec fun _ ht => ht
  · intro hclear
    have hexec := exec_mffs hq rd ma
    rw [firstSet_eq_none hclear] at hexec
    exact completes_of_setReg hexec fun _ ht => ht
  · exact fun hfit => completes_of_maskLow (exec_vtom hq hwf hfit md)
  · intro hint
    exact completes_of_maskLow_iff (exec_vconfl hq hwf hint md) fun _ _ => decide_eq_true_iff

end Sys2Proof.Machine
end

section
/-! What taking a trap saves, sets and keeps, field by field (R301), and the trap that TRAP takes (R224). -/

namespace Sys2Proof.Machine

/-! ### The parts of a context at trap entry -/

@[simp] theorem Ctx.enterTrap_pc (c : Ctx) (cause : Cause) (v tvec : Word) :
    (c.enterTrap cause v tvec).pc = tvec.setWidth 56 := rfl
@[simp] theorem Ctx.enterTrap_regs (c : Ctx) (cause : Cause) (v tvec : Word) :
    (c.enterTrap cause v tvec).regs = c.regs := rfl
@[simp] theorem Ctx.enterTrap_vec (c : Ctx) (cause : Cause) (v tvec : Word) :
    (c.enterTrap cause v tvec).vec = c.vec := rfl
@[simp] theorem Ctx.enterTrap_front (c : Ctx) (cause : Cause) (v tvec : Word) :
    (c.enterTrap cause v tvec).front = c.front := rfl
@[simp] theorem Ctx.enterTrap_eng (c : Ctx) (cause : Cause) (v tvec : Word) :
    (c.enterTrap cause v tvec).eng = c.eng := rfl
@[simp] theorem Ctx.enterTrap_place (c : Ctx) (cause : Cause) (v tvec : Word) :
    (c.enterTrap cause v tvec).place = c.place := rfl
@[simp] theorem Ctx.enterTrap_origin (c : Ctx) (cause : Cause) (v tvec : Word) :
    (c.enterTrap cause v tvec).origin = c.origin := rfl
@[simp] theorem Ctx.enterTrap_status (c : Ctx) (cause : Cause) (v tvec : Word) :
    (c.enterTrap cause v tvec).flow.status = .running := rfl
@[simp] theorem Ctx.enterTrap_handlerFirst (c : Ctx) (cause : Cause) (v tvec : Word) :
    (c.enterTrap cause v tvec).flow.handlerFirst = true := rfl

/-- TSTAT at trap entry: the mode goes to PMODE, and HBLOST stays or is set as a valid bank is lost in supervisor mode. -/
def trapEntryTstat (old : Word) : Word :=
  tstatWord true (old.getLsbD 0) true (old.getLsbD 3 || (old.getLsbD 0 && old.getLsbD 2))

theorem trapEntryTstat_bit (old : Word) : (trapEntryTstat old).getLsbD 0 = true ∧
    (trapEntryTstat old).getLsbD 1 = old.getLsbD 0 ∧ (trapEntryTstat old).getLsbD 2 = true ∧
    (trapEntryTstat old).getLsbD 3 = (old.getLsbD 3 || (old.getLsbD 0 && old.getLsbD 2)) := by
  obtain ⟨hmode, hpmode, hvalid, hlost, -⟩ := tstatWord_bit true (old.getLsbD 0) true
    (old.getLsbD 3 || (old.getLsbD 0 && old.getLsbD 2))
  exact ⟨hmode, hpmode, hvalid, hlost⟩

/-- The trap registers at trap entry: eight are written, and the other five keep their values. -/
theorem Ctx.enterTrap_trap (c : Ctx) (cause : Cause) (v tvec : Word) : (c.enterTrap cause v tvec).trap =
    { c.trap with
      tepc := c.pc.setWidth 64
      tcause := BitVec.ofNat 64 cause.code
      tval := v
      tinstr := c.flow.ir
      tstat := trapEntryTstat c.trap.tstat
      hvl := BitVec.ofNat 64 c.vec.vl
      hvcount := BitVec.ofNat 64 c.front.vcount
      hmspace := c.vec.mspace.setWidth 64 } := rfl

/-! ### A trap that a state takes -/

@[simp] theorem State.drain_ir (s : State) : s.drain.ctx.flow.ir = s.ctx.flow.ir := by rw [State.drain_ctx]

/-- The release of the earlier stores changes nothing that trap entry saves: the registers hold what stood in `s`. -/
theorem State.takeTrap_trap (s : State) (cause : Cause) (v : Word) : (s.takeTrap cause v).ctx.trap =
    { s.ctx.trap with
      tepc := s.ctx.pc.setWidth 64
      tcause := BitVec.ofNat 64 cause.code
      tval := v
      tinstr := s.ctx.flow.ir
      tstat := trapEntryTstat s.ctx.trap.tstat
      hvl := BitVec.ofNat 64 s.ctx.vec.vl
      hvcount := BitVec.ofNat 64 s.ctx.front.vcount
      hmspace := s.ctx.vec.mspace.setWidth 64 } := by
  simp [Ctx.enterTrap_trap]

theorem exec_trap (code : BitVec 12) (s : State) :
    exec (.trap code) s = .next (s.takeTrap .soft (code.setWidth 64)) := rfl

/-- Settles O17: the trap registers by `State.takeTrap_trap`, and the rest by what trap entry and the release of the store
buffer leave unchanged. -/
theorem takingATrapFollowsTheRule : Obligations.TakingATrapFollowsTheRule := by
  unfold Obligations.TakingATrapFollowsTheRule
  refine ⟨fun s cause v => ?_, fun s code => ?_⟩
  · obtain ⟨hmode, hpmode, hvalid, hlost⟩ := trapEntryTstat_bit s.ctx.trap.tstat
    dsimp only
    rw [State.takeTrap_trap]
    refine ⟨fun htvec => ?_, rfl, rfl, rfl, rfl, hmode, hpmode, hvalid, hlost, rfl, rfl, rfl, rfl, ?_⟩
    · rw [State.takeTrap_ctx, Ctx.enterTrap_pc]
      exact BitVec.setWidth_setWidth_eq_self (BitVec.lt_def.2 htvec)
    · simp
  · refine ⟨exec_trap code s, _, exec_trap code s, ?_⟩
    rw [State.takeTrap_trap]
    exact ⟨rfl, rfl, rfl⟩

end Sys2Proof.Machine
end
